-- ==== Sys2Proof/Word.lean ====
section
/-! DEFINITION. The word types of the HLS-9800 (00 R6) and the one sparse map in which memories, register files
and tables are held: a list of (key, value) pairs, keys strictly rising, no entry equal to the default. -/

namespace Sys2Proof

abbrev Byte := BitVec 8
abbrev Word32 := BitVec 32
abbrev Word64 := BitVec 64
/-- A virtual address or a PC (18 R304, 07 R140). -/
abbrev Addr := BitVec 64
/-- A set of lanes of one warp, bit i for lane i (02 R32). -/
abbrev Lanes := BitVec 32

/-- A sparse map from naturals: what is not listed reads as a default that the reader names. -/
abbrev FMap (β : Type) := List (Nat × β)

def FMap.get {β : Type} (d : β) : FMap β → Nat → β
  | [], _ => d
  | (k, v) :: m, a => if a = k then v else FMap.get d m a

/-- Put an entry before the first one with a higher key. -/
def FMap.insert {β : Type} (a : Nat) (x : β) : FMap β → FMap β
  | [] => [(a, x)]
  | (k, v) :: m => if a < k then (a, x) :: (k, v) :: m else (k, v) :: FMap.insert a x m

/-- Writing the default removes the entry, so equal maps are equal lists. -/
def FMap.set {β : Type} [DecidableEq β] (d : β) (m : FMap β) (a : Nat) (x : β) : FMap β :=
  let rest := m.filter fun e => e.1 != a
  if x = d then rest else FMap.insert a x rest

/-- Every key of m is above b. -/
def FMap.above {β : Type} (b : Nat) : FMap β → Bool
  | [] => true
  | (k, _) :: _ => decide (b < k)

/-- The canonical form: keys strictly rising, no entry equal to the default. -/
def FMap.wf {β : Type} [DecidableEq β] (d : β) : FMap β → Bool
  | [] => true
  | (k, v) :: m => FMap.above k m && decide (v ≠ d) && FMap.wf d m

/-- The values at a, a+1, …, a+n-1. -/
def FMap.getN {β : Type} (d : β) (m : FMap β) (a : Nat) : Nat → List β
  | 0 => []
  | n + 1 => FMap.get d m a :: FMap.getN d m (a + 1) n

/-- Write a list of values at a, a+1, … -/
def FMap.setN {β : Type} [DecidableEq β] (d : β) (m : FMap β) (a : Nat) : List β → FMap β
  | [] => m
  | x :: xs => FMap.setN d (FMap.set d m a x) (a + 1) xs

/-- The entries whose key lies in [lo, hi), all others. -/
def FMap.within {β : Type} (m : FMap β) (lo hi : Nat) : FMap β :=
  m.filter fun e => lo ≤ e.1 && e.1 < hi

def FMap.outside {β : Type} (m : FMap β) (lo hi : Nat) : FMap β :=
  m.filter fun e => !(lo ≤ e.1 && e.1 < hi)

/-- Little-endian value of a list of bytes (00 R6). -/
def leNat : List Byte → Nat
  | [] => 0
  | b :: bs => b.toNat + 256 * leNat bs

/-- The n low bytes of x, little-endian. -/
def leBytes : Nat → Nat → List Byte
  | 0, _ => []
  | n + 1, x => BitVec.ofNat 8 x :: leBytes n (x / 256)

/-- Replace the element at index i of a list. -/
def setAt {α : Type} : List α → Nat → α → List α
  | [], _, _ => []
  | _ :: xs, 0, y => y :: xs
  | x :: xs, i + 1, y => x :: setAt xs i y

/-- The element at index i, if there is one. -/
def nth {α : Type} : List α → Nat → Option α
  | [], _ => none
  | x :: _, 0 => some x
  | _ :: xs, i + 1 => nth xs i

/-- Bit i of a lane set. -/
def Lanes.has (m : Lanes) (i : Nat) : Bool := m.getLsbD i

/-- The lanes of a set in ascending order (06 R125 item 2). -/
def Lanes.list (m : Lanes) : List Nat := (List.range 32).filter fun i => m.getLsbD i

/-- The set of the lanes in a list. -/
def Lanes.ofList (l : List Nat) : Lanes := l.foldl (fun m i => m ||| BitVec.ofNat 32 (2 ^ i)) 0#32

/-- The lanes of m that satisfy f. -/
def Lanes.filter (m : Lanes) (f : Nat → Bool) : Lanes := Lanes.ofList (m.list.filter f)

/-- The number of lanes in a set. -/
def Lanes.count (m : Lanes) : Nat := m.list.length

/-- Bits [hi:lo] of a natural number (00 R6). -/
def bits (x hi lo : Nat) : Nat := (x >>> lo) % 2 ^ (hi + 1 - lo)

/-- Bit i of a natural number. -/
def bit (x i : Nat) : Bool := x.testBit i

end Sys2Proof
end

