-- ==== Sys2Proof/Syntax.lean ====
section
/-! DEFINITION. The instructions of the HLS-9800: the operand and modifier vocabulary of the instruction word
(07 R145 to R152), and one constructor for every row of the table of operations and events. The first 159 rows have
an instruction word; the others are steps of the device's other agents, each with the choice it makes as arguments. -/

namespace Sys2Proof

/-- The guard of R16: execute where the predicate, inverted if `inv`, is true. -/
structure Guard where
  inv : Bool
  pred : BitVec 4
deriving DecidableEq, Repr

/-- The hold field of R61. -/
inductive Hold | none | a | b | c
deriving DecidableEq, Repr

/-- The cache hint of R124. -/
inductive Hint | normal | readCount | keep | bypass
deriving DecidableEq, Repr

/-- Header of an instruction word (R145), the opcode apart. -/
structure Hdr where
  guard : Option Guard
  look : BitVec 4
  hold : Hold
  hint : Hint
deriving DecidableEq, Repr

/-- The specials of R67, in code order 0x00 to 0x17. -/
inductive Special
  | laneid | warpid | wid | wid0 | wid1 | wid2 | wid3 | wid4 | wid5 | cellid | coreid | corekind | dieid | clock
  | pctl | lstat | wstat | mstat | rngc | rngklo | rngkhi | leqix | gsize | ganggrp
deriving DecidableEq, Repr

/-- An operand: a kind and a specifier (R146). An operand an instruction does not use is `v 0`. -/
inductive Operand
  | v (n : BitVec 8)
  | k (n : BitVec 6)
  | p (inv : Bool) (n : BitVec 4)
  | sp (s : Special)
deriving DecidableEq, Repr

/-- The type codes of R72, in code order. Code 0xF is no type. -/
inductive Ty | s8 | s16 | s32 | s64 | n8 | n16 | n32 | n64 | f64 | f32 | f16 | bf16 | e4m3 | e5m2 | b4
deriving DecidableEq, Repr

/-- The rounding modes of R84. -/
inductive Rnd | rn | rz | ru | rd | sr
deriving DecidableEq, Repr

/-- The spaces of R116, in the code order of R148. -/
inductive Space | g | l | v | c | p
deriving DecidableEq, Repr

/-- The scopes of R131, in the code order of R148. -/
inductive Scope | warp | group | gang | die | pkg | fabric
deriving DecidableEq, Repr

/-- The two core kinds (R41). -/
inductive CoreKind | l | d
deriving DecidableEq, Repr

/-- REG format (R147) with the modifier block of R148. -/
structure RegForm where
  hdr : Hdr
  dst : Operand
  a : Operand
  b : Operand
  c : Operand
  d : Operand
  ty : Ty
  rnd : Rnd
  space : Space
  scope : Scope
  sub : BitVec 7
deriving DecidableEq, Repr

/-- IMM format (R147): the immediate is operand b. -/
structure ImmForm where
  hdr : Hdr
  dst : Operand
  a : Operand
  ty : Ty
  rnd : Rnd
  space : Space
  scope : Scope
  sub : BitVec 7
  imm : Word32
deriving DecidableEq, Repr

/-- MEM format (R147, R150). -/
structure MemForm where
  hdr : Hdr
  dst : Operand
  base : Operand
  b : Operand
  c : Operand
  ty : Ty
  space : Space
  scope : Scope
  sub : BitVec 6
  off : BitVec 20
deriving DecidableEq, Repr

/-- COL format (R147, R152). -/
structure ColForm where
  hdr : Hdr
  dst : Operand
  a : Operand
  b : Operand
  ty : Ty
  rnd : Rnd
  op : BitVec 3
  mask : Lanes
deriving DecidableEq, Repr

/-- BR format (R147, R151): signed line offset and slot. -/
structure BrForm where
  hdr : Hdr
  line : BitVec 29
  slot : BitVec 3
deriving DecidableEq, Repr

/-- One pair of an MBR (R151). -/
structure MbrPair where
  pred : BitVec 4
  line : BitVec 12
  slot : BitVec 3
deriving DecidableEq, Repr

/-- MBR format (R151): one to four pairs, the first and up to three more. -/
structure MbrForm where
  look : BitVec 4
  hold : Hold
  hint : Hint
  first : MbrPair
  rest : List MbrPair
deriving DecidableEq, Repr

/-- LOGX (R169): a REG word whose modifier block holds F in [15:12] and G in [11:8]. -/
structure LogxForm where
  hdr : Hdr
  dst : Operand
  a : Operand
  b : Operand
  c : Operand
  ty : Ty
  f : BitVec 4
  g : BitVec 4
deriving DecidableEq, Repr

/-- DCORV (R197): a REG word whose modifier block holds the tolerance in [12:7]. -/
structure DcorvForm where
  hdr : Hdr
  dst : Operand
  a : Operand
  b : Operand
  c : Operand
  d : Operand
  ty : Ty
  t : BitVec 6
  form : BitVec 7
deriving DecidableEq, Repr

/-- Causes of a failed expert copy (R301). -/
inductive CopyCause | uncorrectable | dieFault | timeout | mismatch | access
deriving DecidableEq, Repr

/-- A fabric flit (R348): the header's fields and the data bytes of beats 1 to 7. -/
structure Flit where
  dest : BitVec 5
  src : BitVec 5
  kind : BitVec 6
  seq : BitVec 16
  tags : BitVec 7
  pa : BitVec 48
  crc : BitVec 16
  data : List Byte
deriving DecidableEq, Repr

/-- What bring-up meets (R351): the firmware images presented, the links and memories that train, the fabric
negotiation's outcome and the part's fuses: `enabled` and `cells` are the dies and the cells of each die that it has, `digests` the
SHA-384 hashes of the other members' identity keys (R357). -/
structure Boot where
  enabled : BitVec 8
  firmware : List Byte
  decode : List Byte
  diesUp : BitVec 8
  cells : List (BitVec 24)
  lpddr : Bool
  cxlGib : List Nat
  pcieUp : BitVec 2
  digests : List (List Byte)
  peers : BitVec 32
  ports : BitVec 18
  services : List Word32
  release : Word32
deriving DecidableEq, Repr

/-- Where a register write lands: the management function's BAR0, a virtual function's BAR0, or a system address
as an agent of a partition on a die (or on no die) sees it (R256, R340, R341, R350). -/
inductive RegSite
  | pf0 (offset : Nat)
  | vf (part offset : Nat)
  | sys (part : Nat) (die : Option Nat) (addr : Word32)
deriving DecidableEq, Repr

/-- The records of a die's warps that wait for its partition's fault ring (R318, R320). -/
structure RecordSource where
  part : Nat
  die : Nat
deriving DecidableEq, Repr

/-- Where an uncorrectable error lies: in memory, or in the local memory of a cell (R202). -/
inductive ErrorPlace
  | memory (pa : Nat)
  | cell (cell off : Nat)
deriving DecidableEq, Repr

/-- One constructor per row of the table of operations and events. -/
inductive Instr
  | nop (f : RegForm)   -- NOP, R164
  | bra (f : BrForm)   -- BRA, R160
  | mbr (f : MbrForm)   -- MBR, R162
  | brx (f : RegForm)   -- BRX, R160
  | call (f : BrForm)   -- CALL, R161
  | callx (f : RegForm)   -- CALLX, R161
  | ret (f : RegForm)   -- RET, R160
  | exit (f : RegForm)   -- EXIT, R163
  | yield (f : RegForm)   -- YIELD, R164
  | trap (f : ImmForm)   -- TRAP, R165
  | bkpt (f : RegForm)   -- BKPT, R165
  | trst (f : RegForm)   -- TRST, R166
  | iadd (f : RegForm)   -- IADD, R168
  | iaddImm (f : ImmForm)   -- IADD_IMM, R168
  | isub (f : RegForm)   -- ISUB, R168
  | isubImm (f : ImmForm)   -- ISUB_IMM, R168
  | imul (f : RegForm)   -- IMUL, R168
  | imulImm (f : ImmForm)   -- IMUL_IMM, R168
  | imulh (f : RegForm)   -- IMULH, R168
  | imulhImm (f : ImmForm)   -- IMULH_IMM, R168
  | imad (f : RegForm)   -- IMAD, R168
  | idiv (f : RegForm)   -- IDIV, R95
  | idivImm (f : ImmForm)   -- IDIV_IMM, R95
  | irem (f : RegForm)   -- IREM, R95
  | iremImm (f : ImmForm)   -- IREM_IMM, R95
  | iabs (f : RegForm)   -- IABS, R168
  | ineg (f : RegForm)   -- INEG, R168
  | imin (f : RegForm)   -- IMIN, R168
  | iminImm (f : ImmForm)   -- IMIN_IMM, R168
  | imax (f : RegForm)   -- IMAX, R168
  | imaxImm (f : ImmForm)   -- IMAX_IMM, R168
  | shl (f : RegForm)   -- SHL, R169
  | shlImm (f : ImmForm)   -- SHL_IMM, R169
  | shr (f : RegForm)   -- SHR, R169
  | shrImm (f : ImmForm)   -- SHR_IMM, R169
  | sar (f : RegForm)   -- SAR, R169
  | sarImm (f : ImmForm)   -- SAR_IMM, R169
  | rotl (f : RegForm)   -- ROTL, R169
  | rotlImm (f : ImmForm)   -- ROTL_IMM, R169
  | andB (f : RegForm)   -- AND, R169
  | andBImm (f : ImmForm)   -- AND_IMM, R169
  | orB (f : RegForm)   -- OR, R169
  | orBImm (f : ImmForm)   -- OR_IMM, R169
  | xor (f : RegForm)   -- XOR, R169
  | xorImm (f : ImmForm)   -- XOR_IMM, R169
  | notB (f : RegForm)   -- NOT, R169
  | logx (f : LogxForm)   -- LOGX, R169
  | popc (f : RegForm)   -- POPC, R169
  | clz (f : RegForm)   -- CLZ, R169
  | brev (f : RegForm)   -- BREV, R169
  | bfx (f : RegForm)   -- BFX, R170
  | bfi (f : RegForm)   -- BFI, R170
  | lea (f : RegForm)   -- LEA, R171
  | leaImm (f : ImmForm)   -- LEA_IMM, R171
  | mov (f : RegForm)   -- MOV, R171
  | movi (f : ImmForm)   -- MOVI, R171
  | prmt (f : RegForm)   -- PRMT, R171
  | prmtImm (f : ImmForm)   -- PRMT_IMM, R171
  | sel (f : RegForm)   -- SEL, R171
  | icmp (f : RegForm)   -- ICMP, R172
  | icmpImm (f : ImmForm)   -- ICMP_IMM, R172
  | krd (f : RegForm)   -- KRD, R173
  | plop (f : RegForm)   -- PLOP, R174
  | p2v (f : RegForm)   -- P2V, R174
  | v2p (f : RegForm)   -- V2P, R174
  | gets (f : RegForm)   -- GETS, R67
  | sets (f : RegForm)   -- SETS, R70
  | setsImm (f : ImmForm)   -- SETS_IMM, R70
  | fadd (f : RegForm)   -- FADD, R179
  | faddImm (f : ImmForm)   -- FADD_IMM, R179
  | fsub (f : RegForm)   -- FSUB, R179
  | fsubImm (f : ImmForm)   -- FSUB_IMM, R179
  | fmul (f : RegForm)   -- FMUL, R179
  | fmulImm (f : ImmForm)   -- FMUL_IMM, R179
  | ffma (f : RegForm)   -- FFMA, R179
  | fmin (f : RegForm)   -- FMIN, R180
  | fminImm (f : ImmForm)   -- FMIN_IMM, R180
  | fmax (f : RegForm)   -- FMAX, R180
  | fmaxImm (f : ImmForm)   -- FMAX_IMM, R180
  | fabs (f : RegForm)   -- FABS, R180
  | fneg (f : RegForm)   -- FNEG, R180
  | fcmp (f : RegForm)   -- FCMP, R181
  | fcmpImm (f : ImmForm)   -- FCMP_IMM, R181
  | fclass (f : RegForm)   -- FCLASS, R182
  | fdiv (f : RegForm)   -- FDIV, R179
  | fdivImm (f : ImmForm)   -- FDIV_IMM, R179
  | fsqrt (f : RegForm)   -- FSQRT, R179
  | frcpa (f : RegForm)   -- FRCPA, R184
  | frsqa (f : RegForm)   -- FRSQA, R184
  | fex2 (f : RegForm)   -- FEX2, R184
  | flg2 (f : RegForm)   -- FLG2, R184
  | fsin (f : RegForm)   -- FSIN, R184
  | fcos (f : RegForm)   -- FCOS, R184
  | ftanh (f : RegForm)   -- FTANH, R184
  | fscale (f : RegForm)   -- FSCALE, R179
  | fscaleImm (f : ImmForm)   -- FSCALE_IMM, R179
  | frnd (f : RegForm)   -- FRND, R179
  | cvt (f : RegForm)   -- CVT, R187
  | qnt (f : RegForm)   -- QNT, R189
  | dqnt (f : RegForm)   -- DQNT, R190
  | fdot (f : RegForm)   -- FDOT, R183
  | rngkey (f : RegForm)   -- RNGKEY, R193
  | rngdraw (f : RegForm)   -- RNGDRAW, R192
  | rngskip (f : RegForm)   -- RNGSKIP, R193
  | rngskipImm (f : ImmForm)   -- RNGSKIP_IMM, R193
  | tagq (f : RegForm)   -- TAGQ, R195
  | tagp (f : RegForm)   -- TAGP, R196
  | dcorv (f : DcorvForm)   -- DCORV, R198
  | ld (f : MemForm)   -- LD, R201
  | st (f : MemForm)   -- ST, R201
  | atom (f : MemForm)   -- ATOM, R204
  | red (f : MemForm)   -- RED, R204
  | fence (f : RegForm)   -- FENCE, R206
  | pft (f : MemForm)   -- PFT, R207
  | cctl (f : MemForm)   -- CCTL, R208
  | scatc (f : MemForm)   -- SCATC, R205
  | shfl (f : ColForm)   -- SHFL, R212
  | vote (f : ColForm)   -- VOTE, R211
  | wred (f : ColForm)   -- WRED, R211
  | wscan (f : ColForm)   -- WSCAN, R211
  | matchL (f : ColForm)   -- MATCH, R211
  | bar (f : RegForm)   -- BAR, R213
  | gbar (f : RegForm)   -- GBAR, R213
  | cinit (f : MemForm)   -- CINIT, R214
  | cwait (f : MemForm)   -- CWAIT, R214
  | ctest (f : MemForm)   -- CTEST, R214
  | dqadd (f : RegForm)   -- DQADD, R216
  | dqtake (f : RegForm)   -- DQTAKE, R216
  | dqsteal (f : RegForm)   -- DQSTEAL, R216
  | dqcnt (f : RegForm)   -- DQCNT, R216
  | launch (f : RegForm)   -- LAUNCH, R217
  | oclm (f : RegForm)   -- OCLM, R221
  | orls (f : RegForm)   -- ORLS, R221
  | old (f : RegForm)   -- OLD, R224
  | ost (f : RegForm)   -- OST, R224
  | aclm (f : RegForm)   -- ACLM, R221
  | arls (f : RegForm)   -- ARLS, R221
  | aclr (f : RegForm)   -- ACLR, R221
  | mma (f : RegForm)   -- MMA, R228
  | mmas (f : RegForm)   -- MMAS, R230
  | adrn (f : RegForm)   -- ADRN, R234
  | wupd (f : RegForm)   -- WUPD, R235
  | cpy (f : RegForm)   -- CPY, R237
  | cpyr (f : RegForm)   -- CPYR, R238
  | isect (f : RegForm)   -- ISECT, R239
  | dcorm (f : RegForm)   -- DCORM, R240
  | astat (f : RegForm)   -- ASTAT, R231
  | eqp (f : ImmForm)   -- EQP, R245
  | migr (f : RegForm)   -- MIGR, R246
  | migq (f : RegForm)   -- MIGQ, R247
  | route (f : RegForm)   -- ROUTE, R250
  | rtrel (f : RegForm)   -- RTREL, R252
  | rtver (f : RegForm)   -- RTVER, R253
  | svc (f : ImmForm)   -- SVC, R255
  | srd (f : RegForm)   -- SRD, R257
  | swr (f : RegForm)   -- SWR, R257
  | tlbi (f : RegForm)   -- TLBI, R260
  | eret (f : RegForm)   -- ERET, R259
  | idle (f : RegForm)   -- IDLE, R261
  | svcAnswer (warp : Nat) (split : Lanes) (answer : Word64)   -- SVC_ANSWER, R255
  | tlbiCompletion (warp : Nat) (split : Lanes)   -- TLBI_COMPLETION, R260
  | idleWake (warp : Nat) (split : Lanes)   -- IDLE_WAKE, R261
  | checkpointCommit (warp : Nat)   -- CHECKPOINT_COMMIT, R134
  | rollback (warp : Nat) (ckpt : Nat)   -- ROLLBACK, R134
  | serialModeEnd (warp : Nat)   -- SERIAL_MODE_END, R137
  | waitCountYield (warp : Nat)   -- WAIT_COUNT_YIELD, R39
  | maskwait (warp : Nat) (split : Lanes)   -- MASKWAIT, R210
  | engineCompletion (op : Nat)   -- ENGINE_COMPLETION, R129
  | engineThreadFault (op : Nat)   -- ENGINE_THREAD_FAULT, R236
  | freplayReissue (part : Nat) (value : Word64)   -- FREPLAY_REISSUE, R310
  | freplayCancel (part : Nat) (value : Word64)   -- FREPLAY_CANCEL, R310
  | recomputeProducerEnd (part : Nat) (launch : Nat)   -- RECOMPUTE_PRODUCER_END, R312
  | faultRecordWrite (source : RecordSource)   -- FAULT_RECORD_WRITE, R318
  | singleStepStop (gang : Nat)   -- SINGLE_STEP_STOP, R344
  | submit (part ring : Nat)   -- SUBMIT, R272
  | cancel (part ring : Nat)   -- CANCEL, R343
  | resume (part ring : Nat)   -- RESUME, R342
  | hset (part ring : Nat)   -- HSET, R345
  | hclr (part ring : Nat)   -- HCLR, R345
  | load (part ring : Nat)   -- LOAD, R329
  | unload (part ring : Nat)   -- UNLOAD, R334
  | badcmd (part ring : Nat)   -- BADCMD, R343
  | commandCompletion (part ring : Nat)   -- COMMAND_COMPLETION, R343
  | launchReady (launch : Nat)   -- LAUNCH_READY, R274
  | waitObjectPoll (launch : Nat)   -- WAIT_OBJECT_POLL, R274
  | dispatch (part : Nat)   -- DISPATCH, R278
  | queueAgeing (part queue : Nat)   -- QUEUE_AGEING, R278
  | gangAgeing (gang : Nat)   -- GANG_AGEING, R280
  | gangPlacement (gang die cell : Nat) (kind : CoreKind)   -- GANG_PLACEMENT, R281
  | stageCopy (gang : Nat)   -- STAGE_COPY, R48
  | quantumExpiry (gang : Nat)   -- QUANTUM_EXPIRY, R285
  | preemption (gang : Nat)   -- PREEMPTION, R322
  | saved (gang : Nat)   -- SAVED, R322
  | resumption (gang die cell : Nat) (kind : CoreKind)   -- RESUMPTION, R324
  | launchTimeout (launch : Nat)   -- LAUNCH_TIMEOUT, R276
  | launchEnded (launch : Nat)   -- LAUNCH_ENDED, R274
  | schedMigrationRequest (warp : Nat)   -- SCHED_MIGRATION_REQUEST, R287
  | schedMigrationWithdraw (warp : Nat)   -- SCHED_MIGRATION_WITHDRAW, R287
  | register (part : Nat)   -- REGISTER, R292
  | deregister (part : Nat)   -- DEREGISTER, R292
  | setthr (part : Nat)   -- SETTHR, R292
  | refresh (part : Nat)   -- REFRESH, R292
  | badrec (part : Nat)   -- BADREC, R291
  | idleSample (part : Nat)   -- IDLE_SAMPLE, R295
  | etesianInterval (part : Nat)   -- ETESIAN_INTERVAL, R295
  | copyWritten (part eid rep : Nat)   -- COPY_WRITTEN, R296
  | copyVerified (part eid rep : Nat)   -- COPY_VERIFIED, R296
  | copyfail (part eid rep : Nat) (cause : CopyCause)   -- COPYFAIL, R300
  | copyTimeout (part eid rep : Nat)   -- COPY_TIMEOUT, R296
  | publication (part : Nat)   -- PUBLICATION, R297
  | livefail (part eid rep : Nat) (cause : CopyCause)   -- LIVEFAIL, R300
  | queueClosure (part eid rep : Nat)   -- QUEUE_CLOSURE, R299
  | freed (part eid rep : Nat)   -- FREED, R296
  | regionMerge (line : Nat)   -- REGION_MERGE, R122
  | uncorrectableError (die : Nat) (place : ErrorPlace)   -- UNCORRECTABLE_ERROR, R321
  | flitReceive (flit : Flit)   -- FLIT_RECEIVE, R348
  | cxlLinkDown (port : Nat)   -- CXL_LINK_DOWN, R347
  | hostWindowAccess (part offset : Nat) (write : Option (List Byte)) (size : Nat)   -- HOST_WINDOW_ACCESS, R340
  | reset (boot : Boot)   -- RESET, R351
  | decodeTableInstall (image : List Byte)   -- DECODE_TABLE_INSTALL, R335
  | attestationReport (nonce : List Byte)   -- ATTESTATION_REPORT, R355
  | registerWrite (site : RegSite) (size : Nat) (value : Word64)   -- REGISTER_WRITE, R10
  | mmaCompletion (op : Nat)   -- MMA_COMPLETION, R241
deriving DecidableEq, Repr

end Sys2Proof
end

