-- ==== Sys2Proof/Machine/Rows.lean ====
section
/-! DEFINITION. The table of instruction rows: which operands, types, rounding modes, spaces, scopes and SUB values
each instruction accepts (R159, R167, R174, R175, R178, R184 to R199, R211, R213, R215, R219, R242), and through it
which registers an instruction names, reads and writes. -/

namespace Sys2Proof

/-- Type code of R72. -/
def Ty.code : Ty → Nat
  | .s8 => 0 | .s16 => 1 | .s32 => 2 | .s64 => 3 | .n8 => 4 | .n16 => 5 | .n32 => 6 | .n64 => 7
  | .f64 => 8 | .f32 => 9 | .f16 => 10 | .bf16 => 11 | .e4m3 => 12 | .e5m2 => 13 | .b4 => 14

def Ty.all : List Ty :=
  [.s8, .s16, .s32, .s64, .n8, .n16, .n32, .n64, .f64, .f32, .f16, .bf16, .e4m3, .e5m2, .b4]

/-- The type of a code; 0xF is none (R72). -/
def Ty.ofCode (c : Nat) : Option Ty := nth Ty.all c

/-- Width in bits of an element (R73, R74, R79). -/
def Ty.width : Ty → Nat
  | .s8 | .n8 | .e4m3 | .e5m2 => 8
  | .s16 | .n16 | .f16 | .bf16 => 16
  | .s32 | .n32 | .f32 => 32
  | .s64 | .n64 | .f64 => 64
  | .b4 => 4

/-- Bytes of an element. -/
def Ty.bytes (t : Ty) : Nat := t.width / 8

def Ty.isInt : Ty → Bool
  | .s8 | .s16 | .s32 | .s64 | .n8 | .n16 | .n32 | .n64 => true
  | _ => false

def Ty.isSigned : Ty → Bool
  | .s8 | .s16 | .s32 | .s64 => true
  | _ => false

def Ty.isFloat : Ty → Bool
  | .f64 | .f32 | .f16 | .bf16 | .e4m3 | .e5m2 => true
  | _ => false

/-- The narrow formats of R72. -/
def Ty.narrow : Ty → Bool
  | .bf16 | .f16 | .e4m3 | .e5m2 | .b4 => true
  | _ => false

/-- Vector registers that hold one value: a pair for a 64-bit type (R56). -/
def Ty.regs (t : Ty) : Nat := if t.width = 64 then 2 else 1

def Rnd.code : Rnd → Nat
  | .rn => 0 | .rz => 1 | .ru => 2 | .rd => 3 | .sr => 4

def Rnd.ofCode : Nat → Option Rnd
  | 0 => some .rn | 1 => some .rz | 2 => some .ru | 3 => some .rd | 4 => some .sr | _ => none

def Space.code : Space → Nat
  | .g => 0 | .l => 1 | .v => 2 | .c => 3 | .p => 4

def Space.ofCode : Nat → Option Space
  | 0 => some .g | 1 => some .l | 2 => some .v | 3 => some .c | 4 => some .p | _ => none

/-- `.l` and `.p` take a 32-bit offset as their base (R17). -/
def Space.narrowBase : Space → Bool
  | .l | .p => true
  | _ => false

def Scope.code : Scope → Nat
  | .warp => 0 | .group => 1 | .gang => 2 | .die => 3 | .pkg => 4 | .fabric => 5

def Scope.ofCode : Nat → Option Scope
  | 0 => some .warp | 1 => some .group | 2 => some .gang | 3 => some .die | 4 => some .pkg | 5 => some .fabric | _ => none

def Special.all : List Special :=
  [.laneid, .warpid, .wid, .wid0, .wid1, .wid2, .wid3, .wid4, .wid5, .cellid, .coreid, .corekind, .dieid, .clock,
   .pctl, .lstat, .wstat, .mstat, .rngc, .rngklo, .rngkhi, .leqix, .gsize, .ganggrp]

def Special.code : Special → Nat
  | .laneid => 0 | .warpid => 1 | .wid => 2 | .wid0 => 3 | .wid1 => 4 | .wid2 => 5 | .wid3 => 6 | .wid4 => 7
  | .wid5 => 8 | .cellid => 9 | .coreid => 10 | .corekind => 11 | .dieid => 12 | .clock => 13 | .pctl => 14
  | .lstat => 15 | .wstat => 16 | .mstat => 17 | .rngc => 18 | .rngklo => 19 | .rngkhi => 20 | .leqix => 21
  | .gsize => 22 | .ganggrp => 23

def Special.ofCode (c : Nat) : Option Special := nth Special.all c

/-- 64-bit specials of R67. -/
def Special.wide : Special → Bool
  | .wid | .clock | .mstat | .rngc | .rngklo | .rngkhi => true
  | _ => false

/-- Per-lane specials of R67. -/
def Special.perLane : Special → Bool
  | .laneid | .wid | .wid0 | .lstat => true
  | _ => false

/-- What an operand place accepts. `v`, `k`, `p` name the kinds; `T` a value of the instruction's type, `32`, `64`
and `quad` a fixed size, `C` the count of R200; `u` that it may be unused; `w` that it is written, `rw` also read. -/
inductive Slot
  | none | vkTw | vkT | vkTu | vk32 | vk32u | vk32w | vTw | vT | vTrw | v32 | v32w | v32uw | v64k | v64kw | k64 | k64u | k64w
  | pw | pwu | pi | piu | pv32w | vkp32w | vkptag | tagw | sp | spw | gets | sets | cvtS | rngdraw | base | vkC | vkCw | quadw
deriving DecidableEq, Repr

/-- How a row limits SUB. -/
inductive SubRule
  | max (n : Nat) | plop | fcmp | cvt | qnt | rngdraw | ldst | atom | red | pft | scatc | wred | old | cl | cl1 | mma | mmas | cpyr
deriving DecidableEq, Repr

/-- How a row limits RND: zero; any mode; any mode but only RN for an exact conversion (R186); the modes of WRED (R211). -/
inductive RndRule | zero | any | cvt | col
deriving DecidableEq, Repr

/-- One row of the instruction tables. -/
structure Row where
  dst : Slot := .none
  a : Slot := .none
  b : Slot := .none
  c : Slot := .none
  d : Slot := .none
  ty : List Ty := [.s8]
  rnd : RndRule := .zero
  space : List Space := [.g]
  scope : List Scope := [.warp]
  sub : SubRule := .max 0
  look : Bool := false
  rc : Bool := false
  guard : Bool := true
deriving DecidableEq, Repr

/-- The fields that the six formats share, read alike from each of them. -/
structure View where
  hdr : Hdr
  dst : Operand
  a : Operand
  b : Operand
  c : Operand
  d : Operand
  ty : Ty
  rnd : Rnd
  space : Space
  scope : Scope
  sub : Nat
  mem : Bool
deriving DecidableEq, Repr

def RegForm.view (f : RegForm) : View :=
  ⟨f.hdr, f.dst, f.a, f.b, f.c, f.d, f.ty, f.rnd, f.space, f.scope, f.sub.toNat, false⟩
def ImmForm.view (f : ImmForm) : View :=
  ⟨f.hdr, f.dst, f.a, .v 0, .v 0, .v 0, f.ty, f.rnd, f.space, f.scope, f.sub.toNat, false⟩
def MemForm.view (f : MemForm) : View :=
  ⟨f.hdr, f.dst, f.base, f.b, f.c, .v 0, f.ty, .rn, f.space, f.scope, f.sub.toNat, true⟩
def ColForm.view (f : ColForm) : View :=
  ⟨f.hdr, f.dst, f.a, f.b, .v 0, .v 0, f.ty, f.rnd, .g, .warp, f.op.toNat, false⟩
def BrForm.view (f : BrForm) : View := ⟨f.hdr, .v 0, .v 0, .v 0, .v 0, .v 0, .s8, .rn, .g, .warp, 0, false⟩
def MbrForm.view (f : MbrForm) : View :=
  ⟨⟨none, f.look, f.hold, f.hint⟩, .v 0, .v 0, .v 0, .v 0, .v 0, .s8, .rn, .g, .warp, 0, false⟩
def LogxForm.view (f : LogxForm) : View :=
  ⟨f.hdr, f.dst, f.a, f.b, f.c, .v 0, f.ty, .rn, .g, .warp, 0, false⟩
def DcorvForm.view (f : DcorvForm) : View :=
  ⟨f.hdr, f.dst, f.a, f.b, f.c, f.d, f.ty, .rn, .g, .warp, f.form.toNat, false⟩

def ar4 : List Ty := [.s32, .n32, .s64, .n64]
def lg : List Ty := [.n32, .n64]
def f4 : List Ty := [.f64, .f32, .f16, .bf16]
def at6 : List Ty := [.s32, .n32, .s64, .n64, .f32, .f64]
def noB4 : List Ty := Ty.all.filter fun t => decide (t ≠ .b4)
def mma9 : List Ty := [.f64, .f32, .bf16, .f16, .e4m3, .e5m2, .s8, .n8, .b4]
def mmas7 : List Ty := [.e4m3, .e5m2, .s8, .n8, .bf16, .f16, .b4]
def dcormTys : List Ty := Ty.all.filter fun t => decide (t ≠ .s64 ∧ t ≠ .n64)
def glv : List Space := [.g, .l, .v]
def scopes : List Scope := [.warp, .group, .gang, .die, .pkg, .fabric]

/-- The row of an instruction; none for a step of another agent, which has no instruction word. -/
def Instr.row : Instr → Option Row
  | .nop _ => some {}
  | .bra _ => some {}
  | .mbr _ => some { guard := false }
  | .brx _ => some { a := .v64k }
  | .call _ => some {}
  | .callx _ => some { a := .v64k }
  | .ret _ => some { a := .v64k }
  | .exit _ => some {}
  | .yield _ => some {}
  | .trap _ => some {}
  | .bkpt _ => some {}
  | .trst _ => some {}
  | .iadd _ => some { dst := .vkTw, a := .vkT, b := .vkT, ty := ar4, sub := .max 1 }
  | .iaddImm _ => some { dst := .vkTw, a := .vkT, ty := ar4, sub := .max 1 }
  | .isub _ => some { dst := .vkTw, a := .vkT, b := .vkT, ty := ar4, sub := .max 1 }
  | .isubImm _ => some { dst := .vkTw, a := .vkT, ty := ar4, sub := .max 1 }
  | .imul _ => some { dst := .vkTw, a := .vkT, b := .vkT, ty := ar4, sub := .max 1 }
  | .imulImm _ => some { dst := .vkTw, a := .vkT, ty := ar4, sub := .max 1 }
  | .imulh _ => some { dst := .vkTw, a := .vkT, b := .vkT, ty := ar4 }
  | .imulhImm _ => some { dst := .vkTw, a := .vkT, ty := ar4 }
  | .imad _ => some { dst := .vkTw, a := .vkT, b := .vkT, c := .vkT, ty := ar4, sub := .max 1 }
  | .idiv _ => some { dst := .vkTw, a := .vkT, b := .vkT, ty := ar4, look := true }
  | .idivImm _ => some { dst := .vkTw, a := .vkT, ty := ar4, look := true }
  | .irem _ => some { dst := .vkTw, a := .vkT, b := .vkT, ty := ar4, look := true }
  | .iremImm _ => some { dst := .vkTw, a := .vkT, ty := ar4, look := true }
  | .iabs _ => some { dst := .vkTw, a := .vkT, ty := [.s32, .s64], sub := .max 1 }
  | .ineg _ => some { dst := .vkTw, a := .vkT, ty := ar4, sub := .max 1 }
  | .imin _ => some { dst := .vkTw, a := .vkT, b := .vkT, ty := ar4 }
  | .iminImm _ => some { dst := .vkTw, a := .vkT, ty := ar4 }
  | .imax _ => some { dst := .vkTw, a := .vkT, b := .vkT, ty := ar4 }
  | .imaxImm _ => some { dst := .vkTw, a := .vkT, ty := ar4 }
  | .shl _ => some { dst := .vkTw, a := .vkT, b := .vk32, ty := lg }
  | .shlImm _ => some { dst := .vkTw, a := .vkT, ty := lg }
  | .shr _ => some { dst := .vkTw, a := .vkT, b := .vk32, ty := lg }
  | .shrImm _ => some { dst := .vkTw, a := .vkT, ty := lg }
  | .sar _ => some { dst := .vkTw, a := .vkT, b := .vk32, ty := lg }
  | .sarImm _ => some { dst := .vkTw, a := .vkT, ty := lg }
  | .rotl _ => some { dst := .vkTw, a := .vkT, b := .vk32, ty := lg }
  | .rotlImm _ => some { dst := .vkTw, a := .vkT, ty := lg }
  | .andB _ => some { dst := .vkTw, a := .vkT, b := .vkT, ty := lg }
  | .andBImm _ => some { dst := .vkTw, a := .vkT, ty := lg }
  | .orB _ => some { dst := .vkTw, a := .vkT, b := .vkT, ty := lg }
  | .orBImm _ => some { dst := .vkTw, a := .vkT, ty := lg }
  | .xor _ => some { dst := .vkTw, a := .vkT, b := .vkT, ty := lg }
  | .xorImm _ => some { dst := .vkTw, a := .vkT, ty := lg }
  | .notB _ => some { dst := .vkTw, a := .vkT, ty := lg }
  | .logx _ => some { dst := .vkTw, a := .vkT, b := .vkT, c := .vkT, ty := lg }
  | .popc _ => some { dst := .vk32w, a := .vkT, ty := lg }
  | .clz _ => some { dst := .vk32w, a := .vkT, ty := lg }
  | .brev _ => some { dst := .vkTw, a := .vkT, ty := lg }
  | .bfx _ => some { dst := .vkTw, a := .vkT, b := .vk32, c := .vk32, ty := ar4 }
  | .bfi _ => some { dst := .vkTw, a := .vkT, b := .vkT, c := .vk32, d := .vk32, ty := lg }
  | .lea _ => some { dst := .vkTw, a := .vkT, b := .vk32, ty := [.n32, .n64, .s64], sub := .max 7 }
  | .leaImm _ => some { dst := .vkTw, a := .vkT, ty := [.n32, .n64, .s64], sub := .max 7 }
  | .mov _ => some { dst := .vkTw, a := .vkT, ty := lg }
  | .movi _ => some { dst := .vkTw, ty := [.n32, .s32, .n64, .s64, .f32, .f64] }
  | .prmt _ => some { dst := .vk32w, a := .vk32, b := .vk32, c := .vk32, ty := [.n32] }
  | .prmtImm _ => some { dst := .vk32w, a := .vk32, ty := [.n32] }
  | .sel _ => some { dst := .vTw, a := .vkT, b := .vkT, c := .pi, ty := lg }
  | .icmp _ => some { dst := .pw, a := .vkT, b := .vkT, ty := ar4, sub := .max 5 }
  | .icmpImm _ => some { dst := .pw, a := .vkT, ty := ar4, sub := .max 5 }
  | .krd _ => some { dst := .vTw, a := .k64, b := .vk32, ty := lg }
  | .plop _ => some { dst := .pw, a := .pi, b := .piu, sub := .plop }
  | .p2v _ => some { dst := .v32w, a := .piu, sub := .max 1 }
  | .v2p _ => some { dst := .pw, a := .vk32, sub := .max 1 }
  | .gets _ => some { dst := .gets, a := .sp }
  | .sets _ => some { dst := .spw, a := .sets }
  | .setsImm _ => some { dst := .spw }
  | .fadd _ => some { dst := .vkTw, a := .vkT, b := .vkT, ty := f4, rnd := .any }
  | .faddImm _ => some { dst := .vkTw, a := .vkT, ty := f4, rnd := .any }
  | .fsub _ => some { dst := .vkTw, a := .vkT, b := .vkT, ty := f4, rnd := .any }
  | .fsubImm _ => some { dst := .vkTw, a := .vkT, ty := f4, rnd := .any }
  | .fmul _ => some { dst := .vkTw, a := .vkT, b := .vkT, ty := f4, rnd := .any }
  | .fmulImm _ => some { dst := .vkTw, a := .vkT, ty := f4, rnd := .any }
  | .ffma _ => some { dst := .vkTw, a := .vkT, b := .vkT, c := .vkT, ty := f4, rnd := .any }
  | .fmin _ => some { dst := .vkTw, a := .vkT, b := .vkT, ty := f4, sub := .max 1 }
  | .fminImm _ => some { dst := .vkTw, a := .vkT, ty := f4, sub := .max 1 }
  | .fmax _ => some { dst := .vkTw, a := .vkT, b := .vkT, ty := f4, sub := .max 1 }
  | .fmaxImm _ => some { dst := .vkTw, a := .vkT, ty := f4, sub := .max 1 }
  | .fabs _ => some { dst := .vkTw, a := .vkT, ty := f4 }
  | .fneg _ => some { dst := .vkTw, a := .vkT, ty := f4 }
  | .fcmp _ => some { dst := .pw, a := .vkT, b := .vkT, ty := f4, sub := .fcmp }
  | .fcmpImm _ => some { dst := .pw, a := .vkT, ty := f4, sub := .fcmp }
  | .fclass _ => some { dst := .pw, a := .vkT, b := .vk32, ty := [.f64, .f32, .f16, .bf16, .e4m3, .e5m2] }
  | .fdiv _ => some { dst := .vkTw, a := .vkT, b := .vkT, ty := f4, rnd := .any, look := true }
  | .fdivImm _ => some { dst := .vkTw, a := .vkT, ty := f4, rnd := .any, look := true }
  | .fsqrt _ => some { dst := .vkTw, a := .vkT, ty := f4, rnd := .any, look := true }
  | .frcpa _ => some { dst := .vkTw, a := .vkT, ty := f4, look := true }
  | .frsqa _ => some { dst := .vkTw, a := .vkT, ty := f4, look := true }
  | .fex2 _ => some { dst := .vkTw, a := .vkT, ty := f4, look := true }
  | .flg2 _ => some { dst := .vkTw, a := .vkT, ty := f4, look := true }
  | .fsin _ => some { dst := .vkTw, a := .vkT, ty := f4, look := true }
  | .fcos _ => some { dst := .vkTw, a := .vkT, ty := f4, look := true }
  | .ftanh _ => some { dst := .vkTw, a := .vkT, ty := f4, look := true }
  | .fscale _ => some { dst := .vkTw, a := .vkT, b := .vk32, ty := f4, rnd := .any }
  | .fscaleImm _ => some { dst := .vkTw, a := .vkT, ty := f4, rnd := .any }
  | .frnd _ => some { dst := .vkTw, a := .vkT, ty := f4, rnd := .any }
  | .cvt _ => some { dst := .vkTw, a := .cvtS, ty := noB4, rnd := .cvt, sub := .cvt }
  | .qnt _ => some { dst := .v32w, a := .v32, b := .v32, c := .v32, d := .v32, ty := [.b4], rnd := .any, sub := .qnt }
  | .dqnt _ => some { dst := .vk32w, a := .vk32, b := .vk32u, ty := [.f32], sub := .max 7 }
  | .fdot _ => some { dst := .vk32w, a := .vk32, b := .vk32, c := .vk32, ty := [.bf16, .f16, .e4m3, .e5m2, .f32], rnd := .any }
  | .rngkey _ => some { a := .k64, b := .k64, c := .k64u, sub := .max 1 }
  | .rngdraw _ => some { dst := .rngdraw, sub := .rngdraw }
  | .rngskip _ => some { a := .k64 }
  | .rngskipImm _ => some {}
  | .tagq _ => some { dst := .vkp32w, a := .vkptag, sub := .max 1 }
  | .tagp _ => some { dst := .tagw, a := .vkptag, sub := .max 1 }
  | .dcorv _ => some { dst := .vTrw, a := .vkT, b := .vkTu, c := .vkTu, d := .pw, ty := [.f32, .f64], sub := .max 2 }
  | .ld _ => some { dst := .vkCw, a := .base, ty := noB4, space := [.g, .l, .v, .c, .p], sub := .ldst, look := true, rc := true }
  | .st _ => some { a := .base, b := .vkC, ty := noB4, space := glv, sub := .ldst, rc := true }
  | .atom _ => some { dst := .vkTw, a := .base, b := .vkT, c := .vkTu, ty := at6, space := glv, scope := scopes, sub := .atom, look := true }
  | .red _ => some { a := .base, b := .vkT, ty := at6, space := glv, scope := scopes, sub := .red }
  | .fence _ => some { sub := .max 1 }
  | .pft _ => some { a := .base, space := [.g, .v, .c], scope := scopes, sub := .pft, rc := true }
  | .cctl _ => some { a := .base, space := [.g, .v, .c], scope := scopes, sub := .max 2 }
  | .scatc _ => some { dst := .v32uw, a := .base, b := .vkT, ty := at6, space := glv, scope := scopes, sub := .scatc }
  | .shfl _ => some { dst := .vTw, a := .vT, b := .vk32, ty := lg, sub := .max 3, look := true }
  | .vote _ => some { dst := .pv32w, a := .pi, b := .pwu, sub := .max 3 }
  | .wred _ => some { dst := .vTw, a := .vT, b := .pwu, ty := [.s32, .n32, .s64, .n64, .f32, .f64, .f16, .bf16], rnd := .col, sub := .wred, look := true }
  | .wscan _ => some { dst := .vTw, a := .vT, b := .pwu, ty := [.s32, .n32, .s64, .n64, .f32, .f64, .f16, .bf16], rnd := .col, sub := .wred, look := true }
  | .matchL _ => some { dst := .v32w, a := .vT, b := .pwu, ty := lg, sub := .max 1 }
  | .bar _ => some { scope := [.warp, .group, .gang], guard := false }
  | .gbar _ => some { scope := [.die, .pkg, .fabric], guard := false }
  | .cinit _ => some { a := .base, b := .vkT, ty := [.n64], space := glv }
  | .cwait _ => some { a := .base, b := .vkT, ty := [.n64], space := glv }
  | .ctest _ => some { dst := .vk32w, a := .base, b := .vkT, ty := [.n64], space := glv }
  | .dqadd _ => some { a := .v64k, d := .pw }
  | .dqtake _ => some { dst := .v64kw, d := .pw, look := true }
  | .dqsteal _ => some { dst := .v64kw, a := .vk32, d := .pw, look := true }
  | .dqcnt _ => some { dst := .vk32w, a := .vk32u, sub := .max 1 }
  | .launch _ => some { dst := .k64w, a := .k64, b := .k64 }
  | .oclm _ => some { dst := .k64w, a := .k64 }
  | .orls _ => some { a := .k64 }
  | .old _ => some { dst := .k64, a := .k64, b := .k64u, c := .k64, d := .k64u, ty := Ty.all, space := [.g, .l, .v, .c], sub := .old }
  | .ost _ => some { dst := .k64, a := .k64, b := .k64, c := .k64, space := glv, sub := .cl }
  | .aclm _ => some { dst := .k64w, a := .k64 }
  | .arls _ => some { a := .k64 }
  | .aclr _ => some { a := .k64, ty := [.f32, .s32, .f64] }
  | .mma _ => some { dst := .k64, a := .k64, b := .k64, ty := mma9, sub := .mma }
  | .mmas _ => some { dst := .k64, a := .k64, b := .k64, c := .k64, ty := mmas7, sub := .mmas }
  | .adrn _ => some { dst := .k64, a := .k64, b := .k64, c := .k64, space := glv, sub := .cl }
  | .wupd _ => some { dst := .k64, a := .k64, b := .k64, c := .k64, ty := f4, rnd := .any, space := glv, sub := .cl1 }
  | .cpy _ => some { a := .k64, b := .k64, c := .k64, d := .k64, space := glv, sub := .cl1 }
  | .cpyr _ => some { a := .k64, b := .k64, c := .k64, d := .k64, ty := [.f64, .f32, .bf16, .f16, .s32, .s64], rnd := .any, space := glv, sub := .cpyr }
  | .isect _ => some { b := .k64, c := .k64, sub := .cl }
  | .dcorm _ => some { b := .k64, c := .k64, ty := dcormTys, sub := .cl }
  | .astat _ => some { dst := .k64w, a := .k64, sub := .max 1 }
  | .eqp _ => some { guard := false }
  | .migr _ => some { sub := .max 1 }
  | .migq _ => some { dst := .vk32w }
  | .route _ => some { dst := .quadw, a := .vk32, b := .vk32, d := .pw, look := true }
  | .rtrel _ => some { a := .vk32, d := .pw }
  | .rtver _ => some { dst := .vk32w }
  | .svc _ => some { dst := .k64w, a := .k64 }
  | .srd _ => some { dst := .vkTw, a := .k64, ty := lg }
  | .swr _ => some { a := .k64, b := .k64, ty := lg }
  | .tlbi _ => some { a := .k64u, sub := .max 1 }
  | .eret _ => some { guard := false }
  | .idle _ => some { dst := .k64w, a := .k64 }
  | .svcAnswer _ _ _ => none
  | .tlbiCompletion _ _ => none
  | .idleWake _ _ => none
  | .checkpointCommit _ => none
  | .rollback _ _ => none
  | .serialModeEnd _ => none
  | .waitCountYield _ => none
  | .maskwait _ _ => none
  | .engineCompletion _ => none
  | .engineThreadFault _ => none
  | .freplayReissue _ _ => none
  | .freplayCancel _ _ => none
  | .recomputeProducerEnd _ _ => none
  | .faultRecordWrite _ => none
  | .singleStepStop _ => none
  | .submit _ _ => none
  | .cancel _ _ => none
  | .resume _ _ => none
  | .hset _ _ => none
  | .hclr _ _ => none
  | .load _ _ => none
  | .unload _ _ => none
  | .badcmd _ _ => none
  | .commandCompletion _ _ => none
  | .launchReady _ => none
  | .waitObjectPoll _ => none
  | .dispatch _ => none
  | .queueAgeing _ _ => none
  | .gangAgeing _ => none
  | .gangPlacement _ _ _ _ => none
  | .stageCopy _ => none
  | .quantumExpiry _ => none
  | .preemption _ => none
  | .saved _ => none
  | .resumption _ _ _ _ => none
  | .launchTimeout _ => none
  | .launchEnded _ => none
  | .schedMigrationRequest _ => none
  | .schedMigrationWithdraw _ => none
  | .register _ => none
  | .deregister _ => none
  | .setthr _ => none
  | .refresh _ => none
  | .badrec _ => none
  | .idleSample _ => none
  | .etesianInterval _ => none
  | .copyWritten _ _ _ => none
  | .copyVerified _ _ _ => none
  | .copyfail _ _ _ _ => none
  | .copyTimeout _ _ _ => none
  | .publication _ => none
  | .livefail _ _ _ _ => none
  | .queueClosure _ _ _ => none
  | .freed _ _ _ => none
  | .regionMerge _ => none
  | .uncorrectableError _ _ => none
  | .flitReceive _ => none
  | .cxlLinkDown _ => none
  | .hostWindowAccess _ _ _ _ => none
  | .reset _ => none
  | .decodeTableInstall _ => none
  | .attestationReport _ => none
  | .registerWrite _ _ _ => none
  | .mmaCompletion _ => none

/-- Whether the form uses the operand place at all (R146: an unused operand is zero). The optional register
operands are those of ATOM `.cas`, DCORV `.lin`, DQNT `.sep`, DQCNT `.vic` and SCATC `.rank`. -/
def Slot.used (s : Slot) (v : View) (o : Operand) : Bool :=
  match s with
  | .none => false
  | .vkTu => if v.mem then v.sub == 7 else v.sub == 2
  | .vk32u => if v.ty = .f32 then bit v.sub 2 else v.sub == 1
  | .v32uw => bit v.sub 4
  | .k64u | .pwu | .piu => decide (o ≠ .v 0)
  | _ => true

/-- Source type of CVT (R186) and of QNT (R188). -/
def View.cvtSrc (v : View) : Option Ty := Ty.ofCode (v.sub % 16)

/-- Registers that the count field of R200 makes one lane move. -/
def View.countRegs (v : View) : Nat := v.ty.regs * 2 ^ (v.sub / 16)

/-- Vector registers an operand place spans. -/
def Slot.regs (s : Slot) (v : View) : Nat :=
  match s with
  | .vkTw | .vkT | .vkTu | .vTw | .vT | .vTrw => v.ty.regs
  | .v64k | .v64kw | .k64 | .k64u | .k64w => 2
  | .quadw => 4
  | .vkC | .vkCw => v.countRegs
  | .base => if v.space.narrowBase then 1 else 2
  | .cvtS => match v.cvtSrc with
    | some t => t.regs
    | Option.none => 1
  | .rngdraw => if v.sub % 4 = 1 then 2 else 1
  | .vkptag | .tagw => if v.sub % 2 = 1 then 2 else 1
  | .gets => match v.a with
    | .sp x => if x.wide then 2 else 1
    | _ => 1
  | .sets => if v.dst = .sp .mstat then 2 else 1
  | _ => 1

/-- Whether the place is a destination. -/
def Slot.writes : Slot → Bool
  | .vkTw | .vk32w | .vTw | .vTrw | .v32w | .v32uw | .v64kw | .k64w | .pw | .pwu | .pv32w | .vkp32w | .tagw | .spw | .gets
  | .rngdraw | .vkCw | .quadw => true
  | _ => false

/-- Whether the place is a source. -/
def Slot.reads : Slot → Bool
  | .none | .vkTw | .vk32w | .vTw | .v32w | .v32uw | .v64kw | .k64w | .pw | .pwu | .pv32w | .vkp32w | .tagw | .spw | .gets
  | .rngdraw | .vkCw | .quadw => false
  | _ => true

/-- The kinds and register alignments a place accepts (R56, R146, R200, R249). -/
def Slot.accepts (s : Slot) (v : View) (o : Operand) : Bool :=
  if !s.used v o then decide (o = .v 0)
  else
    let n := s.regs v
    match s, o with
    | .vkTw, .v r | .vkT, .v r | .vkTu, .v r | .vk32, .v r | .vk32u, .v r | .vk32w, .v r | .v64k, .v r | .v64kw, .v r
    | .cvtS, .v r | .rngdraw, .v r | .base, .v r | .sets, .v r => r.toNat % n == 0
    | .vkTw, .k _ | .vkT, .k _ | .vkTu, .k _ | .vk32, .k _ | .vk32u, .k _ | .vk32w, .k _ | .v64k, .k _ | .v64kw, .k _
    | .cvtS, .k _ | .rngdraw, .k _ | .base, .k _ | .sets, .k _ => true
    | .vTw, .v r | .vT, .v r | .vTrw, .v r | .v32, .v r | .v32w, .v r | .v32uw, .v r => r.toNat % n == 0
    | .k64, .k _ | .k64u, .k _ | .k64w, .k _ => true
    | .pw, .p inv _ | .pwu, .p inv _ => !inv
    | .pi, .p _ _ | .piu, .p _ _ => true
    | .pv32w, .p inv _ => !inv && v.sub != 3
    | .pv32w, .v _ => v.sub == 3
    | .vkp32w, .v _ | .vkp32w, .k _ => true
    | .vkp32w, .p inv _ => !inv
    | .vkptag, .v r | .tagw, .v r => r.toNat % n == 0
    | .vkptag, .k _ | .tagw, .k _ => v.sub == 0
    | .vkptag, .p inv _ | .tagw, .p inv _ => !inv && v.sub == 0
    | .sp, .sp _ | .spw, .sp _ => true
    | .gets, .v r => r.toNat % n == 0
    | .gets, .k _ => match v.a with
      | .sp x => !x.perLane
      | _ => false
    | .vkC, .v r | .vkCw, .v r => r.toNat % n == 0
    | .vkC, .k _ | .vkCw, .k _ => v.sub / 16 == 0
    | .quadw, .v r => r.toNat % 4 == 0
    | .quadw, .k r => r.toNat % 2 == 0
    | _, _ => false

/-- Rounding modes (R84, R186, R211). -/
def RndRule.accepts (r : RndRule) (v : View) : Bool :=
  match r with
  | .zero => decide (v.rnd = .rn)
  | .any => true
  | .col => if v.ty.isFloat && v.sub == 0 then decide (v.rnd ≠ .sr) else decide (v.rnd = .rn)
  | .cvt => match v.cvtSrc with
    | Option.none => false
    | some src => if exact v.ty src then decide (v.rnd = .rn) else true
where
  /-- The always-exact conversions of R186, from `src` to `d`. -/
  exact (d src : Ty) : Bool :=
    match src, d with
    | .e4m3, d | .e5m2, d => match d with
      | .f16 | .bf16 | .f32 | .f64 => true
      | _ => false
    | .f16, d | .bf16, d => match d with
      | .f32 | .f64 => true
      | _ => false
    | .f32, .f64 => true
    | src, d =>
      (src.isInt && d.isInt)
        || (src.isInt && decide (src.width ≤ 16) && (decide (d = .f32) || decide (d = .f64)))
        || (src.isInt && src.width == 32 && decide (d = .f64))

/-- The shape codes of R226 that MMA and MMAS accept with a type. -/
def shapeOk (ty : Ty) (shape : Nat) : Bool :=
  bits shape 4 3 != 3 && bits shape 2 1 != 3 && !(decide (ty = .b4) && bit shape 0)
    && !(decide (ty = .f64) && bits shape 2 1 == 2)

/-- The types that the bitwise operations of ATOM, WRED and their kin accept (R203, R211). -/
def bitwiseOk (ty : Ty) (op : Nat) : Bool := !(3 ≤ op && op ≤ 5) || decide (ty = .n32) || decide (ty = .n64)

/-- SUB values (each row's entry). -/
def SubRule.accepts (s : SubRule) (v : View) : Bool :=
  let x := v.sub
  match s with
  | .max n => decide (x ≤ n)
  | .plop => decide (x ≤ 3)
  | .fcmp => bits x 6 4 == 0 && bits x 2 0 != 7 && !(bit x 3 && bits x 2 0 == 6)
  | .cvt => match v.cvtSrc with
    | Option.none => false
    | some src => decide (src ≠ .b4) && decide (src ≠ v.ty) && bits x 6 5 == 0 && !(bit x 4 && !(src.isInt && v.ty.isInt))
  | .qnt => (bits x 6 3 == 9 || bits x 6 3 == 10 || bits x 6 3 == 11) && (bits x 2 0 == 0 || bit x 2)
  | .rngdraw => bits x 1 0 != 3
  | .ldst => match x / 16 with
    | 0 => true
    | 1 => decide (v.ty.width = 32 ∨ v.ty.width = 64)
    | 2 => decide (v.ty.width = 32)
    | _ => false
  | .atom => decide (x ≤ 7) && bitwiseOk v.ty x
  | .red => decide (x ≤ 5) && bitwiseOk v.ty x
  | .pft => decide (x ≤ 15)
  | .scatc => decide (x < 32) && decide (x % 16 ≤ 5) && bitwiseOk v.ty (x % 16)
  | .wred => decide (x ≤ 5) && bitwiseOk v.ty x
  | .old => bits x 5 2 == 0 && !(decide (v.ty = .b4) && (bits x 1 0 == 1 || bits x 1 0 == 3))
  | .cl => bits x 5 0 == 0
  | .cl1 => bits x 5 1 == 0
  | .mma => decide (x < 32) && shapeOk v.ty x
  | .mmas => bits x 6 5 != 0 && shapeOk v.ty (x % 32)
  | .cpyr => bits x 2 1 != 3 && bits x 5 3 == 0

/-- Which predicate and descriptor operands the form's SUB asks for and which it forbids, and the agreement of
kinds that TAGP asks for (R174, R193, R196, R223, R242). -/
def Instr.optionsOk (i : Instr) (v : View) : Bool :=
  let has (o : Operand) := decide (o ≠ .v 0)
  match i with
  | .plop _ => has v.b == (v.sub != 3)
  | .p2v _ => has v.a == (v.sub == 0)
  | .v2p _ => v.sub == 0 || decide (v.dst = .p false 0)
  | .dqnt _ => bits v.sub 6 3 == 0
  | .rngkey _ => has v.c == (v.sub == 1)
  | .tlbi _ => has v.a == (v.sub == 0)
  | .old _ => has v.b == decide (v.sub % 4 < 2) && has v.d == decide (2 ≤ v.sub % 4)
  | .tagp _ => match v.dst, v.a with
    | .p _ _, .p _ _ => true
    | .p _ _, _ => false
    | _, .p _ _ => false
    | _, _ => true
  | _ => true

/-- The fields of an instruction word, by format. -/
inductive Payload
  | reg (f : RegForm) | imm (f : ImmForm) | mem (f : MemForm) | col (f : ColForm)
  | br (f : BrForm) | mbr (f : MbrForm) | logx (f : LogxForm) | dcorv (f : DcorvForm)
deriving DecidableEq, Repr

/-- The fields that every format shares. -/
def Payload.view : Payload → View
  | .reg f => f.view
  | .imm f => f.view
  | .mem f => f.view
  | .col f => f.view
  | .br f => f.view
  | .mbr f => f.view
  | .logx f => f.view
  | .dcorv f => f.view

/-- The fields of an instruction's word; none for a step of another agent. -/
def Instr.payload : Instr → Option Payload
  | .nop f => some (.reg f)
  | .bra f => some (.br f)
  | .mbr f => some (.mbr f)
  | .brx f => some (.reg f)
  | .call f => some (.br f)
  | .callx f => some (.reg f)
  | .ret f => some (.reg f)
  | .exit f => some (.reg f)
  | .yield f => some (.reg f)
  | .trap f => some (.imm f)
  | .bkpt f => some (.reg f)
  | .trst f => some (.reg f)
  | .iadd f => some (.reg f)
  | .iaddImm f => some (.imm f)
  | .isub f => some (.reg f)
  | .isubImm f => some (.imm f)
  | .imul f => some (.reg f)
  | .imulImm f => some (.imm f)
  | .imulh f => some (.reg f)
  | .imulhImm f => some (.imm f)
  | .imad f => some (.reg f)
  | .idiv f => some (.reg f)
  | .idivImm f => some (.imm f)
  | .irem f => some (.reg f)
  | .iremImm f => some (.imm f)
  | .iabs f => some (.reg f)
  | .ineg f => some (.reg f)
  | .imin f => some (.reg f)
  | .iminImm f => some (.imm f)
  | .imax f => some (.reg f)
  | .imaxImm f => some (.imm f)
  | .shl f => some (.reg f)
  | .shlImm f => some (.imm f)
  | .shr f => some (.reg f)
  | .shrImm f => some (.imm f)
  | .sar f => some (.reg f)
  | .sarImm f => some (.imm f)
  | .rotl f => some (.reg f)
  | .rotlImm f => some (.imm f)
  | .andB f => some (.reg f)
  | .andBImm f => some (.imm f)
  | .orB f => some (.reg f)
  | .orBImm f => some (.imm f)
  | .xor f => some (.reg f)
  | .xorImm f => some (.imm f)
  | .notB f => some (.reg f)
  | .logx f => some (.logx f)
  | .popc f => some (.reg f)
  | .clz f => some (.reg f)
  | .brev f => some (.reg f)
  | .bfx f => some (.reg f)
  | .bfi f => some (.reg f)
  | .lea f => some (.reg f)
  | .leaImm f => some (.imm f)
  | .mov f => some (.reg f)
  | .movi f => some (.imm f)
  | .prmt f => some (.reg f)
  | .prmtImm f => some (.imm f)
  | .sel f => some (.reg f)
  | .icmp f => some (.reg f)
  | .icmpImm f => some (.imm f)
  | .krd f => some (.reg f)
  | .plop f => some (.reg f)
  | .p2v f => some (.reg f)
  | .v2p f => some (.reg f)
  | .gets f => some (.reg f)
  | .sets f => some (.reg f)
  | .setsImm f => some (.imm f)
  | .fadd f => some (.reg f)
  | .faddImm f => some (.imm f)
  | .fsub f => some (.reg f)
  | .fsubImm f => some (.imm f)
  | .fmul f => some (.reg f)
  | .fmulImm f => some (.imm f)
  | .ffma f => some (.reg f)
  | .fmin f => some (.reg f)
  | .fminImm f => some (.imm f)
  | .fmax f => some (.reg f)
  | .fmaxImm f => some (.imm f)
  | .fabs f => some (.reg f)
  | .fneg f => some (.reg f)
  | .fcmp f => some (.reg f)
  | .fcmpImm f => some (.imm f)
  | .fclass f => some (.reg f)
  | .fdiv f => some (.reg f)
  | .fdivImm f => some (.imm f)
  | .fsqrt f => some (.reg f)
  | .frcpa f => some (.reg f)
  | .frsqa f => some (.reg f)
  | .fex2 f => some (.reg f)
  | .flg2 f => some (.reg f)
  | .fsin f => some (.reg f)
  | .fcos f => some (.reg f)
  | .ftanh f => some (.reg f)
  | .fscale f => some (.reg f)
  | .fscaleImm f => some (.imm f)
  | .frnd f => some (.reg f)
  | .cvt f => some (.reg f)
  | .qnt f => some (.reg f)
  | .dqnt f => some (.reg f)
  | .fdot f => some (.reg f)
  | .rngkey f => some (.reg f)
  | .rngdraw f => some (.reg f)
  | .rngskip f => some (.reg f)
  | .rngskipImm f => some (.imm f)
  | .tagq f => some (.reg f)
  | .tagp f => some (.reg f)
  | .dcorv f => some (.dcorv f)
  | .ld f => some (.mem f)
  | .st f => some (.mem f)
  | .atom f => some (.mem f)
  | .red f => some (.mem f)
  | .fence f => some (.reg f)
  | .pft f => some (.mem f)
  | .cctl f => some (.mem f)
  | .scatc f => some (.mem f)
  | .shfl f => some (.col f)
  | .vote f => some (.col f)
  | .wred f => some (.col f)
  | .wscan f => some (.col f)
  | .matchL f => some (.col f)
  | .bar f => some (.reg f)
  | .gbar f => some (.reg f)
  | .cinit f => some (.mem f)
  | .cwait f => some (.mem f)
  | .ctest f => some (.mem f)
  | .dqadd f => some (.reg f)
  | .dqtake f => some (.reg f)
  | .dqsteal f => some (.reg f)
  | .dqcnt f => some (.reg f)
  | .launch f => some (.reg f)
  | .oclm f => some (.reg f)
  | .orls f => some (.reg f)
  | .old f => some (.reg f)
  | .ost f => some (.reg f)
  | .aclm f => some (.reg f)
  | .arls f => some (.reg f)
  | .aclr f => some (.reg f)
  | .mma f => some (.reg f)
  | .mmas f => some (.reg f)
  | .adrn f => some (.reg f)
  | .wupd f => some (.reg f)
  | .cpy f => some (.reg f)
  | .cpyr f => some (.reg f)
  | .isect f => some (.reg f)
  | .dcorm f => some (.reg f)
  | .astat f => some (.reg f)
  | .eqp f => some (.imm f)
  | .migr f => some (.reg f)
  | .migq f => some (.reg f)
  | .route f => some (.reg f)
  | .rtrel f => some (.reg f)
  | .rtver f => some (.reg f)
  | .svc f => some (.imm f)
  | .srd f => some (.reg f)
  | .swr f => some (.reg f)
  | .tlbi f => some (.reg f)
  | .eret f => some (.reg f)
  | .idle f => some (.reg f)
  | .svcAnswer _ _ _ => none
  | .tlbiCompletion _ _ => none
  | .idleWake _ _ => none
  | .checkpointCommit _ => none
  | .rollback _ _ => none
  | .serialModeEnd _ => none
  | .waitCountYield _ => none
  | .maskwait _ _ => none
  | .engineCompletion _ => none
  | .engineThreadFault _ => none
  | .freplayReissue _ _ => none
  | .freplayCancel _ _ => none
  | .recomputeProducerEnd _ _ => none
  | .faultRecordWrite _ => none
  | .singleStepStop _ => none
  | .submit _ _ => none
  | .cancel _ _ => none
  | .resume _ _ => none
  | .hset _ _ => none
  | .hclr _ _ => none
  | .load _ _ => none
  | .unload _ _ => none
  | .badcmd _ _ => none
  | .commandCompletion _ _ => none
  | .launchReady _ => none
  | .waitObjectPoll _ => none
  | .dispatch _ => none
  | .queueAgeing _ _ => none
  | .gangAgeing _ => none
  | .gangPlacement _ _ _ _ => none
  | .stageCopy _ => none
  | .quantumExpiry _ => none
  | .preemption _ => none
  | .saved _ => none
  | .resumption _ _ _ _ => none
  | .launchTimeout _ => none
  | .launchEnded _ => none
  | .schedMigrationRequest _ => none
  | .schedMigrationWithdraw _ => none
  | .register _ => none
  | .deregister _ => none
  | .setthr _ => none
  | .refresh _ => none
  | .badrec _ => none
  | .idleSample _ => none
  | .etesianInterval _ => none
  | .copyWritten _ _ _ => none
  | .copyVerified _ _ _ => none
  | .copyfail _ _ _ _ => none
  | .copyTimeout _ _ _ => none
  | .publication _ => none
  | .livefail _ _ _ _ => none
  | .queueClosure _ _ _ => none
  | .freed _ _ _ => none
  | .regionMerge _ => none
  | .uncorrectableError _ _ => none
  | .flitReceive _ => none
  | .cxlLinkDown _ => none
  | .hostWindowAccess _ _ _ _ => none
  | .reset _ => none
  | .decodeTableInstall _ => none
  | .attestationReport _ => none
  | .registerWrite _ _ _ => none
  | .mmaCompletion _ => none

/-- The shared fields of an instruction with a word. -/
def Instr.view (i : Instr) : Option View := i.payload.map Payload.view

/-- The registers of one operand place, as `v n`, `k n` and predicates written `p false n`. -/
def Slot.registers (s : Slot) (v : View) (o : Operand) : List Operand :=
  if !s.used v o then []
  else match o with
    | .v n => (List.range (s.regs v)).map fun j => .v (n + BitVec.ofNat 8 j)
    | .k n => if s = .quadw then [.k n, .k (n + 1)] else [.k n]
    | .p _ n => [.p false n]
    | .sp _ => []

end Sys2Proof
end

