-- ==== Sys2Proof/WellFormed.lean ====
section
/-! DEFINITION. Which instruction words are well formed: the checks of order 2 of R158 that the word alone decides
(R145 to R153, R56, R59). An over-budget register, an EQP index and the other conditions that need the running
variant are checked at issue. -/

namespace Sys2Proof

/-- Why a word is ILLEGAL. -/
inductive IllFormed
  /-- No instruction has this opcode (R156). -/
  | opcode
  /-- A field marked zero is not zero (R145, R147, R151). -/
  | reserved
  /-- A kind or specifier that no operand has (R146). -/
  | specifier
  /-- An operand the place does not accept, an odd pair included (R56, R146, R200, R249). -/
  | operand
  /-- A uniform destination with a source that is not uniform (R59). -/
  | uniform
  /-- A type, rounding mode, space, scope or SUB outside the row (R148). -/
  | type | rounding | space | scope | sub
  /-- A nonzero LOOK on an instruction that is not long-latency (R153). -/
  | look
  /-- A guard on an instruction that takes none (R213, R242, R151). -/
  | guard
  /-- A read-count hint where none is taken, without a count, or a count without it (R150, R199). -/
  | hint
  /-- An immediate out of range (R242). -/
  | immediate
deriving DecidableEq, Repr

/-- The (place, operand) pairs of a row. -/
def Row.places (r : Row) (v : View) : List (Slot × Operand) :=
  [(r.dst, v.dst), (r.a, v.a), (r.b, v.b), (r.c, v.c), (r.d, v.d)]

def Operand.isK : Operand → Bool
  | .k _ => true
  | _ => false

def Operand.isV : Operand → Bool
  | .v _ => true
  | _ => false

/-- R59: a uniform destination takes only uniform sources, an immediate or a special. -/
def Row.uniformOk (r : Row) (v : View) : Bool :=
  !(r.dst.writes && v.dst.isK)
    || (r.places v).all fun x => !(x.1.reads && x.1.used v x.2) || x.2.isK || (match x.2 with
      | .sp _ => true
      | _ => false)

/-- R150, R199: the read count and its hint. -/
def Row.hintOk (r : Row) (v : View) : Bool :=
  if !v.mem then true
  else if r.rc then (decide (v.hdr.hint = .readCount)) == (v.sub % 16 != 0)
  else decide (v.hdr.hint ≠ .readCount)

/-- Checks of one row on the fields of a word, in the order of IllFormed; `none` when all hold. -/
def Row.check (r : Row) (v : View) : Option IllFormed :=
  if !(r.places v).all fun x => x.1.accepts v x.2 then some .operand
  else if !r.uniformOk v then some .uniform
  else if !r.ty.contains v.ty then some .type
  else if !r.rnd.accepts v then some .rounding
  else if !r.space.contains v.space then some .space
  else if !r.scope.contains v.scope then some .scope
  else if !r.sub.accepts v then some .sub
  else if !r.look && v.hdr.look != 0 then some .look
  else if !r.guard && v.hdr.guard.isSome then some .guard
  else if !r.hintOk v then some .hint
  else none

/-- Range checks that no row holds: EQP's index (R245), the number of pairs of an MBR (R151). -/
def Instr.extra : Instr → Option IllFormed
  | .eqp f => if f.imm.toNat ≤ 4095 then none else some .immediate
  | .mbr f => if f.rest.length ≤ 3 then none else some .reserved
  | _ => none

/-- The static checks of R158 order 2. A step of another agent has no word and nothing to check. -/
def Instr.check (i : Instr) : Option IllFormed :=
  match i.row, i.view with
  | some r, some v =>
    match r.check v with
    | some e => some e
    | none => if !i.optionsOk v then some .operand else i.extra
  | _, _ => none

/-- A well-formed instruction: every static check holds. -/
abbrev Instr.wf (i : Instr) : Bool := i.check.isNone

/-- An instruction with an instruction word. -/
def Instr.hasWord (i : Instr) : Bool := i.row.isSome

/-- The registers an instruction word names in the places that satisfy `sel`. -/
def Instr.placeRegs (i : Instr) (sel : Slot → Bool) : List Operand :=
  match i.row, i.view with
  | some r, some v => (r.places v).flatMap fun x => if sel x.1 then x.1.registers v x.2 else []
  | _, _ => []

def allPreds : List Operand := (List.range 16).map fun n => .p false (BitVec.ofNat 4 n)

/-- Registers that an instruction word writes, the link of a call and the predicates of V2P `.unpack` included
(R161, R174). -/
def Instr.regsWritten (i : Instr) : List Operand :=
  i.placeRegs Slot.writes ++ match i with
    | .call _ | .callx _ => [.v 0, .v 1]
    | .v2p f => if f.sub = 1 then allPreds else []
    | _ => []

/-- The predicates that an MBR names. -/
def MbrForm.preds (f : MbrForm) : List (BitVec 4) := (f.first :: f.rest).map (·.pred)

/-- Registers that an instruction word reads, its guard included; DCORV's x is read and written (R197). KRD's
indexed register and the registers of an EQP's map are added at issue. -/
def Instr.regsRead (i : Instr) : List Operand :=
  i.placeRegs (fun s => s.reads || decide (s = .vTrw)) ++ (match i.view with
    | some v => match v.hdr.guard with
      | some g => [.p false g.pred]
      | none => []
    | none => []) ++ match i with
      | .mbr f => f.preds.map fun p => .p false p
      | .p2v f => if f.sub = 1 then allPreds else []
      | _ => []

end Sys2Proof
end

