-- ==== Sys2Proof/Decode.lean ====
section
/-! DEFINITION. Decoding an instruction word (R139, R145 to R152, R155, R156), total on any bits and refusing by
name, and the encoder written from the same layouts. -/

namespace Sys2Proof

/-- The value of a word whose fields, lowest first, have the given widths. -/
def pack : List (Nat × Nat) → Nat
  | [] => 0
  | (w, x) :: fs => x % 2 ^ w + 2 ^ w * pack fs

/-- The fields of a word, lowest first, for the given widths. -/
def unpack : List Nat → Nat → List Nat
  | [], _ => []
  | w :: ws, x => x % 2 ^ w :: unpack ws (x / 2 ^ w)

/-- Widths of bits [95:72], lowest first: HINT, HOLD, LOOK, GPRED, GSENSE, GEN, OP (R145). -/
def headWidths : List Nat := [2, 2, 4, 4, 1, 1, 10]
/-- REG: SUB, SCOPE, SPACE, RND, TYPE, zero, kinds of d, c, b, a, dst, then d, c, b, a, dst (R147, R148). -/
def regWidths : List Nat := [7, 3, 3, 3, 4, 2, 2, 2, 2, 2, 2, 8, 8, 8, 8, 8] ++ headWidths
/-- IMM: immediate, SUB, SCOPE, SPACE, RND, TYPE, kinds of a and dst, then a, dst. -/
def immWidths : List Nat := [32, 7, 3, 3, 3, 4, 2, 2, 8, 8] ++ headWidths
/-- MEM: offset, sub, scope, space, type, kind bits of c, b, base, dst, then c, b, base, dst. -/
def memWidths : List Nat := [20, 6, 3, 3, 4, 1, 1, 1, 1, 8, 8, 8, 8] ++ headWidths
/-- COL: mask, operation, rounding, type, kinds of b, a, dst, then b, a, dst (R152). -/
def colWidths : List Nat := [32, 3, 3, 4, 2, 2, 2, 8, 8, 8] ++ headWidths
/-- BR: slot, line offset, zero (R151). -/
def brWidths : List Nat := [3, 29, 40] ++ headWidths
/-- MBR: T3, P3, T2, P2, T1, P1, T0, HINT, HOLD, LOOK, P0, NPAIR, OP (R151); a target is slot, then line offset. -/
def mbrWidths : List Nat := [3, 12, 4, 3, 12, 4, 3, 12, 4, 3, 12, 2, 2, 4, 4, 2, 10]
/-- LOGX: zero, G, F, TYPE, zero, kinds and operands as REG (R169). -/
def logxWidths : List Nat := [8, 4, 4, 4, 2, 2, 2, 2, 2, 2, 8, 8, 8, 8, 8] ++ headWidths
/-- DCORV: form, tolerance, RND, TYPE, zero, kinds and operands as REG (R197). -/
def dcorvWidths : List Nat := [7, 6, 3, 4, 2, 2, 2, 2, 2, 2, 8, 8, 8, 8, 8] ++ headWidths

/-- Kind code and specifier of an operand (R146). -/
def Operand.code : Operand → Nat × Nat
  | .v n => (0, n.toNat)
  | .k n => (1, n.toNat)
  | .p inv n => (2, n.toNat + if inv then 128 else 0)
  | .sp s => (3, s.code)

/-- The operand of a kind and a specifier (R146). -/
def Operand.ofCode (kind spec : Nat) : Option Operand :=
  match kind with
  | 0 => some (.v (BitVec.ofNat 8 spec))
  | 1 => if spec < 64 then some (.k (BitVec.ofNat 6 spec)) else none
  | 2 => if bits spec 6 4 = 0 then some (.p (bit spec 7) (BitVec.ofNat 4 spec)) else none
  | 3 => (Special.ofCode spec).map .sp
  | _ => none

def Hold.code : Hold → Nat
  | .none => 0 | .a => 1 | .b => 2 | .c => 3

def Hold.ofCode : Nat → Hold
  | 0 => .none | 1 => .a | 2 => .b | _ => .c

def Hint.code : Hint → Nat
  | .normal => 0 | .readCount => 1 | .keep => 2 | .bypass => 3

def Hint.ofCode : Nat → Hint
  | 0 => .normal | 1 => .readCount | 2 => .keep | _ => .bypass

/-- Name the refusal where a field has no meaning. -/
def need {α : Type} (e : IllFormed) : Option α → Except IllFormed α
  | some x => .ok x
  | none => .error e

/-- Refuse unless the condition holds. -/
def insist (e : IllFormed) (c : Bool) : Except IllFormed Unit := if c then .ok () else .error e

/-- The header's fields (R145). -/
def Hdr.ofCode (hint hold look gpred gsense gen : Nat) : Except IllFormed Hdr :=
  if gen = 1 then .ok ⟨some ⟨gsense = 1, BitVec.ofNat 4 gpred⟩, BitVec.ofNat 4 look, Hold.ofCode hold, Hint.ofCode hint⟩
  else if gpred = 0 ∧ gsense = 0 then .ok ⟨none, BitVec.ofNat 4 look, Hold.ofCode hold, Hint.ofCode hint⟩
  else .error .reserved

def Hdr.fields (h : Hdr) (op : Nat) : List (Nat × Nat) :=
  let g := match h.guard with
    | some g => (g.pred.toNat, g.inv.toNat, 1)
    | none => (0, 0, 0)
  [(2, h.hint.code), (2, h.hold.code), (4, h.look.toNat), (4, g.1), (1, g.2.1), (1, g.2.2), (10, op)]

/-- The four coded fields of the modifier block (R148). -/
def modifiers (ty rnd space scope : Nat) : Except IllFormed (Ty × Rnd × Space × Scope) := do
  let t ← need .type (Ty.ofCode ty)
  let r ← need .rounding (Rnd.ofCode rnd)
  let s ← need .space (Space.ofCode space)
  let c ← need .scope (Scope.ofCode scope)
  pure (t, r, s, c)

def parseReg (w : Nat) : Except IllFormed RegForm :=
  match unpack regWidths w with
  | [sub, scope, space, rnd, ty, z, kd, kc, kb, ka, kdst, d, c, b, a, dst, hint, hold, look, gp, gs, gen, _] => do
    insist .reserved (z == 0)
    let h ← Hdr.ofCode hint hold look gp gs gen
    let dst ← need .specifier (Operand.ofCode kdst dst)
    let a ← need .specifier (Operand.ofCode ka a)
    let b ← need .specifier (Operand.ofCode kb b)
    let c ← need .specifier (Operand.ofCode kc c)
    let d ← need .specifier (Operand.ofCode kd d)
    let m ← modifiers ty rnd space scope
    pure ⟨h, dst, a, b, c, d, m.1, m.2.1, m.2.2.1, m.2.2.2, BitVec.ofNat 7 sub⟩
  | _ => .error .reserved

def RegForm.encode (f : RegForm) (op : Nat) : Nat :=
  pack ([(7, f.sub.toNat), (3, f.scope.code), (3, f.space.code), (3, f.rnd.code), (4, f.ty.code), (2, 0),
    (2, f.d.code.1), (2, f.c.code.1), (2, f.b.code.1), (2, f.a.code.1), (2, f.dst.code.1),
    (8, f.d.code.2), (8, f.c.code.2), (8, f.b.code.2), (8, f.a.code.2), (8, f.dst.code.2)] ++ f.hdr.fields op)

def parseImm (w : Nat) : Except IllFormed ImmForm :=
  match unpack immWidths w with
  | [imm, sub, scope, space, rnd, ty, ka, kdst, a, dst, hint, hold, look, gp, gs, gen, _] => do
    let h ← Hdr.ofCode hint hold look gp gs gen
    let dst ← need .specifier (Operand.ofCode kdst dst)
    let a ← need .specifier (Operand.ofCode ka a)
    let m ← modifiers ty rnd space scope
    pure ⟨h, dst, a, m.1, m.2.1, m.2.2.1, m.2.2.2, BitVec.ofNat 7 sub, BitVec.ofNat 32 imm⟩
  | _ => .error .reserved

def ImmForm.encode (f : ImmForm) (op : Nat) : Nat :=
  pack ([(32, f.imm.toNat), (7, f.sub.toNat), (3, f.scope.code), (3, f.space.code), (3, f.rnd.code), (4, f.ty.code),
    (2, f.a.code.1), (2, f.dst.code.1), (8, f.a.code.2), (8, f.dst.code.2)] ++ f.hdr.fields op)

def parseMem (w : Nat) : Except IllFormed MemForm :=
  match unpack memWidths w with
  | [off, sub, scope, space, ty, kc, kb, kbase, kdst, c, b, base, dst, hint, hold, look, gp, gs, gen, _] => do
    let h ← Hdr.ofCode hint hold look gp gs gen
    let dst ← need .specifier (Operand.ofCode kdst dst)
    let base ← need .specifier (Operand.ofCode kbase base)
    let b ← need .specifier (Operand.ofCode kb b)
    let c ← need .specifier (Operand.ofCode kc c)
    let m ← modifiers ty 0 space scope
    pure ⟨h, dst, base, b, c, m.1, m.2.2.1, m.2.2.2, BitVec.ofNat 6 sub, BitVec.ofNat 20 off⟩
  | _ => .error .reserved

def MemForm.encode (f : MemForm) (op : Nat) : Nat :=
  pack ([(20, f.off.toNat), (6, f.sub.toNat), (3, f.scope.code), (3, f.space.code), (4, f.ty.code),
    (1, f.c.code.1), (1, f.b.code.1), (1, f.base.code.1), (1, f.dst.code.1),
    (8, f.c.code.2), (8, f.b.code.2), (8, f.base.code.2), (8, f.dst.code.2)] ++ f.hdr.fields op)

def parseCol (w : Nat) : Except IllFormed ColForm :=
  match unpack colWidths w with
  | [mask, op, rnd, ty, kb, ka, kdst, b, a, dst, hint, hold, look, gp, gs, gen, _] => do
    let h ← Hdr.ofCode hint hold look gp gs gen
    let dst ← need .specifier (Operand.ofCode kdst dst)
    let a ← need .specifier (Operand.ofCode ka a)
    let b ← need .specifier (Operand.ofCode kb b)
    let m ← modifiers ty rnd 0 0
    pure ⟨h, dst, a, b, m.1, m.2.1, BitVec.ofNat 3 op, BitVec.ofNat 32 mask⟩
  | _ => .error .reserved

def ColForm.encode (f : ColForm) (op : Nat) : Nat :=
  pack ([(32, f.mask.toNat), (3, f.op.toNat), (3, f.rnd.code), (4, f.ty.code),
    (2, f.b.code.1), (2, f.a.code.1), (2, f.dst.code.1),
    (8, f.b.code.2), (8, f.a.code.2), (8, f.dst.code.2)] ++ f.hdr.fields op)

def parseBr (w : Nat) : Except IllFormed BrForm :=
  match unpack brWidths w with
  | [slot, line, z, hint, hold, look, gp, gs, gen, _] => do
    insist .reserved (z == 0)
    let h ← Hdr.ofCode hint hold look gp gs gen
    pure ⟨h, BitVec.ofNat 29 line, BitVec.ofNat 3 slot⟩
  | _ => .error .reserved

def BrForm.encode (f : BrForm) (op : Nat) : Nat :=
  pack ([(3, f.slot.toNat), (29, f.line.toNat), (40, 0)] ++ f.hdr.fields op)

/-- A pair of an MBR from its fields (R151). -/
def MbrPair.ofCode (p line slot : Nat) : MbrPair := ⟨BitVec.ofNat 4 p, BitVec.ofNat 12 line, BitVec.ofNat 3 slot⟩

def parseMbr (w : Nat) : Except IllFormed MbrForm :=
  match unpack mbrWidths w with
  | [s3, l3, p3, s2, l2, p2, s1, l1, p1, s0, l0, hint, hold, look, p0, np, _] => do
    insist .reserved ((np == 3 || (s3 == 0 && l3 == 0 && p3 == 0)) && (np ≥ 2 || (s2 == 0 && l2 == 0 && p2 == 0))
      && (np ≥ 1 || (s1 == 0 && l1 == 0 && p1 == 0)))
    pure ⟨BitVec.ofNat 4 look, Hold.ofCode hold, Hint.ofCode hint, MbrPair.ofCode p0 l0 s0,
      [MbrPair.ofCode p1 l1 s1, MbrPair.ofCode p2 l2 s2, MbrPair.ofCode p3 l3 s3].take np⟩
  | _ => .error .reserved

/-- The three fields of pair j after the first, zero where the MBR has no such pair. -/
def MbrForm.pairFields (f : MbrForm) (j : Nat) : Nat × Nat × Nat :=
  match nth f.rest j with
  | some q => (q.slot.toNat, q.line.toNat, q.pred.toNat)
  | none => (0, 0, 0)

def MbrForm.encode (f : MbrForm) (op : Nat) : Nat :=
  let q1 := f.pairFields 0
  let q2 := f.pairFields 1
  let q3 := f.pairFields 2
  pack [(3, q3.1), (12, q3.2.1), (4, q3.2.2), (3, q2.1), (12, q2.2.1), (4, q2.2.2), (3, q1.1), (12, q1.2.1), (4, q1.2.2),
    (3, f.first.slot.toNat), (12, f.first.line.toNat), (2, f.hint.code), (2, f.hold.code), (4, f.look.toNat),
    (4, f.first.pred.toNat), (2, f.rest.length), (10, op)]

def parseLogx (w : Nat) : Except IllFormed LogxForm :=
  match unpack logxWidths w with
  | [z0, g, f, ty, z, kd, kc, kb, ka, kdst, d, c, b, a, dst, hint, hold, look, gp, gs, gen, _] => do
    insist .reserved (z == 0 && z0 == 0 && kd == 0 && d == 0)
    let h ← Hdr.ofCode hint hold look gp gs gen
    let dst ← need .specifier (Operand.ofCode kdst dst)
    let a ← need .specifier (Operand.ofCode ka a)
    let b ← need .specifier (Operand.ofCode kb b)
    let c ← need .specifier (Operand.ofCode kc c)
    let m ← modifiers ty 0 0 0
    pure ⟨h, dst, a, b, c, m.1, BitVec.ofNat 4 f, BitVec.ofNat 4 g⟩
  | _ => .error .reserved

def LogxForm.encode (f : LogxForm) (op : Nat) : Nat :=
  pack ([(8, 0), (4, f.g.toNat), (4, f.f.toNat), (4, f.ty.code), (2, 0),
    (2, 0), (2, f.c.code.1), (2, f.b.code.1), (2, f.a.code.1), (2, f.dst.code.1),
    (8, 0), (8, f.c.code.2), (8, f.b.code.2), (8, f.a.code.2), (8, f.dst.code.2)] ++ f.hdr.fields op)

def parseDcorv (w : Nat) : Except IllFormed DcorvForm :=
  match unpack dcorvWidths w with
  | [form, t, rnd, ty, z, kd, kc, kb, ka, kdst, d, c, b, a, dst, hint, hold, look, gp, gs, gen, _] => do
    insist .reserved (z == 0)
    insist .rounding (rnd == 0)
    let h ← Hdr.ofCode hint hold look gp gs gen
    let dst ← need .specifier (Operand.ofCode kdst dst)
    let a ← need .specifier (Operand.ofCode ka a)
    let b ← need .specifier (Operand.ofCode kb b)
    let c ← need .specifier (Operand.ofCode kc c)
    let d ← need .specifier (Operand.ofCode kd d)
    let m ← modifiers ty 0 0 0
    pure ⟨h, dst, a, b, c, d, m.1, BitVec.ofNat 6 t, BitVec.ofNat 7 form⟩
  | _ => .error .reserved

def DcorvForm.encode (f : DcorvForm) (op : Nat) : Nat :=
  pack ([(7, f.form.toNat), (6, f.t.toNat), (3, 0), (4, f.ty.code), (2, 0),
    (2, f.d.code.1), (2, f.c.code.1), (2, f.b.code.1), (2, f.a.code.1), (2, f.dst.code.1),
    (8, f.d.code.2), (8, f.c.code.2), (8, f.b.code.2), (8, f.a.code.2), (8, f.dst.code.2)] ++ f.hdr.fields op)

/-- An opcode's format and the instruction it makes. -/
inductive Shape
  | reg (mk : RegForm → Instr) | imm (mk : ImmForm → Instr) | mem (mk : MemForm → Instr) | col (mk : ColForm → Instr)
  | br (mk : BrForm → Instr) | mbr (mk : MbrForm → Instr) | logx (mk : LogxForm → Instr) | dcorv (mk : DcorvForm → Instr)

def opcodes.control : List (Nat × Shape) :=
  [(0x000, .reg .nop), (0x001, .br .bra), (0x002, .mbr .mbr), (0x003, .reg .brx), (0x004, .br .call),
   (0x005, .reg .callx), (0x006, .reg .ret), (0x007, .reg .exit), (0x008, .reg .yield), (0x009, .imm .trap),
   (0x00A, .reg .bkpt), (0x00B, .reg .trst)]

def opcodes.integer : List (Nat × Shape) :=
  [(0x080, .reg .iadd), (0x081, .imm .iaddImm), (0x082, .reg .isub), (0x083, .imm .isubImm),
   (0x084, .reg .imul), (0x085, .imm .imulImm), (0x086, .reg .imulh), (0x087, .imm .imulhImm),
   (0x088, .reg .imad), (0x08A, .reg .idiv), (0x08B, .imm .idivImm), (0x08C, .reg .irem),
   (0x08D, .imm .iremImm), (0x08E, .reg .iabs), (0x090, .reg .ineg), (0x092, .reg .imin),
   (0x093, .imm .iminImm), (0x094, .reg .imax), (0x095, .imm .imaxImm), (0x096, .reg .shl),
   (0x097, .imm .shlImm), (0x098, .reg .shr), (0x099, .imm .shrImm), (0x09A, .reg .sar), (0x09B, .imm .sarImm),
   (0x09C, .reg .rotl), (0x09D, .imm .rotlImm), (0x09E, .reg .andB), (0x09F, .imm .andBImm), (0x0A0, .reg .orB),
   (0x0A1, .imm .orBImm), (0x0A2, .reg .xor), (0x0A3, .imm .xorImm), (0x0A4, .reg .notB), (0x0A6, .logx .logx),
   (0x0A8, .reg .popc), (0x0AA, .reg .clz), (0x0AC, .reg .brev), (0x0AE, .reg .bfx), (0x0B0, .reg .bfi),
   (0x0B2, .reg .lea), (0x0B3, .imm .leaImm), (0x0B4, .reg .mov), (0x0B7, .imm .movi), (0x0B8, .reg .prmt),
   (0x0B9, .imm .prmtImm), (0x0BA, .reg .sel), (0x0BC, .reg .icmp), (0x0BD, .imm .icmpImm), (0x0BE, .reg .krd),
   (0x0C0, .reg .plop), (0x0C2, .reg .p2v), (0x0C4, .reg .v2p), (0x0C6, .reg .gets), (0x0C8, .reg .sets),
   (0x0C9, .imm .setsImm)]

def opcodes.floating : List (Nat × Shape) :=
  [(0x180, .reg .fadd), (0x181, .imm .faddImm), (0x182, .reg .fsub), (0x183, .imm .fsubImm),
   (0x184, .reg .fmul), (0x185, .imm .fmulImm), (0x186, .reg .ffma), (0x188, .reg .fmin),
   (0x189, .imm .fminImm), (0x18A, .reg .fmax), (0x18B, .imm .fmaxImm), (0x18C, .reg .fabs),
   (0x18E, .reg .fneg), (0x190, .reg .fcmp), (0x191, .imm .fcmpImm), (0x192, .reg .fclass), (0x194, .reg .fdiv),
   (0x195, .imm .fdivImm), (0x196, .reg .fsqrt), (0x198, .reg .frcpa), (0x19A, .reg .frsqa),
   (0x19C, .reg .fex2), (0x19E, .reg .flg2), (0x1A0, .reg .fsin), (0x1A2, .reg .fcos), (0x1A4, .reg .ftanh),
   (0x1A6, .reg .fscale), (0x1A7, .imm .fscaleImm), (0x1A8, .reg .frnd), (0x1AA, .reg .cvt), (0x1AC, .reg .qnt),
   (0x1AE, .reg .dqnt), (0x1B0, .reg .fdot), (0x1B2, .reg .rngkey), (0x1B4, .reg .rngdraw),
   (0x1B6, .reg .rngskip), (0x1B7, .imm .rngskipImm), (0x1B8, .reg .tagq), (0x1BA, .reg .tagp),
   (0x1BC, .dcorv .dcorv)]

def opcodes.memory : List (Nat × Shape) :=
  [(0x280, .mem .ld), (0x281, .mem .st), (0x282, .mem .atom), (0x283, .mem .red), (0x284, .reg .fence),
   (0x285, .mem .pft), (0x286, .mem .cctl), (0x287, .mem .scatc)]

def opcodes.collective : List (Nat × Shape) :=
  [(0x300, .col .shfl), (0x301, .col .vote), (0x302, .col .wred), (0x303, .col .wscan), (0x304, .col .matchL),
   (0x308, .reg .bar), (0x309, .reg .gbar), (0x30A, .mem .cinit), (0x30B, .mem .cwait), (0x30C, .mem .ctest),
   (0x310, .reg .dqadd), (0x311, .reg .dqtake), (0x312, .reg .dqsteal), (0x313, .reg .dqcnt),
   (0x314, .reg .launch)]

def opcodes.tile : List (Nat × Shape) :=
  [(0x380, .reg .oclm), (0x381, .reg .orls), (0x382, .reg .old), (0x383, .reg .ost), (0x384, .reg .aclm),
   (0x385, .reg .arls), (0x386, .reg .aclr), (0x388, .reg .mma), (0x389, .reg .mmas), (0x38A, .reg .adrn),
   (0x38B, .reg .wupd), (0x390, .reg .cpy), (0x391, .reg .cpyr), (0x392, .reg .isect), (0x393, .reg .dcorm),
   (0x394, .reg .astat)]

def opcodes.system : List (Nat × Shape) :=
  [(0x3C0, .imm .eqp), (0x3C1, .reg .migr), (0x3C2, .reg .migq), (0x3C4, .reg .route), (0x3C5, .reg .rtrel),
   (0x3C6, .reg .rtver), (0x3C8, .imm .svc), (0x3C9, .reg .srd), (0x3CA, .reg .swr), (0x3CB, .reg .tlbi),
   (0x3CC, .reg .eret), (0x3CD, .reg .idle)]

/-- The opcode map (R155); a code that none of the lists holds is unassigned (R156). -/
def opcodeMap (op : Nat) : Option Shape :=
  if op < 0x080 then opcodes.control.lookup op
  else if op < 0x180 then opcodes.integer.lookup op
  else if op < 0x280 then opcodes.floating.lookup op
  else if op < 0x300 then opcodes.memory.lookup op
  else if op < 0x380 then opcodes.collective.lookup op
  else if op < 0x3C0 then opcodes.tile.lookup op
  else opcodes.system.lookup op

/-- Read a word's fields in the format of its opcode. -/
def Shape.parse (s : Shape) (w : Nat) : Except IllFormed Instr :=
  match s with
  | .reg mk => (parseReg w).map mk
  | .imm mk => (parseImm w).map mk
  | .mem mk => (parseMem w).map mk
  | .col mk => (parseCol w).map mk
  | .br mk => (parseBr w).map mk
  | .mbr mk => (parseMbr w).map mk
  | .logx mk => (parseLogx w).map mk
  | .dcorv mk => (parseDcorv w).map mk

/-- Keep an instruction that passes the static checks of R158 order 2. -/
def Instr.checked (i : Instr) : Except IllFormed Instr :=
  match i.check with
  | some e => .error e
  | none => .ok i

/-- The instruction of a 96-bit word, or why the word is ILLEGAL. -/
def decodeWord (w : Nat) : Except IllFormed Instr :=
  match opcodeMap (bits w 95 86) with
  | none => .error .opcode
  | some s => match s.parse w with
    | .error e => .error e
    | .ok i => i.checked

/-- The instruction of slot i of a fetch line (R139). -/
def decodeSlot (line : List Byte) (i : Nat) : Except IllFormed Instr :=
  decodeWord (leNat ((line.drop (12 * i)).take 12))

/-- The opcode of an instruction with a word (R155). -/
def Instr.opcode : Instr → Nat
  | .nop _ => 0x000
  | .bra _ => 0x001
  | .mbr _ => 0x002
  | .brx _ => 0x003
  | .call _ => 0x004
  | .callx _ => 0x005
  | .ret _ => 0x006
  | .exit _ => 0x007
  | .yield _ => 0x008
  | .trap _ => 0x009
  | .bkpt _ => 0x00A
  | .trst _ => 0x00B
  | .iadd _ => 0x080
  | .iaddImm _ => 0x081
  | .isub _ => 0x082
  | .isubImm _ => 0x083
  | .imul _ => 0x084
  | .imulImm _ => 0x085
  | .imulh _ => 0x086
  | .imulhImm _ => 0x087
  | .imad _ => 0x088
  | .idiv _ => 0x08A
  | .idivImm _ => 0x08B
  | .irem _ => 0x08C
  | .iremImm _ => 0x08D
  | .iabs _ => 0x08E
  | .ineg _ => 0x090
  | .imin _ => 0x092
  | .iminImm _ => 0x093
  | .imax _ => 0x094
  | .imaxImm _ => 0x095
  | .shl _ => 0x096
  | .shlImm _ => 0x097
  | .shr _ => 0x098
  | .shrImm _ => 0x099
  | .sar _ => 0x09A
  | .sarImm _ => 0x09B
  | .rotl _ => 0x09C
  | .rotlImm _ => 0x09D
  | .andB _ => 0x09E
  | .andBImm _ => 0x09F
  | .orB _ => 0x0A0
  | .orBImm _ => 0x0A1
  | .xor _ => 0x0A2
  | .xorImm _ => 0x0A3
  | .notB _ => 0x0A4
  | .logx _ => 0x0A6
  | .popc _ => 0x0A8
  | .clz _ => 0x0AA
  | .brev _ => 0x0AC
  | .bfx _ => 0x0AE
  | .bfi _ => 0x0B0
  | .lea _ => 0x0B2
  | .leaImm _ => 0x0B3
  | .mov _ => 0x0B4
  | .movi _ => 0x0B7
  | .prmt _ => 0x0B8
  | .prmtImm _ => 0x0B9
  | .sel _ => 0x0BA
  | .icmp _ => 0x0BC
  | .icmpImm _ => 0x0BD
  | .krd _ => 0x0BE
  | .plop _ => 0x0C0
  | .p2v _ => 0x0C2
  | .v2p _ => 0x0C4
  | .gets _ => 0x0C6
  | .sets _ => 0x0C8
  | .setsImm _ => 0x0C9
  | .fadd _ => 0x180
  | .faddImm _ => 0x181
  | .fsub _ => 0x182
  | .fsubImm _ => 0x183
  | .fmul _ => 0x184
  | .fmulImm _ => 0x185
  | .ffma _ => 0x186
  | .fmin _ => 0x188
  | .fminImm _ => 0x189
  | .fmax _ => 0x18A
  | .fmaxImm _ => 0x18B
  | .fabs _ => 0x18C
  | .fneg _ => 0x18E
  | .fcmp _ => 0x190
  | .fcmpImm _ => 0x191
  | .fclass _ => 0x192
  | .fdiv _ => 0x194
  | .fdivImm _ => 0x195
  | .fsqrt _ => 0x196
  | .frcpa _ => 0x198
  | .frsqa _ => 0x19A
  | .fex2 _ => 0x19C
  | .flg2 _ => 0x19E
  | .fsin _ => 0x1A0
  | .fcos _ => 0x1A2
  | .ftanh _ => 0x1A4
  | .fscale _ => 0x1A6
  | .fscaleImm _ => 0x1A7
  | .frnd _ => 0x1A8
  | .cvt _ => 0x1AA
  | .qnt _ => 0x1AC
  | .dqnt _ => 0x1AE
  | .fdot _ => 0x1B0
  | .rngkey _ => 0x1B2
  | .rngdraw _ => 0x1B4
  | .rngskip _ => 0x1B6
  | .rngskipImm _ => 0x1B7
  | .tagq _ => 0x1B8
  | .tagp _ => 0x1BA
  | .dcorv _ => 0x1BC
  | .ld _ => 0x280
  | .st _ => 0x281
  | .atom _ => 0x282
  | .red _ => 0x283
  | .fence _ => 0x284
  | .pft _ => 0x285
  | .cctl _ => 0x286
  | .scatc _ => 0x287
  | .shfl _ => 0x300
  | .vote _ => 0x301
  | .wred _ => 0x302
  | .wscan _ => 0x303
  | .matchL _ => 0x304
  | .bar _ => 0x308
  | .gbar _ => 0x309
  | .cinit _ => 0x30A
  | .cwait _ => 0x30B
  | .ctest _ => 0x30C
  | .dqadd _ => 0x310
  | .dqtake _ => 0x311
  | .dqsteal _ => 0x312
  | .dqcnt _ => 0x313
  | .launch _ => 0x314
  | .oclm _ => 0x380
  | .orls _ => 0x381
  | .old _ => 0x382
  | .ost _ => 0x383
  | .aclm _ => 0x384
  | .arls _ => 0x385
  | .aclr _ => 0x386
  | .mma _ => 0x388
  | .mmas _ => 0x389
  | .adrn _ => 0x38A
  | .wupd _ => 0x38B
  | .cpy _ => 0x390
  | .cpyr _ => 0x391
  | .isect _ => 0x392
  | .dcorm _ => 0x393
  | .astat _ => 0x394
  | .eqp _ => 0x3C0
  | .migr _ => 0x3C1
  | .migq _ => 0x3C2
  | .route _ => 0x3C4
  | .rtrel _ => 0x3C5
  | .rtver _ => 0x3C6
  | .svc _ => 0x3C8
  | .srd _ => 0x3C9
  | .swr _ => 0x3CA
  | .tlbi _ => 0x3CB
  | .eret _ => 0x3CC
  | .idle _ => 0x3CD
  | .svcAnswer _ _ _ => 0
  | .tlbiCompletion _ _ => 0
  | .idleWake _ _ => 0
  | .checkpointCommit _ => 0
  | .rollback _ _ => 0
  | .serialModeEnd _ => 0
  | .waitCountYield _ => 0
  | .maskwait _ _ => 0
  | .engineCompletion _ => 0
  | .engineThreadFault _ => 0
  | .freplayReissue _ _ => 0
  | .freplayCancel _ _ => 0
  | .recomputeProducerEnd _ _ => 0
  | .faultRecordWrite _ => 0
  | .singleStepStop _ => 0
  | .submit _ _ => 0
  | .cancel _ _ => 0
  | .resume _ _ => 0
  | .hset _ _ => 0
  | .hclr _ _ => 0
  | .load _ _ => 0
  | .unload _ _ => 0
  | .badcmd _ _ => 0
  | .commandCompletion _ _ => 0
  | .launchReady _ => 0
  | .waitObjectPoll _ => 0
  | .dispatch _ => 0
  | .queueAgeing _ _ => 0
  | .gangAgeing _ => 0
  | .gangPlacement _ _ _ _ => 0
  | .stageCopy _ => 0
  | .quantumExpiry _ => 0
  | .preemption _ => 0
  | .saved _ => 0
  | .resumption _ _ _ _ => 0
  | .launchTimeout _ => 0
  | .launchEnded _ => 0
  | .schedMigrationRequest _ => 0
  | .schedMigrationWithdraw _ => 0
  | .register _ => 0
  | .deregister _ => 0
  | .setthr _ => 0
  | .refresh _ => 0
  | .badrec _ => 0
  | .idleSample _ => 0
  | .etesianInterval _ => 0
  | .copyWritten _ _ _ => 0
  | .copyVerified _ _ _ => 0
  | .copyfail _ _ _ _ => 0
  | .copyTimeout _ _ _ => 0
  | .publication _ => 0
  | .livefail _ _ _ _ => 0
  | .queueClosure _ _ _ => 0
  | .freed _ _ _ => 0
  | .regionMerge _ => 0
  | .uncorrectableError _ _ => 0
  | .flitReceive _ => 0
  | .cxlLinkDown _ => 0
  | .hostWindowAccess _ _ _ _ => 0
  | .reset _ => 0
  | .decodeTableInstall _ => 0
  | .attestationReport _ => 0
  | .registerWrite _ _ _ => 0
  | .mmaCompletion _ => 0

/-- The word of an instruction; 0 for a step of another agent, which has none. -/
def encodeWord (i : Instr) : Nat :=
  match i.payload with
  | some (.reg f) => f.encode i.opcode
  | some (.imm f) => f.encode i.opcode
  | some (.mem f) => f.encode i.opcode
  | some (.col f) => f.encode i.opcode
  | some (.br f) => f.encode i.opcode
  | some (.mbr f) => f.encode i.opcode
  | some (.logx f) => f.encode i.opcode
  | some (.dcorv f) => f.encode i.opcode
  | none => 0

/-- The bytes of an instruction's slot (R139). -/
def encode (i : Instr) : List Byte := leBytes 12 (encodeWord i)

/-- The instruction of a word numbered as the opcode table numbers it. The table gives its rows no bits; a word is
one slot of 96 bits, stored little-endian (R139). -/
def decodeTableWord (_nbits w : Nat) : Option Instr :=
  if w < 2 ^ 96 then
    match decodeSlot (leBytes 12 w) 0 with
    | .ok i => some i
    | .error _ => none
  else none

end Sys2Proof
end

