-- ==== Sys2Proof/Machine/Float.lean ====
section
/-! DEFINITION. Number formats and arithmetic (04): exact values, the one rounding operation (R75, R77, R84 to R86),
conversions to integers (R78), comparison (R88, R89), the canonical tree (R90), B4 (R79 to R83) and the
approximations (R184, R185). Flags are the byte LSTAT[7:0] of R62. -/

namespace Sys2Proof

/-- The flag byte of R62. -/
abbrev Flags := BitVec 8

def fDZ : Flags := 0x01
def fOV : Flags := 0x02
def fNV : Flags := 0x04
def fDZF : Flags := 0x08
def fOF : Flags := 0x10
def fUF : Flags := 0x20
def fNX : Flags := 0x40
def fUZ : Flags := 0x80

/-- A flag where a condition holds. -/
def Flags.on (c : Bool) (f : Flags) : Flags := if c then f else 0

/-- An exact value: a NaN that raises NV or does not, an infinity, or ±m·2^e. -/
inductive FVal
  | nan (nv : Bool)
  | inf (neg : Bool)
  | fin (neg : Bool) (m : Nat) (e : Int)
deriving DecidableEq, Repr

/-- Exponent and fraction bits of a format (R74). -/
structure Fmt where
  eb : Nat
  fb : Nat
  e4m3 : Bool := false
deriving DecidableEq, Repr

def Ty.fmt : Ty → Fmt
  | .f64 => ⟨11, 52, false⟩
  | .f16 => ⟨5, 10, false⟩
  | .bf16 => ⟨8, 7, false⟩
  | .e5m2 => ⟨5, 2, false⟩
  | .e4m3 => ⟨4, 3, true⟩
  | _ => ⟨8, 23, false⟩

def Fmt.bias (f : Fmt) : Nat := 2 ^ (f.eb - 1) - 1
/-- Exponent of the smallest normal number. -/
def Fmt.emin (f : Fmt) : Int := 1 - (f.bias : Int)
/-- Encoding of the largest finite magnitude. -/
def Fmt.maxCode (f : Fmt) : Nat := if f.e4m3 then 0x7E else (2 ^ f.eb - 1) * 2 ^ f.fb - 1
def Fmt.signBit (f : Fmt) : Nat := 2 ^ (f.eb + f.fb)
/-- The canonical NaN. -/
def Fmt.nan (f : Fmt) : Nat := if f.e4m3 then 0x7F else (2 ^ f.eb - 1) * 2 ^ f.fb + 2 ^ (f.fb - 1)
/-- The encoding of an infinity; E4M3 has none. -/
def Fmt.inf (f : Fmt) : Nat := (2 ^ f.eb - 1) * 2 ^ f.fb

/-- Number of bits of a natural number. -/
def bitLen (n : Nat) : Nat := if n = 0 then 0 else Nat.log2 n + 1

/-- The value of an encoding (R74, R76). -/
def FVal.decode (f : Fmt) (x : Nat) : FVal :=
  let neg := x.testBit (f.eb + f.fb)
  let ex := bits x (f.eb + f.fb - 1) f.fb
  let fr := x % 2 ^ f.fb
  if f.e4m3 && ex == 15 && fr == 7 then .nan false
  else if !f.e4m3 && ex == 2 ^ f.eb - 1 then if fr = 0 then .inf neg else .nan (!fr.testBit (f.fb - 1))
  else if ex = 0 then .fin neg fr (f.emin - f.fb)
  else .fin neg (fr + 2 ^ f.fb) ((ex : Int) - f.bias - f.fb)

def FVal.isNan : FVal → Bool
  | .nan _ => true
  | _ => false

def FVal.isFin : FVal → Bool
  | .fin _ _ _ => true
  | _ => false

def FVal.isZero : FVal → Bool
  | .fin _ m _ => m == 0
  | _ => false

def FVal.neg : FVal → FVal
  | .nan nv => .nan nv
  | .inf s => .inf (!s)
  | .fin s m e => .fin (!s) m e

def FVal.abs : FVal → FVal
  | .nan nv => .nan nv
  | .inf _ => .inf false
  | .fin _ m e => .fin false m e

/-- The sign of a value that is no NaN. -/
def FVal.sign : FVal → Bool
  | .nan _ => false
  | .inf s => s
  | .fin s _ _ => s

/-- An integer as an exact value. -/
def FVal.ofInt (n : Int) : FVal := .fin (n < 0) n.natAbs 0

/-- x · 2^n. -/
def FVal.scale (x : FVal) (n : Int) : FVal :=
  match x with
  | .fin s m e => .fin s m (e + n)
  | x => x

/-- The exact product (R75, R76). -/
def FVal.mul (x y : FVal) : FVal :=
  match x, y with
  | .nan a, .nan b => .nan (a || b)
  | .nan a, _ => .nan a
  | _, .nan b => .nan b
  | .inf s, .inf t => .inf (s != t)
  | .inf s, .fin t m _ => if m = 0 then .nan true else .inf (s != t)
  | .fin s m _, .inf t => if m = 0 then .nan true else .inf (s != t)
  | .fin s m e, .fin t n d => .fin (s != t) (m * n) (e + d)

/-- A finite value in units of 2^e0, for e0 at or below its exponent. -/
def FVal.units (e0 : Int) : FVal → Int
  | .fin s m e => if s then -((m * 2 ^ (e - e0).toNat : Nat) : Int) else ((m * 2 ^ (e - e0).toNat : Nat) : Int)
  | _ => 0

/-- Smallest exponent of the nonzero finite terms. -/
def FVal.minExp (xs : List FVal) : Int :=
  (xs.foldl (fun (acc : Option Int) x => match x with
    | .fin _ m e => if m = 0 then acc else some (match acc with
      | some a => min a e
      | none => e)
    | _ => acc) none).getD 0

/-- The exact sum of a list of terms; the sign of an exact zero by R75. Infinities of both signs make the sum invalid, beside a quiet NaN
too [16]. -/
def FVal.sum (xs : List FVal) (rnd : Rnd) : FVal :=
  let nans := xs.filter FVal.isNan
  let pinf := xs.contains (.inf false)
  let ninf := xs.contains (.inf true)
  if !nans.isEmpty || (pinf && ninf) then .nan ((pinf && ninf) || xs.contains (.nan true))
  else if pinf then .inf false
  else if ninf then .inf true
  else
    let e0 := FVal.minExp xs
    let total := (xs.map (FVal.units e0)).foldl (· + ·) 0
    if total = 0 then
      if xs.all fun x => x.isZero && x.sign then .fin true 0 0
      else if xs.all fun x => x.isZero && !x.sign then .fin false 0 0
      else .fin (decide (rnd = .rd)) 0 0
    else .fin (total < 0) total.natAbs e0

/-- x + y, exactly. -/
def FVal.add (x y : FVal) (rnd : Rnd) : FVal := FVal.sum [x, y] rnd

/-- The integer square root, by bits from 2^n down. -/
def isqrtBits : Nat → Nat → Nat → Nat
  | 0, x, r => if (r + 1) * (r + 1) ≤ x then r + 1 else r
  | n + 1, x, r =>
    let r' := r + 2 ^ (n + 1)
    isqrtBits n x (if r' * r' ≤ x then r' else r)

def isqrt (x : Nat) : Nat := isqrtBits (bitLen x / 2 + 1) x 0

/-- A value with a sticky bit below: a truncated magnitude of many bits, odd when anything was cut. -/
def sticky (q : Nat) (cut : Bool) : Nat := 2 * q + cut.toNat

/-- x / y to well beyond any format's precision, with a sticky bit, so that it rounds as the exact quotient. -/
def FVal.div (x y : FVal) : FVal :=
  match x, y with
  | .nan a, .nan b => .nan (a || b)
  | .nan a, _ => .nan a
  | _, .nan b => .nan b
  | .inf _, .inf _ => .nan true
  | .inf s, .fin t _ _ => .inf (s != t)
  | .fin s _ _, .inf t => .fin (s != t) 0 0
  | .fin s m e, .fin t n d =>
    if n = 0 then if m = 0 then .nan true else .inf (s != t)
    else if m = 0 then .fin (s != t) 0 0
    else
      let k := 192 + bitLen n - bitLen m
      let q := m * 2 ^ k / n
      .fin (s != t) (sticky q (m * 2 ^ k % n != 0)) (e - d - k - 1)

/-- The square root, likewise. -/
def FVal.sqrt (x : FVal) : FVal :=
  match x with
  | .nan a => .nan a
  | .inf s => if s then .nan true else .inf false
  | .fin s m e =>
    if m = 0 then .fin s 0 0
    else if s then .nan true
    else
      let odd := (e % 2).toNat
      let a := m * 2 ^ (odd + 384)
      let r := isqrt a
      .fin false (sticky r (r * r != a)) ((e - odd) / 2 - 192 - 1)

/-- The low bits of a draw that SR uses for a destination (R86). -/
def Ty.srBits (t : Ty) : Nat := if t.narrow then 16 else 32

/-- Whether a magnitude n·2^sh + rem rounds up to n + 1 (R85, R86). -/
def roundUp (rnd : Rnd) (neg : Bool) (n rem sh b draw : Nat) : Bool :=
  match rnd with
  | .rn => 2 * rem > 2 ^ sh || (2 * rem == 2 ^ sh && n % 2 == 1)
  | .rz => false
  | .ru => rem != 0 && !neg
  | .rd => rem != 0 && neg
  | .sr => rem != 0 && rem * 2 ^ b / 2 ^ sh + draw % 2 ^ b ≥ 2 ^ b

/-- Round m·2^e to a multiple of 2^q: the multiple, and whether it is inexact. -/
def roundTo2 (rnd : Rnd) (neg : Bool) (m : Nat) (e q : Int) (b draw : Nat) : Nat × Bool :=
  if q ≤ e then (m * 2 ^ (e - q).toNat, false)
  else
    let sh := (q - e).toNat
    let n := m / 2 ^ sh
    let rem := m % 2 ^ sh
    (if roundUp rnd neg n rem sh b draw then n + 1 else n, rem != 0)

/-- The encoding of n·2^q for n up to 2^(fb+1), with q the quantum of its range. -/
def Fmt.compose (f : Fmt) (n : Nat) (q : Int) : Nat :=
  if n < 2 ^ f.fb then n
  else
    let (n, q) := if n ≥ 2 ^ (f.fb + 1) then (n / 2, q + 1) else (n, q)
    (q + f.fb - f.emin + 1).toNat * 2 ^ f.fb + (n - 2 ^ f.fb)

/-- Overflow of a rounded magnitude (R77): encoding without the sign. -/
def Fmt.overflow (f : Fmt) (rnd : Rnd) (neg : Bool) : Nat :=
  if f.e4m3 then f.maxCode
  else match rnd with
    | .rn | .sr => f.inf
    | .rz => f.maxCode
    | .ru => if neg then f.maxCode else f.inf
    | .rd => if neg then f.inf else f.maxCode

/-- Round an exact finite value into a format with its flags (R75, R77, R85, R86). Under SR the rounding that judges tininess takes the same
draw [16]. -/
def Fmt.roundFin (f : Fmt) (rnd : Rnd) (b draw : Nat) (neg : Bool) (m : Nat) (e : Int) : Nat × Flags :=
  let sgn := if neg then f.signBit else 0
  if m = 0 then (sgn, 0)
  else
    let top : Int := e + bitLen m - 1
    let emax : Int := if f.e4m3 then 8 else f.bias
    if top > emax then (sgn + f.overflow rnd neg, fOF ||| fNX)
    else
      let low : Int := f.emin - f.fb - 48
      let (m, e) := if top < low then (1, low) else (m, e)
      let top : Int := e + bitLen m - 1
      let q : Int := max top f.emin - f.fb
      let big := Fmt.compose f (m / 2 ^ (q - e).toNat * 2 ^ (e - q).toNat) q ≥ f.maxCode
        && (roundTo2 .rz neg m e q b draw).2
      let rnd' := if rnd = .sr && big then .rn else rnd
      let (n, nx) := roundTo2 rnd' neg m e q b draw
      let code := f.compose n q
      if code > f.maxCode then (sgn + f.overflow rnd' neg, fOF ||| fNX)
      else
        let tiny := top < f.emin &&
          (let (n', _) := roundTo2 rnd' neg m e (top - f.fb) b draw
           !(top == f.emin - 1 && n' == 2 ^ (f.fb + 1)))
        (sgn + code, Flags.on nx fNX ||| Flags.on (nx && tiny) fUF)

/-- RoundTo(T, v, Mode): the encoding and the flags. -/
def roundTo (t : Ty) (rnd : Rnd) (draw : Nat) (v : FVal) : Nat × Flags :=
  let f := t.fmt
  match v with
  | .nan nv => (f.nan, Flags.on nv fNV)
  | .inf s => if f.e4m3 then (f.nan, fNV) else ((if s then f.signBit else 0) + f.inf, 0)
  | .fin s m e => f.roundFin rnd t.srBits draw s m e

/-- Round to p significant bits with an unbounded exponent, in RN (R90 for DCORM, Sig16 of R184). -/
def FVal.roundSig (p : Nat) (v : FVal) : FVal :=
  match v with
  | .fin s m e =>
    if m = 0 then v
    else
      let q : Int := e + bitLen m - p
      .fin s (roundTo2 .rn s m e q 0 0).1 q
  | v => v

/-- The integral value that a mode chooses (R179 FRND, R78), and whether it differs. -/
def roundInt (rnd : Rnd) (b draw : Nat) (neg : Bool) (m : Nat) (e : Int) : Nat × Bool :=
  if e < -4096 then roundTo2 rnd neg (if m = 0 then 0 else 1) (-4096) 0 b draw else roundTo2 rnd neg m e 0 b draw

/-- The range of an integer type (R73). -/
def Ty.intMin (t : Ty) : Int := if t.isSigned then -(2 ^ (t.width - 1) : Nat) else 0
def Ty.intMax (t : Ty) : Int := if t.isSigned then (2 ^ (t.width - 1) : Nat) - 1 else (2 ^ t.width : Nat) - 1

/-- The low bits of an integer as an encoding of its type. -/
def Ty.wrap (t : Ty) (x : Int) : Nat := (x % (2 ^ t.width : Nat)).toNat

/-- The integer of an encoding (R73). -/
def Ty.toInt (t : Ty) (x : Nat) : Int :=
  let x := x % 2 ^ t.width
  if t.isSigned && x.testBit (t.width - 1) then (x : Int) - (2 ^ t.width : Nat) else x

/-- Floating point to integer (R78). -/
def toIntSat (t : Ty) (rnd : Rnd) (draw : Nat) (v : FVal) : Nat × Flags :=
  match v with
  | .nan _ => (0, fNV)
  | .inf s => (t.wrap (if s then t.intMin else t.intMax), fNV)
  | .fin s m e =>
    if m ≠ 0 && e + bitLen m > 80 then (t.wrap (if s then t.intMin else t.intMax), fNV)
    else
      let (n, nx) := roundInt rnd 32 draw s m e
      let x : Int := if s then -(n : Int) else n
      if x < t.intMin then (t.wrap t.intMin, fNV)
      else if x > t.intMax then (t.wrap t.intMax, fNV)
      else (t.wrap x, Flags.on nx fNX)

/-- Exact comparison of two values that are no NaN: -1, 0 or 1. -/
def FVal.cmp (x y : FVal) : Int :=
  match x, y with
  | .inf s, .inf t => if s = t then 0 else if s then -1 else 1
  | .inf s, _ => if s then -1 else 1
  | _, .inf t => if t then 1 else -1
  | x, y =>
    let e0 := FVal.minExp [x, y]
    let a := x.units e0
    let b := y.units e0
    if a < b then -1 else if a = b then 0 else 1

def FVal.lt (x y : FVal) : Bool := x.cmp y < 0
def FVal.le (x y : FVal) : Bool := x.cmp y ≤ 0

/-- The six relations in the order of R172 and R181. -/
def relOf (rel : Nat) (lt eq : Bool) : Bool :=
  match rel with
  | 0 => eq | 1 => !eq | 2 => lt | 3 => lt || eq | 4 => !(lt || eq) | _ => !lt

/-- A NaN that signals (R76). -/
def FVal.signals : FVal → Bool
  | .nan nv => nv
  | _ => false

/-- FCMP without `.tot` (R88, R181): the predicate and the flags. -/
def FVal.rel (rel : Nat) (x y : FVal) : Bool × Flags :=
  let sig := x.signals || y.signals
  if x.isNan || y.isNan then
    if rel = 6 then (true, Flags.on sig fNV)
    else (rel == 1, Flags.on (sig || (2 ≤ rel && rel ≤ 5)) fNV)
  else if rel = 6 then (false, 0)
  else (relOf rel (x.lt y) (x.cmp y = 0), 0)

/-- The totalOrder key of R89. -/
def totalKey (w x : Nat) : Nat := if x.testBit (w - 1) then 2 ^ w - 1 - x else x + 2 ^ (w - 1)

/-- FMIN and FMAX without `.tot` on encodings (R88). -/
def fMinMax (t : Ty) (isMax : Bool) (a b : Nat) : Nat × Flags :=
  let x := FVal.decode t.fmt a
  let y := FVal.decode t.fmt b
  let nv := Flags.on (x.signals || y.signals) fNV
  if x.isNan && y.isNan then (t.fmt.nan, nv)
  else if x.isNan then (b, nv)
  else if y.isNan then (a, nv)
  else
    let lt := x.lt y || (x.cmp y = 0 && x.sign && !y.sign)
    (if lt != isMax then a else b, nv)

/-- The canonical tree (R90) over elements that may be ABSENT. `op` gives a node's value and flags; the tree's
flags are the OR of its nodes'. Fuel: any bound on the depth. -/
def reduceTree {α : Type} (op : α → α → α × Flags) : Nat → List (Option α) → Option α × Flags
  | 0, xs => (xs.head?.join, 0)
  | fuel + 1, xs =>
    match xs with
    | [] => (none, 0)
    | [x] => (x, 0)
    | xs =>
      let p := 2 ^ (bitLen (xs.length - 1) - 1)
      let a := reduceTree op fuel (xs.take p)
      let b := reduceTree op fuel (xs.drop p)
      match a.1, b.1 with
      | none, y => (y, a.2 ||| b.2)
      | x, none => (x, a.2 ||| b.2)
      | some x, some y =>
        let r := op x y
        (some r.1, a.2 ||| b.2 ||| r.2)

/-- The tree, with enough fuel for its length. -/
def reduce {α : Type} (op : α → α → α × Flags) (xs : List (Option α)) : Option α × Flags :=
  reduceTree op (bitLen xs.length + 1) xs

/-! B4 (R79 to R83). -/

/-- Magnitudes of a block type's codes 0 to 7, in halves (R80); type 00 has also −8. -/
def b4Grid (ty : Nat) (neg : Bool) : List Nat :=
  match ty with
  | 0 => if neg then [0, 2, 4, 6, 8, 10, 12, 14, 16] else [0, 2, 4, 6, 8, 10, 12, 14]
  | 1 => [0, 1, 2, 3, 4, 6, 8, 12]
  | 2 => [0, 2, 4, 8, 16, 32, 64, 128]
  | _ => [0, 2, 4, 6, 8, 12, 16, 24]

/-- The code of grid index i with a sign (R79, R81: a zero is coded 0). -/
def b4Code (ty : Nat) (neg : Bool) (i : Nat) : Nat :=
  if i = 0 then 0 else if neg then (if ty = 0 then 16 - i else 8 + i) else i

/-- The element value of a code (R80). -/
def b4Elem (ty code : Nat) : FVal :=
  if ty = 0 then .fin (code ≥ 8) (2 * if code ≥ 8 then 16 - code else code) (-1)
  else
    let m := (nth (b4Grid ty false) (code % 8)).getD 0
    .fin (code > 8) m (-1)

/-- A code's block value under a scale byte (R79, R80). -/
def b4Value (code scale : Nat) : FVal := (b4Elem (bits scale 7 6) code).scale ((bits scale 5 0 : Int) - 32)

/-- Index of the largest grid entry at or below num/den. -/
def gridIndex (num den : Nat) : List Nat → Nat → Nat → Nat
  | [], _, best => best
  | g :: gs, i, best => gridIndex num den gs (i + 1) (if g * den ≤ num then i else best)

/-- Round a finite element onto a block type's grid at exponent ex: grid index, inexact, saturated (R81, R85). -/
def b4Round (ty ex : Nat) (rnd : Rnd) (draw : Nat) (neg : Bool) (m : Nat) (e : Int) : Nat × Bool × Bool :=
  let grid := b4Grid ty neg
  let last := grid.length - 1
  -- the scaled magnitude in halves is m·2^s
  let s : Int := e + 32 - ex + 1
  let big := m ≠ 0 && s + bitLen m > 64
  let (m, s) := if m ≠ 0 && s + bitLen m < -64 then (1, (-64 : Int)) else (m, s)
  let num := if big then 2 ^ 64 else m * 2 ^ s.toNat
  let den := 2 ^ (-s).toNat
  let lo := gridIndex num den grid 0 0
  let g := (nth grid lo).getD 0
  if lo = last then (last, g * den != num, g * den < num)
  else
    let h := (nth grid (lo + 1)).getD 0
    let up := match rnd with
      | .rn => 2 * (num - g * den) > (h - g) * den || (2 * (num - g * den) == (h - g) * den && lo % 2 == 1)
      | .rz => false
      | .ru => num != g * den && !neg
      | .rd => num != g * den && neg
      | .sr => num != g * den && (num - g * den) * 2 ^ 16 / ((h - g) * den) + draw % 2 ^ 16 ≥ 2 ^ 16
    (if up then lo + 1 else lo, num != g * den, false)

/-- Whether an element saturates at exponent ex (R81); a NaN takes no part, an infinity always does (R83). -/
def b4Saturates (ty ex : Nat) (x : FVal) : Bool :=
  match x with
  | .nan _ => false
  | .inf _ => true
  | .fin s m e => (b4Round ty ex .rz 0 s m e).2.2

/-- The smallest exponent at which nothing saturates, searched upwards from ex; 63 where there is none (R81). -/
def b4Exp (ty : Nat) (xs : List FVal) : Nat → Nat → Nat
  | 0, _ => 63
  | fuel + 1, ex => if xs.any (b4Saturates ty ex) then b4Exp ty xs fuel (ex + 1) else ex

/-- u_T: nonzero elements that RN rounds to zero (R82). -/
def b4Lost (ty ex : Nat) (xs : List FVal) : Nat :=
  (xs.filter fun x => match x with
    | .fin s m e => m != 0 && (b4Round ty ex .rn 0 s m e).1 == 0
    | _ => false).length

/-- One element's code, flags, and whether a nonzero element became zero (R81 to R83). A NaN, coded as zero, is not counted as such an
element: it sets NV alone [16]. -/
def b4Encode (ty ex : Nat) (rnd : Rnd) (draw : Nat) (x : FVal) : Nat × Flags × Bool :=
  match x with
  | .nan _ => (0, fNV, false)
  | .inf s => (b4Code ty s ((b4Grid ty s).length - 1), fOF ||| fNX, false)
  | .fin s m e =>
    let r := b4Round ty ex rnd draw s m e
    let lost := m != 0 && r.1 == 0
    (b4Code ty s r.1, Flags.on r.2.1 fNX ||| Flags.on r.2.2 (fOF ||| fNX) ||| Flags.on lost fUZ, lost)

/-! Approximations (R184, R185): fixed-point arithmetic with 256 fraction bits. -/

def fx : Nat := 256
def fxOne : Nat := 2 ^ fx
/-- ln 2 and π in units of 2^−256, rounded down. -/
def fxLn2 : Nat := 0xb17217f7d1cf79abc9e3b39803f2f6af40f343267298b62d8a0d175b8baafa2b
def fxPi : Nat := 0x3243f6a8885a308d313198a2e03707344a4093822299f31d0082efa98ec4e6c89

/-- Σ y^k / k! from the term t of index k on: e^y for y in [0, 1). -/
def fxExpFrom (y : Nat) : Nat → Nat → Nat → Nat
  | 0, _, _ => 0
  | fuel + 1, t, k => t + fxExpFrom y fuel (t * y / fxOne / (k + 1)) (k + 1)

/-- 2^f for a fraction f in [0, 1), in [1, 2]. -/
def fxExp2 (f : Nat) : Nat := fxExpFrom (f * fxLn2 / fxOne) 72 fxOne 0

/-- 2^x: integer part and fixed-point factor in [1, 2]. -/
def exp2Parts (neg : Bool) (m : Nat) (e : Int) : Int × Nat :=
  -- |x| in units of 2^−256
  let mag := if e + fx ≥ 0 then m * 2 ^ (e + fx).toNat else m / 2 ^ (-(e + fx)).toNat
  let n := mag / fxOne
  let f := mag % fxOne
  if neg then if f = 0 then (-(n : Int), fxOne) else (-(n : Int) - 1, fxExp2 (fxOne - f)) else ((n : Int), fxExp2 f)

/-- 2^x as an exact-enough value, for finite x. -/
def approxExp2 (neg : Bool) (m : Nat) (e : Int) : FVal :=
  if m = 0 then .fin false 1 0
  else if e + bitLen m > 64 then .fin false 1 (if neg then -(2 ^ 40 : Nat) else (2 ^ 40 : Nat))
  else if e + bitLen m < -200 then .fin false (if neg then 2 ^ 64 - 1 else 2 ^ 64 + 1) (-64)
  else
    let p := exp2Parts neg m e
    .fin false p.2 (p.1 - fx)

/-- Σ z^(2k+1)/(2k+1): atanh z for |z| ≤ 1/3, from the power w of index k on. -/
def fxAtanhFrom (z2 : Nat) : Nat → Nat → Nat → Nat
  | 0, _, _ => 0
  | fuel + 1, w, k => w / (2 * k + 1) + fxAtanhFrom z2 fuel (w * z2 / fxOne) (k + 1)

/-- log₂ x for finite x > 0, x = m·2^e. -/
def approxLog2 (m : Nat) (e : Int) : FVal :=
  let l := bitLen m
  -- y = m / 2^(l-1) in [1, 2), taken to [3/4, 3/2)
  let ex : Int := e + l - 1
  let half := 2 * m ≥ 3 * 2 ^ (l - 1)
  let one := if half then 2 ^ l else 2 ^ (l - 1)
  let ex := if half then ex + 1 else ex
  if m = one then FVal.ofInt ex
  else
    let neg := m < one
    let d := if neg then one - m else m - one
    let z := d * fxOne / (m + one)
    let a := fxAtanhFrom (z * z / fxOne) 90 z 0
    let lg := 2 * a * fxOne / fxLn2
    FVal.sum [FVal.ofInt ex, .fin neg lg (-(fx : Int))] .rn

/-- Σ ± z^(2k+1)/(2k+1)!: sin z, from the term t of index k on, split into the sums of even and odd k. -/
def fxSinFrom (z2 : Nat) : Nat → Nat → Nat → Nat × Nat
  | 0, _, _ => (0, 0)
  | fuel + 1, t, k =>
    let r := fxSinFrom z2 fuel (t * z2 / fxOne / ((2 * k + 2) * (2 * k + 3))) (k + 1)
    (t + r.2, r.1)

/-- sin(π·y) for y = n/d in (0, 1/2). -/
def sinHalf (n d : Nat) : FVal :=
  if n * 2 ^ 64 < d then
    -- the cubic term is below 2^−128 of the value
    .fin false (n * fxPi) (-(fx : Int) - (Nat.log2 d : Int))
  else
    let y := n * fxOne / d
    let z := y * fxPi / fxOne
    let r := fxSinFrom (z * z / fxOne) 48 z 0
    .fin false (r.1 - r.2) (-(fx : Int))

/-- sin(π·x) for x = ±m·2^e that is no integer. -/
def approxSinPi (neg : Bool) (m : Nat) (e : Int) : FVal :=
  -- e < 0 here, since every x with e ≥ 0 is an integer
  let d := 2 ^ (-e).toNat
  let r := m % (2 * d)
  let flip := r > d
  let r := if flip then r - d else r
  let r := if 2 * r > d then d - r else r
  let v := if 2 * r = d then .fin false 1 0 else sinHalf r d
  if neg != flip then v.neg else v

/-- tanh x for finite x ≠ 0. -/
def approxTanh (neg : Bool) (m : Nat) (e : Int) : FVal :=
  if e + bitLen m < -64 then .fin neg (m * 2 ^ 64 - 1) (e - 64)
  else if e + bitLen m > 7 then .fin neg (2 ^ 64 - 1) (-64)
  else
    -- u = e^(−2|x|) = 2^(−2|x|/ln 2)
    let mag := if e + fx ≥ 0 then m * 2 ^ (e + fx).toNat else m / 2 ^ (-(e + fx)).toNat
    let t := 2 * mag * fxOne / fxLn2
    let p := exp2Parts true t (-(fx : Int))
    let u := p.2 / 2 ^ (-p.1).toNat
    .fin neg ((fxOne - u) * fxOne / (fxOne + u)) (-(fx : Int))

/-- 1/√x for finite x > 0. -/
def approxRsqrt (m : Nat) (e : Int) : FVal :=
  let odd := (e % 2).toNat
  let m' := m * 2 ^ odd
  let k := 128 + bitLen m'
  let r := isqrt (2 ^ (2 * k) / m')
  .fin false (sticky r (r * r * m' != 2 ^ (2 * k))) (-(e - odd) / 2 - k - 1)

/-- The seven approximations, in opcode order (R184). -/
inductive Approx | rcp | rsq | ex2 | lg2 | sin | cos | tanh
deriving DecidableEq, Repr

/-- x is an integer plus a half, or an integer. -/
def isHalfInt (m : Nat) (e : Int) : Bool := e < 0 && m % 2 ^ (-e).toNat * 2 == 2 ^ (-e).toNat
def isInt (m : Nat) (e : Int) : Bool := m == 0 || 0 ≤ e || m % 2 ^ (-e).toNat == 0

/-- Special inputs (R185), and otherwise f(x) as an exact-enough value: value, flags. -/
def approxValue (f : Approx) (x : FVal) : FVal × Flags :=
  match f, x with
  | _, .nan nv => (.nan false, Flags.on nv fNV)
  | .rcp, .inf s => (.fin s 0 0, 0)
  | .rcp, .fin s m e => if m = 0 then (.inf s, fDZF) else (FVal.div (.fin false 1 0) (.fin s m e), 0)
  | .rsq, .inf s => if s then (.nan false, fNV) else (.fin false 0 0, 0)
  | .rsq, .fin s m e =>
    if m = 0 then (.inf s, fDZF) else if s then (.nan false, fNV) else (approxRsqrt m e, 0)
  | .ex2, .inf s => if s then (.fin false 0 0, 0) else (.inf false, 0)
  | .ex2, .fin s m e => (approxExp2 s m e, 0)
  | .lg2, .inf s => if s then (.nan false, fNV) else (.inf false, 0)
  | .lg2, .fin s m e =>
    if m = 0 then (.inf true, fDZF) else if s then (.nan false, fNV) else (approxLog2 m e, 0)
  | .sin, .inf _ => (.nan false, fNV)
  | .sin, .fin s m e => if isInt m e then (.fin s 0 0, 0) else (approxSinPi s m e, 0)
  | .cos, .inf _ => (.nan false, fNV)
  | .cos, .fin _ m e =>
    if isHalfInt m e then (.fin false 0 0, 0)
    else if m = 0 then (.fin false 1 0, 0)
    else if 0 ≤ e then (.fin (0 == e && m % 2 == 1) 1 0, 0)
    else (approxSinPi false (2 * m + 2 ^ (-e).toNat) (e - 1), 0)
  | .tanh, .inf s => (.fin s 1 0, 0)
  | .tanh, .fin s m e => if m = 0 then (.fin s 0 0, 0) else (approxTanh s m e, 0)

/-- An approximation in type T (R184): v rounded to 16 significant bits, then to T, without NX. -/
def approx (f : Approx) (t : Ty) (x : FVal) : Nat × Flags :=
  let v := approxValue f x
  let r := roundTo t .rn 0 (v.1.roundSig 16)
  (r.1, v.2 ||| (r.2 &&& ~~~fNX))

end Sys2Proof
end

