-- ==== Sys2Proof/Config.lean ====
section
/-! DEFINITION. What the spec leaves open, as constants with no body: nothing can be proved about their values. Each is
applied to State.turn, the count of steps, and where one step needs several values also to an index. The log entry that
names each is in brackets. Last, the fixed choices of the model that are no free values. -/

namespace Sys2Proof

/-- Ticks of CLOCK that pass with a step (R69) [4]. -/
opaque Config.elapsed : Nat → Nat

/-- Which of the enabled moves happens, when no agenda orders one [3]. -/
opaque Config.pick : Nat → Nat

/-- Whether some access of an issue has not performed when the warp issues next (R134) [22]. -/
opaque Config.slow : Nat → Bool

/-- Which of the cached page-table entries that memory no longer holds an access uses, if any (R308) [8]. -/
opaque Config.stale : Nat → Nat → Nat

/-- The walks of a step whose entries a TLB or a walker keeps: partition and virtual address (R308) [8]. -/
opaque Config.walks : Nat → List (Nat × Nat)

/-- What a peer's own map holds beyond its package memory, by 8 MiB, and whether a request to it fails after its replays (R339,
R348) [43]. -/
opaque Config.peerHolds : Nat → Nat → Bool
opaque Config.linkFails : Nat → Nat → Bool

/-- What a read of MMIO space returns (R133) [9]. -/
opaque Config.mmioRead : Nat → Nat → Word64

/-- How many units of a running operation are performed at a pre-emption (R241) [20]. -/
opaque Config.progress : Nat → Nat → Nat

/-- SHA-384 of a byte string: 48 bytes (R353 to R357) [23]. -/
opaque Config.sha384 : List Byte → List Byte

/-- Whether a P-384 signature over a message verifies under the fused key (R354) [23]. -/
opaque Config.ecdsaOk : List Byte → List Byte → Bool

/-- Whether an LMS signature over a message verifies under the fused key (R354) [23]. -/
opaque Config.lmsOk : List Byte → List Byte → Bool

/-- The device's identity public keys and its two signatures over a report (R355) [23]. -/
opaque Config.identityKeys : List Byte
opaque Config.signEcdsa : List Byte → List Byte
opaque Config.signLms : List Byte → List Byte

/-- Whether an accepted firmware image asks for its SVN to become the fused minimum (R354) [23]. -/
opaque Config.raisesSvn : List Byte → Bool

/-- The CRC-16 of a flit's bytes, and which flit types store their data at the addressed device (R348) [31]. -/
opaque Config.crc16 : List Byte → BitVec 16
opaque Config.flitStores : Nat → Bool

/-- Values the spec states no rule for, by turn and index: each use names its log entry. -/
opaque Config.free : Nat → Nat → Nat

/-- Where the loader places images in a partition's virtual space: V = this + the physical base (R329) [10]. -/
def Config.imageWindow : Nat := 0x0000010000000000

/-- Size of package memory in bytes (R339). -/
def Config.packageBytes : Nat := 0x10000000000

end Sys2Proof
end

