-- ==== Sys2Proof/Machine/State.lean ====
section
/-! DEFINITION. The state of the device as plain data, the reasons a step can stop, and the state right after reset.
Tags are Bool: false is settled (S), true is a proposal (P). -/

namespace Sys2Proof.Machine

open Sys2Proof

/-- A vector register of one lane (R55). -/
structure VReg where
  bits : Word32 := 0
  tag : Bool := false
deriving DecidableEq, Repr

/-- A uniform register (R55), and a deque entry (R46). -/
structure KReg where
  bits : Word64 := 0
  tag : Bool := false
deriving DecidableEq, Repr

/-- A predicate of one lane (R55). -/
structure PReg where
  val : Bool := false
  tag : Bool := false
deriving DecidableEq, Repr

/-- A page that an access sleeps on: page number VA[55:16]; for a RECOMPUTE entry, its registration; the lanes that meet it,
the lowest one's address, whether an address operand is P, and LEQIX at the issue (R309, R312, R315, R316). -/
structure Sleep where
  page : Nat
  reg : Option Nat
  lanes : Lanes := 0
  addr : Nat := 0
  paddr : Bool := false
  eqix : Word32 := 0xFFFFFFFF
deriving DecidableEq, Repr

/-- Why a split is blocked (R52). -/
inductive Block
  | ready
  /-- Its lanes have arrived at the barrier of this scope (R213). -/
  | barrier (scope : Scope)
  /-- It waits at a collective with this member mask; the warp's other splits have issued `since` times (R210). -/
  | collective (mask : Lanes) (since : Nat)
  /-- It waits at a CWAIT for each (space, address) to reach its value (R214). -/
  | cwait (conds : List (Space × Nat × Word64))
  /-- It waits for a firmware answer to register dst; the answer, once given to a gang off the cells (R255). -/
  | svc (dst : BitVec 6) (tag : Bool) (answer : Option Word64)
  /-- It waits for CLOCK or an event; `woken` when an event has been posted (R261). -/
  | idle (dst : BitVec 6) (tag : Bool) (deadline : Word64) (woken : Bool)
  /-- It waits for the removal of cached translations, of one address or of all (R260). -/
  | tlbi (va : Option Word64)
  /-- It sleeps on pages; when `cancelled`, or with `failed` the CAUSE of a page's RECOMPUTE, it takes that fault at its next
  turn (R310, R312, R325). -/
  | sleep (pages : List Sleep) (cancelled : Bool) (failed : Option Nat)
  /-- It stands at a fault whose record has not ended its launch yet (R318). -/
  | faulted
deriving DecidableEq, Repr

/-- An entry of the frontier table (R36, R39). -/
structure Split where
  lanes : Lanes
  pc : Addr
  wait : Nat
  block : Block
deriving DecidableEq, Repr

/-- One lane's lookahead window: the issues it still covers and the registers it guards (R153). -/
structure Window where
  lane : Nat
  left : Nat
  regs : List Operand
deriving DecidableEq, Repr

/-- What a checkpoint captures and a rollback restores (R71). Vector registers are keyed lane + 32·register,
predicates lane + 32·predicate. -/
structure WCore where
  v : FMap VReg := []
  k : FMap KReg := []
  p : FMap PReg := []
  /-- LSTAT[7:0] by lane (R62). -/
  flags : FMap (BitVec 8) := []
  /-- LSTAT.TOVF by lane. -/
  tovf : Lanes := 0
  /-- Taint stacks by lane, top first (R106). -/
  taint : FMap (List Addr) := []
  frontier : List Split := []
  /-- Lane set of the selected split (R37). -/
  sel : Lanes := 0
  /-- The selected split has just executed YIELD (R39). -/
  yielded : Bool := false
  windows : List Window := []
  leqix : Word32 := 0xFFFFFFFF
  /-- Executions of each EQP index by the warp, for the trace (R289). -/
  eqSeen : FMap Nat := []
  rngc : Word64 := 0
  rngk : BitVec 128 := 0
  mstat : Word64 := 0
deriving DecidableEq, Repr

/-- Where a piece of data lies: a physical address, or local memory of a cell (die × 24 + cell). -/
inductive Loc
  | phys (pa : Nat)
  | local (cell : Nat) (off : Nat)
deriving DecidableEq, Repr

/-- A store in a warp's store buffer (R134): where, the host shadow bit's place if any, bytes and tag. -/
structure Buffered where
  loc : Loc
  shadow : Option Nat
  data : List Byte
  tag : Bool
deriving DecidableEq, Repr

/-- Fault classes (R313), in code order. -/
inductive FClass
  | illegal | priv | align | translation | recompute | readonly | lookahead | target | line | maskwait | dcor | taint
  | slot | bus | trap | bkpt
deriving DecidableEq, Repr

/-- What a fault found at an issue carries into its record (R315). -/
structure FaultInfo where
  cls : FClass
  cause : Nat := 0
  lanes : Lanes := 0
  addr : Word64 := 0
  info : Word32 := 0
  tags : Nat := 0
deriving DecidableEq, Repr

/-- The 64-byte fault record (R315). -/
structure FRec where
  cls : FClass
  disp : Nat
  variant : Nat
  cause : Nat
  lanes : Lanes
  fpc : Word64
  altpc : Word64
  eqix : Word32
  info : Word32
  addr : Word64
  tags : Nat
  gang : Nat
  lseq : Nat
  warp : Nat
  die : Nat
  cell : Nat
  core : Nat
deriving DecidableEq, Repr

/-- A fault taken after its instruction's issue, with the PC, EQIX and ALTPC of that issue (R316). -/
structure LateFault where
  info : FaultInfo
  pc : Addr
  eqix : Word32
  altpc : Word64
  kind : CoreKind
deriving DecidableEq, Repr

/-- A CCTL that waits for commit: SUB[1:0], its scope and its lines (R208). -/
structure CacheOp where
  mode : Nat
  scope : Scope
  lines : List Nat
deriving DecidableEq, Repr

/-- An open checkpoint (R134 to R136): the captured state, what has issued under it, its store buffer issue by issue, the lines and
local sectors it has read, and a conflict that has hit it. -/
structure Ckpt where
  saved : WCore
  issued : Nat
  accesses : Nat
  stores : List (List Buffered)
  marks : List Nat
  localMarks : List Nat
  conflict : Bool
  /-- A fault raised under it, taken when it commits (R138). -/
  held : Option LateFault
  /-- CONSCTL of its die when it opened (R123). -/
  cons : Nat
  /-- Cache operations that perform when it commits (R208). -/
  cctls : List CacheOp := []
  /-- The 64 KiB pages that its accesses have used: VA / 65536 and PA / 65536 (R260). -/
  pages : List (Nat × Nat) := []
deriving DecidableEq, Repr

/-- Handler state (R258, R317). -/
structure Handler where
  epc : Word64
  emask : Word32
  /-- Lanes of the faulted entry. -/
  faulted : Lanes
  frec : FRec
  frontier : List Split
  sel : Lanes
  windows : List Window
deriving DecidableEq, Repr

/-- An entry of the operand latch: the register or pair, the lanes that hold it, issues left (R61). -/
structure Latched where
  regs : List Operand
  lanes : Lanes
  left : Nat
deriving DecidableEq, Repr

/-- A warp (R32). -/
structure Warp where
  gang : Nat
  /-- Index within the gang, group within the gang, index within the group (R33). -/
  index : Nat
  group : Nat
  inGroup : Nat
  /-- Lanes the group populates in this warp. -/
  populated : Lanes
  core : Nat
  kind : CoreKind
  /-- Die-controller firmware, which no launch submitted (R243). -/
  firmware : Bool := false
  c : WCore := {}
  /-- WSTAT fields (R63). -/
  ten : BitVec 8 := 0
  noslot : Bool := false
  sched : Bool := false
  migp : Bool := false
  ser : Bool := false
  rbc : BitVec 8 := 0
  latch : List Latched := []
  ckpts : List Ckpt := []
  /-- Some access issued with no checkpoint open has not performed (R134). -/
  slow : Bool := false
  /-- Accesses left in serial mode; rollbacks in a row of each checkpoint, oldest first (R137). -/
  serLeft : Nat := 0
  rbRow : List Nat := []
  pending : List LateFault := []
  handler : Option Handler := none
  /-- Lanes whose deque operation has performed while others of the same issue wait on the trace, and whether its last
  try waits on the trace (R290). -/
  dqDone : Lanes := 0
  onTrace : Bool := false
  /-- Its lanes have all exited and its speculation has committed (R54); die and cell as it stood then (R365). -/
  ended : Bool := false
  exitDie : Nat := 0
  exitCell : Nat := 0
deriving DecidableEq, Repr

/-- An operand slot's contents and sector tags (R222). -/
structure OSlot where
  data : FMap Byte := []
  tags : FMap Bool := []
deriving DecidableEq, Repr

/-- Modes of an accumulator tile (R231). -/
inductive TileMode | f32 | s32 | f64
deriving DecidableEq, Repr

/-- An accumulator tile: elements keyed 128·row + column, row tags, status flags [5:0] (R220, R231). -/
structure Tile where
  mode : TileMode := .f32
  acc : FMap Word64 := []
  tags : FMap Bool := []
  status : BitVec 6 := 0
deriving DecidableEq, Repr

/-- The states of a gang (R280 to R286, R314, R322). -/
inductive GPhase
  | eligible | staging | resident | saving | stopping | stopped | retired
deriving DecidableEq, Repr

/-- A gang (R32, R280 to R286, R322 to R324); `launch` is its launch's place in State.launches. -/
structure Gang where
  launch : Nat
  /-- Linear index and coordinates (R34, R35). -/
  lin : Nat
  coords : List Nat
  phase : GPhase
  started : Bool := false
  /-- Effective priority, CLOCK and order of becoming eligible, CLOCK of the last ageing step (R280). -/
  e : Nat
  order : Nat
  agedAt : Nat
  die : Nat := 0
  cell : Nat := 0
  kind : CoreKind := .d
  /-- Offset of each group's local range in the cell (R282). -/
  localAt : List Nat := []
  placedAt : Nat := 0
  placeNo : Nat := 0
  minq : Nat := 0
  maxq : Nat := 0
  slots : FMap (Option OSlot) := []
  tiles : FMap (Option Tile) := []
  params : List Byte := []
  /-- Staged vault copies: key index, physical address, bytes (R48, R284). -/
  vaults : List (Nat × Nat × Nat) := []
  /-- Saved deque entries, bottom first (R47), saved local memory and tags by group (R323). -/
  savedDeque : List KReg := []
  savedLocal : FMap Byte := []
  savedTags : FMap Bool := []
  /-- The area of the context pool it holds: physical address and bytes (R322). -/
  ctx : Option (Nat × Nat) := none
  /-- A single step in progress: the warps that have issued (R344). -/
  step : Option (List Nat) := none
  /-- The quantum it has reached since its placement: 1 MINQ, 2 MAXQ (R285). -/
  quantum : Nat := 0
  /-- The page that its staging waits for (R309, R312). -/
  staging : Option Sleep := none
  /-- Single step asked for at its next placement; a resumption met while it still stood on its cell (R343, R344). -/
  stepNext : Bool := false
  resumed : Bool := false
deriving DecidableEq, Repr

/-- A deque (R46): entries bottom first, and the gang and launch it is bound to. -/
structure Deque where
  entries : List KReg := []
  gang : Option Nat := none
  launch : Option Nat := none
deriving DecidableEq, Repr

/-- Phases of an engine operation: queued under the warp's first k checkpoints; running with units performed; waiting
on a page; stopped by a fault; finished (R127, R128, R236, R241). -/
inductive OpPhase
  | queued (ckpts : Nat)
  | running
  | asleep (page : Sleep)
  | done
deriving DecidableEq, Repr

/-- An engine operation (R128) with the operands, tag, RNG state and PC of its issue. -/
structure EOp where
  instr : Instr
  gang : Nat
  warp : Nat
  launch : Nat
  group : Nat
  kind : CoreKind
  pc : Addr
  eqix : Word32
  altpc : Word64
  dst : Word64
  a : Word64
  b : Word64
  c : Word64
  d : Word64
  tag : Bool
  /-- Whether an address operand is P (R315). -/
  paddr : Bool := false
  rngk : BitVec 128
  rngc : Word64
  phase : OpPhase
  /-- Units performed; whether they are all of them, so that only the completion object has still to rise (R241). -/
  units : Nat := 0
  finished : Bool := false
  /-- The call raises DCOR once it has completed (R113). -/
  dcor : Bool := false
  /-- Drained rows and their tags, as they stood at acceptance (R232); DCORM's x and its residual rows (R113). -/
  rows : List (List Word64 × Bool) := []
  /-- The bytes of a record, descriptor or bitmap that the thread reads once, each with its sector's tag (R224, R233,
  R239, R240). -/
  record : List (Byte × Bool) := []
  /-- ISECT's i, j, k and the OR of stream tags (R239, R241). -/
  i : Nat := 0
  j : Nat := 0
  k : Nat := 0
  streamTag : Bool := false
  /-- A replay or cancellation met while the gang was off the cells (R310, R325). -/
  cancelled : Bool := false
  failed : Option Nat := none
  /-- Destination sectors it has begun to write: sector location, bytes written, all S so far (R101). -/
  sectors : List (Loc × Nat × Bool) := []
deriving DecidableEq, Repr

/-- An accepted matrix operation whose waits have not ended (R221, R231): the slots and the tile it names. -/
structure MOp where
  id : Nat
  gang : Nat
  slots : List Nat
  tile : Option Nat
deriving DecidableEq, Repr

/-- Size class, stage, wait and handle entries of a launch record (R271). -/
structure SizeClass where
  size : Nat
  grid : List Nat
  entry : Nat
deriving DecidableEq, Repr

structure Stage where
  handle : Nat
  vault : Bool
  bytes : Nat
  offset : Nat
deriving DecidableEq, Repr

structure WaitObj where
  addr : Word64
  value : Word64
  reached : Bool := false
deriving DecidableEq, Repr

structure HandleRef where
  index : Nat
  rw : Bool
  prop : Bool
deriving DecidableEq, Repr

/-- A launch record as read at submission (R268 to R271). -/
structure LaunchRec where
  kdesc : Word64 := 0
  det : Nat := 0
  kind : Nat := 0
  migrate : Bool := false
  coop : Bool := false
  prio : Nat := 0
  widths : List Nat := []
  grid : List Nat := []
  lanes : Nat := 1
  groups : Nat := 1
  slots : Nat := 0
  tiles : Nat := 0
  localBytes : Nat := 0
  pctl : Word32 := 0x00000E00
  sizeAddr : Word64 := 0
  done : Word64 := 0
  staddr : Word64 := 0
  userp : Word64 := 0
  userlen : Nat := 0
  timeout : Nat := 0
  trace : Word64 := 0
  traceLen : Nat := 0
  classes : List SizeClass := []
  stages : List Stage := []
  waits : List WaitObj := []
  handles : List HandleRef := []
deriving DecidableEq, Repr

/-- A variant of a loaded kernel (R328). -/
structure Variant where
  code : Word64
  len : Nat
  regs : Nat
  hentry : Option Word64
deriving DecidableEq, Repr

/-- A loaded kernel, addresses already virtual (R328, R329). -/
structure Kernel where
  kdesc : Word64 := 0
  varL : Option Variant := none
  varD : Option Variant := none
  hmask : BitVec 16 := 0
  eqmap : Word64 := 0
  neqp : Nat := 0
  /-- EQP indices of the map with the EQP's PC in L and in D (R331). -/
  eqps : List (Nat × Word64 × Word64) := []
  entries : List (Word64 × Word64) := []
deriving DecidableEq, Repr

/-- States of a launch (R274). -/
inductive LPhase | queued | ready | dispatched | ending | ended
deriving DecidableEq, Repr

/-- An entry of a sillage trace (R289): its two 8-byte words. -/
structure TraceEntry where
  head : Word64
  body : Word64
deriving DecidableEq, Repr

/-- A grant of ROUTE not yet released (R252). -/
structure Grant where
  ver : Nat
  die : Nat
  rep : Nat
  eid : Nat
deriving DecidableEq, Repr

/-- A launch (R268, R274 to R290, R312). -/
structure Launch where
  seq : Nat
  part : Nat
  order : Nat
  lrec : LaunchRec
  kern : Kernel
  queue : Option Nat
  phase : LPhase
  code : Nat := 0
  base : Nat := 0
  level : Nat := 0
  /-- Chain depth, the queue whose quanta apply, and the registration it produces for (R312). -/
  depth : Nat := 0
  quanta : Nat := 0
  producer : Option Nat := none
  /-- It has been dispatched, and when. -/
  began : Bool := false
  dispatchedAt : Nat := 0
  cls : Nat := 0
  sizeWord : Word32 := 0
  started : Nat := 0
  /-- A forced end that waits for its record (R276, R318). -/
  dying : Bool := false
  refs : Nat := 0
  grants : List Grant := []
  /-- Sillage: entries written, overflow, entries still to replay, ordinals by deque and by warp (R288 to R290). -/
  traced : Nat := 0
  overflow : Bool := false
  replay : List TraceEntry := []
  dqOrd : FMap Nat := []
  rtOrd : FMap Nat := []
deriving DecidableEq, Repr

/-- Registers of a command ring, except those the ring's offsets derive, and the entries read at the doorbell that wait, empty
where one could not be read (R341) [28]. -/
structure Ring where
  base : Word64 := 0
  size : Word32 := 0
  head : Word32 := 0
  tail : Word32 := 0
  err : Bool := false
  cbase : Word64 := 0
  csize : Word32 := 0
  ctail : Word32 := 0
  chead : Word32 := 0
  entries : List (List Byte) := []
deriving DecidableEq, Repr

/-- A completion that waits for room (R343). -/
structure Completion where
  ring : Nat
  cookie : Word64
  op : Nat
  result : Nat
  value : Word64
  value2 : Word64
deriving DecidableEq, Repr

/-- A handle-table entry (R345), with the name of the data block that the loader has entered (R329). -/
structure Handle where
  base : Word64
  len : Nat
  bitmap : Option Word64
  ro : Bool
  image : Bool
  name : List Byte := []
deriving DecidableEq, Repr

/-- A loaded image (R329): virtual and physical base, bytes, sections as (offset, size, type, read-only), kernels and
handle indices. -/
structure Image where
  base : Word64
  pa : Nat
  len : Nat
  sections : List (Nat × Nat × Nat × Bool)
  kernels : List Kernel
  handles : List Nat
deriving DecidableEq, Repr

/-- A fault record waiting for the ring, and what its writing ends: the launch at a place, with a code, or the waiting of a gang whose
staging it reports (R318). -/
inductive AfterRecord
  | nothing
  | staging (gang : Nat)
  | endLaunch (launch : Nat) (code : Nat)
deriving DecidableEq, Repr

structure PendingRec where
  frec : FRec
  after : AfterRecord
deriving DecidableEq, Repr

/-- A launch queue's registers and service state (R277, R278). -/
structure Queue where
  cfg : Word64 := 0x07D0006403E80008
  level : Nat := 0
  agedAt : Nat := 0
deriving DecidableEq, Repr

/-- States of an expert's copy (R296). -/
inductive CPhase | copying | verifying | live | retiring
deriving DecidableEq, Repr

/-- A copy of an expert (R292 to R300). -/
structure Copy where
  rep : Nat
  die : Nat
  base : Word64
  phase : CPhase
  startedAt : Nat := 0
  /-- LIVE but not yet in a published version; in the current version. -/
  published : Bool := false
  outstanding : Nat := 0
  routes : Nat := 0
  lastRoutes : Option Nat := none
  cold : Nat := 0
  marked : Bool := false
  /-- LIVE since the interval began (R295). -/
  whole : Bool := false
  /-- Quarantined, and the CAUSE that LIVEFAIL will carry (R300). -/
  quarantined : Bool := false
  failCause : Nat := 0
  /-- Versions that include it, and whether its queue closure is complete (R296, R299). -/
  versions : List Nat := []
  closed : Bool := false
  /-- The page that the die agent waits for, and a cancellation that it has met (R296, R310). -/
  sleep : Option Sleep := none
  refused : Bool := false
deriving DecidableEq, Repr

/-- What SETTHR replaces (R292). -/
structure Thresholds where
  pin : Bool := false
  maxCopy : Nat := 1
  hot : Nat := 1
  cold : Nat := 0
  coldN : Nat := 1
deriving DecidableEq, Repr

/-- A registered expert, or one whose storage remains (R292); `next` holds from the next interval. -/
structure Expert where
  eid : Nat
  registered : Bool := true
  thr : Thresholds := {}
  next : Option Thresholds := none
  size : Nat := 0
  qaddr : Word64 := 0
  copies : List Copy := []
  routes : Nat := 0
  lastRoutes : Nat := 0
  /-- Intervals of hold-off left, for the expert and for (die) pairs (R300). -/
  holdoff : Nat := 0
  dieHold : List (Nat × Nat) := []
deriving DecidableEq, Repr

/-- Changes of the table that wait for their publication (R297). -/
inductive Change
  | register (e : Expert)
  | deregister (eid : Nat)
  | refresh (eid : Nat)
  /-- The copies marked for retirement, by EID and REP (R295). -/
  | retire (copies : List (Nat × Nat))
  | add (eid rep : Nat)
  | fail (eid rep : Nat)
deriving DecidableEq, Repr

/-- A queue closure in progress: the copy, its ring and CAP as they were read, the next entry to move and the end, and how many have
moved (R299). -/
structure Closure where
  eid : Nat
  rep : Nat
  ring : Nat
  cap : Nat
  next : Nat
  last : Nat
  moved : Nat
deriving DecidableEq, Repr

/-- The Etesian engine of a partition (R291 to R302). -/
structure Etesian where
  ectl : Word32 := 0x03104000
  eintv : Word32 := 0x00320064
  ver : Nat := 0
  lost : Nat := 0
  cmdAddr : Word64 := 0
  busy : Bool := false
  result : Nat := 0
  op : Nat := 0
  evBase : Word64 := 0
  evSize : Word32 := 0
  evHead : Word32 := 0
  evTail : Word32 := 0
  pools : FMap (Nat × Nat) := []
  loads : FMap Word64 := []
  experts : List Expert := []
  waiting : List Change := []
  closures : List Closure := []
  /-- Idle samples of the interval: by die, cells that held a gang, summed, and their number; when it began (R295). -/
  samples : FMap Nat := []
  nsamples : Nat := 0
  since : Nat := 0
deriving DecidableEq, Repr

/-- A page-table entry that a TLB or a walker holds (R308): partition, level, the address bits that index the level and those
above them, and the entry as it was read. -/
structure TlbEntry where
  part : Nat
  level : Nat
  index : Nat
  pte : Nat
deriving DecidableEq, Repr

/-- A running producer of a recompute registration (R311, R312): its launch's place, the die that started it, and the
registration's address and fields as they were read. -/
structure Producer where
  reg : Nat
  launch : Nat
  die : Nat
  addr : Nat
  vbase : Nat
  len : Nat
  pbase : Nat
  flags : Nat
deriving DecidableEq, Repr

/-- A partition (R349). -/
structure Part where
  en : Bool := false
  dies : BitVec 8 := 0
  carves : List Word64 := [0, 0, 0, 0, 0, 0, 0]
  vaultBase : Word64 := 0x0000005000000000
  queues : FMap Queue := []
  /-- Queue last served at each level (R278). -/
  served : FMap Nat := []
  nextSeq : Nat := 1
  ptroot : Word64 := 0
  prbase : Word64 := 0
  prcount : Nat := 0
  frbase : Word64 := 0
  frsize : Nat := 0
  frhead : Word32 := 0
  frtail : Word32 := 0
  ctxbase : Word64 := 0
  ctxsize : Word64 := 0
  pendingRecs : List PendingRec := []
  producers : List Producer := []
  rings : FMap Ring := []
  lastRing : Nat := 15
  completions : List Completion := []
  handles : FMap (Option Handle) := []
  images : List Image := []
  /-- Package memory that holds the loader's page tables: address and bytes [10]. -/
  tables : List (Nat × Nat) := []
  et : Etesian := {}
deriving DecidableEq, Repr

/-- A service request in a die's firmware queue (R255). -/
structure SvcReq where
  die : Nat
  code : Word32
  arg : Word64
  gang : Nat
  warp : Nat
  lanes : Lanes
deriving DecidableEq, Repr

/-- A line that a hint keeps in a core's L1, by key or by read count (R124). -/
structure LineMark where
  core : Nat
  line : Nat
  count : Option Nat
deriving DecidableEq, Repr

/-- A directory region below 64 KiB: its first line, lines, CLOCK of its last conflict (R122). A 64 KiB region that has split is
the list of those that it has split into; one that has not has none. -/
structure Region where
  line : Nat
  lines : Nat
  seen : Nat
deriving DecidableEq, Repr

/-- Package-wide registers, fuses and links (R4, R123, R347 to R357). -/
structure Package where
  clock : Word64 := 0
  stage : Nat := 0
  code : Nat := 0
  detail : Word32 := 0
  number : Nat := 9800
  /-- Dies present after DIELINK, cells present by die. -/
  dies : BitVec 8 := 0xFF
  cells : List (BitVec 24) := List.replicate 8 0xFFFFFF
  /-- GiB of each CXL port's expander, 0 where absent (R347). -/
  cxl : List Nat := [0, 0, 0, 0]
  pcieUp : BitVec 2 := 3
  device : Nat := 0
  group : Nat := 1
  peers : BitVec 32 := 0
  ports : BitVec 18 := 0
  dgen : Nat := 1
  /-- Fused minimum SVN of KIND 1 and 2, SVN and release of the main firmware, digests extended (R354 to R356). -/
  minSvn : List Word32 := [0, 0]
  svn : Word32 := 0
  release : Word32 := 0
  measure : List (List Byte) := [List.replicate 48 0, List.replicate 48 0]
  capptr : Word64 := 0x8000
  /-- The capability list as it was last written (R356). -/
  caps : List Byte := []
  services : List Word32 := []
  /-- The generation of a decode table that waits until no launch is dispatched or ending (R335). -/
  install : Option Nat := none
  /-- CONSCTL by die (R123). -/
  consctl : FMap Word32 := []
  /-- Reports returned (R355) and writes sent to MMIO space (R133): address, bytes. -/
  reports : List (List Byte) := []
  mmio : List (Nat × List Byte) := []
  /-- Flits to forward to the peer of a destination (R348). -/
  outbox : List Flit := []
  /-- What the last read through a BAR2 window returned (R340). -/
  hostRead : List Byte := []
deriving DecidableEq, Repr

/-- What happens next: a core issues for a warp, on a D-core with the further split co-issued or not (R42), a step of another agent,
or a write from outside the device. -/
inductive Move
  | issue (warp : Nat) (co : Bool)
  | event (i : Instr)
  /-- The host, or a peer, writes bytes of its own memory within one granule of 16 bytes, with their sectors' tag (R132, R348). -/
  | foreign (pa : Nat) (data : List Byte) (tag : Bool)
deriving DecidableEq, Repr

/-- The device. -/
structure State where
  /-- Steps so far: the argument of the free values [2]. -/
  turn : Nat := 0
  /-- Moves ordered from outside, next first [3]. -/
  agenda : List Move := []
  /-- The warp at issue, and the further split it co-issues for, if it does (R42). -/
  cur : Nat := 0
  co : Option Lanes := none
  pkg : Package := {}
  mem : List Host.Cell := []
  tags : FMap Bool := []
  /-- Sectors of memory that hold an uncorrectable error, by PA / 32, and of local memory, by cell and offset / 32 (R202). -/
  poison : List Nat := []
  lpoison : List Nat := []
  lmem : FMap Byte := []
  ltags : FMap Bool := []
  /-- Vault storage of retired copies that has been freed: offset in the window and bytes (R254). -/
  freed : List (Nat × Nat) := []
  parts : List Part := List.replicate 8 {}
  launches : List Launch := []
  gangs : List Gang := []
  warps : List Warp := []
  ops : List EOp := []
  mops : List MOp := []
  deques : FMap Deque := []
  /-- Firmware event queues by die (R321), and service requests (R255). -/
  events : FMap (List Word64) := []
  requests : List SvcReq := []
  tlb : List TlbEntry := []
  /-- The warp after the one that each core's arbiter served last, by core (R51). -/
  arb : FMap Nat := []
  regions : List Region := []
  marks : List LineMark := []
  /-- Numbers given out: matrix operations, submissions in order, placements, eligibilities. -/
  nextOp : Nat := 1
  nextOrder : Nat := 1
  nextPlace : Nat := 1
  nextElig : Nat := 1
deriving DecidableEq, Repr

/-- Why the model stops: never a fault of the device, which is taken and leaves a next state. -/
inductive Fault
  /-- `exec` of an instruction word when State.cur names no warp with a split that may issue. Raised by the issue
  pipeline; safe: no core issues in such a state. -/
  | noIssue
  /-- A step of another agent that its rule does not enable in this state. Raised by the meanings of events; safe: the
  device does not take that step then. -/
  | notEnabled
deriving DecidableEq, Repr

/-- Instructions without a meaning. -/
inductive Refusal
  /-- Raised by exec's arm of an instruction whose meaning is not written; safe. -/
  | notModelled (mnemonic : String)
deriving DecidableEq, Repr

/-- The result of a meaning. -/
abbrev Result := Host.Outcome State Fault Refusal

/-- Partition 0 at reset (R350): it exists and holds every present die, all of package memory and every expander; BASE of a port's
carve-out is the port's base, with an expander or without. -/
def Part.first (dies : BitVec 8) (cxl : List Nat) : Part :=
  let port (p : Nat) : Word64 :=
    BitVec.ofNat 64 ((if (nth cxl p).getD 0 = 0 then 0 else 2048 * 2 ^ 52) + (0x010000000000 + p * 0x020000000000))
  { en := true, dies := dies, carves := [BitVec.ofNat 64 (1024 * 2 ^ 52), port 0, port 1, port 2, port 3, 0, 0] }

/-- The device right after reset: nothing has been brought up, no launch, memory with nothing listed. -/
def State.reset : State :=
  { parts := Part.first 0xFF [0, 0, 0, 0] :: List.replicate 7 {} }

end Sys2Proof.Machine
end

