-- ==== Sys2Proof/Machine/Memory.lean ====
section
/-! DEFINITION. Reading and writing the device's storage: physical memory and its tags, local memory, translation
(R304 to R308, R339, R350), the spaces (R116 to R120), the checks of an access in the order of R202, and stores with
the sector rule of R101. -/

namespace Sys2Proof.Machine

open Sys2Proof

/-! Lists of parts of the state, read and changed by index. -/

def modAt {α : Type} (l : List α) (i : Nat) (f : α → α) : List α :=
  match nth l i with
  | some x => setAt l i (f x)
  | none => l

def State.modWarp (s : State) (i : Nat) (f : Warp → Warp) : State := { s with warps := modAt s.warps i f }
def State.modGang (s : State) (i : Nat) (f : Gang → Gang) : State := { s with gangs := modAt s.gangs i f }
def State.modLaunch (s : State) (i : Nat) (f : Launch → Launch) : State := { s with launches := modAt s.launches i f }
def State.modPart (s : State) (i : Nat) (f : Part → Part) : State := { s with parts := modAt s.parts i f }
def State.modOp (s : State) (i : Nat) (f : EOp → EOp) : State := { s with ops := modAt s.ops i f }
def State.modPkg (s : State) (f : Package → Package) : State := { s with pkg := f s.pkg }

def State.part (s : State) (p : Nat) : Part := (nth s.parts p).getD {}

/-- The partition of a gang. -/
def State.partOf (s : State) (gang : Nat) : Nat :=
  match nth s.gangs gang with
  | some g => match nth s.launches g.launch with
    | some l => l.part
    | none => 0
  | none => 0

/-- CONSCTL of a die (R123): its reset value where nothing has been written. -/
def consReset : Word32 := 0x10040003

def State.consctl (s : State) (die : Nat) : Nat := (FMap.get consReset s.pkg.consctl die).toNat

/-- Change every copy of a warp's frontier: the one in use, those that checkpoints have captured and the one suspended
in handler mode. What ends a wait cannot be undone by a rollback (R71, R138). -/
def Warp.mapFrontiers (w : Warp) (f : List Split → List Split) : Warp :=
  { w with
    c := { w.c with frontier := f w.c.frontier }
    ckpts := w.ckpts.map fun k => { k with saved := { k.saved with frontier := f k.saved.frontier } }
    handler := w.handler.map fun h => { h with frontier := f h.frontier } }

/-- Change every copy of a warp's captured state. -/
def Warp.mapCores (w : Warp) (f : WCore → WCore) : Warp :=
  { w with c := f w.c, ckpts := w.ckpts.map fun k => { k with saved := f k.saved } }

/-! Physical memory. -/

def State.bytes (s : State) (pa n : Nat) : List Byte := FMap.getN 0 s.mem pa n
def State.word64 (s : State) (pa : Nat) : Nat := leNat (s.bytes pa 8)

/-- The memory's canonical form: addresses strictly rising, no byte equal to what an unlisted address reads as. -/
abbrev Memory.wf (m : List Host.Cell) : Bool := FMap.wf (0 : Byte) m

def pkgEnd : Nat := 0x0010000000000
def cxlEnd : Nat := 0x0090000000000
def vaultPa : Nat := 0x00A0000000000
def vaultLen : Nat := 0x60000000
def peerPa : Nat := 0x2000000000000
def hostPa : Nat := 0x8000000000000
def paEnd : Nat := 0x9000000000000

/-- Whether a vault cell c of die d is present (R118, R357). -/
def Package.cellPresent (k : Package) (d c : Nat) : Bool :=
  k.dies.getLsbD d && ((nth k.cells d).getD 0).getLsbD c

/-- A window onto the device's own number reaches its own storage (R339). -/
def Package.norm (k : Package) (pa : Nat) : Nat :=
  if peerPa ≤ pa && pa < 2 * peerPa && (pa - peerPa) / 2 ^ 44 == k.device then pa % 2 ^ 44 else pa

/-- Whether an offset of a peer's window reaches storage in the peer's own map: its package memory does; what expanders and vaults
it has is its own and free (R339) [43]. -/
def peerHas (device off : Nat) : Bool :=
  if off < pkgEnd then true
  else if off < cxlEnd || (vaultPa ≤ off && off < vaultPa + vaultLen) then Config.peerHolds device (off / 2 ^ 23)
  else false

/-- Whether a physical address reaches storage (R339, R347, R348). -/
def Package.reaches (k : Package) (pa : Nat) : Bool :=
  let pa := k.norm pa
  if pa < pkgEnd then true
  else if pa < cxlEnd then
    let port := (pa - pkgEnd) / 2 ^ 41
    let cap := (nth k.cxl port).getD 0 * 2 ^ 30
    (pa - pkgEnd) % 2 ^ 41 < cap - cap / 256
  else if vaultPa ≤ pa && pa < vaultPa + vaultLen then
    let c := (pa - vaultPa) / 2 ^ 23
    k.cellPresent (c / 24) (c % 24)
  else if peerPa ≤ pa && pa < 2 * peerPa then
    k.peers.getLsbD ((pa - peerPa) / 2 ^ 44) && peerHas ((pa - peerPa) / 2 ^ 44) (pa % 2 ^ 44)
  else hostPa ≤ pa && pa < paEnd

/-- Whether a request to a peer fails: the link's replays are spent (R348) [43]. -/
def Package.linkFails (k : Package) (turn pa : Nat) : Bool :=
  let pa := k.norm pa
  peerPa ≤ pa && pa < 2 * peerPa && Config.linkFails turn pa

def isHostPa (pa : Nat) : Bool := hostPa ≤ pa && pa < paEnd

/-- A range of GiB that a carve-out register grants (R350). -/
def carveHolds (c : Word64) (pa : Nat) : Bool :=
  let base := bits c.toNat 51 30 * 2 ^ 30
  base ≤ pa && pa < base + bits c.toNat 63 52 * 2 ^ 30

/-- Vault ranges in use: staged copies, wherever their gangs are, and copies of experts (R284, R293). -/
def State.vaultUsed (s : State) : List (Nat × Nat) :=
  (s.gangs.flatMap fun (g : Gang) => g.vaults.map fun v => (v.2.1, v.2.2))
    ++ s.parts.flatMap fun (p : Part) => p.et.experts.flatMap fun (x : Expert) =>
      (x.copies.filter fun k => k.rep != 0).map fun k => (vaultPa + (k.base.toNat - p.vaultBase.toNat), x.size)

/-- Whether a vault offset lies in the freed storage of a retired copy that nothing uses again (R254) [35]. -/
def State.isFreed (s : State) (off : Nat) : Bool :=
  (s.freed.any fun r => r.1 ≤ off && off < r.1 + r.2)
    && !(s.vaultUsed.any fun u => u.1 ≤ vaultPa + off && vaultPa + off < u.1 + u.2)

/-- Whether a physical address is the partition's own, as far as its carve-outs and its dies' vaults divide storage (R118, R339,
R349). -/
def State.ownsPa (s : State) (p : Part) (pa : Nat) : Bool :=
  if pa < cxlEnd then p.carves.any (carveHolds · pa)
  else if vaultPa ≤ pa && pa < vaultPa + vaultLen then
    let c := (pa - vaultPa) / 2 ^ 23
    p.dies.getLsbD (c / 24) && s.pkg.cellPresent (c / 24) (c % 24)
  else true

/-- Whether a page's physical address is one that the partition may map; peer windows are not divided, that of the device's own
number included (R118, R254, R319, R339). -/
def State.mayMap (s : State) (p : Part) (pa : Nat) : Bool :=
  s.ownsPa p pa && !(p.ctxbase.toNat ≤ pa && pa < p.ctxbase.toNat + p.ctxsize.toNat)
    && !(vaultPa ≤ pa && pa < vaultPa + vaultLen && s.isFreed (pa - vaultPa))

/-- What a walk or a cached translation gives (R304, R307): a physical address with its page entry's low byte and, above
that, log2 of the page's size; a fault says whether a page entry with PROP raised it. -/
inductive Xlat
  | ok (pa : Nat) (attr : Nat)
  | fault (cls : FClass) (cause : Nat) (prop : Bool)
  | absent
  | recompute (g : Nat)
deriving DecidableEq, Repr

/-! Page-table entries (R306). -/

def pteV (e : Nat) : Bool := bit e 0
def pteType (e : Nat) : Nat := bits e 2 1
def pteRo (e : Nat) : Bool := bit e 3
def pteProp (e : Nat) : Bool := bit e 4
def pteExec (e : Nat) : Bool := bit e 5
def pteDev (e : Nat) : Bool := bit e 6
def pteAddr (e : Nat) : Nat := bits e 51 8 * 256

/-- log2 of the bytes that an entry of a level maps (R305). -/
def levelShift : Nat → Nat
  | 0 => 39 | 1 => 30 | 2 => 21 | _ => 16

/-- The index of a level (R305). -/
def levelIndex (va : Nat) : Nat → Nat
  | 0 => bits va 55 39 | 1 => bits va 38 30 | 2 => bits va 29 21 | _ => bits va 20 16

/-- Alignment of the table below a level (R305). -/
def belowSize : Nat → Nat
  | 2 => 256 | _ => 4096

/-- What an entry of a level says of an address: the table in which a walk goes on, or how it ends (R306, R307). -/
def State.entryMeans (s : State) (p : Part) (va level e : Nat) : Except Xlat Nat :=
  if !pteV e then .error .absent
  else if bits e 63 52 ≠ 0 || bit e 7 then .error (.fault .translation 1 false)
  else match pteType e with
    | 0 => if level = 3 || pteAddr e % belowSize level ≠ 0 then .error (.fault .translation 1 false) else .ok (pteAddr e)
    | 1 =>
      let pa := pteAddr e + va % 2 ^ levelShift level
      if level = 0 || pteAddr e % 2 ^ levelShift level ≠ 0 then .error (.fault .translation 1 false)
      else if s.mayMap p pa then .error (.ok pa (e % 256 + 256 * levelShift level))
      else .error (.fault .translation 2 (pteProp e))
    | 2 => .error (if level = 0 || bits e 51 20 ≠ 0 then .fault .translation 1 false else .recompute (bits e 19 8))
    | _ => .error (.fault .translation 1 false)

/-- One level of a walk. `see` gives the entry that the walk uses of a level, from the one in memory (R308). A table outside the
partition's own storage is not walked (R349) [43]; a peer's may be out of reach, and an entry may hold an uncorrectable error (R347,
R348). -/
def State.walkLevel (s : State) (p : Part) (va : Nat) (see : Nat → Nat → Nat) (level table : Nat) : Except Xlat Nat :=
  let ea := s.pkg.norm (table + 8 * levelIndex va level)
  if !s.ownsPa p ea then .error (.fault .translation 2 false)
  else if !s.pkg.reaches ea || s.pkg.linkFails s.turn ea then .error (.fault .bus 1 false)
  else if s.poison.contains (ea / 32) then .error (.fault .bus 0 false)
  else s.entryMeans p va level (see level (s.word64 ea))

/-- A walk from a table on; `left` levels remain below it (R305). -/
def State.walkFrom (s : State) (p : Part) (va : Nat) (see : Nat → Nat → Nat) : Nat → Nat → Xlat
  | 0, table => match s.walkLevel p va see 3 table with
    | .ok _ => .fault .translation 1 false
    | .error x => x
  | left + 1, table => match s.walkLevel p va see (2 - left) table with
    | .ok below => s.walkFrom p va see left below
    | .error x => x

/-- Whether an entry of a level is a valid table or page entry, the only kinds that are cached (R306, R308). -/
def cacheable (level e : Nat) : Bool :=
  pteV e && bits e 63 52 == 0 && !bit e 7 && match pteType e with
    | 0 => level != 3 && pteAddr e % belowSize level == 0
    | 1 => level != 0 && pteAddr e % 2 ^ levelShift level == 0
    | _ => false

/-- The entries of each level that a walk reads in memory, down to the first that is no table entry or that it may not read. -/
def State.path (s : State) (p : Part) (va : Nat) : Nat → Nat → List (Nat × Nat)
  | left, table =>
    let level := 3 - left
    let ea := s.pkg.norm (table + 8 * levelIndex va level)
    let e := s.word64 ea
    if !s.ownsPa p ea || !s.pkg.reaches ea then []
    else (level, e) :: (match left with
      | 0 => []
      | left + 1 => if cacheable level e && pteType e == 0 then s.path p va left (pteAddr e) else [])

/-- The level-0 table of a partition's tree (R304, R319). -/
def Part.root (p : Part) : Nat := p.ptroot.toNat / 2 ^ 20 * 2 ^ 20

/-- Whether a virtual address lies in the vault window (R118). -/
def Part.inVault (p : Part) (va : Nat) : Bool := p.vaultBase.toNat ≤ va && va < p.vaultBase.toNat + vaultLen

/-- Whether an address lies in the part of the vault window of a die outside the partition, or of a cell that the part lacks (R118). -/
def State.vaultGap (s : State) (p : Part) (va : Nat) : Bool :=
  let c := (va - p.vaultBase.toNat) / 2 ^ 23
  p.inVault va && !(p.dies.getLsbD (c / 24) && s.pkg.cellPresent (c / 24) (c % 24))

/-- The translation of an address with the entries that `see` gives (R304 to R307). The vault window is mapped by the tree, as any
address (R304, 23) [35]. -/
def State.walkBy (s : State) (p : Part) (va : Nat) (see : Nat → Nat → Nat) : Xlat :=
  if va ≥ 2 ^ 56 || s.vaultGap p va then .fault .translation 2 false else s.walkFrom p va see 3 p.root

/-- The translation that the tables give now. -/
def State.walk (s : State) (p : Part) (va : Nat) : Xlat := s.walkBy p va fun _ e => e

/-- Whether a cached entry stands on the way to an address for a partition. -/
def TlbEntry.covers (t : TlbEntry) (pi va : Nat) : Bool := t.part == pi && t.index == va / 2 ^ levelShift t.level

/-- What a cached page entry gives for an address that it maps: storage that the partition may not map stays out of its reach (R319,
R349). -/
def State.cached (s : State) (p : Part) (t : TlbEntry) (va : Nat) : Xlat :=
  let pa := pteAddr t.pte + va % 2 ^ levelShift t.level
  if s.mayMap p pa then .ok pa (t.pte % 256 + 256 * levelShift t.level) else .fault .translation 2 (pteProp t.pte)

/-- One of several values, the last unless a free choice names another [8]. -/
def staleChoice {α : Type} (turn key : Nat) (olds : List α) (now : α) : α :=
  match olds with
  | [] => now
  | _ => (nth olds (Config.stale turn key % (olds.length + 1))).getD now

/-- Translation of an access: by a page entry that some TLB holds, or by a walk that uses at each level the entry in memory or
one that some walker holds (R308) [8]. -/
def State.translate (s : State) (pi va : Nat) : Xlat :=
  let seen := if va < 2 ^ 56 && !s.vaultGap (s.part pi) va then s.tlb.filter (·.covers pi va) else []
  let tables := seen.filter fun t => pteType t.pte == 0
  let walked := s.walkBy (s.part pi) va fun level e =>
    staleChoice s.turn (8 * va + level) ((tables.filter fun t => t.level == level && t.pte != e).map (·.pte)) e
  let pages := (seen.filter fun t => pteType t.pte != 0).map (s.cached (s.part pi) · va)
  staleChoice s.turn (8 * va + 4) (pages.filter fun x => decide (x ≠ walked)) walked

/-- Cached entries with those that a walk of an address reads, as memory holds them, however it ends (R308). -/
def State.fill (s : State) (tlb : List TlbEntry) (pi va : Nat) : List TlbEntry :=
  if va ≥ 2 ^ 56 || s.vaultGap (s.part pi) va then tlb
  else
    let read := ((s.path (s.part pi) va 3 (s.part pi).root).filter fun x => cacheable x.1 x.2).map fun x =>
      (⟨pi, x.1, va / 2 ^ levelShift x.1, x.2⟩ : TlbEntry)
    (read.filter fun t => !tlb.contains t) ++ tlb

/-- Remove the cached entries that stand on the way to an address, or all of a partition's (R260). -/
def State.dropTlb (s : State) (pi : Nat) (va : Option Nat) : State :=
  { s with tlb := s.tlb.filter fun t => !(match va with
    | some a => t.covers pi a
    | none => t.part == pi) }

/-! Tags (R101, R102). -/

/-- The handle whose range holds an address. -/
def Part.handleAt (p : Part) (va : Nat) : Option Handle :=
  (p.handles.filterMap fun e => e.2).find? fun h => h.base.toNat ≤ va && va < h.base.toNat + h.len

/-- The byte of a shadow bitmap that holds the tag of a host-memory sector, and the bit in it; none where the sector has no tag
(R102). -/
def Part.shadowByte (p : Part) (va : Nat) : Option (Nat × Nat) :=
  (p.handleAt va).bind fun h => h.bitmap.map fun bm =>
    let k := (va - h.base.toNat) / 32
    (bm.toNat + k / 8, k % 8)

/-- A place of data with what a tag needs: the location, the shadow bit, a PROP page, MMIO space. -/
structure Place where
  loc : Loc
  shadow : Option Nat := none
  prop : Bool := false
  dev : Bool := false
  /-- The virtual address, for records; a local offset for `.l`. -/
  va : Nat := 0
deriving DecidableEq, Repr

def cellBytes : Nat := 0x200000

/-- The tag stored for a place's sector (R101, R102). -/
def State.tagAt (s : State) (q : Place) : Bool :=
  match q.loc with
  | .local c o => FMap.get false s.ltags ((c * cellBytes + o) / 32)
  | .phys pa =>
    if q.dev then false
    else if isHostPa pa then match q.shadow with
      | some b => ((s.bytes (b / 8) 1).headD 0).getLsbD (b % 8)
      | none => false
    else FMap.get false s.tags (pa / 32)

def State.setTag (s : State) (q : Place) (t : Bool) : State :=
  match q.loc with
  | .local c o => { s with ltags := FMap.set false s.ltags ((c * cellBytes + o) / 32) t }
  | .phys pa =>
    if q.dev then s
    else if isHostPa pa then match q.shadow with
      | some b =>
        let old := (s.bytes (b / 8) 1).headD 0
        let m : Byte := BitVec.ofNat 8 (2 ^ (b % 8))
        { s with mem := FMap.set 0 s.mem (b / 8) (if t then old ||| m else old &&& ~~~m) }
      | none => s
    else { s with tags := FMap.set false s.tags (pa / 32) t }

/-- The bytes of a place. A read of MMIO space returns a free value [9]. -/
def State.bytesAt (s : State) (q : Place) (n : Nat) : List Byte :=
  match q.loc with
  | .local c o => FMap.getN 0 s.lmem (c * cellBytes + o) n
  | .phys pa => if q.dev then leBytes n (Config.mmioRead s.turn pa).toNat else s.bytes pa n

/-- Bytes and tag that a load of a place returns (R103, R307). -/
def State.loadAt (s : State) (q : Place) (n : Nat) : List Byte × Bool := (s.bytesAt q n, s.tagAt q || q.prop)

/-- Store bytes alone. -/
def State.putBytes (s : State) (q : Place) (data : List Byte) : State :=
  match q.loc with
  | .local c o => { s with lmem := FMap.setN 0 s.lmem (c * cellBytes + o) data }
  | .phys pa =>
    if q.dev then s.modPkg fun k => { k with mmio := k.mmio ++ [(pa, data)] }
    else { s with mem := FMap.setN 0 s.mem pa data }

/-- The key of a place's sector: a physical sector or a local one. -/
def Place.sector (q : Place) : Loc :=
  match q.loc with
  | .local c o => .local c (o / 32)
  | .phys pa => .phys (pa / 32)

/-- First byte of a place within its sector. -/
def Place.inSector (q : Place) : Nat :=
  match q.loc with
  | .local _ o => o % 32
  | .phys pa => pa % 32

/-! Conflicts (R136) and the directory (R122). -/

/-- Whether a warp has read a place speculatively under a checkpoint. -/
def Ckpt.touches (c : Ckpt) (q : Place) : Bool :=
  match q.loc with
  | .phys pa => c.marks.contains (pa / 128)
  | .local cell o => c.localMarks.contains ((cell * cellBytes + o) / 32)

/-- A conflict at a line splits the region that holds it into halves, down to a single line (R122). -/
def splitRegion (rs : List Region) (line now : Nat) : List Region :=
  let halves (r : Region) : List Region :=
    if r.lines ≤ 1 then [{ r with seen := now }] else [⟨r.line, r.lines / 2, now⟩, ⟨r.line + r.lines / 2, r.lines / 2, now⟩]
  let holds (r : Region) : Bool := r.line ≤ line && line < r.line + r.lines
  if rs.any holds then rs.flatMap fun r => if holds r then halves r else [r]
  else halves ⟨line / 512 * 512, 512, now⟩ ++ rs

/-- Mark the conflict of another agent's write in every checkpoint that has read its place. -/
def State.conflict (s : State) (by_ : Option Nat) (q : Place) : State :=
  let hit := (List.range s.warps.length).any fun i => by_ ≠ some i && (match nth s.warps i with
    | some w => w.ckpts.any (·.touches q)
    | none => false)
  if !hit then s
  else
    let ws := (List.range s.warps.length).filterMap fun i => (nth s.warps i).map fun w =>
      if by_ = some i then w
      else { w with ckpts := w.ckpts.map fun c => if c.touches q then { c with conflict := true } else c }
    let s := { s with warps := ws }
    match q.loc with
    | .local _ _ => s
    | .phys pa => { s with regions := splitRegion s.regions (pa / 128) s.pkg.clock.toNat }

/-- The line of the shadow bit that a write of a host sector's tag changes meets conflicts of its own (R102, R136). -/
def State.shadowConflict (s : State) (by_ : Option Nat) (q : Place) : State :=
  match q.shadow with
  | some b => s.conflict by_ { loc := .phys (b / 8) }
  | none => s

/-- One write of an issue or of an engine operation. -/
structure Write where
  place : Place
  data : List Byte
  tag : Bool
deriving DecidableEq, Repr

def Buffered.write (b : Buffered) : Write := ⟨⟨b.loc, b.shadow, false, false, 0⟩, b.data, b.tag⟩
def Write.buffered (w : Write) : Buffered := ⟨w.place.loc, w.place.shadow, w.data, w.tag⟩

/-- The bytes of its sector that a write covers, as a bit set. -/
def Write.cover (w : Write) : Nat := (2 ^ w.data.length - 1) * 2 ^ w.place.inSector

/-- The new tag of a sector after the writes of one access to it (R101). -/
def sectorTag (old : Bool) (ws : List Write) : Bool :=
  if ws.any (·.tag) then true
  else if ws.foldl (fun a w => a ||| w.cover) 0 = 2 ^ 32 - 1 then false
  else old

/-- Perform the writes that count as one access (R101): data in order, then each sector's tag. `by_` is the warp that
makes them, none for any other agent. -/
def State.store (s : State) (by_ : Option Nat) (ws : List Write) : State :=
  let secs := (ws.map fun w => w.place.sector).dedup
  let s1 := ws.foldl (fun s w => (s.putBytes w.place w.data).conflict by_ w.place) s
  secs.foldl (fun s sec =>
    let here := ws.filter fun w => w.place.sector = sec
    match here with
    | [] => s
    | w :: _ => (s.setTag w.place (sectorTag (s.tagAt w.place) here)).shadowConflict by_ w.place) s1

/-- Perform an atomic's write (R101: the OR of the prior tag and the operands'). -/
def State.storeAtomic (s : State) (by_ : Option Nat) (q : Place) (data : List Byte) (tag : Bool) : State :=
  (((s.putBytes q data).conflict by_ q).setTag q (s.tagAt q || tag)).shadowConflict by_ q

/-- The memory that a warp's loads see: its buffered stores applied (R134). -/
def State.seenBy (s : State) (w : Warp) : State :=
  (w.ckpts.flatMap (·.stores)).foldl (fun s ws => s.store none (ws.map Buffered.write)) { s with warps := [] }

/-! Checks of an access (R202). -/

/-- Why an access does not perform: a fault, or a page that the address named lies on: the access's own, or that of its shadow bit. -/
inductive Stop
  | fault (cls : FClass) (cause : Nat) (prop : Bool)
  | sleep (va : Nat) (reg : Option Nat)
deriving DecidableEq, Repr

/-- What a translation of an address gives an access: the physical address and the page entry's attributes, or why it does not
perform, with that reason's place in the order of R202. -/
def Xlat.access (x : Xlat) (va : Nat) (write : Bool) : Except (Nat × Stop) (Nat × Nat) :=
  match x with
  | .fault .bus c prop => .error (50 + c, .fault .bus c prop)
  | .fault cls c prop => .error (10 + c, .fault cls c prop)
  | .absent => .error (40, .sleep va none)
  | .recompute g => .error (30, .sleep va (some g))
  | .ok pa e => if write && pteRo e then .error (20, .fault .readonly 0 (pteProp e)) else .ok (pa, e)

/-- What is accessed: by whom (partition, launch, gang and group where there is one), the space, the address. -/
structure Access where
  part : Nat
  launch : Option Nat
  gang : Option Nat
  group : Nat
  space : Space
  addr : Nat
  n : Nat
  align : Nat
  write : Bool
  atomic : Bool := false
deriving DecidableEq, Repr

/-- Buffers of the launch's handles, with whether the launch may write them. -/
def State.handleRanges (s : State) (launch : Nat) : List (Nat × Nat × Bool) :=
  match nth s.launches launch with
  | none => []
  | some l => l.lrec.handles.filterMap fun h =>
      (FMap.get none (s.part l.part).handles h.index).map fun e => (e.base.toNat, e.len, h.rw)

/-- Whether some byte of an access lies in a read-only handle's buffer. -/
def State.touchesRo (s : State) (a : Access) : Bool :=
  match a.launch with
  | none => false
  | some l => (s.handleRanges l).any fun r => !r.2.2 && a.addr < r.1 + r.2.1 && r.1 < a.addr + a.n

/-- Whether every byte of an access lies in one read-only handle's buffer (R119). -/
def State.insideRo (s : State) (a : Access) : Bool :=
  match a.launch with
  | none => false
  | some l => (s.handleRanges l).any fun r => !r.2.2 && r.1 ≤ a.addr && a.addr + a.n ≤ r.1 + r.2.1

/-- Bytes of local memory per group of a gang's launch, and where the group's range starts (R117). -/
def State.localRange (s : State) (gang : Option Nat) (group : Nat) : Option (Nat × Nat × Nat) :=
  match gang.bind (nth s.gangs) with
  | none => none
  | some g => match nth s.launches g.launch with
    | none => none
    | some l => some (g.die * 24 + g.cell, (nth g.localAt group).getD 0, l.lrec.localBytes)

/-- Where the shadow bit of a host-memory sector lies, by physical bit address: the device reads or writes it in the same access, which
fails with it (R102, R339, R347, R348) [43]. -/
def State.shadow (s : State) (a : Access) : Except (Nat × Stop) (Option Nat) :=
  match (s.part a.part).shadowByte a.addr with
  | none => .ok none
  | some (va, k) => match (s.translate a.part va).access va a.write with
    | .error e => .error e
    | .ok (pa, e) =>
      if !s.pkg.reaches pa || s.pkg.linkFails s.turn pa then .error (51, .fault .bus 1 (pteProp e))
      else if !a.write && s.poison.contains (s.pkg.norm pa / 32) then .error (60, .fault .bus 0 (pteProp e))
      else .ok (some (s.pkg.norm pa * 8 + k))

/-- The global part of an access: READONLY, then translation, then what the access itself meets (R202, R307, R339). R133's ALIGN of an
access to MMIO space comes after every outcome of translation, which alone tells that it is one [15]. -/
def State.globalPlace (s : State) (a : Access) : Except (Nat × Stop) Place :=
  let p := s.part a.part
  if a.space = .v && !(p.inVault a.addr && p.inVault (a.addr + a.n - 1)) then .error (1, .fault .translation 2 false)
  else if s.vaultGap p a.addr then .error (1, .fault .translation 2 false)
  else if a.space = .c && !s.insideRo a then .error (2, .fault .readonly 0 false)
  else if a.write && s.touchesRo a then .error (2, .fault .readonly 0 false)
  else match (s.translate a.part a.addr).access a.addr a.write with
    | .error e => .error e
    | .ok (pa, e) =>
      if pteDev e && a.n > 8 then .error (45, .fault .align 0 (pteProp e))
      else if pteDev e && a.atomic then .error (53, .fault .bus 3 (pteProp e))
      else if !s.pkg.reaches pa || s.pkg.linkFails s.turn pa then .error (51, .fault .bus 1 (pteProp e))
      else
        let pa := if pteDev e then pa else s.pkg.norm pa
        (if isHostPa pa && !pteDev e then s.shadow a else .ok none).map fun b => ⟨.phys pa, b, pteProp e, pteDev e, a.addr⟩

/-- The place of an access, or the first check it fails with that check's rank (R117, R118, R120, R121, R202). The
parameter space has no place here: its reads are served from the gang's block. -/
def State.place (s : State) (a : Access) : Except (Nat × Stop) Place :=
  if a.addr % a.align ≠ 0 then .error (0, .fault .align 0 false)
  else match a.space with
    | .l => match s.localRange a.gang a.group with
      | none => .error (1, .fault .translation 2 false)
      | some (c, off, len) =>
        if a.addr + a.n ≤ len then .ok ⟨.local c (off + a.addr), none, false, false, a.addr⟩
        else .error (1, .fault .translation 2 false)
    | .p => .error (1, .fault .translation 2 false)
    | _ => s.globalPlace a

/-- Whether a load of a place meets an uncorrectable error (R202). -/
def State.poisoned (s : State) (q : Place) : Bool :=
  match q.loc with
  | .phys pa => !q.dev && s.poison.contains (pa / 32)
  | .local c o => s.lpoison.contains ((c * cellBytes + o) / 32)

/-! Accesses of agents that are no warp: the command processor, Etesian, engines. -/

/-- Split [va, va+n) into pieces of at most 16 bytes that do not cross a 16-byte boundary (R121). -/
def pieces : Nat → Nat → Nat → List (Nat × Nat)
  | 0, _, _ => []
  | fuel + 1, va, n =>
    if n = 0 then []
    else
      let k := min n (16 - va % 16)
      (va, k) :: pieces fuel (va + k) (n - k)

/-- A partition agent's access to global memory: no handle or space restricts it. -/
def agentAccess (pi va n : Nat) (write : Bool) : Access :=
  { part := pi, launch := none, gang := none, group := 0, space := .g, addr := va, n := n, align := 1, write := write }

/-- Read n bytes at a virtual address as an agent of a partition; what stops it otherwise, with its address. -/
def State.readVa (s : State) (pi va n : Nat) : Except (Stop × Nat) (List Byte) :=
  (pieces (n + 1) va n).foldl (fun acc x => match acc with
    | .error e => .error e
    | .ok bs => match s.place (agentAccess pi x.1 x.2 false) with
      | .error e => .error (e.2, x.1)
      | .ok q => if s.poisoned q then .error (.fault .bus 0 q.prop, x.1) else .ok (bs ++ s.bytesAt q x.2)) (.ok [])

/-- Store bytes with a tag at a virtual address as one access, or change nothing. -/
def State.writeTagged (s : State) (pi va : Nat) (data : List Byte) (tag : Bool) : Option State :=
  let ws := (pieces (data.length + 1) va data.length).foldl (fun acc x => match acc with
    | none => none
    | some ws => match s.place (agentAccess pi x.1 x.2 true) with
      | .error _ => none
      | .ok q => some (ws ++ [(⟨q, (data.drop (x.1 - va)).take x.2, tag⟩ : Write)])) (some ([] : List Write))
  ws.map fun ws => s.store none ws

/-- Store bytes tagged S. -/
def State.writeVa (s : State) (pi va : Nat) (data : List Byte) : Option State := s.writeTagged pi va data false

/-- A little-endian value at a virtual address; none where it cannot be read. -/
def State.readNat (s : State) (pi va n : Nat) : Option Nat :=
  match s.readVa pi va n with
  | .ok bs => some (leNat bs)
  | .error _ => none

/-- Raise the completion object at a virtual address by one, an atomic increment tagged S operand (R129). -/
def State.raiseVa (s : State) (pi va : Nat) : Option State :=
  match s.place (agentAccess pi va 8 true) with
  | .error _ => none
  | .ok q => some (s.storeAtomic none q (leBytes 8 ((leNat (s.bytesAt q 8) + 1) % 2 ^ 64)) false)

end Sys2Proof.Machine
end

