-- ==== Sys2Proof/Machine/Launch.lean ====
section
/-! DEFINITION. The life of a launch (16, 20): the launch record and its checks, submission, dispatch, the sillage trace,
retirement, forced ends and ENDED; fault records and firmware events (R315, R318, R321). -/

namespace Sys2Proof.Machine

open Sys2Proof

def FClass.code : FClass → Nat
  | .illegal => 0 | .priv => 1 | .align => 2 | .translation => 3 | .recompute => 4 | .readonly => 5 | .lookahead => 6
  | .target => 7 | .line => 8 | .maskwait => 9 | .dcor => 10 | .taint => 11 | .slot => 12 | .bus => 13 | .trap => 14
  | .bkpt => 15

/-- The 64 bytes of a fault record (R315). -/
def FRec.bytes (r : FRec) : List Byte :=
  leBytes 1 r.cls.code ++ leBytes 1 r.disp ++ leBytes 1 r.variant ++ leBytes 1 r.cause ++ leBytes 4 r.lanes.toNat
    ++ leBytes 8 r.fpc.toNat ++ leBytes 8 r.altpc.toNat ++ leBytes 4 r.eqix.toNat ++ leBytes 4 r.info.toNat
    ++ leBytes 8 r.addr.toNat ++ leBytes 4 r.tags ++ leBytes 4 r.gang ++ leBytes 8 r.lseq ++ leBytes 1 r.warp
    ++ leBytes 1 r.die ++ leBytes 1 r.cell ++ leBytes 1 r.core ++ leBytes 4 0

def dispReplay : Nat := 0
def dispRecompute : Nat := 1
def dispHandler : Nat := 2
def dispFatal : Nat := 3
def dispStopped : Nat := 4

/-- A record that waits to be written to the partition's ring (R318). -/
def State.post (s : State) (pi : Nat) (r : FRec) (after : AfterRecord) : State :=
  s.modPart pi fun p => { p with pendingRecs := p.pendingRecs ++ [⟨r, after⟩] }

/-- A record that concerns no warp (R365). -/
def bareRec (seq : Nat) (cls : FClass) (disp cause : Nat) (addr : Word64) (gang : Nat) : FRec :=
  { cls := cls, disp := disp, variant := 0, cause := cause, lanes := 0, fpc := 0, altpc := 0xFFFFFFFFFFFFFFFF,
    eqix := 0xFFFFFFFF, info := 0, addr := addr, tags := 0, gang := gang, lseq := seq, warp := 0, die := 0, cell := 0,
    core := 0 }

/-- A fatal record for a launch with no warp (R365). -/
def launchRec (l : Launch) (cls : FClass) (cause : Nat) (addr : Word64) (gang : Nat) : FRec :=
  bareRec l.seq cls dispFatal cause addr gang

/-- An event for a die's firmware (R321); it ends the wait of every split in IDLE on that die whose deadline has not come
(R261). -/
def State.fwEvent (s : State) (die code arg : Nat) : State :=
  let q := FMap.get [] s.events die
  let s := { s with events := FMap.set [] s.events die (q ++ [BitVec.ofNat 64 (code + 256 * arg)]) }
  let on (w : Warp) : Bool := match nth s.gangs w.gang with
    | some g => g.die == die
    | none => false
  { s with warps := s.warps.map fun w =>
      if on w then w.mapFrontiers fun l => l.map fun e => match e.block with
        | .idle d t dl k => if s.pkg.clock.toNat < dl.toNat then { e with block := .idle d t dl true }
          else { e with block := .idle d t dl k }
        | _ => e
      else w }

/-! The launch record (R268 to R271). -/

def Record.n (bs : List Byte) (off n : Nat) : Nat := leNat ((bs.drop off).take n)

/-- Grid limits (R268): each coordinate from 1 to the smaller of 2^w and 2^32 − 1, the product at most 2^32 − 1. -/
def gridOk (widths grid : List Nat) : Bool :=
  ((grid.zip (widths.drop 2)).all fun x => 1 ≤ x.1 && x.1 ≤ min (2 ^ x.2) (2 ^ 32 - 1)) && grid.foldl (· * ·) 1 ≤ 2 ^ 32 - 1

def parseGrid (bs : List Byte) (off : Nat) : List Nat := (List.range 4).map fun i => Record.n bs (off + 4 * i) 4

def parseWidths (w : Nat) : List Nat := [bits w 3 0, bits w 5 4, bits w 11 6, bits w 17 12, bits w 23 18, bits w 29 24]

def widthsOk (w : Nat) : Bool :=
  let ws := parseWidths w
  bits w 31 30 == 0 && 1 ≤ bits w 3 0 && bits w 3 0 ≤ 9 && bits w 5 4 ≤ 2 && (ws.drop 2).all (· ≤ 32) && ws.foldl (· + ·) 0 ≤ 64

/-- PCTL's limits (R68): MODE is not 0b11, the budget and the ratio are not 0, the rest is zero. -/
def pctlOk (p : Nat) : Bool := bits p 31 14 == 0 && bits p 1 0 != 3 && bits p 13 10 != 0 && bits p 9 2 != 0

def geomOk (g : Nat) (widths : List Nat) : Bool :=
  let n := bits g 9 0
  let k := bits g 18 16
  bits g 15 10 == 0 && bits g 31 19 == 0 && 1 ≤ n && n ≤ 512 && n ≤ 2 ^ (nth widths 0).getD 0 && 1 ≤ k && k ≤ 4
    && k ≤ 2 ^ (nth widths 1).getD 0

def resOk (r : Nat) : Bool := bits r 5 0 ≤ 32 && bits r 7 6 == 0 && bits r 12 8 ≤ 16 && bits r 31 13 == 0

def localOk (l groups : Nat) : Bool := l % 256 == 0 && l * groups ≤ 0x200000

def allZero (bs : List Byte) (off n : Nat) : Bool := ((bs.drop off).take n).all (· == 0)

/-- Strictly rising. -/
def rising : List Nat → Bool
  | a :: b :: rest => a < b && rising (b :: rest)
  | _ => true

/-- A launch record's fields, handle list apart; none where it breaks a limit of R268 to R271. -/
def parseLaunch (bs : List Byte) : Option (LaunchRec × Nat × Nat) :=
  let n := Record.n bs
  let ctrl := n 8 4
  let widw := n 0xC 4
  let widths := parseWidths widw
  let geom := n 0x20 4
  let res := n 0x24 4
  let loc := n 0x28 4
  let ncl := bits ctrl 9 7
  let nst := bits ctrl 13 10
  let nwt := bits ctrl 16 14
  let nh := bits ctrl 22 17
  let det := bits ctrl 24 23
  let classes := (List.range ncl).map fun i =>
    (⟨n (0x80 + 32 * i) 4, parseGrid bs (0x88 + 32 * i), n (0x98 + 32 * i) 2⟩ : SizeClass)
  let stages := (List.range nst).map fun i =>
    (⟨bits (n (0x100 + 16 * i) 4) 4 0, bit (n (0x100 + 16 * i) 4) 8, n (0x104 + 16 * i) 4, n (0x108 + 16 * i) 8⟩ : Stage)
  let waits := (List.range nwt).map fun i =>
    (⟨BitVec.ofNat 64 (n (0x180 + 16 * i) 8), BitVec.ofNat 64 (n (0x188 + 16 * i) 8), false⟩ : WaitObj)
  let ok := bits ctrl 31 25 == 0 && ncl ≤ 4 && nst ≤ 8 && nwt ≤ 4 && nh ≤ 32 && det ≤ 2 && widthsOk widw
    && gridOk widths (parseGrid bs 0x10) && geomOk geom widths && resOk res && localOk loc (bits geom 18 16)
    && pctlOk (n 0x2C 4) && n 0x30 8 % 4 == 0 && (ncl != 0 || n 0x30 8 == 0) && n 0x40 8 % 8 == 0 && n 0x48 8 % 4 == 0
    && n 0x58 4 ≤ 672 && n 0x58 4 % 8 == 0 && n 0x60 8 % 16 == 0
    && (if det = 0 then n 0x60 8 == 0 && n 0x68 8 == 0 else n 0x68 8 % 16 == 0 && 32 ≤ n 0x68 8)
    && allZero bs 0x70 16 && allZero bs 0x1C0 64 && allZero bs (0x80 + 32 * ncl) (128 - 32 * ncl)
    && allZero bs (0x100 + 16 * nst) (128 - 16 * nst) && allZero bs (0x180 + 16 * nwt) (64 - 16 * nwt)
    && (classes.all fun c => gridOk widths c.grid) && rising (classes.map (·.size))
    && ((List.range ncl).all fun i => allZero bs (0x84 + 32 * i) 4 && allZero bs (0x9A + 32 * i) 6)
    && ((List.range nst).all fun i =>
      let h := n (0x100 + 16 * i) 4
      let b := n (0x104 + 16 * i) 4
      bits h 4 0 < nh && bits h 7 5 == 0 && bits h 31 9 == 0 && 16 ≤ b && b ≤ 0x200000 && b % 16 == 0
        && n (0x108 + 16 * i) 8 % 16 == 0)
    && (waits.all fun w => w.addr.toNat % 8 == 0)
  if ok then
    some ({ kdesc := BitVec.ofNat 64 (n 0 8), det := det, kind := bits ctrl 6 5, migrate := bit ctrl 4, coop := bit ctrl 3,
            prio := bits ctrl 2 0, widths := widths, grid := parseGrid bs 0x10, lanes := bits geom 9 0,
            groups := bits geom 18 16, slots := bits res 5 0, tiles := bits res 12 8, localBytes := loc,
            pctl := BitVec.ofNat 32 (n 0x2C 4), sizeAddr := BitVec.ofNat 64 (n 0x30 8), done := BitVec.ofNat 64 (n 0x38 8),
            staddr := BitVec.ofNat 64 (n 0x40 8), userp := BitVec.ofNat 64 (n 0x50 8), userlen := n 0x58 4,
            timeout := n 0x5C 4, trace := BitVec.ofNat 64 (n 0x60 8), traceLen := n 0x68 8, classes := classes,
            stages := stages, waits := waits }, nh, n 0x48 8)
  else none

/-- The handle entries of a launch record's list (R271); none where an entry's zero bits are not zero. -/
def parseHandles (bs : List Byte) (nh : Nat) : Option (List HandleRef) :=
  let hs := (List.range nh).map fun i => Record.n bs (4 * i) 4
  if hs.all fun h => bits h 31 26 == 0 then some (hs.map fun h => ⟨bits h 23 0, bit h 24, bit h 25⟩) else none

/-! Placement capacity (R41, R281, R282). -/

def coreSlots : CoreKind → Nat
  | .l => 8 | .d => 48

/-- The COREIDs of a kind, ascending (R67). -/
def coresOf : CoreKind → List Nat
  | .l => [0, 1] | .d => [2, 3]

def Kernel.variant (k : Kernel) : CoreKind → Option Variant
  | .l => k.varL
  | .d => k.varD

def otherKind : CoreKind → CoreKind
  | .l => .d
  | .d => .l

/-- Kinds that a launch permits, preferred first (R269), among those the kernel has a variant for. -/
def LaunchRec.kinds (r : LaunchRec) (k : Kernel) : List CoreKind :=
  (match r.kind with
    | 0 => [CoreKind.d, .l] | 1 => [.l, .d] | 2 => [.d] | _ => [.l]).filter fun x => (k.variant x).isSome

/-- The kind that KIND names (R269, R272) [25]. -/
def LaunchRec.namedKind (r : LaunchRec) : CoreKind := if r.kind % 2 = 0 then .d else .l

/-- Warps of one group, and of one gang (R33). -/
def LaunchRec.groupWarps (r : LaunchRec) : Nat := (r.lanes + 31) / 32
def LaunchRec.gangWarps (r : LaunchRec) : Nat := r.groupWarps * r.groups

/-- Warps that one empty core of a kind holds with a budget (R41). -/
def coreCap (x : CoreKind) (regs : Nat) : Nat := min (coreSlots x) (2048 / max regs 1)

/-- Whether pieces of some sizes go into bins with some room, none of them divided. -/
def packs : List Nat → List Nat → Bool
  | [], _ => true
  | x :: xs, bins => (List.range bins.length).any fun i => match nth bins i with
    | some b => x ≤ b && packs xs (setAt bins i (b - x))
    | none => false

/-- How many of n gangs with some vault stages the four empty vaults of a cell hold, each stage in one vault (R281). -/
def vaultCap (sizes : List Nat) (n : Nat) : Nat :=
  (List.range n).countP fun m => packs (List.replicate (m + 1) sizes).flatten (List.replicate 4 0x200000)

/-- Gangs of a launch that one empty cell holds, taken from each permitted kind in turn with shared local memory,
slots, tiles and vaults (R281, R283). -/
def LaunchRec.cellCap (r : LaunchRec) (k : Kernel) : Nat :=
  let byWarps := (r.kinds k).foldl (fun n x => match k.variant x with
    | some v => n + 2 * coreCap x v.regs / max r.gangWarps 1
    | none => n) 0
  let lim (have_ need : Nat) : Nat := if need = 0 then byWarps else have_ / need
  let vault := (r.stages.filter (·.vault)).map fun st => (st.bytes + 255) / 256 * 256
  vaultCap vault ([lim 0x200000 (r.localBytes * r.groups), lim 32 r.slots, lim 16 r.tiles].foldl min byWarps)

/-- Present cells of a partition (R349, R357). -/
def State.cellsOf (s : State) (p : Part) : List (Nat × Nat) :=
  (List.range 8).flatMap fun d =>
    if p.dies.getLsbD d then ((List.range 24).filter fun c => s.pkg.cellPresent d c).map fun c => (d, c) else []

/-- The local offsets of a record's local stages in key order, and where they end (R48). -/
def localStages (stages : List Stage) : List (Option Nat) × Nat :=
  stages.foldl (fun acc st =>
    if st.vault then (acc.1 ++ [none], acc.2)
    else
      let o := (acc.2 + 255) / 256 * 256
      (acc.1 ++ [some o], o + st.bytes)) ([], 0)

/-- The kernel that a KDESC names in a partition (R272). -/
def Part.kernel (p : Part) (kdesc : Word64) : Option Kernel :=
  (p.images.flatMap (·.kernels)).find? fun k => k.kdesc = kdesc

/-- Whether two ranges have a byte in common. -/
def overlap (a alen b blen : Nat) : Bool := alen != 0 && blen != 0 && a < b + blen && b < a + alen

/-- Handle checks of R119, R272 and R345. -/
def handlesOk (p : Part) (r : LaunchRec) : Bool :=
  let hs := r.handles.map fun h => (h, FMap.get none p.handles h.index)
  (hs.all fun x => match x.2 with
    | none => false
    | some e => (!x.1.prop || e.bitmap.isSome) && (!x.1.rw || !e.ro))
  && ((List.range hs.length).all fun i => (List.range i).all fun j => match nth hs i, nth hs j with
    | some (a, some ea), some (b, some eb) =>
      !overlap ea.base.toNat ea.len eb.base.toNat eb.len || (!a.rw && !b.rw)
    | _, _ => true)
  && r.stages.all fun st => match (nth hs st.handle).bind (·.2) with
    | some e => st.offset + st.bytes ≤ e.len
    | none => false

/-- The number of gangs of a grid. -/
def gridSize (g : List Nat) : Nat := g.foldl (· * ·) 1

/-- The checks of R272 that a parsed record with its handles must pass; a producer has no queue (R312). -/
def State.submitOk (s : State) (pi : Nat) (r : LaunchRec) (queue : Option Nat) : Bool :=
  let p := s.part pi
  match p.kernel r.kdesc with
  | none => false
  | some k =>
    (k.variant r.namedKind).isSome
    && ((r.kinds k).any fun x => match k.variant x with
      | some v => r.gangWarps ≤ 2 * coreCap x v.regs
      | none => false)
    && (localStages r.stages).2 ≤ r.localBytes
    && handlesOk p r
    && (r.classes.all fun c => c.entry < k.entries.length)
    && (match queue with
      | none => true
      | some q => q < 64 && bit (FMap.get {} p.queues q).cfg.toNat 3)
    && (!r.coop ||
      (let n := (if r.classes.isEmpty then [r.grid] else r.classes.map (·.grid)).foldl (fun m g => max m (gridSize g)) 0
       n ≤ (s.cellsOf p).length * r.cellCap k))

/-- Read and check a launch record at an address: the record and its kernel, none where it is refused (R272). -/
def State.readLaunch (s : State) (pi va : Nat) (queue : Option Nat) : Option (LaunchRec × Kernel) :=
  if va % 256 ≠ 0 then none
  else match s.readVa pi va 512 with
    | .error _ => none
    | .ok bs => match parseLaunch bs with
      | none => none
      | some (r, nh, hlist) => match s.readVa pi hlist (4 * nh), s.readVa pi r.kdesc.toNat 256 with
        | .ok hb, .ok _ => match parseHandles hb nh with
          | none => none
          | some hs =>
            let r := { r with handles := hs }
            if s.submitOk pi r queue then ((s.part pi).kernel r.kdesc).map fun k => (r, k) else none
        | _, _ => none

/-- The head of a queue: its oldest launch not yet dispatched (R278). -/
def State.headOf (s : State) (pi q : Nat) : Option Nat :=
  (List.range s.launches.length).find? fun i => match nth s.launches i with
    | some l => l.part == pi && l.queue == some q && (l.phase = .queued || l.phase = .ready)
    | none => false

/-- Whether the launch that was submitted to a queue before one, cancelled or not, has ENDED (R278) [44]. -/
def State.queueClear (s : State) (pi q : Nat) (l : Launch) : Bool :=
  let before := s.launches.filter fun m => m.part == pi && m.queue == some q && decide (m.order < l.order)
  before.all fun m => decide (m.phase = .ended) || before.any fun n => decide (m.order < n.order)

/-- Whether a queue is ready to be served (R278). -/
def State.queueReady (s : State) (pi q : Nat) : Bool :=
  let x := FMap.get {} (s.part pi).queues q
  bit x.cfg.toNat 3 && match (s.headOf pi q).bind (nth s.launches) with
    | some l => decide (l.phase = .ready) && (!bit x.cfg.toNat 4 || s.queueClear pi q l)
    | none => false

/-- A queue that has become ready starts an ageing interval (R278). -/
def State.noteReady (s0 s : State) (pi : Nat) (queue : Option Nat) : State :=
  match queue with
  | none => s
  | some q =>
    if s.queueReady pi q && !s0.queueReady pi q then
      s.modPart pi fun p =>
        let x := FMap.get ({} : Queue) p.queues q
        { p with queues := FMap.set {} p.queues q { x with agedAt := s.pkg.clock.toNat } }
    else s

/-- The base level of a queue's launch (R278). -/
def Part.baseOf (p : Part) (q prio : Nat) : Nat := max (bits (FMap.get {} p.queues q).cfg.toNat 2 0) prio

/-- LEVEL when a launch becomes the head of its queue (R278). -/
def State.newHead (s : State) (pi q : Nat) : State :=
  match (s.headOf pi q).bind (nth s.launches) with
  | none => s
  | some l => s.modPart pi fun p =>
    let x := FMap.get {} p.queues q
    { p with queues := FMap.set {} p.queues q { x with level := p.baseOf q l.lrec.prio, agedAt := s.pkg.clock.toNat } }

/-- Submission of a record that has passed its checks (R217, R272, R274): the state and the sequence number. -/
def State.addLaunch (s : State) (pi : Nat) (r : LaunchRec) (k : Kernel) (queue : Option Nat) : State × Nat :=
  let seq := (s.part pi).nextSeq
  let first := match queue with
    | some q => (s.headOf pi q).isNone
    | none => false
  let l : Launch := { seq := seq, part := pi, order := s.nextOrder, lrec := r, kern := k, queue := queue, phase := .queued,
                      quanta := queue.getD 0 }
  let s := { s with launches := s.launches ++ [l], nextOrder := s.nextOrder + 1 }
  let s := s.modPart pi fun p => { p with nextSeq := seq + 1 }
  (match queue with
    | some q => if first then s.newHead pi q else s
    | none => s, seq)

/-- SUBMIT and LAUNCH: the state and the sequence number, or 0 and no change where it is refused (R217, R272). -/
def State.submit (s : State) (pi va queue : Nat) : State × Nat :=
  match s.readLaunch pi va (some queue) with
  | none => (s, 0)
  | some (r, k) => s.addLaunch pi r k (some queue)

/-! The sillage trace (R288 to R290). -/

/-- The two words of a trace entry (R289). -/
def traceEntry (kind gang warp die cell body : Nat) : TraceEntry :=
  ⟨BitVec.ofNat 64 (kind + 256 * gang + 2 ^ 40 * warp + 2 ^ 48 * die + 2 ^ 51 * cell), BitVec.ofNat 64 body⟩

/-- Write an entry of a recording launch, or stop recording where it would pass TRACELEN (R288). -/
def State.record (s : State) (li : Nat) (e : TraceEntry) : State :=
  match nth s.launches li with
  | none => s
  | some l =>
    if l.lrec.det ≠ 1 || l.overflow then s
    else if 32 + 16 * (l.traced + 1) > l.lrec.traceLen then s.modLaunch li fun l => { l with overflow := true }
    else
      let at_ := l.lrec.trace.toNat + 32 + 16 * l.traced
      let s := (s.writeVa l.part at_ (leBytes 8 e.head.toNat ++ leBytes 8 e.body.toNat)).getD s
      let s := (s.writeVa l.part (l.lrec.trace.toNat + 8) (leBytes 8 (l.traced + 1))).getD s
      s.modLaunch li fun l => { l with traced := l.traced + 1 }

/-- A replayed entry's shape: no reserved KIND, zero fields zero, no die outside the partition (R289, R290). -/
def TraceEntry.ok (e : TraceEntry) (dies : BitVec 8) : Bool :=
  let h := e.head.toNat
  let b := e.body.toNat
  let k := bits h 3 0
  k ≤ 5 && bits h 63 56 == 0 && bits h 47 46 == 0 && bits h 7 4 == 0 && bits h 55 51 ≤ 23
    && (k = 2 || k = 3 || k = 4 || bits h 45 40 == 0)
    && (k = 5 || dies.getLsbD (bits h 50 48))
    && (match k with
      | 0 => bits b 63 2 == 0
      | 1 => b == 0
      | 2 => bits b 31 15 == 0 && bits b 8 7 != 3
      | 3 => bits b 31 12 == 0
      | 4 => bits b 31 21 == 0
      | _ => bits b 63 16 == 0 && bits h 55 8 == 0)

def TraceEntry.kind (e : TraceEntry) : Nat := bits e.head.toNat 3 0
def TraceEntry.gang (e : TraceEntry) : Nat := bits e.head.toNat 39 8
def TraceEntry.warp (e : TraceEntry) : Nat := bits e.head.toNat 45 40
def TraceEntry.die (e : TraceEntry) : Nat := bits e.head.toNat 50 48
def TraceEntry.cell (e : TraceEntry) : Nat := bits e.head.toNat 55 51

/-- The first entry still to replay that satisfies a test, and the entries without it. -/
def takeEntry (f : TraceEntry → Bool) : List TraceEntry → Option (TraceEntry × List TraceEntry)
  | [] => none
  | e :: es => if f e then some (e, es) else (takeEntry f es).map fun x => (x.1, e :: x.2)

/-! Ends (R54, R274 to R276). -/

/-- The cell's key. -/
def Gang.cellKey (g : Gang) : Nat := g.die * 24 + g.cell

/-- Whether a gang holds a cell's resources. -/
def Gang.onCell (g : Gang) : Bool :=
  match g.phase with
  | .staging | .resident | .saving | .stopping => true
  | _ => false

/-- Warps that hold a slot of a core. -/
def State.onCore (s : State) (die cell core : Nat) : List Warp :=
  s.warps.filter fun w => !w.ended && w.core == core && (nth s.gangs w.gang).any fun (g : Gang) =>
    g.onCell && g.die == die && g.cell == cell

/-- The register budget of a warp's variant (R57). -/
def State.budgetOf (s : State) (w : Warp) : Nat :=
  match (nth s.gangs w.gang).bind fun (g : Gang) => nth s.launches g.launch with
  | some l => match l.kern.variant w.kind with
    | some v => v.regs
    | none => 255
  | none => 255

/-- Register room left on a core (R41, R281). -/
def State.regRoom (s : State) (die cell core : Nat) : Nat :=
  2048 - (s.onCore die cell core).foldl (fun n w => n + s.budgetOf w) 0

/-- Free warp slots of a core for a budget (R41, R44). -/
def State.freeSlots (s : State) (die cell : Nat) (kind : CoreKind) (regs core : Nat) : Nat :=
  min (coreSlots kind - (s.onCore die cell core).length) (s.regRoom die cell core / max regs 1)

/-- The core of a kind with the most of something, ties to the lower COREID. -/
def bestCore (kind : CoreKind) (room : Nat → Nat) : Nat :=
  (coresOf kind).foldl (fun b c => if room b < room c then c else b) ((coresOf kind).headD 0)

/-- The core that a warp of a cell migrates to, if one has a slot (R44, R45). -/
def State.migrationCore (s : State) (die cell : Nat) (kind : CoreKind) (regs : Nat) : Option Nat :=
  let b := bestCore kind (s.freeSlots die cell kind regs)
  if s.freeSlots die cell kind regs b = 0 then none else some b

/-- The key of a deque: die × 96 + die core number (R215). -/
def dequeKey (die cell core : Nat) : Nat := die * 96 + cell * 4 + core

/-- Empty and release every deque of a launch (R54). -/
def State.dropDeques (s : State) (li : Nat) : State :=
  { s with deques := s.deques.filter fun e => e.2.launch ≠ some li }

/-- A launch whose gangs have all retired, or which runs none, enters ENDING with a code (R274, R54). -/
def State.toEnding (s : State) (li code : Nat) : State :=
  (s.dropDeques li).modLaunch li fun l => { l with phase := .ending, code := code, dying := false }

/-- Release everything a gang holds: its deque stays with the launch where it still has entries (R54, R255). -/
def State.releaseGang (s : State) (gi : Nat) : State :=
  let s := s.modGang gi fun g =>
    { g with phase := .retired, slots := [], tiles := [], vaults := [], savedDeque := [], savedLocal := [],
             savedTags := [], ctx := none, step := none }
  let ws := s.warps.map fun (w : Warp) =>
    if w.gang = gi then { w with ended := true, pending := [], ckpts := [] } else w
  { s with warps := ws, mops := s.mops.filter (fun m => m.gang ≠ gi), requests := s.requests.filter fun r => r.gang ≠ gi }

/-- Whether every warp of a gang has ended and its engine operations are done (R54). -/
def State.gangDone (s : State) (gi : Nat) : Bool :=
  (s.warps.all fun w => w.gang ≠ gi || w.ended)
    && (s.ops.all fun o => o.gang ≠ gi || o.phase = .done) && s.mops.all fun m => m.gang ≠ gi

/-- Retirement of a gang where it is due, and of its launch with its last gang (R54, R274, R275). -/
def State.retire (s : State) (gi : Nat) : State :=
  match nth s.gangs gi with
  | none => s
  | some g =>
    if g.phase = .retired || !g.started || !s.gangDone gi then s
    else
      let s := s.releaseGang gi
      let li := g.launch
      if (s.gangs.all fun h => h.launch ≠ li || h.phase = .retired) then
        match nth s.launches li with
        | some l => if l.phase = .dispatched && !l.dying then s.toEnding li 0 else s
        | none => s
      else s

/-- Mark a launch that ends once its record is written: its gangs issue no more (R276, R318). -/
def State.dieWith (s : State) (li : Nat) (r : FRec) : State :=
  match nth s.launches li with
  | none => s
  | some l => (s.modLaunch li fun l => { l with dying := true }).post l.part r (.endLaunch li 2)

/-! Dispatch (R49, R273, R274, R280, R364). -/

/-- Grid coordinates of a linear index, coordinate 2 fastest (R35). -/
def coordsOf : List Nat → Nat → List Nat
  | [], _ => []
  | g :: gs, i => i % g :: coordsOf gs (i / g)

/-- The launch parameter block without the stage addresses that placement fixes (R48, R118, R273). -/
def State.params (s : State) (l : Launch) (cls size : Nat) (user : List Byte) : List Byte :=
  let p := s.part l.part
  let handles := (List.range 32).flatMap fun i => leBytes 8 (match nth l.lrec.handles i with
    | some h => match FMap.get none p.handles h.index with
      | some e => e.base.toNat
      | none => 0
    | none => 0)
  let locals := (localStages l.lrec.stages).1
  let stages := (List.range 8).flatMap fun i => leBytes 8 (((nth locals i).join).getD 0)
  let head := handles ++ stages ++ leBytes 4 cls ++ leBytes 4 size ++ leBytes 8 p.vaultBase.toNat ++ leBytes 8 l.seq
    ++ leBytes 8 0 ++ user
  head ++ List.replicate (1024 - head.length) 0

/-- The class and code of a dispatch read that fails: a page that is not present counts as it is met (R364). -/
def Stop.cls : Stop → FClass × Nat
  | .fault c k _ => (c, k)
  | .sleep _ (some _) => (.recompute, 3)
  | .sleep _ none => (.translation, 0)

/-- A dispatch that ends at once with CODE FAULT (R364). -/
def State.dispatchFault (s : State) (li : Nat) (e : Stop × Nat) : State :=
  match nth s.launches li with
  | none => s
  | some l =>
    let c := e.1.cls
    (s.modLaunch li fun l => { l with phase := .dispatched }).dieWith li (launchRec l c.1 c.2 (BitVec.ofNat 64 e.2) 0)

/-- The trace entries of a replaying launch; none where the header or an entry is malformed (R290) [12]. -/
def State.readTrace (s : State) (l : Launch) : Except (Stop × Nat) (Option (List TraceEntry)) :=
  if l.lrec.det ≠ 2 then .ok (some [])
  else match s.readVa l.part l.lrec.trace.toNat 32 with
    | .error e => .error e
    | .ok h =>
      let n := Record.n h 8 8
      if Record.n h 0 4 ≠ 1 || Record.n h 4 4 ≠ 0 || Record.n h 24 8 ≠ 0 || 32 + 16 * n > l.lrec.traceLen then .ok none
      else match s.readVa l.part (l.lrec.trace.toNat + 32) (16 * n) with
        | .error e => .error e
        | .ok bs =>
          let es := (List.range n).map fun i =>
            (⟨BitVec.ofNat 64 (Record.n bs (16 * i) 8), BitVec.ofNat 64 (Record.n bs (16 * i + 8) 8)⟩ : TraceEntry)
          .ok (if es.all fun e => e.ok (s.part l.part).dies then some es else none)

/-- The chosen class and grid: none where the size word exceeds every class (R49); key 0 for a launch with no classes [42]. -/
def chooseClass (r : LaunchRec) (size : Nat) : Option (Nat × List Nat) :=
  if r.classes.isEmpty then some (0, r.grid)
  else ((List.range r.classes.length).find? fun i => match nth r.classes i with
    | some c => size ≤ c.size
    | none => false).bind fun i => (nth r.classes i).map fun c => (i, c.grid)

/-- Make the gangs of a dispatched launch eligible in the order of R35 with E = level (R280). -/
def State.makeGangs (s : State) (li : Nat) (grid : List Nat) (params : List Byte) (level : Nat) : State :=
  let n := gridSize grid
  let gs := (List.range n).map fun i =>
    ({ launch := li, lin := i, coords := coordsOf grid i, phase := .eligible, e := level, order := s.nextElig + i,
       agedAt := s.pkg.clock.toNat, params := params } : Gang)
  { s with gangs := s.gangs ++ gs, nextElig := s.nextElig + n }

/-- Dispatch of a READY launch at a level (R49, R274, R278, R364); with no classes the parameter block's class and size words are 0 [42]. -/
def State.dispatch (s : State) (li level base : Nat) : State :=
  match nth s.launches li with
  | none => s
  | some l =>
    let r := l.lrec
    let s := s.modLaunch li fun l => { l with level := level, base := base, dispatchedAt := s.pkg.clock.toNat,
                                              phase := .dispatched, began := true }
    let size := if r.classes.isEmpty then .ok [] else s.readVa l.part r.sizeAddr.toNat 4
    match size with
    | .error e => s.dispatchFault li e
    | .ok sb => match s.readTrace l with
      | .error e => s.dispatchFault li e
      | .ok tr => match s.readVa l.part r.userp.toNat r.userlen with
        | .error e => s.dispatchFault li e
        | .ok user => match tr with
          | none => s.toEnding li 4
          | some es => match chooseClass r (leNat sb) with
            | none => s.toEnding li 1
            | some (cls, grid) =>
              let s := s.modLaunch li fun l => { l with cls := cls, sizeWord := BitVec.ofNat 32 (leNat sb), replay := es }
              let s := if r.det = 1 then
                  (s.writeVa l.part r.trace.toNat (leBytes 4 1 ++ leBytes 4 0 ++ leBytes 8 0 ++ leBytes 8 l.seq ++ leBytes 8 0)).getD s
                else s
              s.makeGangs li grid (s.params l cls (leNat sb) user) level

/-! Recompute producers (R311, R312). -/

/-- A producer registration (R311): record address, VBASE, LEN, PBASE, FLAGS; none where it breaks R311. -/
structure Registration where
  lrec : Nat
  vbase : Nat
  len : Nat
  pbase : Nat
  flags : Nat
deriving DecidableEq, Repr

def State.registration (s : State) (pi g : Nat) : Option Registration :=
  let p := s.part pi
  if g ≥ p.prcount then none
  else match s.readVa pi (p.prbase.toNat + 64 * g) 64 with
    | .error _ => none
    | .ok bs =>
      let n := Record.n bs
      if n 8 8 % 65536 = 0 && n 16 8 ≠ 0 && n 16 8 % 65536 = 0 && n 24 8 % 65536 = 0 && bits (n 32 4) 31 2 = 0
          && allZero bs 0x30 16
      then some ⟨n 0 8, n 8 8, n 16 8, n 24 8, n 32 4⟩
      else none

/-- What an access that meets a RECOMPUTE entry starts: none, or the CAUSE it fails with (R312). -/
def State.startProducer (s : State) (li g : Nat) (die : Nat) : State × Option Nat :=
  match nth s.launches li with
  | none => (s, some 3)
  | some l =>
    let pi := l.part
    match s.registration pi g with
    | none => (s, some 3)
    | some r =>
      if (s.part pi).producers.any fun x => x.reg == g then (s, none)
      else if l.depth + 1 > 8 then (s, some 1)
      else
        let at_ := (s.part pi).prbase.toNat + 64 * g
        match s.writeVa pi (at_ + 0x24) (leBytes 4 1 ++ leBytes 8 (s.part pi).nextSeq) with
        | none => (s, some 3)
        | some s' => match s'.readLaunch pi r.lrec none with
          | none => ((s'.writeVa pi (at_ + 0x24) (leBytes 4 3)).getD s', some 2)
          | some (rec_, k) =>
            let (s', _) := s'.addLaunch pi rec_ k none
            let pl := s'.launches.length - 1
            let base := min (l.base + 1) 7
            let s' := s'.modLaunch pl fun x => { x with depth := l.depth + 1, producer := some g, quanta := l.quanta }
            let s' := s'.modPart pi fun p => { p with producers := p.producers ++ [⟨g, pl, die, at_, r.vbase, r.len, r.pbase, r.flags⟩] }
            ((s'.dispatch pl base base).fwEvent die 3 g, none)

end Sys2Proof.Machine
end

