-- ==== Sys2Proof/Machine/Operands.lean ====
section
/-! DEFINITION. What an issue knows of its warp (Ctx), reading source operands (R56, R58, R149, R176) and writing
destinations with their tags (R59, R96, R98, R108). -/

namespace Sys2Proof.Machine

open Sys2Proof

/-- An issue: the warp, its gang and launch as they stood before it, the issuing split, ACTIVE (R40) and the line word
of its slot. -/
structure Ctx where
  wi : Nat
  w : Warp
  g : Gang
  l : Launch
  split : Split
  hdr : Hdr
  active : Lanes
  /-- TGT, JOIN and the rest of the line that holds the PC; 0 where the line cannot be read. -/
  line : Nat
deriving DecidableEq, Repr

def Ctx.pi (c : Ctx) : Nat := c.l.part
def Ctx.gi (c : Ctx) : Nat := c.w.gang
def Ctx.li (c : Ctx) : Nat := c.g.launch
def Ctx.pc (c : Ctx) : Addr := c.split.pc
def Ctx.variant (c : Ctx) : Option Variant := c.l.kern.variant c.w.kind
/-- The variant's vector register budget (R57). -/
def Ctx.budget (c : Ctx) : Nat := match c.variant with
  | some v => v.regs
  | none => 255

/-- PCTL.MODE (R68, R104): 0 FREE, 1 TRAP, 2 TAINT. -/
def Ctx.policy (c : Ctx) : Nat := bits c.l.lrec.pctl.toNat 1 0

/-- The state captured by checkpoints, of the warp at issue. -/
def State.core (s : State) (wi : Nat) : WCore :=
  match nth s.warps wi with
  | some w => w.c
  | none => {}

def State.modCore (s : State) (wi : Nat) (f : WCore → WCore) : State := s.modWarp wi fun w => { w with c := f w.c }

/-! Registers. -/

def vkey (lane reg : Nat) : Nat := lane + 32 * reg

def WCore.getV (c : WCore) (lane reg : Nat) : VReg := FMap.get {} c.v (vkey lane reg)
def WCore.getK (c : WCore) (reg : Nat) : KReg := FMap.get {} c.k reg
def WCore.getP (c : WCore) (lane p : Nat) : PReg := FMap.get {} c.p (vkey lane p)
def WCore.setV (c : WCore) (lane reg : Nat) (x : VReg) : WCore := { c with v := FMap.set {} c.v (vkey lane reg) x }
def WCore.setK (c : WCore) (reg : Nat) (x : KReg) : WCore := { c with k := FMap.set {} c.k reg x }
def WCore.setP (c : WCore) (lane p : Nat) (x : PReg) : WCore := { c with p := FMap.set {} c.p (vkey lane p) x }

/-- A lane's TDEPTH (R62). -/
def WCore.depth (c : WCore) (lane : Nat) : Nat := (FMap.get [] c.taint lane).length

/-- A lane whose stack is not empty or whose TOVF is set (R108). -/
def WCore.tainted (c : WCore) (lane : Nat) : Bool := c.depth lane != 0 || c.tovf.has lane

/-- The n-bit little-endian value of consecutive vector registers from `reg`, with the OR of their tags (R56). -/
def WCore.readVs (c : WCore) (lane reg : Nat) : Nat → Nat × Bool
  | 0 => (0, false)
  | n + 1 =>
    let r := c.readVs lane (reg + 1) n
    let x := c.getV lane reg
    (x.bits.toNat + 2 ^ 32 * r.1, x.tag || r.2)

/-- The value of an operand of a width in bits as a lane reads it, with its tag (R56, R58, R176). A predicate reads as
0 or 1. -/
def WCore.read (c : WCore) (o : Operand) (lane width : Nat) : Nat × Bool :=
  match o with
  | .v r =>
    let x := c.readVs lane r.toNat (if width > 32 then 2 else 1)
    (x.1 % 2 ^ width, x.2)
  | .k r => let x := c.getK r.toNat; (x.bits.toNat % 2 ^ width, x.tag)
  | .p inv r => let x := c.getP lane r.toNat; ((x.val != inv).toNat, x.tag)
  | .sp _ => (0, false)

/-- The immediate of the IMM form as a value of a type (R149); of an F32 NaN, another float type's canonical quiet NaN [16]. -/
def immOf (t : Ty) (imm : Word32) : Nat :=
  match t with
  | .s64 => t.wrap imm.toInt
  | .n64 => imm.toNat
  | .f64 => (roundTo .f64 .rn 0 (FVal.decode Ty.f32.fmt imm.toNat)).1
  | .f16 | .bf16 | .e4m3 | .e5m2 => (roundTo t .rn 0 (FVal.decode Ty.f32.fmt imm.toNat)).1
  | _ => imm.toNat % 2 ^ t.width

/-- A source operand or an immediate. -/
inductive Source
  | op (o : Operand)
  | imm (x : Nat)
deriving DecidableEq, Repr

/-- Src(x, i) of a width. -/
def WCore.src (c : WCore) (x : Source) (lane width : Nat) : Nat × Bool :=
  match x with
  | .op o => c.read o lane width
  | .imm n => (n % 2 ^ width, false)

/-! Tags of what an issue writes. -/

/-- The guard's tag in a lane (R98). -/
def Ctx.guardTag (c : Ctx) (k : WCore) (lane : Nat) : Bool :=
  match c.hdr.guard with
  | some g => (k.getP lane g.pred.toNat).tag
  | none => false

/-- Whether a lane's writes are P whatever their sources: a P guard (R98), or taint under TAINT (R108). -/
def Ctx.forced (c : Ctx) (k : WCore) (lane : Nat) : Bool :=
  c.guardTag k lane || (c.policy == 2 && k.tainted lane)

/-- The same for a value written once for the warp (R59). -/
def Ctx.forcedAny (c : Ctx) (k : WCore) : Bool := c.active.list.any fun i => c.forced k i

/-- Write a value of a width to consecutive vector registers of a lane. -/
def WCore.writeVs (c : WCore) (lane reg val : Nat) (tag : Bool) : Nat → WCore
  | 0 => c
  | n + 1 => (c.setV lane reg ⟨BitVec.ofNat 32 val, tag⟩).writeVs lane (reg + 1) (val / 2 ^ 32) tag n

/-- Write a destination for one lane; a narrow value leaves zeros above it (R176), a uniform one is zero-extended
(R58). -/
def WCore.write (c : WCore) (o : Operand) (lane width val : Nat) (tag : Bool) : WCore :=
  match o with
  | .v r => c.writeVs lane r.toNat (val % 2 ^ width) tag (if width > 32 then 2 else 1)
  | .k r => c.setK r.toNat ⟨BitVec.ofNat 64 (val % 2 ^ width), tag⟩
  | .p _ r => c.setP lane r.toNat ⟨decide (val % 2 ≠ 0), tag⟩
  | .sp _ => c

/-- What one lane, or the warp once, computes for a destination. -/
structure Value where
  val : Nat
  tag : Bool
  flags : Flags := 0
deriving DecidableEq, Repr

/-- Flags raised, by lane. -/
abbrev Raised := List (Nat × Flags)

/-- Compute f in each lane of ACTIVE, or once for a uniform destination (R59, R177: lane index 32), and write it. -/
def Ctx.each (c : Ctx) (k : WCore) (dst : Operand) (width : Nat) (f : Nat → Value) : WCore × Raised :=
  match dst with
  | .k _ =>
    if c.active = 0 then (k, [])
    else
      let r := f 32
      (k.write dst 32 width r.val (r.tag || c.forcedAny k), c.active.list.map fun i => (i, r.flags))
  | _ => c.active.list.foldl (fun acc i =>
      let r := f i
      (acc.1.write dst i width r.val (r.tag || c.forced k i), acc.2 ++ [(i, r.flags)])) (k, [])

end Sys2Proof.Machine
end

