-- ==== Sys2Proof/Machine/Flags.lean ====
section
/-! DEFINITION. The status words as programs read and write them (R62, R63, R65, R68, R70), sticky flags, and the flag
trap of R64. -/

namespace Sys2Proof.Machine

open Sys2Proof

/-- LSTAT of a lane (R62). -/
def WCore.lstat (c : WCore) (lane : Nat) : Nat :=
  (FMap.get 0 c.flags lane).toNat + 256 * c.depth lane + 2048 * (c.tovf.has lane).toNat

/-- SETS of LSTAT: the flags are W1C, every other field is read-only or reserved (R62, R70). -/
def WCore.setLstat (c : WCore) (lane val : Nat) : WCore :=
  { c with flags := FMap.set 0 c.flags lane (FMap.get 0 c.flags lane &&& ~~~(BitVec.ofNat 8 val)) }

/-- WSTAT of a warp (R63). -/
def Warp.wstat (w : Warp) : Nat :=
  w.rbc.toNat + 256 * w.ser.toNat + 512 * w.ckpts.length + 2048 * w.migp.toNat + 4096 * w.sched.toNat
    + 8192 * w.noslot.toNat + 65536 * w.ten.toNat

/-- SETS of WSTAT: TEN and RBC are writable (R63, R70). -/
def Warp.setWstat (w : Warp) (val : Nat) : Warp :=
  { w with rbc := BitVec.ofNat 8 val, ten := BitVec.ofNat 8 (val / 65536) }

/-- A saturating addition to a field of MSTAT: `low` its lowest bit, `width` its bits (R65). -/
def mstatAdd (m : Word64) (low width n : Nat) : Word64 :=
  let old := bits m.toNat (low + width - 1) low
  let new := min (old + n) (2 ^ width - 1)
  m + BitVec.ofNat 64 ((new - old) * 2 ^ low)

/-- ZCNT rises (R65, R82, R187). -/
def WCore.addZcnt (c : WCore) (n : Nat) : WCore := { c with mstat := mstatAdd c.mstat 0 32 n }

/-- The block counter of a type rises (R65, R82). -/
def WCore.addBlock (c : WCore) (ty : Nat) : WCore := { c with mstat := mstatAdd c.mstat (32 + 8 * ty) 8 1 }

/-- Set sticky flags (R62). -/
def WCore.raise (c : WCore) (r : Raised) : WCore :=
  { c with flags := r.foldl (fun m x => FMap.set 0 m x.1 (FMap.get 0 m x.1 ||| x.2)) c.flags }

/-- The lanes in which a flag that TEN enables would be set (R64). -/
def trapLanes (ten : BitVec 8) (r : Raised) : Lanes :=
  Lanes.ofList ((r.filter fun x => x.2 &&& ten ≠ 0).map (·.1)).dedup

/-- INFO of a flag trap: the OR over those lanes of the flags that would have been set (R315). -/
def trapInfo (ten : BitVec 8) (r : Raised) : Word32 :=
  let m := trapLanes ten r
  BitVec.ofNat 32 ((r.filter fun x => m.has x.1).foldl (fun a x => a ||| x.2) (0 : Flags)).toNat

end Sys2Proof.Machine
end

