-- ==== Sys2Proof/Machine/Frontier.lean ====
section
/-! DEFINITION. PCs and fetch lines (R139 to R143), the frontier table (R36 to R39), lookahead windows (R153), the
operand latch (R61) and taint stacks (R106, R107, R109). -/

namespace Sys2Proof.Machine

open Sys2Proof

/-! PCs and lines. -/

/-- The slot after a PC (R140). -/
def nextSlot (pc : Addr) : Addr := if pc.toNat % 8 = 4 then pc + 60 else pc + 1

/-- R140: bits [5:3] are zero and the slot is 0 to 4. -/
def pcOk (pc : Addr) : Bool := pc.toNat % 64 ≤ 4

def lineBase (pc : Addr) : Nat := pc.toNat / 64 * 64

/-- Exclusive OR of the n low bits of x. -/
def parity (x n : Nat) : Bool := (List.range n).foldl (fun a i => a != bit x i) false

def slotWord (line : List Byte) (i : Nat) : Nat := leNat ((line.drop (12 * i)).take 12)
def lineWordOf (line : List Byte) : Nat := leNat (line.drop 60)

/-- The two parities of a line agree (R141). -/
def lineParityOk (line : List Byte) : Bool :=
  let w := lineWordOf line
  parity w 14 == bit w 19 && (List.range 5).all fun i => parity (slotWord line i) 96 == bit w (14 + i)

/-- What fetching a line gives: the line, one that fails R142 with the CAUSE of LINE and its page's PROP, or what stops the fetch. -/
inductive Fetch
  | line (bs : List Byte)
  | badLine (bs : List Byte) (cause : Nat) (prop : Bool)
  | fault (cls : FClass) (cause : Nat) (prop : Bool)
  | sleep (page : Nat)
deriving DecidableEq, Repr

/-- Fetch the line of a PC and check it (R142, R304, R307, R309, R312, R347). -/
def State.fetch (s : State) (pi : Nat) (pc : Addr) : Fetch :=
  let va := lineBase pc
  match s.translate pi va with
  | .fault cls c prop => .fault cls c prop
  | .absent => .sleep (va / 65536)
  | .recompute _ => .fault .recompute 3 false
  | .ok pa e =>
    if !pteExec e then .fault .translation 3 (pteProp e)
    else if !s.pkg.reaches pa || s.pkg.linkFails s.turn pa then .fault .bus 1 (pteProp e)
    else if (List.range 2).any fun k => s.poison.contains (s.pkg.norm pa / 32 + k) then .fault .bus 0 (pteProp e)
    else
      let bs := s.bytes (s.pkg.norm pa) 64
      if !lineParityOk bs then .badLine bs 0 (pteProp e)
      else if bits (lineWordOf bs) 31 20 ≠ 0 then .badLine bs 1 (pteProp e)
      else .line bs

/-- The line word of a PC, 0 where its line cannot be read [15]. A line that fails R142 has one: LINE is raised when a split is about
to issue from it. -/
def State.lineWord (s : State) (pi : Nat) (pc : Addr) : Nat :=
  match s.fetch pi pc with
  | .line bs | .badLine bs _ _ => lineWordOf bs
  | _ => 0

/-- Whether a PC is a slot marked in its line's target mask (R141, R143). -/
def State.marked (s : State) (pi : Nat) (pc : Addr) : Bool := pcOk pc && bit (s.lineWord pi pc) (pc.toNat % 8)

/-- Whether a PC breaks R140 or lies outside a variant (R160). -/
def outOfCode (v : Option Variant) (pc : Addr) : Bool :=
  !pcOk pc || match v with
    | some v => pc.toNat < v.code.toNat || v.code.toNat + v.len ≤ pc.toNat
    | none => true

/-- Whether a PC may be the destination of a transfer in a variant: the check of R143 and R160. -/
def State.targetOk (s : State) (pi : Nat) (v : Option Variant) (pc : Addr) : Bool := !outOfCode v pc && s.marked pi pc

/-- What keeps the mark of a destination from being read: its page is not present, or its line cannot be fetched at all (R143, R309)
[15]. -/
def State.lineUnread (s : State) (pi : Nat) (pc : Addr) : Option Stop :=
  match s.fetch pi pc with
  | .sleep _ => some (.sleep (lineBase pc) none)
  | .fault cls cause prop => some (.fault cls cause prop)
  | _ => none

/-! The frontier table. -/

def Block.isReady : Block → Bool
  | .ready => true
  | _ => false

def Split.ready (e : Split) : Bool := e.block.isReady

/-- Whether an entry's sleep has ended and its access is to issue afresh: it sleeps on no page any more, but until then nothing that
its warp has issued past it commits (R309). -/
def Block.replayed : Block → Bool
  | .sleep [] cancelled failed => !cancelled && failed.isNone
  | _ => false

/-- Whether an entry is unblocked. -/
def Split.free (e : Split) : Bool := e.ready || e.block.replayed

/-- Whether an entry may be selected: it is unblocked, or its sleep has ended in a fault that it has to take. -/
def Split.issues (e : Split) : Bool :=
  e.free || match e.block with
    | .sleep _ cancelled failed => cancelled || failed.isSome
    | _ => false

/-- The entry as its access issues afresh. -/
def Split.reissued (e : Split) : Split := if e.block.replayed then { e with block := .ready } else e

/-- An entry wakes. -/
def WCore.wake (k : WCore) (lanes : Lanes) : WCore :=
  { k with frontier := k.frontier.map fun e => if e.lanes = lanes then { e with block := .ready } else e }

/-- The table as an entry's access issues afresh. -/
def WCore.reissue (k : WCore) (lanes : Lanes) : WCore :=
  { k with frontier := k.frontier.map fun e => if e.lanes = lanes then e.reissued else e }

/-- Insert an entry in ascending order of PC (R36), before those that stand at its PC [40]. -/
def insertSplit (e : Split) : List Split → List Split
  | [] => [e]
  | x :: xs => if e.pc.toNat ≤ x.pc.toNat then e :: x :: xs else x :: insertSplit e xs

def sortSplits (l : List Split) : List Split := l.foldr insertSplit []

def lanesOf (l : List Split) : Lanes := l.foldl (fun m e => m ||| e.lanes) 0

/-- The warp's live lanes; in handler mode those suspended as well (R258). -/
def Warp.live (w : Warp) : Lanes :=
  match w.handler with
  | some h => lanesOf w.c.frontier ||| (lanesOf h.frontier &&& ~~~h.faulted)
  | none => lanesOf w.c.frontier

/-- The unblocked entry with the lowest PC; of two at one PC the first in the table [40]. -/
def lowestReady (l : List Split) : Option Split := l.find? Split.issues

/-- The unblocked entry with the next higher PC than a PC, wrapping to the lowest. -/
def nextReady (l : List Split) (pc : Addr) : Option Split :=
  match l.find? fun e => e.issues && pc.toNat < e.pc.toNat with
  | some e => some e
  | none => lowestReady l

/-- The entry with the largest wait count, ties to the first, the lower PC. -/
def longestWait : List Split → Option Split
  | [] => none
  | e :: es => match longestWait es with
    | some x => if e.wait ≥ x.wait then some e else some x
    | none => some e

/-- The split that issues next (R39) and the core with it selected; none where every split is blocked. Whatever blocks the selected
split, selection passes to the next higher PC, wrapping, as R37 says of the waits that it names [40]. -/
def WCore.resolve (c : WCore) : Option (Split × WCore) :=
  match c.frontier.find? fun e => e.lanes == c.sel with
  | none => (lowestReady c.frontier).map fun e => (e, { c with sel := e.lanes, yielded := false })
  | some e =>
    let others := c.frontier.filter fun x => x.lanes != e.lanes
    let pick :=
      if others.any fun x => x.issues && 256 ≤ x.wait then longestWait (c.frontier.filter Split.issues)
      else
        if c.yielded || !e.issues then
          match nextReady others e.pc with
          | some x => some x
          | none => if e.issues then some e else none
        else some e
    pick.map fun x => (x, { c with sel := x.lanes, yielded := false })

/-- An entry that does not issue while another split of its warp does (R39, R210). -/
def Split.passed (e : Split) (selected : Bool) : Split :=
  match e.block with
  | .collective m n => { e with block := .collective m (n + 1) }
  | _ => if selected || !e.issues then e else { e with wait := e.wait + 1 }

/-- Join the parts of an issuing split that stand at one PC with one block. -/
def gatherParts : List Split → List Split
  | [] => []
  | e :: es =>
    let rest := gatherParts es
    if rest.any fun x => x.pc = e.pc && x.block = e.block then
      rest.map fun x => if x.pc = e.pc && x.block = e.block then { x with lanes := x.lanes ||| e.lanes } else x
    else if e.lanes = 0 then rest else e :: rest

/-- How an issue left its split, as far as selection is concerned (R37). -/
inductive Kind | plain | transfer | blocks
deriving DecidableEq, Repr

/-- An entry with the lanes of others that join it; if one of them has an access to issue afresh, so has the entry. -/
def Split.grown (p : Split) (js : List Split) : Split :=
  { p with lanes := p.lanes ||| lanesOf js, block := ((js.map (·.block)).find? Block.replayed).getD p.block }

/-- The entries of a table that stand at a PC, joined in the place of the first. -/
def joinAt (l : List Split) (stands : Split → Bool) : List Split :=
  match l.filter stands with
  | [] => l
  | e :: es => sortSplits ({ e.grown es with wait := 0 } :: l.filter fun x => !stands x)

/-- The table after some entries have been unblocked: at a marked slot they merge with the unblocked entries there (R38) [17]. -/
def mergeWoken (marked : Addr → Bool) (old new : List Split) : List Split :=
  let woken := new.filter fun e => e.free && old.any fun x => x.lanes = e.lanes && !x.free
  ((woken.map (·.pc)).dedup.filter marked).foldl (fun l pc => joinAt l fun x => x.free && decide (x.pc = pc)) new

/-- The entry that holds the lanes of the selected split after a merge (R37). -/
def followSel (l : List Split) (sel : Lanes) : Lanes :=
  match l.find? fun e => e.lanes &&& sel ≠ 0 with
  | some e => e.lanes
  | none => sel

/-- Change every frontier table of a warp by what unblocks some of its entries; those at one marked slot merge (R38). -/
def Warp.unblocked (w : Warp) (marked : Addr → Bool) (f : Split → Split) : Warp :=
  let table (l : List Split) : List Split := mergeWoken marked l (sortSplits (l.map f))
  let core (k : WCore) : WCore := let l := table k.frontier; { k with frontier := l, sel := followSel l k.sel }
  { w with
    c := core w.c
    ckpts := w.ckpts.map fun k => { k with saved := core k.saved }
    handler := w.handler.map fun h => let l := table h.frontier; { h with frontier := l, sel := followSel l h.sel } }

/-- The frontier table after an issue of the lanes of `e`, whose parts now stand as given; `main` for the selected
split, whose parts merge at marked slots (R37 to R39). A split that blocks passes selection on whatever it waits for [40]. Issues in
handler mode pass by the entries of the table in use alone, so a split suspended at a collective does not count them (R210) [17]. -/
def WCore.advance (c : WCore) (e : Split) (parts : List Split) (marked : Addr → Bool) (main : Bool) (kind : Kind) : WCore :=
  let others := (c.frontier.filter fun x => x.lanes &&& e.lanes = 0).map fun x => x.passed (x.lanes == c.sel)
  let parts := (gatherParts parts).map fun p => { p with wait := 0 }
  let joins (p x : Split) : Bool := main && p.ready && x.free && x.pc = p.pc && marked p.pc
  let grown := parts.map fun p => p.grown (others.filter (joins p))
  let table := sortSplits (grown ++ others.filter fun x => !parts.any fun p => joins p x)
  let merged := grown.map (·.lanes) != parts.map (·.lanes)
  let lowest := match lowestReady table with
    | some x => x.lanes
    | none => (table.head?.map (·.lanes)).getD 0
  let sel :=
    if !main then (if c.sel &&& e.lanes = 0 then c.sel else lowest)
    else match grown with
      | [] => lowest
      | [p] => match kind with
        | .transfer => if merged then p.lanes else lowest
        | .plain => p.lanes
        | .blocks => match nextReady (table.filter fun x => x.lanes != p.lanes) p.pc with
          | some x => x.lanes
          | none => p.lanes
      | _ => lowest
  { c with frontier := table, sel := sel }

/-! Lookahead windows (R153). -/

/-- The lanes of `active` whose window covers a register of the list. -/
def WCore.windowHits (c : WCore) (active : Lanes) (regs : Nat → List Operand) : Lanes :=
  active.filter fun i => c.windows.any fun w => w.lane == i && w.regs.any fun r => (regs i).contains r

/-- One issue of the lanes, then the windows that it opens. -/
def WCore.tick (c : WCore) (lanes active : Lanes) (look : Nat) (regs : List Operand) : WCore :=
  let old := (c.windows.map fun w => if lanes.has w.lane then { w with left := w.left - 1 } else w).filter fun w => w.left != 0
  let new := if look = 0 then [] else active.list.map fun i => (⟨i, look, regs⟩ : Window)
  { c with windows := old ++ new }

/-- Lanes that have exited hold no window. -/
def WCore.closeWindows (c : WCore) (lanes : Lanes) : WCore :=
  { c with windows := c.windows.filter fun w => !lanes.has w.lane }

/-! The operand latch (R61). -/

/-- The operand that HOLD names, and its place in the row. -/
def heldOperand (r : Row) (v : View) : Option (Slot × Operand) :=
  match v.hdr.hold with
  | .none => Option.none
  | .a => some (r.a, v.a)
  | .b => some (r.b, v.b)
  | .c => some (r.c, v.c)

/-- The registers that a held operand spans, where the instruction reads it there; none for an immediate or a special. -/
def heldRegs (i : Instr) : List Operand :=
  match i.row, i.view with
  | some r, some v => match heldOperand r v with
    | some (s, o) => if s.reads && s.used v o then s.registers v o else []
    | none => []
  | _, _ => []

/-- The latch after an issue of `lanes`: what it writes is dropped, whichever split holds it; what it asks for and reads is kept. Of a
fourth hold, which only splits that co-issue can bring, R61 says nothing; the oldest leaves [17]. -/
def latchAfter (l : List Latched) (i : Instr) (lanes : Lanes) : List Latched :=
  let kept := (l.map fun x => if x.lanes == lanes then { x with left := x.left - 1 } else x).filter fun x =>
    x.left != 0 && !x.regs.any i.regsWritten.contains
  let held := heldRegs i
  if held.isEmpty then kept else (⟨held, lanes, 2⟩ :: kept.filter fun x => x.regs != held).take 3

/-! Taint stacks. -/

/-- Pop one entry in each lane of a join point (R107). -/
def WCore.popTaint (c : WCore) (lanes : Lanes) : WCore :=
  { c with taint := lanes.list.foldl (fun m i => FMap.set [] m i (FMap.get [] m i).tail) c.taint }

/-- Push a branch's PC in one lane (R106). -/
def WCore.pushTaint (c : WCore) (lane : Nat) (pc : Addr) : WCore :=
  let st := FMap.get [] c.taint lane
  if st.head? = some pc then c
  else if st.length ≥ 4 then { c with tovf := c.tovf ||| BitVec.ofNat 32 (2 ^ lane) }
  else { c with taint := FMap.set [] c.taint lane (pc :: st) }

/-- Empty the stacks and clear TOVF in some lanes (R109). -/
def WCore.clearTaint (c : WCore) (lanes : Lanes) : WCore :=
  { c with taint := lanes.list.foldl (fun m i => FMap.set [] m i []) c.taint, tovf := c.tovf &&& ~~~lanes }

end Sys2Proof.Machine
end

