-- ==== Sys2Proof/Machine/Faults.lean ====
section
/-! DEFINITION. Taking an exception: the fault record (R315, R316), its disposition (R314), handler entry (R317) and the
return from it (R259), a stop (R165), a fatal end (R276), faults under a checkpoint (R138), and sleeping on a page
(R309, R312). -/

namespace Sys2Proof.Machine

open Sys2Proof

/-- Entries of every frontier of the warp, those suspended in handler mode included. -/
def Warp.entries (w : Warp) : List Split :=
  w.c.frontier ++ match w.handler with
    | some h => h.frontier
    | none => []

/-- PC of the EQP with this index in the other variant (R316). -/
def Kernel.altPc (k : Kernel) (kind : CoreKind) (eqix : Word32) : Word64 :=
  if eqix = 0xFFFFFFFF || k.varL.isNone || k.varD.isNone then 0xFFFFFFFFFFFFFFFF
  else match k.eqps.find? fun x => x.1 == eqix.toNat with
    | some (_, l, d) => match kind with
      | .l => d
      | .d => l
    | none => 0xFFFFFFFFFFFFFFFF

def kindCode : CoreKind → Nat
  | .l => 0 | .d => 1

/-- The record of a fault that a warp takes, or that stands for a warp that has exited (R315, R365). -/
def faultRecord (w : Warp) (g : Gang) (l : Launch) (f : LateFault) (disp : Nat) : FRec :=
  { cls := f.info.cls, disp := disp, variant := kindCode f.kind, cause := f.info.cause, lanes := f.info.lanes, fpc := f.pc,
    altpc := f.altpc, eqix := f.eqix, info := f.info.info, addr := f.info.addr, tags := f.info.tags, gang := g.lin,
    lseq := l.seq, warp := w.index, die := g.die, cell := g.cell, core := w.core }

/-- The fault of an issue at a split of the warp. -/
def lateOf (w : Warp) (l : Launch) (pc : Addr) (info : FaultInfo) : LateFault :=
  ⟨info, pc, w.c.leqix, l.kern.altPc w.kind w.c.leqix, w.kind⟩

/-- Where a fault taken to a handler goes; none where it is not taken to one (R314). -/
def handlerEntry (w : Warp) (l : Launch) (f : FaultInfo) : Option Word64 :=
  if l.kern.hmask.getLsbD f.cls.code && decide (f.cls ≠ .recompute) && decide (f.cls ≠ .bkpt) && w.handler.isNone then
    (l.kern.variant w.kind).bind (·.hentry)
  else none

/-- Handler mode begins: the split with these lanes resumes at the entry (R258, R317). -/
def Warp.enterHandler (w : Warp) (lanes : Lanes) (entry : Word64) (f : LateFault) (r : FRec) : Warp :=
  let frontier := w.c.frontier.map fun e => if e.lanes &&& lanes = 0 then e else { e with block := .ready }
  { w with
    handler := some { epc := if f.info.cls = .trap then nextSlot f.pc else f.pc, emask := lanes,
                      faulted := lanes, frec := r, frontier := frontier, sel := w.c.sel, windows := w.c.windows }
    c := { w.c with frontier := [⟨lanes, entry, 0, .ready⟩], sel := lanes, windows := [], yielded := false }
    latch := [] }

/-- The lanes that executed a BKPT stand at the slot after it, where they merge as after any instruction (R38, R165). -/
def WCore.passBkpt (c : WCore) (pc : Addr) (lanes : Lanes) (marked : Addr → Bool) : WCore :=
  let moved := c.frontier.flatMap fun e =>
    if e.pc = pc && e.lanes &&& lanes ≠ 0 then
      gatherParts [{ e with lanes := e.lanes &&& ~~~lanes }, { e with lanes := e.lanes &&& lanes, pc := nextSlot pc }]
    else [e]
  let table := sortSplits moved
  let table := if marked (nextSlot pc) then joinAt table fun x => x.free && decide (x.pc = nextSlot pc) else table
  { c with frontier := table, sel := if moved.any fun e => e.lanes = c.sel then followSel table c.sel else c.sel }

/-- Take a fault with no checkpoint open; `lanes` are those of the faulted split (R314). A stop at a BKPT ends a single step (R344). In
handler mode every fault is FATAL, BKPT too [39]. -/
def State.deliver (s : State) (wi : Nat) (f : LateFault) (lanes : Lanes) : State :=
  match nth s.warps wi with
  | none => s
  | some w => match nth s.gangs w.gang with
    | none => s
    | some g => match nth s.launches g.launch with
      | none => s
      | some l =>
        if f.info.cls = .bkpt && w.handler.isNone then
          let s := s.modWarp wi fun w => { w with c := w.c.passBkpt f.pc f.info.lanes (s.marked l.part) }
          let s := s.modGang w.gang fun g => { g with phase := .stopping, step := none }
          s.post l.part (faultRecord w g l f dispStopped) .nothing
        else match handlerEntry w l f.info with
          | some entry => s.modWarp wi fun w => w.enterHandler lanes entry f (faultRecord w g l f dispHandler)
          | none =>
            let s := s.modWarp wi fun w => { w with c := { w.c with
              frontier := w.c.frontier.map fun e => if e.lanes = lanes then { e with block := .faulted } else e } }
            s.dieWith g.launch (faultRecord w g l f dispFatal)

/-- The lanes of the entry that a fault names, else the selected split's. -/
def WCore.faultedLanes (c : WCore) (f : LateFault) : Lanes :=
  match c.frontier.find? fun e => e.pc = f.pc && e.lanes &&& f.info.lanes ≠ 0 with
  | some e => e.lanes
  | none => c.sel

/-- Raise a fault of a split with these lanes: under a checkpoint it is held until that commits (R138). -/
def State.raiseLate (s : State) (wi : Nat) (lanes : Lanes) (f : LateFault) : State :=
  match nth s.warps wi with
  | none => s
  | some w => match w.ckpts with
    | [] => s.deliver wi f lanes
    | _ => s.modWarp wi fun w => { w with ckpts := modAt w.ckpts (w.ckpts.length - 1) fun k => { k with held := some f } }

/-- Raise a fault at an issue of a split with these lanes. -/
def State.raiseFault (s : State) (wi : Nat) (pc : Addr) (lanes : Lanes) (info : FaultInfo) : State :=
  match nth s.warps wi with
  | none => s
  | some w => match nth s.gangs w.gang with
    | none => s
    | some g => match nth s.launches g.launch with
      | none => s
      | some l => s.raiseLate wi lanes (lateOf w l pc info)

/-- Lanes that meet a page that is not present, or a RECOMPUTE entry (R309, R312). -/
abbrev PageHit := Sleep

/-- Whether a split of the warp already sleeps on a page (R309). -/
def Warp.sleepsOn (w : Warp) (page : Nat) : Bool :=
  w.entries.any fun e => match e.block with
    | .sleep ps _ _ => ps.any fun x => x.page == page
    | _ => false

/-- Whether an engine operation sleeps on a page. -/
def EOp.sleepsOn (o : EOp) (page : Nat) : Bool :=
  match o.phase with
  | .asleep p => p.page == page
  | _ => false

/-- Whether the warp or an engine thread of it already sleeps on a page, so that its record is outstanding (R236, R309). -/
def State.sleepsOn (s : State) (wi : Nat) (w : Warp) (page : Nat) : Bool :=
  w.sleepsOn page || s.ops.any fun (o : EOp) => o.warp == wi && o.sleepsOn page

/-- Post the records of pages that an issue meets and start their producers: the state, and the first hit that fails
with its CAUSE (R202, R309, R312, R315). Only a REPLAY record stays away where one is outstanding. -/
def State.meetPages (s : State) (wi : Nat) (w : Warp) (g : Gang) (l : Launch) (pc : Addr) :
    List PageHit → State × Option (PageHit × Nat)
  | [] => (s, none)
  | h :: hs =>
    let info : FaultInfo := { cls := if h.reg.isSome then .recompute else .translation, lanes := h.lanes,
                              addr := BitVec.ofNat 64 h.addr, tags := h.paddr.toNat }
    let disp := if h.reg.isSome then dispRecompute else dispReplay
    let s := if h.reg.isNone && s.sleepsOn wi w h.page then s else s.post l.part (faultRecord w g l (lateOf w l pc info) disp) .nothing
    match h.reg with
    | none => s.meetPages wi w g l pc hs
    | some r =>
      let x := s.startProducer g.launch r g.die
      let y := x.1.meetPages wi w g l pc hs
      (y.1, (x.2.map fun c => (h, c)).orElse fun _ => y.2)

/-- The fault of an access that meets a page, with a CAUSE. -/
def PageHit.fault (h : PageHit) (cause : Nat) : FaultInfo :=
  { cls := if h.reg.isSome then .recompute else .translation, cause := cause, lanes := h.lanes
    addr := BitVec.ofNat 64 h.addr, tags := h.paddr.toNat }

/-- The split sleeps on the pages, or takes the RECOMPUTE fault of one that cannot be produced (R309, R312). In handler mode the fault
is FATAL, as every fault there is (R314, R317). -/
def State.sleepOn (s : State) (wi : Nat) (e : Split) (hits : List PageHit) : State :=
  match nth s.warps wi with
  | none => s
  | some w => match nth s.gangs w.gang with
    | none => s
    | some g => match nth s.launches g.launch with
      | none => s
      | some l =>
        match hits, w.handler with
        | [], _ => s
        | h :: hs, some _ =>
          s.raiseFault wi e.pc e.lanes { h.fault 0 with lanes := hs.foldl (fun m x => m ||| x.lanes) h.lanes }
        | _, none => match s.meetPages wi w g l e.pc hits with
          | (s, some (h, c)) => s.raiseFault wi e.pc e.lanes (h.fault c)
          | (s, none) =>
            let hits := hits.map fun h => { h with eqix := w.c.leqix }
            s.modWarp wi fun w => { w with c := { w.c with
              frontier := w.c.frontier.map fun x =>
                if x.lanes = e.lanes then { x with block := .sleep hits false none } else x } }

/-- The frontier that ERET restores (R259): the faulted entry's live lanes that EMASK names move to EPC. Lanes that have
exited in handler mode are gone (R163). -/
def Handler.resume (h : Handler) (live : Lanes) : List Split :=
  sortSplits (h.frontier.flatMap fun e =>
    if e.lanes &&& h.faulted = 0 then [e]
    else gatherParts [{ e with lanes := e.lanes &&& live &&& ~~~h.emask },
      { e with lanes := e.lanes &&& live &&& h.emask, pc := h.epc }])

/-- Handler mode ends (R259). The selected split is the one saved, or the part of it at the lowest PC. -/
def Warp.leaveHandler (w : Warp) (h : Handler) : Warp :=
  let frontier := h.resume w.live
  let sel := match frontier.find? fun e => e.lanes &&& h.sel ≠ 0 with
    | some e => e.lanes
    | none => (frontier.head?.map (·.lanes)).getD 0
  { w with handler := none, latch := [], c := { w.c with frontier := frontier, sel := sel, windows := h.windows } }

end Sys2Proof.Machine
end

