-- ==== Sys2Proof/Machine/Checks.lean ====
section
/-! DEFINITION. The checks of an issue that need more than its word (R158 orders 2 to 5): over-budget registers (R57)
and the conditions of single entries, privilege (R243), lookahead (R153), taint under TRAP (R105); and which instructions
wait for commit (R127, R244) or count as accesses (R135). -/

namespace Sys2Proof.Machine

open Sys2Proof

/-- Instructions that issue only with no checkpoint open, whatever their operands (R127, R130, R175, R213, R216,
R244). -/
def irrevocable : Instr → Bool
  | .atom _ | .red _ | .scatc _ | .fence _ | .dqadd _ | .dqtake _ | .dqsteal _ | .dqcnt _ | .launch _ | .oclm _ | .orls _
  | .aclm _ | .arls _ | .aclr _ | .mma _ | .mmas _ | .adrn _ | .wupd _ | .astat _ | .route _ | .rtrel _ | .rtver _ | .svc _
  | .srd _ | .swr _ | .tlbi _ | .idle _ | .eret _ | .migr _ | .bar _ | .gbar _ => true
  | .sets f => decide (f.dst = .sp .wstat)
  | .setsImm f => decide (f.dst = .sp .wstat)
  | _ => false

/-- Instructions whose issue counts as a memory access (R134, R135, R137). -/
def countsAccess : Instr → Bool
  | .ld _ | .st _ | .atom _ | .red _ | .scatc _ | .cinit _ | .cwait _ | .ctest _ => true
  | _ => false

/-- Whether the instruction's class lets it co-issue (R42): integer, float and memory classes. -/
def mayCoissue (i : Instr) : Bool := i.hasWord && 0x080 ≤ i.opcode && i.opcode < 0x300

/-- Whether a LOOK of the instruction opens windows (R153). -/
def lookOf (i : Instr) : Nat :=
  match i.row, i.view with
  | some r, some v => if r.look then v.hdr.look.toNat else 0
  | _, _ => 0

/-- The privileged instructions (R242). -/
def privilegedOp : Instr → Bool
  | .srd _ | .swr _ | .tlbi _ | .eret _ | .idle _ => true
  | _ => false

/-- R243. -/
def Warp.privileged (w : Warp) : Bool := w.firmware || w.handler.isSome

/-- A special that SETS may write (R67). -/
def writableSpecial : Operand → Bool
  | .sp .lstat | .sp .wstat | .sp .mstat => true
  | _ => false

/-- Whether a vector source differs across the lanes of ACTIVE (R70). -/
def Ctx.differs (c : Ctx) (o : Operand) (width : Nat) : Bool :=
  match c.active.list with
  | [] => false
  | i :: is => is.any fun j => (c.w.c.read o j width).1 != (c.w.c.read o i width).1

/-- Vector registers at or above the variant's budget (R57). -/
def overBudget (i : Instr) (budget : Nat) : Bool :=
  (i.placeRegs (fun _ => true) ++ i.regsWritten).any fun o => match o with
    | .v n => decide (budget ≤ n.toNat)
    | _ => false

/-- ILLEGAL at order 2 by the running variant, the launch or the values of operands (R57, R70, R213, R243, R245,
R246). -/
def illegalHere (i : Instr) (c : Ctx) : Bool :=
  overBudget i c.budget || match i with
    | .sets f => match f.dst with
      | .sp .wstat => c.differs f.a 32
      | .sp .mstat => c.differs f.a 64
      | _ => false
    | .gbar _ => !c.l.lrec.coop
    | .eqp f => !c.l.kern.eqps.any fun x => x.1 == f.imm.toNat
    | .migr _ => c.l.kern.varL.isNone || c.l.kern.varD.isNone
    | .eret _ => c.w.privileged && c.w.handler.isNone
    | _ => false

/-- PRIV at order 3 (R67, R243). -/
def privHere (i : Instr) (c : Ctx) : Bool :=
  match i with
  | .sets f => !writableSpecial f.dst
  | .setsImm f => !writableSpecial f.dst
  | _ => privilegedOp i && !c.w.privileged

/-! The equivalence map as loaded (R331). -/

/-- The pair words of an index, or none where the map has no such header. -/
def State.eqPairs (s : State) (pi : Nat) (k : Kernel) (idx : Nat) : Option (List (Nat × Nat)) :=
  ((List.range k.neqp).find? fun n => s.readNat pi (k.eqmap.toNat + 32 * n) 4 == some idx).bind fun n =>
    let h := k.eqmap.toNat + 32 * n
    match s.readNat pi (h + 4) 4, s.readNat pi (h + 24) 8 with
    | some np, some pairs => match s.readVa pi pairs (4 * np) with
      | .ok bs => some ((List.range np).map fun j => (Record.n bs (4 * j) 2, Record.n bs (4 * j + 2) 2))
      | .error _ => none
    | _, _ => none

/-- The registers that a descriptor names (R331). -/
def descRegs (d : Nat) : List Operand :=
  let n := bits d 7 0
  match bits d 15 14 with
  | 0 => [.v (BitVec.ofNat 8 n)]
  | 1 => [.v (BitVec.ofNat 8 n), .v (BitVec.ofNat 8 (n + 1))]
  | 2 => [.k (BitVec.ofNat 6 n)]
  | _ => [.p false (BitVec.ofNat 4 n)]

/-- The registers of an EQP's map in the running variant (R153, R245). -/
def State.eqRegs (s : State) (c : Ctx) (idx : Nat) : List Operand :=
  ((s.eqPairs c.pi c.l.kern idx).getD []).flatMap fun x => descRegs (match c.w.kind with
    | .l => x.1
    | .d => x.2)

/-- The registers that an instruction reads or writes in a lane, for the windows of R153: KRD's indexed register, not the
base that only names it (R173), and an EQP's map. -/
def State.lookRegs (s : State) (i : Instr) (c : Ctx) : Nat → List Operand :=
  let fixed := i.regsRead ++ i.regsWritten
  match i with
  | .krd f => fun lane =>
      let b := match f.a with
        | .k n => n.toNat
        | _ => 0
      let j := b + (c.w.c.read f.b lane 32).1
      let fixed := fixed.filter fun o => o != f.a || f.b == f.a
      if j ≤ 63 then .k (BitVec.ofNat 6 j) :: fixed else fixed
  | .eqp f => let regs := fixed ++ s.eqRegs c f.imm.toNat
    fun _ => regs
  | _ => fun _ => fixed

/-! Taint under TRAP (R105). -/

/-- The tag of an operand as a lane reads it, all its registers counted. -/
def WCore.tagOf (k : WCore) (o : Operand) (lane width : Nat) : Bool := (k.read o lane width).2

/-- The pairs that MBR evaluates in a lane: the tag of each predicate up to the one that chooses (R162). -/
def mbrTainted (k : WCore) (lane : Nat) : List MbrPair → Bool
  | [] => false
  | p :: ps =>
    let x := k.getP lane p.pred.toNat
    x.tag || (!x.val && mbrTainted k lane ps)

/-- The operands of an instruction whose tags decide under TRAP: addresses and targets, with their widths (R105,
R217, R223 to R240, R250, R252, R255). -/
def addressOperands (i : Instr) : List (Operand × Nat) :=
  let base (f : MemForm) := [(f.base, if f.space.narrowBase then 32 else 64)]
  match i with
  | .brx f | .callx f => [(f.a, 64)]
  | .ld f | .st f | .atom f | .red f | .pft f | .cctl f | .scatc f | .cinit f | .cwait f | .ctest f => base f
  | .old f => [(f.a, 64), (f.c, 64)] ++ (if f.sub.toNat % 4 = 3 then [(f.d, 64)] else [])
  | .ost f => [(f.a, 64), (f.c, 64)]
  | .adrn f | .cpy f | .cpyr f => [(f.a, 64), (f.b, 64), (f.c, 64)]
  | .wupd f => [(f.a, 64), (f.c, 64)]
  | .isect f | .dcorm f => [(f.b, 64), (f.c, 64)]
  | .launch f => [(f.a, 64), (f.b, 64)]
  | .route f => [(f.a, 32), (f.b, 32)]
  | .rtrel f => [(f.a, 32)]
  | .svc f => [(f.a, 64)]
  | _ => []

/-- A decision value of control flow, other than a target (R105). -/
def decisionTag (i : Instr) (c : Ctx) (lane : Nat) : Bool :=
  match i with
  | .bra _ | .call _ | .ret _ | .exit _ => c.guardTag c.w.c lane
  | .mbr f => mbrTainted c.w.c lane (f.first :: f.rest)
  | _ => false

/-- Whether an operand that decides is P in a lane (R105). -/
def operandTag (i : Instr) (c : Ctx) (lane : Nat) : Bool :=
  (addressOperands i).any fun x => c.w.c.tagOf x.1 lane x.2

/-- Whether an address or target operand is P in a lane (R315 TAGS [0]): the target of RET too, which decides nothing (R105). -/
def addressTag (i : Instr) (c : Ctx) (lane : Nat) : Bool :=
  operandTag i c lane || match i with
    | .ret f => c.w.c.tagOf f.a lane 64
    | _ => false

/-- The TAINT fault of R105 and R194, if there is one. R194 speaks of the sources of RNGKEY and RNGSKIP and names no guard, so a P guard
alone does not fault them [24]. -/
def taintFault (i : Instr) (c : Ctx) : Option FaultInfo :=
  let rng := (match i with
    | .rngkey f => c.w.c.tagOf f.a 0 64 || c.w.c.tagOf f.b 0 64 || (decide (f.c ≠ .v 0) && c.w.c.tagOf f.c 0 64)
    | .rngskip f => c.w.c.tagOf f.a 0 64
    | _ => false)
  let keys := (match i with
    | .rngkey _ | .rngskip _ | .rngskipImm _ => true
    | _ => false)
  let lanes := c.active.filter fun j =>
    (c.policy == 1 && (decisionTag i c j || operandTag i c j)) || (c.policy != 0 && rng)
      || (c.policy == 2 && keys && c.w.c.tainted j)
  if lanes = 0 then none
  else some { cls := .taint, lanes := lanes, tags := 2 + (lanes.list.any fun j => addressTag i c j).toNat }

/-- TAGS of a fault that some lanes take before the instruction acts: bit 0 where an address operand is P in one of them (R315). -/
def earlyTags (i : Instr) (c : Ctx) (lanes : Lanes) : Nat := (lanes.list.any fun j => addressTag i c j).toNat

/-- The first of the checks of R158 orders 2 to 5 that an issue fails. They come before the pop of a join (R107) [24]. -/
def State.earlyFault (s : State) (i : Instr) (c : Ctx) : Option FaultInfo :=
  let wide := if c.active = 0 then c.split.lanes else c.active
  if i.check.isSome || illegalHere i c then some { cls := .illegal, lanes := wide, tags := earlyTags i c wide }
  else if privHere i c then some { cls := .priv, lanes := wide, tags := earlyTags i c wide }
  else
    let hits := c.w.c.windowHits c.active (s.lookRegs i c)
    if hits ≠ 0 then some { cls := .lookahead, lanes := hits, tags := earlyTags i c hits } else taintFault i c

end Sys2Proof.Machine
end

