-- ==== Sys2Proof/Machine/Ops.lean ====
section
/-! DEFINITION. The issue of an instruction, once for all of them: which split issues, checkpoints and run-ahead limits
(R134 to R137), the checks of R158, flag traps (R64), and what an issue leaves: RNGC, sticky flags, windows, the latch,
the frontier, barriers (R213) and ends (R54). -/

namespace Sys2Proof.Machine

open Sys2Proof

/-! Effects. -/

/-- Where an issue leaves its split. -/
inductive Flow
  /-- Every lane goes to the next slot. -/
  | next
  /-- The lane sets go to their destinations, the others to the next slot (R160). -/
  | transfer (dests : List (Lanes × Addr))
  /-- The lanes of ACTIVE end (R163). -/
  | exit
  /-- The split blocks, having issued (R363). -/
  | block (b : Block)
  /-- The frontier is as the effect has left it. -/
  | placed
  /-- Handler mode has ended: frontier and windows are those that it had saved (R259). -/
  | returned
deriving DecidableEq, Repr

/-- The effect of an instruction that issues. -/
structure Effect where
  s : State
  flow : Flow := .next
  raised : Raised := []
  /-- Whether a flag that TEN enables traps (R64, R204). -/
  traps : Bool := true
  /-- RNGKEY and RNGSKIP set RNGC themselves (R193). -/
  ownRngc : Bool := false
  /-- YIELD (R39). -/
  yields : Bool := false
deriving DecidableEq, Repr

/-- What an instruction does once the checks of R158 orders 1 to 5 have passed. -/
inductive Body
  | done (e : Effect)
  | fault (f : FaultInfo)
  | sleep (hits : List PageHit)
  /-- It has not issued and is tried again (R363). -/
  | wait
  /-- It has not issued and its split, or the union of splits at its PC, waits blocked (R209, R214). -/
  | hold (b : Block)
  /-- It has not issued, and the state is as given: a part of it has performed, or its launch has ended. -/
  | partial_ (s : State)
deriving DecidableEq, Repr

/-! Barriers (R213). -/

/-- Lanes that have arrived at a barrier of a scope. -/
def Warp.arrived (w : Warp) (sc : Scope) : Lanes := lanesOf (w.entries.filter fun e => e.block = .barrier sc)

/-- The lanes that barriers wait for: those that are live, and those whose EXIT a rollback may still take back (R71, R163). -/
def Warp.awaited (w : Warp) : Lanes := w.ckpts.foldl (fun m k => m ||| lanesOf k.saved.frontier) w.live

/-- Whether every live lane of the warps has arrived. -/
def allArrived (ws : List Warp) (sc : Scope) : Bool := ws.all fun w => w.awaited &&& ~~~(w.arrived sc) = 0

/-- Departure: the waiting lanes continue at the next slot. -/
def Warp.departBar (w : Warp) (marked : Addr → Bool) (sc : Scope) : Warp :=
  w.unblocked marked fun e => if e.block = .barrier sc then { e with pc := nextSlot e.pc, block := .ready } else e

/-- Whether the cooperative launch's barrier departs: every gang has started or retired and every live lane has arrived. -/
def State.gridArrived (s : State) (li : Nat) : Bool :=
  (s.gangs.all fun g => g.launch != li || g.started || decide (g.phase = .retired))
    && allArrived (s.warps.filter fun w => (nth s.gangs w.gang).any fun g => g.launch == li) .pkg

/-- Depart every barrier that is complete among the warps of a gang and, for GBAR, of its launch. -/
def State.depart (s : State) (gi : Nat) : State :=
  let mine := s.warps.filter fun w => w.gang == gi
  let li := (nth s.gangs gi).map (·.launch)
  let grid := li.any fun l => s.gridArrived l
  let marked := s.marked (s.partOf gi)
  { s with warps := s.warps.map fun w =>
      let w' := if w.gang != gi then w
        else
          let w := if allArrived [w] .warp then w.departBar marked .warp else w
          let w := if allArrived (mine.filter fun x => x.group == w.group) .group then w.departBar marked .group else w
          if allArrived mine .gang then w.departBar marked .gang else w
      if grid && (nth s.gangs w.gang).any fun g => some g.launch == li then w'.departBar marked .pkg else w' }

/-- A warp whose lanes have all exited and whose speculation has committed ends, and its gang may retire (R54, R163). -/
def State.settleEnd (s : State) (wi : Nat) : State :=
  match nth s.warps wi with
  | none => s
  | some w =>
    if w.live = 0 && w.ckpts.isEmpty && !w.ended then
      let (die, cell) := ((nth s.gangs w.gang).map fun g => (g.die, g.cell)).getD (0, 0)
      (s.modWarp wi fun w => { w with ended := true, exitDie := die, exitCell := cell }).retire w.gang
    else s

/-! Checkpoints. -/

def Warp.asleep (w : Warp) : Bool :=
  w.entries.any fun e => match e.block with
    | .sleep _ _ _ => true
    | _ => false

def ckptLimit : CoreKind → Nat
  | .l => 2 | .d => 1

/-- R135: instructions, accesses, store-buffer fragments. -/
def runAhead : CoreKind → Nat × Nat × Nat
  | .l => (64, 32, 32) | .d => (16, 8, 8)

/-- Line fragments of the store buffer: the lines of each store issue (R135). -/
def Warp.fragments (w : Warp) : Nat :=
  (w.ckpts.flatMap (·.stores)).foldl (fun n st => n + (st.map fun b => match b.loc with
    | .phys pa => Loc.phys (pa / 128)
    | .local c o => Loc.local c (o / 128)).dedup.length) 0

def Warp.issuedAhead (w : Warp) : Nat := w.ckpts.foldl (fun n c => n + c.issued) 0
def Warp.accessesAhead (w : Warp) : Nat := w.ckpts.foldl (fun n c => n + c.accesses) 0

/-- Whether the warp opens a checkpoint at this instruction (R134): some access of its own has not performed, and it is
in neither serial mode nor a single step (R137, R344). -/
def Warp.opens (w : Warp) (stepping : Bool) : Bool :=
  (w.slow || w.asleep) && !w.ser && !stepping
    && (w.ckpts.isEmpty || (decide (w.kind = .l) && w.ckpts.length == 1 && 16 ≤ (w.ckpts.getLast?.map (·.issued)).getD 0))

def Warp.openCkpt (w : Warp) (cons : Nat) : Warp :=
  { w with ckpts := w.ckpts ++ [⟨w.c, 0, 0, [], [], [], false, none, cons, [], []⟩] }

/-- Apply f to the youngest checkpoint. -/
def Warp.modYoungest (w : Warp) (f : Ckpt → Ckpt) : Warp := { w with ckpts := modAt w.ckpts (w.ckpts.length - 1) f }

/-! Rollback. -/

/-- The warp after checkpoint n and those above it have rolled back (R71, R134); a rollback for a pre-emption does not count
toward serial mode, and of the checkpoints that roll back each counts against its own threshold (R137). -/
def Warp.rollback (w : Warp) (n : Nat) (counts : Bool) : Warp :=
  match nth w.ckpts n with
  | none => w
  | some k =>
    let opened := w.ckpts.length
    let row := (List.range opened).map fun i => (nth w.rbRow i).getD 0 + (if n ≤ i then 1 else 0)
    let past := ((List.range opened).zip w.ckpts).filter fun x => n ≤ x.1 && decide (x.2.cons % 16 < (nth row x.1).getD 0)
    let serial := counts && !past.isEmpty
    let cons := (past.head?.map (·.2.cons)).getD k.cons
    { w with
      c := k.saved
      ckpts := w.ckpts.take n
      latch := []
      rbc := if w.rbc = 0xFF then w.rbc else w.rbc + 1
      rbRow := if counts then row else w.rbRow
      ser := w.ser || serial
      serLeft := if serial && !w.ser then max (bits cons 23 12) 1 else w.serLeft }

/-- Whether the oldest n checkpoints' rollback drops an operation: it is queued under a younger one. -/
def EOp.droppedBy (o : EOp) (wi n : Nat) : Bool :=
  o.warp == wi && match o.phase with
    | .queued k => decide (n < k)
    | _ => false

/-- Roll a warp back to the opening of its checkpoint n. -/
def State.rollback (s : State) (wi n : Nat) (counts : Bool) : State :=
  let s := s.modWarp wi fun w => w.rollback n counts
  { s with ops := s.ops.filter fun o => !o.droppedBy wi n }

/-- The warp as it stood before any of its open checkpoints. -/
def State.unwound (s : State) (wi : Nat) : State :=
  match nth s.warps wi with
  | some w => if w.ckpts.isEmpty then s else s.rollback wi 0 false
  | none => s

/-- Take a late fault of a warp with no checkpoint open at its selected split, whose block ends (R236). -/
def State.deliverPending (s : State) (wi : Nat) (f : LateFault) : State :=
  match nth s.warps wi with
  | none => s
  | some w => (s.modWarp wi fun w => { w with pending := w.pending.erase f, c := w.c.wake w.c.sel }).deliver wi f w.c.sel

/-! Which split issues. -/

/-- The value of a completion object as the warp's loads see it; none where it cannot be read. -/
def State.peek (s : State) (w : Warp) (g : Gang) (pi : Nat) (sp : Space) (addr : Nat) : Option Nat :=
  let v := s.seenBy w
  match v.place { part := pi, launch := some g.launch, gang := some w.gang, group := w.group, space := sp, addr := addr,
                  n := 8, align := 8, write := false } with
  | .ok q => some (leNat (v.bytesAt q 8))
  | .error _ => none

/-- Whether every named lane is absent or stands at a PC (R209). -/
def Warp.gathered (w : Warp) (mask : Lanes) (pc : Addr) : Bool :=
  mask &&& w.live &&& ~~~(lanesOf (w.c.frontier.filter fun e => e.pc = pc)) = 0

/-- An entry whose wait has ended without an event of its own: a collective's or a completion wait's (R209, R214). -/
def State.refreshSplit (s : State) (w : Warp) (g : Gang) (pi : Nat) (e : Split) : Split :=
  match e.block with
  | .collective m _ => if w.gathered m e.pc then { e with block := .ready } else e
  | .cwait cs => if cs.all fun x => match s.peek w g pi x.1 x.2.1 with
      | some v => x.2.2.toNat ≤ v
      | none => true
    then { e with block := .ready } else e
  | _ => e

/-- The captured state with such waits ended, and entries merged at marked slots (R38). -/
def State.refreshed (s : State) (w : Warp) (g : Gang) (pi : Nat) : WCore :=
  let table := mergeWoken (s.marked pi) w.c.frontier (w.c.frontier.map (s.refreshSplit w g pi))
  { w.c with frontier := table, sel := followSel table w.c.sel }

/-- The slices of a split: groups of four lanes (R32). -/
def slices (m : Lanes) : List Nat := (List.range 8).filter fun k => m &&& BitVec.ofNat 32 (15 * 2 ^ (4 * k)) ≠ 0

/-- The split that may co-issue beside the selected one (R42). -/
def WCore.coSplit (c : WCore) : Option Split :=
  c.frontier.find? fun e => e.lanes != c.sel && (slices e.lanes).all fun k => !(slices c.sel).contains k

/-- Whether a record of the warp waits for the fault ring, or one that stops its gang: the warp waits with it (R318). A record of a
gang's staging is no warp's. -/
def State.recordWaits (s : State) (w : Warp) (g : Gang) (l : Launch) : Bool :=
  (s.part l.part).pendingRecs.any fun r => match r.after with
    | .staging _ => false
    | _ => r.frec.lseq == l.seq && r.frec.gang == g.lin && (r.frec.warp == w.index || r.frec.disp == dispStopped)

/-- A warp that may issue: its gang resident, its launch running, no fault of its own held or being stopped for, no record of it
waiting. -/
def State.issuer (s : State) (wi : Nat) : Option (Warp × Gang × Launch) :=
  match nth s.warps wi with
  | none => none
  | some w => match nth s.gangs w.gang with
    | none => none
    | some g => match nth s.launches g.launch with
      | none => none
      | some l =>
        let stepped := match g.step with
          | some done => done.contains wi
          | none => false
        if w.ended || g.phase ≠ .resident || l.phase ≠ .dispatched || l.dying || w.ckpts.any (·.held.isSome) || stepped
            || (w.ser && w.serLeft == 0) || s.recordWaits w g l
        then none else some (w, g, l)

/-- Whether a split has waited at a collective for the bound of MASKWAIT, which it then takes before the warp issues again (R210). -/
def WCore.maskExpired (c : WCore) : Bool :=
  c.frontier.any fun e => match e.block with
    | .collective _ since => 65536 ≤ since
    | _ => false

/-- The warp in State.cur, its gang and launch, the split that issues and the captured state with the selection made; none where
no split may issue. An access whose sleep has ended issues afresh first, whichever split is selected (R309) [27]. -/
def State.picked (s : State) : Option (Warp × Gang × Launch × Split) :=
  match s.issuer s.cur with
  | none => none
  | some (w, g, l) =>
    let c := s.refreshed w g l.part
    if c.maskExpired then none
    else match s.co with
    | none => match c.frontier.find? fun e => e.block.replayed with
      | some e => some ({ w with c := c.reissue e.lanes }, g, l, e.reissued)
      | none => c.resolve.map fun x => ({ w with c := x.2 }, g, l, x.1)
    | some m => (c.frontier.find? fun (e : Split) => e.lanes == m && e.ready).map fun e => ({ w with c := c }, g, l, e)

/-- The lanes of a split in which a guard holds (R16, R40). -/
def WCore.guarded (c : WCore) (lanes : Lanes) (g : Option Guard) : Lanes :=
  match g with
  | none => lanes
  | some g => lanes.filter fun j => (c.getP j g.pred.toNat).val != g.inv

/-- The header of an instruction; of a step of another agent, an empty one. -/
def hdrOf (i : Instr) : Hdr :=
  match i.view with
  | some v => v.hdr
  | none => ⟨none, 0, .none, .normal⟩

/-- The issue of the warp in State.cur: its split and ACTIVE (R16, R40). -/
def State.context (s : State) (i : Instr) : Option Ctx :=
  s.picked.map fun x =>
    let e := x.2.2.2
    ⟨s.cur, x.1, x.2.1, x.2.2.1, e, hdrOf i, x.1.c.guarded e.lanes (hdrOf i).guard, s.lineWord x.2.2.1.part e.pc⟩

/-! What an issue leaves. -/

/-- The parts of the issuing split after an issue, and what that means for selection. -/
def Flow.parts (f : Flow) (c : Ctx) : List Split × Kind :=
  let go (m : Lanes) (pc : Addr) : Split := ⟨m, pc, 0, .ready⟩
  let nx := nextSlot c.pc
  match f with
  | .next | .placed | .returned => ([go c.split.lanes nx], .plain)
  | .transfer ds =>
    let moved := ds.foldl (fun m d => m ||| d.1) 0
    ((ds.map fun d => go d.1 d.2) ++ [go (c.split.lanes &&& ~~~moved) nx], if moved = 0 then .plain else .transfer)
  | .exit => ([go (c.split.lanes &&& ~~~c.active) nx], .plain)
  | .block b => ([⟨c.split.lanes, c.pc, 0, b⟩], .blocks)

/-- The captured state after an issue whose effect has been applied. -/
def WCore.after (k : WCore) (i : Instr) (c : Ctx) (e : Effect) (marked : Addr → Bool) (main : Bool) : WCore :=
  let k := k.raise e.raised
  let k := if e.ownRngc then k else { k with rngc := k.rngc + 1 }
  let k := if e.flow = .returned then k else k.tick c.split.lanes c.active (lookOf i) i.regsWritten
  let k := if e.yields then { k with yielded := true } else k
  match e.flow with
  | .placed | .returned => k
  | f =>
    let p := f.parts c
    let k := k.advance c.split p.1 marked main p.2
    if f = .exit then k.closeWindows c.active else k

/-- The warp with another frontier table and selection; a change of the selected split empties the latch (R37, R61). -/
def Warp.reselect (w : Warp) (k : WCore) : Warp := { w with c := k, latch := if k.sel = w.c.sel then w.latch else [] }

/-- The warp after an issue: captured state, latch, checkpoint counts, whether an access is still outstanding [22], and
serial mode's count. -/
def Warp.after (w : Warp) (i : Instr) (c : Ctx) (e : Effect) (marked : Addr → Bool) (main slow : Bool) : Warp :=
  let acc := countsAccess i
  let core := w.c.after i c e marked main
  let w := w.modYoungest fun k => { k with issued := k.issued + 1, accesses := k.accesses + acc.toNat }
  { w with
    c := core
    onTrace := false
    latch :=
      let l := latchAfter w.latch i c.split.lanes
      if core.sel = c.w.c.sel || core.sel = c.split.lanes then l
      else if core.sel ≠ 0 && core.sel &&& ~~~c.split.lanes = 0 && e.flow = .exit then
        l.map fun x => if x.lanes = c.split.lanes then { x with lanes := core.sel } else x
      else []
    slow := (w.slow || acc) && slow && !w.ser
    serLeft := if acc then w.serLeft - 1 else w.serLeft }

/-- Finish an issue: the warp, the single step's count, barriers and ends. -/
def State.finish (i : Instr) (c : Ctx) (e : Effect) : State :=
  let s := e.s
  let s := s.modWarp c.wi fun w => w.after i c e (fun pc => s.marked c.pi pc) (s.co.isNone && c.w.c.sel &&& c.split.lanes != 0) (Config.slow s.turn)
  let s := s.modGang c.gi fun g => { g with step := g.step.map fun d => if d.contains c.wi then d else c.wi :: d }
  match e.flow with
  | .block (.barrier _) => s.depart c.gi
  | .exit => (s.depart c.gi).settleEnd c.wi
  | _ => s

/-- A split, or the union of the splits at one PC, blocks before it has issued (R209, R214, R363). -/
def State.holdSplit (s : State) (c : Ctx) (b : Block) : State :=
  s.modWarp c.wi fun w =>
    let table := w.c.frontier.map fun e => if e.lanes &&& c.split.lanes = 0 then e else { e with block := b }
    let sel := if w.c.sel &&& c.split.lanes = 0 then w.c.sel
      else match nextReady table c.pc with
        | some x => x.lanes
        | none => w.c.sel
    w.reselect { w.c with frontier := table, sel := sel }

/-- The step that a stepped warp's fault ends (R344). -/
def State.stepped (s : State) (c : Ctx) : State :=
  s.modGang c.gi fun g => { g with step := g.step.map fun d => if d.contains c.wi then d else c.wi :: d }

/-! The issue. -/

/-- The state in which the instruction takes effect: the selection made, a checkpoint opened where R134 asks for one,
taint stacks popped at a join (R107). -/
def State.atIssue (s : State) (c : Ctx) : State :=
  s.modWarp c.wi fun w =>
    let w := w.reselect c.w.c
    let w := if w.opens c.g.step.isSome then w.openCkpt (s.consctl c.g.die) else w
    if bit c.line (5 + c.pc.toNat % 8) then { w with c := w.c.popTaint c.split.lanes } else w

/-- The same without the pop, for a fault (R158). -/
def State.atFault (s : State) (c : Ctx) : State :=
  s.modWarp c.wi fun w =>
    let w := w.reselect c.w.c
    if w.opens c.g.step.isSome then w.openCkpt (s.consctl c.g.die) else w

/-- Whether an issue must wait: an irrevocable one for commit, any one at a limit of R135, one in serial mode or a single
step for every access before it. -/
def mustWait (i : Instr) (c : Ctx) : Bool :=
  let w := c.w
  let lim := runAhead w.kind
  (irrevocable i && (!w.ckpts.isEmpty || w.asleep))
    || (!w.ckpts.isEmpty && (lim.1 < w.issuedAhead + 1 || lim.2.1 < w.accessesAhead + (countsAccess i).toNat))
    || ((w.asleep || !w.ckpts.isEmpty) && (w.ser || c.g.step.isSome))

/-- An irrevocable issue comes after every earlier access of the warp has performed, so it opens no checkpoint. -/
def Ctx.settled (c : Ctx) (i : Instr) : Ctx := if irrevocable i then { c with w := { c.w with slow := false } } else c

def State.settledFor (s : State) (c : Ctx) (i : Instr) : State :=
  if irrevocable i then s.modWarp c.wi fun w => { w with slow := false } else s

/-- The selection of an issue, made without issuing. -/
def State.selected (s : State) (c : Ctx) : State := s.modWarp c.wi fun w => w.reselect c.w.c

/-- An issue that has to wait. Where the split's access was to issue afresh after a sleep, what waits for it may commit from now on: the
wait may be for that (R127, R135, R309) [27]. -/
def State.deferred (s : State) (c : Ctx) : State := s.modWarp c.wi fun w => { w with c := w.c.reissue c.split.lanes }

/-- Fault an issue. -/
def State.faultIssue (s : State) (c : Ctx) (f : FaultInfo) : Result :=
  .next (((s.atFault c).raiseFault c.wi c.pc c.split.lanes f).stepped c)

/-- Take at this issue the fault of an earlier one of the split, with the LEQIX of that (R310, R312, R316). -/
def State.wakeToFault (s : State) (c : Ctx) (f : FaultInfo) (eqix : Word32) : Result :=
  .next (((s.atFault c).raiseLate c.wi c.split.lanes ⟨f, c.pc, eqix, c.l.kern.altPc c.w.kind eqix, c.w.kind⟩).stepped c)

/-- A fault of an earlier operation, taken at this issue instead of the instruction (R113, R236, R325). -/
def State.takePending (s : State) (c : Ctx) (f : LateFault) : Result :=
  if !c.w.ckpts.isEmpty then
    -- the checkpoints commit first, or roll back where they cannot because a split sleeps
    if c.w.asleep then .next ((s.unwound c.wi).deliverPending c.wi f) else .next (s.deferred c)
  else .next ((s.modWarp c.wi fun w => { w with c := c.w.c, pending := w.pending.tail }).deliver c.wi f c.split.lanes)

/-- Decide on the outcome of a body, `s0` being the state before the issue. -/
def conclude (i : Instr) (c : Ctx) (s0 : State) (b : Body) : Result :=
  match b with
  | .wait => .next ((s0.deferred c).modWarp c.wi fun w => { w with slow := w.slow && (!w.ckpts.isEmpty || Config.slow s0.turn) })
  | .hold blk => .next ((s0.selected c).holdSplit c blk)
  | .partial_ t => .next (t.modCore c.wi fun k => { k with taint := c.w.c.taint })
  | .fault f => s0.faultIssue c f
  | .sleep hits => .next (((s0.atFault c).sleepOn c.wi c.split hits))
  | .done e =>
    let ten := c.w.ten
    let trapped := if e.traps then trapLanes ten e.raised else 0
    if trapped ≠ 0 then
      s0.faultIssue c { cls := .trap, cause := 1, lanes := trapped, info := trapInfo ten e.raised }
    else
      let tooMany := match nth e.s.warps c.wi with
        | some w => !w.ckpts.isEmpty && (runAhead w.kind).2.2 < w.fragments
        | none => false
      if tooMany then .next ((s0.deferred c).modWarp c.wi fun w => { w with slow := w.slow && (!w.ckpts.isEmpty || Config.slow s0.turn) })
      else .next (State.finish i c e)

/-- Issue an instruction for a context: its waits, the checks of R158 and its body. -/
def issueAt (i : Instr) (s : State) (c : Ctx) (body : State → Ctx → Body) : Result :=
  match c.w.pending with
  | f :: _ => s.takePending c f
  | [] =>
    if mustWait i c then .next (s.deferred c)
    else
      let c := c.settled i
      let s := s.settledFor c i
      match s.earlyFault i c with
      | some f => s.faultIssue c f
      | none =>
        let s' := s.atIssue c
        let c' := match nth s'.warps c.wi with
          | some w => { c with w := w }
          | none => c
        conclude i c s (body s' c')

/-- Issue an instruction for the warp at issue. -/
def issue (i : Instr) (s : State) (body : State → Ctx → Body) : Result :=
  match s.context i with
  | none => .fault .noIssue
  | some c => issueAt i s c body

/-- A body that changes only the captured state. -/
def Ctx.done (c : Ctx) (s : State) (k : WCore) (raised : Raised) : Body :=
  .done { s := s.modWarp c.wi fun w => { w with c := k }, raised := raised }

end Sys2Proof.Machine
end

