-- ==== Sys2Proof/Machine/Integer.lean ====
section
/-! DEFINITION. The integer, logic, bit-field and move instructions (R95, R167 to R173). -/

namespace Sys2Proof.Machine

open Sys2Proof

/-- Compute a destination of a width in each lane of ACTIVE, or once for a uniform one, from sources of given widths
(R59, R99: the OR of their tags; `p` where the result is P whatever they are). -/
def Ctx.compute (c : Ctx) (s : State) (dst : Operand) (width : Nat) (srcs : List (Source × Nat)) (p : Bool)
    (f : Nat → List Nat → Nat × Flags) : Body :=
  let k := c.w.c
  let r := c.each k dst width fun lane =>
    let xs := srcs.map fun x => k.src x.1 lane x.2
    let v := f lane (xs.map (·.1))
    ⟨v.1, p || xs.any (·.2), v.2⟩
  c.done s r.1 r.2

/-- An integer operation of a type on operands a, b, c as integers of it (R168): its exact result. -/
abbrev IntOp := Int → Int → Int → Int

/-- Narrow an exact result to a type: wrapped, or clamped with SAT, and OV where it does not fit (R168). -/
def narrow (t : Ty) (sat : Bool) (e : Int) : Nat × Flags :=
  if t.intMin ≤ e && e ≤ t.intMax then (t.wrap e, 0)
  else (t.wrap (if sat then max t.intMin (min t.intMax e) else e), fOV)

def intAt (t : Ty) (xs : List Nat) (j : Nat) : Int := t.toInt ((nth xs j).getD 0)

/-- The arithmetic of R168. -/
def arith (i : Instr) (s : State) (t : Ty) (dst : Operand) (srcs : List Source) (sat : Bool) (op : IntOp) : Result :=
  issue i s fun s c =>
    c.compute s dst t.width (srcs.map fun x => (x, t.width)) false fun _ xs =>
      narrow t sat (op (intAt t xs 0) (intAt t xs 1) (intAt t xs 2))

def regArith (i : Instr) (s : State) (f : RegForm) (srcs : List Operand) (sat : Bool) (op : IntOp) : Result :=
  arith i s f.ty f.dst (srcs.map .op) sat op

def immArith (i : Instr) (s : State) (f : ImmForm) (sat : Bool) (op : IntOp) : Result :=
  arith i s f.ty f.dst [.op f.a, .imm (immOf f.ty f.imm)] sat op

/-- Quotient and remainder with their flags (R95). -/
def divRem (t : Ty) (x y : Int) : Int × Int × Flags :=
  if y = 0 then (if t.isSigned && x < 0 then t.intMin else t.intMax, x, fDZ)
  else if t.isSigned && x = t.intMin && y = -1 then (t.intMin, 0, fOV)
  else (x.tdiv y, x.tmod y, 0)

def divide (i : Instr) (s : State) (t : Ty) (dst : Operand) (a b : Source) (rem : Bool) : Result :=
  issue i s fun s c =>
    c.compute s dst t.width [(a, t.width), (b, t.width)] false fun _ xs =>
      let r := divRem t (intAt t xs 0) (intAt t xs 1)
      (t.wrap (if rem then r.2.1 else r.1), r.2.2)

/-- A bitwise operation on natural numbers of the type's width; further operands are 32-bit. No flag (R169). -/
def bitwise (i : Instr) (s : State) (dst : Operand) (dstWidth : Nat) (srcs : List (Source × Nat)) (op : List Nat → Nat) :
    Result :=
  issue i s fun s c => c.compute s dst dstWidth srcs false fun _ xs => (op xs, 0)

def natAt (xs : List Nat) (j : Nat) : Nat := (nth xs j).getD 0

/-- The shifts and the rotation of R169 on W bits. -/
def shl (w x n : Nat) : Nat := if n ≥ w then 0 else x * 2 ^ n % 2 ^ w
def shr (w x n : Nat) : Nat := if n ≥ w then 0 else x / 2 ^ n
def sar (w x n : Nat) : Nat :=
  let n := min n w
  x / 2 ^ n + (if bit x (w - 1) then 2 ^ w - 2 ^ (w - n) else 0)
def rotl (w x n : Nat) : Nat := (x * 2 ^ (n % w) + x / 2 ^ (w - n % w)) % 2 ^ w

/-- A natural number from its bits. -/
def ofBits (n : Nat) (f : Nat → Bool) : Nat := (List.range n).foldl (fun a j => a + (f j).toNat * 2 ^ j) 0

def lnot (w x : Nat) : Nat := 2 ^ w - 1 - x % 2 ^ w
def popcount (w x : Nat) : Nat := ((List.range w).filter fun j => bit x j).length
def leadingZeros (w x : Nat) : Nat := w - bitLen (x % 2 ^ w)
def reverseBits (w x : Nat) : Nat := ofBits w fun j => bit x (w - 1 - j)

/-- LOGX (R169). -/
def logxOf (w f g x y z : Nat) : Nat :=
  ofBits w fun j => bit (if bit z j then g else f) (2 * (bit y j).toNat + (bit x j).toNat)

/-- BFX and BFI (R170). -/
def bfxOf (t : Ty) (x pos len : Nat) : Nat :=
  if len = 0 || pos ≥ t.width then 0
  else
    let n := min len (t.width - pos)
    let v := x / 2 ^ pos % 2 ^ n
    if t.isSigned && bit v (n - 1) then 2 ^ t.width - 2 ^ n + v else v
def bfiOf (w x y pos len : Nat) : Nat :=
  if len = 0 || pos ≥ w then x
  else
    let n := min len (w - pos)
    ofBits w fun j => if pos ≤ j && j < pos + n then bit y (j - pos) else bit x j

/-- LEA (R171). -/
def leaOf (t : Ty) (a b sh : Nat) : Nat :=
  let e : Int := if t = .s64 then Ty.s32.toInt b else (b : Int)
  t.wrap ((a : Int) + e * 2 ^ sh)

/-- PRMT: byte k by nibble k of the selector, from a pool of eight bytes (R171). -/
def prmtOf (lo sel hi : Nat) : Nat :=
  (List.range 4).foldl (fun r k =>
    let n := bits sel (4 * k + 3) (4 * k)
    let b := (lo + 2 ^ 32 * hi) / 2 ^ (8 * (n % 8)) % 256
    let b := if n ≥ 8 then (if b ≥ 128 then 255 else 0) else b
    r + b * 2 ^ (8 * k)) 0

/-- R168. -/
def execIadd (f : RegForm) (s : State) : Result :=
  regArith (.iadd f) s f [f.a, f.b] (bit f.sub.toNat 0) fun x y _ => x + y

/-- R168. -/
def execIaddImm (f : ImmForm) (s : State) : Result :=
  immArith (.iaddImm f) s f (bit f.sub.toNat 0) fun x y _ => x + y

/-- R168. -/
def execIsub (f : RegForm) (s : State) : Result :=
  regArith (.isub f) s f [f.a, f.b] (bit f.sub.toNat 0) fun x y _ => x - y

/-- R168. -/
def execIsubImm (f : ImmForm) (s : State) : Result :=
  immArith (.isubImm f) s f (bit f.sub.toNat 0) fun x y _ => x - y

/-- R168. -/
def execImul (f : RegForm) (s : State) : Result :=
  regArith (.imul f) s f [f.a, f.b] (bit f.sub.toNat 0) fun x y _ => x * y

/-- R168. -/
def execImulImm (f : ImmForm) (s : State) : Result :=
  immArith (.imulImm f) s f (bit f.sub.toNat 0) fun x y _ => x * y

/-- R168: the high half of the exact product. -/
def execImulh (f : RegForm) (s : State) : Result :=
  regArith (.imulh f) s f [f.a, f.b] false fun x y _ => (x * y).fdiv (2 ^ f.ty.width)

/-- R168. -/
def execImulhImm (f : ImmForm) (s : State) : Result :=
  immArith (.imulhImm f) s f false fun x y _ => (x * y).fdiv (2 ^ f.ty.width)

/-- R168. -/
def execImad (f : RegForm) (s : State) : Result :=
  regArith (.imad f) s f [f.a, f.b, f.c] (bit f.sub.toNat 0) fun x y z => x * y + z

/-- R95. -/
def execIdiv (f : RegForm) (s : State) : Result :=
  divide (.idiv f) s f.ty f.dst (.op f.a) (.op f.b) false

/-- R95. -/
def execIdivImm (f : ImmForm) (s : State) : Result :=
  divide (.idivImm f) s f.ty f.dst (.op f.a) (.imm (immOf f.ty f.imm)) false

/-- R95. -/
def execIrem (f : RegForm) (s : State) : Result :=
  divide (.irem f) s f.ty f.dst (.op f.a) (.op f.b) true

/-- R95. -/
def execIremImm (f : ImmForm) (s : State) : Result :=
  divide (.iremImm f) s f.ty f.dst (.op f.a) (.imm (immOf f.ty f.imm)) true

/-- R168. -/
def execIabs (f : RegForm) (s : State) : Result :=
  regArith (.iabs f) s f [f.a] (bit f.sub.toNat 0) fun x _ _ => (x.natAbs : Int)

/-- R168. -/
def execIneg (f : RegForm) (s : State) : Result :=
  regArith (.ineg f) s f [f.a] (bit f.sub.toNat 0) fun x _ _ => -x

/-- R168. -/
def execImin (f : RegForm) (s : State) : Result :=
  regArith (.imin f) s f [f.a, f.b] false fun x y _ => min x y

/-- R168. -/
def execIminImm (f : ImmForm) (s : State) : Result :=
  immArith (.iminImm f) s f false fun x y _ => min x y

/-- R168. -/
def execImax (f : RegForm) (s : State) : Result :=
  regArith (.imax f) s f [f.a, f.b] false fun x y _ => max x y

/-- R168. -/
def execImaxImm (f : ImmForm) (s : State) : Result :=
  immArith (.imaxImm f) s f false fun x y _ => max x y

/-- R169. -/
def execShl (f : RegForm) (s : State) : Result :=
  bitwise (.shl f) s f.dst f.ty.width [(.op f.a, f.ty.width), (.op f.b, 32)] fun xs => shl f.ty.width (natAt xs 0) (natAt xs 1)

/-- R169. -/
def execShlImm (f : ImmForm) (s : State) : Result :=
  bitwise (.shlImm f) s f.dst f.ty.width [(.op f.a, f.ty.width), (.imm f.imm.toNat, 32)] fun xs =>
    shl f.ty.width (natAt xs 0) (natAt xs 1)

/-- R169. -/
def execShr (f : RegForm) (s : State) : Result :=
  bitwise (.shr f) s f.dst f.ty.width [(.op f.a, f.ty.width), (.op f.b, 32)] fun xs => shr f.ty.width (natAt xs 0) (natAt xs 1)

/-- R169. -/
def execShrImm (f : ImmForm) (s : State) : Result :=
  bitwise (.shrImm f) s f.dst f.ty.width [(.op f.a, f.ty.width), (.imm f.imm.toNat, 32)] fun xs =>
    shr f.ty.width (natAt xs 0) (natAt xs 1)

/-- R169. -/
def execSar (f : RegForm) (s : State) : Result :=
  bitwise (.sar f) s f.dst f.ty.width [(.op f.a, f.ty.width), (.op f.b, 32)] fun xs => sar f.ty.width (natAt xs 0) (natAt xs 1)

/-- R169. -/
def execSarImm (f : ImmForm) (s : State) : Result :=
  bitwise (.sarImm f) s f.dst f.ty.width [(.op f.a, f.ty.width), (.imm f.imm.toNat, 32)] fun xs =>
    sar f.ty.width (natAt xs 0) (natAt xs 1)

/-- R169. -/
def execRotl (f : RegForm) (s : State) : Result :=
  bitwise (.rotl f) s f.dst f.ty.width [(.op f.a, f.ty.width), (.op f.b, 32)] fun xs => rotl f.ty.width (natAt xs 0) (natAt xs 1)

/-- R169. -/
def execRotlImm (f : ImmForm) (s : State) : Result :=
  bitwise (.rotlImm f) s f.dst f.ty.width [(.op f.a, f.ty.width), (.imm f.imm.toNat, 32)] fun xs =>
    rotl f.ty.width (natAt xs 0) (natAt xs 1)

/-- R169. -/
def execAndB (f : RegForm) (s : State) : Result :=
  bitwise (.andB f) s f.dst f.ty.width [(.op f.a, f.ty.width), (.op f.b, f.ty.width)] fun xs => natAt xs 0 &&& natAt xs 1

/-- R169. -/
def execAndBImm (f : ImmForm) (s : State) : Result :=
  bitwise (.andBImm f) s f.dst f.ty.width [(.op f.a, f.ty.width), (.imm (immOf f.ty f.imm), f.ty.width)] fun xs =>
    natAt xs 0 &&& natAt xs 1

/-- R169. -/
def execOrB (f : RegForm) (s : State) : Result :=
  bitwise (.orB f) s f.dst f.ty.width [(.op f.a, f.ty.width), (.op f.b, f.ty.width)] fun xs => natAt xs 0 ||| natAt xs 1

/-- R169. -/
def execOrBImm (f : ImmForm) (s : State) : Result :=
  bitwise (.orBImm f) s f.dst f.ty.width [(.op f.a, f.ty.width), (.imm (immOf f.ty f.imm), f.ty.width)] fun xs =>
    natAt xs 0 ||| natAt xs 1

/-- R169. -/
def execXor (f : RegForm) (s : State) : Result :=
  bitwise (.xor f) s f.dst f.ty.width [(.op f.a, f.ty.width), (.op f.b, f.ty.width)] fun xs => natAt xs 0 ^^^ natAt xs 1

/-- R169. -/
def execXorImm (f : ImmForm) (s : State) : Result :=
  bitwise (.xorImm f) s f.dst f.ty.width [(.op f.a, f.ty.width), (.imm (immOf f.ty f.imm), f.ty.width)] fun xs =>
    natAt xs 0 ^^^ natAt xs 1

/-- R169. -/
def execNotB (f : RegForm) (s : State) : Result :=
  bitwise (.notB f) s f.dst f.ty.width [(.op f.a, f.ty.width)] fun xs => lnot f.ty.width (natAt xs 0)

/-- R169. -/
def execLogx (f : LogxForm) (s : State) : Result :=
  bitwise (.logx f) s f.dst f.ty.width [(.op f.a, f.ty.width), (.op f.b, f.ty.width), (.op f.c, f.ty.width)] fun xs =>
    logxOf f.ty.width f.f.toNat f.g.toNat (natAt xs 0) (natAt xs 1) (natAt xs 2)

/-- R169: a 32-bit count. -/
def execPopc (f : RegForm) (s : State) : Result :=
  bitwise (.popc f) s f.dst 32 [(.op f.a, f.ty.width)] fun xs => popcount f.ty.width (natAt xs 0)

/-- R169: a 32-bit count. -/
def execClz (f : RegForm) (s : State) : Result :=
  bitwise (.clz f) s f.dst 32 [(.op f.a, f.ty.width)] fun xs => leadingZeros f.ty.width (natAt xs 0)

/-- R169. -/
def execBrev (f : RegForm) (s : State) : Result :=
  bitwise (.brev f) s f.dst f.ty.width [(.op f.a, f.ty.width)] fun xs => reverseBits f.ty.width (natAt xs 0)

/-- R170. -/
def execBfx (f : RegForm) (s : State) : Result :=
  bitwise (.bfx f) s f.dst f.ty.width [(.op f.a, f.ty.width), (.op f.b, 32), (.op f.c, 32)] fun xs =>
    bfxOf f.ty (natAt xs 0) (natAt xs 1) (natAt xs 2)

/-- R170. -/
def execBfi (f : RegForm) (s : State) : Result :=
  bitwise (.bfi f) s f.dst f.ty.width [(.op f.a, f.ty.width), (.op f.b, f.ty.width), (.op f.c, 32), (.op f.d, 32)] fun xs =>
    bfiOf f.ty.width (natAt xs 0) (natAt xs 1) (natAt xs 2) (natAt xs 3)

/-- R171. -/
def execLea (f : RegForm) (s : State) : Result :=
  bitwise (.lea f) s f.dst f.ty.width [(.op f.a, f.ty.width), (.op f.b, 32)] fun xs =>
    leaOf f.ty (natAt xs 0) (natAt xs 1) f.sub.toNat

/-- R171. -/
def execLeaImm (f : ImmForm) (s : State) : Result :=
  bitwise (.leaImm f) s f.dst f.ty.width [(.op f.a, f.ty.width), (.imm f.imm.toNat, 32)] fun xs =>
    leaOf f.ty (natAt xs 0) (natAt xs 1) f.sub.toNat

/-- R171. -/
def execMov (f : RegForm) (s : State) : Result :=
  bitwise (.mov f) s f.dst f.ty.width [(.op f.a, f.ty.width)] fun xs => natAt xs 0

/-- R171. -/
def execMovi (f : ImmForm) (s : State) : Result :=
  bitwise (.movi f) s f.dst f.ty.width [(.imm (immOf f.ty f.imm), f.ty.width)] fun xs => natAt xs 0

/-- R171. -/
def execPrmt (f : RegForm) (s : State) : Result :=
  bitwise (.prmt f) s f.dst 32 [(.op f.a, 32), (.op f.b, 32), (.op f.c, 32)] fun xs =>
    prmtOf (natAt xs 0) (natAt xs 1) (natAt xs 2)

/-- R171. -/
def execPrmtImm (f : ImmForm) (s : State) : Result :=
  bitwise (.prmtImm f) s f.dst 32 [(.op f.a, 32), (.imm f.imm.toNat, 32)] fun xs =>
    prmtOf (natAt xs 0) (natAt xs 1) 0

/-- R171; its tag is that of the chosen source and of the selecting predicate (R98, R99). -/
def execSel (f : RegForm) (s : State) : Result :=
  issue (.sel f) s fun s c =>
    let k := c.w.c
    let r := c.each k f.dst f.ty.width fun lane =>
      let p := k.read f.c lane 1
      let x := k.read (if p.1 = 1 then f.a else f.b) lane f.ty.width
      ⟨x.1, p.2 || x.2, 0⟩
    c.done s r.1 r.2

/-- The relation of R172 on integers of a type. -/
def icmpOf (t : Ty) (rel : Nat) (x y : Nat) : Nat :=
  (relOf rel (decide (t.toInt x < t.toInt y)) (decide (t.toInt x = t.toInt y))).toNat

/-- R172. -/
def execIcmp (f : RegForm) (s : State) : Result :=
  bitwise (.icmp f) s f.dst 1 [(.op f.a, f.ty.width), (.op f.b, f.ty.width)] fun xs =>
    icmpOf f.ty f.sub.toNat (natAt xs 0) (natAt xs 1)

/-- R172. -/
def execIcmpImm (f : ImmForm) (s : State) : Result :=
  bitwise (.icmpImm f) s f.dst 1 [(.op f.a, f.ty.width), (.imm (immOf f.ty f.imm), f.ty.width)] fun xs =>
    icmpOf f.ty f.sub.toNat (natAt xs 0) (natAt xs 1)

/-- R173: the uniform register at a base plus a lane's index, 0 and OV beyond k63. -/
def execKrd (f : RegForm) (s : State) : Result :=
  issue (.krd f) s fun s c =>
    let k := c.w.c
    let base := match f.a with
      | .k n => n.toNat
      | _ => 0
    let r := c.each k f.dst f.ty.width fun lane =>
      let x := k.read f.b lane 32
      if base + x.1 ≤ 63 then
        let y := k.getK (base + x.1)
        ⟨y.bits.toNat % 2 ^ f.ty.width, y.tag || x.2, 0⟩
      else ⟨0, x.2, fOV⟩
    c.done s r.1 r.2

end Sys2Proof.Machine
end

