-- ==== Sys2Proof/Machine/FloatOps.lean ====
section
/-! DEFINITION. Floating-point arithmetic, comparison and approximation (R177 to R185). -/

namespace Sys2Proof.Machine

open Sys2Proof

/-! The warp's random stream (R191). -/

def rotl64 (x : Word64) (n : Nat) : Word64 := x.rotateLeft n

def drawRounds (k0 k1 : Word64) : Nat → Nat → Word64 → Word64 → Word64 × Word64
  | 0, _, x, y => (x, y)
  | left + 1, n, x, y =>
    let x := x + y + k0
    let y := rotl64 y 29 ^^^ x
    let x := rotl64 x 17 ^^^ (k1 + BitVec.ofNat 64 n)
    drawRounds k0 k1 left (n + 1) x y

/-- Draw(K, C, i, s) (R191). -/
def drawAt (key : BitVec 128) (ctr : Word64) (i s : Nat) : Nat :=
  let k0 := BitVec.ofNat 64 key.toNat
  let k1 := BitVec.ofNat 64 (key.toNat / 2 ^ 64)
  let r := drawRounds k0 k1 8 0 ctr (BitVec.ofNat 64 (i * 2 ^ 32 + s % 2 ^ 32))
  (r.1 + r.2).toNat / 2 ^ 32

/-- The draw of a lane's element in this issue (R177): 0 where the mode is not SR. -/
def Ctx.draw (c : Ctx) (rnd : Rnd) (lane s : Nat) : Nat :=
  if rnd = .sr then drawAt c.w.c.rngk c.w.c.rngc lane s else 0

/-! Arithmetic. -/

/-- Values of a type from encodings. -/
def floatAt (t : Ty) (xs : List Nat) (j : Nat) : FVal := FVal.decode t.fmt (natAt xs j)

/-- Whether a value written by float arithmetic is P whatever its sources (R96). -/
def narrowP (t : Ty) (rnd : Rnd) : Bool := t.narrow || decide (rnd = .sr)

/-- A float operation: its exact value by mode, and flags of its own (R179). -/
abbrev FloatOp := Rnd → FVal → FVal → FVal → FVal × Flags

/-- R179: exact, then one rounding. -/
def floatArith (i : Instr) (s : State) (t : Ty) (rnd : Rnd) (dst : Operand) (srcs : List Source) (op : FloatOp) : Result :=
  issue i s fun s c =>
    c.compute s dst t.width (srcs.map fun x => (x, t.width)) (narrowP t rnd) fun lane xs =>
      let e := op rnd (floatAt t xs 0) (floatAt t xs 1) (floatAt t xs 2)
      let r := roundTo t rnd (c.draw rnd lane 0) e.1
      (r.1, r.2 ||| e.2)

def regFloat (i : Instr) (s : State) (f : RegForm) (srcs : List Operand) (op : FloatOp) : Result :=
  floatArith i s f.ty f.rnd f.dst (srcs.map .op) op

def immFloat (i : Instr) (s : State) (f : ImmForm) (op : FloatOp) : Result :=
  floatArith i s f.ty f.rnd f.dst [.op f.a, .imm (immOf f.ty f.imm)] op

def faddOp : FloatOp := fun rnd x y _ => (x.add y rnd, 0)
def fsubOp : FloatOp := fun rnd x y _ => (x.add y.neg rnd, 0)
def fmulOp : FloatOp := fun _ x y _ => (x.mul y, 0)
def ffmaOp : FloatOp := fun rnd x y z => ((x.mul y).add z rnd, 0)
def fdivOp : FloatOp := fun _ x y _ => (x.div y, Flags.on (y.isZero && x.isFin && !x.isZero) fDZF)
def fsqrtOp : FloatOp := fun _ x _ _ => (x.sqrt, 0)

/-- FRND: the integral value in the same format (R179). -/
def frndOf (t : Ty) (rnd : Rnd) (draw : Nat) (x : FVal) : Nat × Flags :=
  match x with
  | .fin s m e =>
    let r := roundInt rnd t.srBits draw s m e
    ((roundTo t .rn 0 (.fin s r.1 0)).1, Flags.on r.2 fNX)
  | x => roundTo t rnd 0 x

/-- FSCALE (R179): the amount is an S32. -/
def scaleBy (i : Instr) (s : State) (t : Ty) (rnd : Rnd) (dst : Operand) (a b : Source) : Result :=
  issue i s fun s c =>
    c.compute s dst t.width [(a, t.width), (b, 32)] (narrowP t rnd) fun lane xs =>
      roundTo t rnd (c.draw rnd lane 0) ((floatAt t xs 0).scale (intAt .s32 xs 1))

/-- FMIN and FMAX (R88, R89, R180) on encodings. -/
def minMaxOf (t : Ty) (isMax tot : Bool) (a b : Nat) : Nat × Flags :=
  if tot then
    let ka := totalKey t.width a
    let kb := totalKey t.width b
    (if ka = kb then a else if (ka < kb) != isMax then a else b, 0)
  else fMinMax t isMax a b

def minMax (i : Instr) (s : State) (t : Ty) (dst : Operand) (a b : Source) (isMax tot : Bool) : Result :=
  issue i s fun s c =>
    c.compute s dst t.width [(a, t.width), (b, t.width)] t.narrow fun _ xs => minMaxOf t isMax tot (natAt xs 0) (natAt xs 1)

/-- FCMP (R181). -/
def fcmpOf (t : Ty) (sub a b : Nat) : Nat × Flags :=
  if bit sub 3 then
    let ka := totalKey t.width a
    let kb := totalKey t.width b
    ((relOf (sub % 8) (ka < kb) (ka = kb)).toNat, 0)
  else
    let r := FVal.rel (sub % 8) (FVal.decode t.fmt a) (FVal.decode t.fmt b)
    (r.1.toNat, r.2)

def floatCompare (i : Instr) (s : State) (t : Ty) (dst : Operand) (a b : Source) (sub : Nat) : Result :=
  issue i s fun s c =>
    c.compute s dst 1 [(a, t.width), (b, t.width)] false fun _ xs => fcmpOf t sub (natAt xs 0) (natAt xs 1)

/-- The class bit of an encoding (R182). -/
def classOf (t : Ty) (x : Nat) : Nat :=
  let f := t.fmt
  match FVal.decode f x with
  | .nan sig => if sig then 0 else 1
  | .inf s => if s then 2 else 9
  | .fin s m _ =>
    if m = 0 then (if s then 5 else 6)
    else if x / 2 ^ f.fb % 2 ^ f.eb = 0 then (if s then 4 else 7)
    else if s then 3 else 8

/-- FDOT's packed elements (R183). -/
def packedAt (t : Ty) (x : Nat) : List FVal :=
  (List.range (32 / t.width)).map fun j => FVal.decode t.fmt (x / 2 ^ (t.width * j) % 2 ^ t.width)

/-- FDOT (R183): exact products and sum, one rounding into F32. -/
def fdotOf (t : Ty) (rnd : Rnd) (draw a b c : Nat) : Nat × Flags :=
  let ps := (packedAt t a).zip (packedAt t b) |>.map fun x => x.1.mul x.2
  roundTo .f32 rnd draw (FVal.sum (ps ++ [FVal.decode Ty.f32.fmt c]) rnd)

/-- R184, R185: always P. -/
def approximate (i : Instr) (s : State) (f : RegForm) (fn : Approx) : Result :=
  issue i s fun s c =>
    c.compute s f.dst f.ty.width [(.op f.a, f.ty.width)] true fun _ xs => approx fn f.ty (floatAt f.ty xs 0)

/-- R179. -/
def execFadd (f : RegForm) (s : State) : Result :=
  regFloat (.fadd f) s f [f.a, f.b] faddOp

/-- R179. -/
def execFaddImm (f : ImmForm) (s : State) : Result :=
  immFloat (.faddImm f) s f faddOp

/-- R179. -/
def execFsub (f : RegForm) (s : State) : Result :=
  regFloat (.fsub f) s f [f.a, f.b] fsubOp

/-- R179. -/
def execFsubImm (f : ImmForm) (s : State) : Result :=
  immFloat (.fsubImm f) s f fsubOp

/-- R179. -/
def execFmul (f : RegForm) (s : State) : Result :=
  regFloat (.fmul f) s f [f.a, f.b] fmulOp

/-- R179. -/
def execFmulImm (f : ImmForm) (s : State) : Result :=
  immFloat (.fmulImm f) s f fmulOp

/-- R179. -/
def execFfma (f : RegForm) (s : State) : Result :=
  regFloat (.ffma f) s f [f.a, f.b, f.c] ffmaOp

/-- R88, R89, R180. -/
def execFmin (f : RegForm) (s : State) : Result :=
  minMax (.fmin f) s f.ty f.dst (.op f.a) (.op f.b) false (bit f.sub.toNat 0)

/-- R88, R89, R180. -/
def execFminImm (f : ImmForm) (s : State) : Result :=
  minMax (.fminImm f) s f.ty f.dst (.op f.a) (.imm (immOf f.ty f.imm)) false (bit f.sub.toNat 0)

/-- R88, R89, R180. -/
def execFmax (f : RegForm) (s : State) : Result :=
  minMax (.fmax f) s f.ty f.dst (.op f.a) (.op f.b) true (bit f.sub.toNat 0)

/-- R88, R89, R180. -/
def execFmaxImm (f : ImmForm) (s : State) : Result :=
  minMax (.fmaxImm f) s f.ty f.dst (.op f.a) (.imm (immOf f.ty f.imm)) true (bit f.sub.toNat 0)

/-- R180: bits alone. -/
def execFabs (f : RegForm) (s : State) : Result :=
  issue (.fabs f) s fun s c =>
    c.compute s f.dst f.ty.width [(.op f.a, f.ty.width)] f.ty.narrow fun _ xs => (natAt xs 0 % 2 ^ (f.ty.width - 1), 0)

/-- R180: bits alone. -/
def execFneg (f : RegForm) (s : State) : Result :=
  issue (.fneg f) s fun s c =>
    c.compute s f.dst f.ty.width [(.op f.a, f.ty.width)] f.ty.narrow fun _ xs =>
      (natAt xs 0 ^^^ 2 ^ (f.ty.width - 1), 0)

/-- R181. -/
def execFcmp (f : RegForm) (s : State) : Result :=
  floatCompare (.fcmp f) s f.ty f.dst (.op f.a) (.op f.b) f.sub.toNat

/-- R181. -/
def execFcmpImm (f : ImmForm) (s : State) : Result :=
  floatCompare (.fcmpImm f) s f.ty f.dst (.op f.a) (.imm (immOf f.ty f.imm)) f.sub.toNat

/-- R182. -/
def execFclass (f : RegForm) (s : State) : Result :=
  issue (.fclass f) s fun s c =>
    c.compute s f.dst 1 [(.op f.a, f.ty.width), (.op f.b, 32)] false fun _ xs =>
      ((bit (natAt xs 1) (classOf f.ty (natAt xs 0))).toNat, 0)

/-- R179. -/
def execFdiv (f : RegForm) (s : State) : Result :=
  regFloat (.fdiv f) s f [f.a, f.b] fdivOp

/-- R179. -/
def execFdivImm (f : ImmForm) (s : State) : Result :=
  immFloat (.fdivImm f) s f fdivOp

/-- R179. -/
def execFsqrt (f : RegForm) (s : State) : Result :=
  regFloat (.fsqrt f) s f [f.a] fsqrtOp

/-- R184, R185. -/
def execFrcpa (f : RegForm) (s : State) : Result :=
  approximate (.frcpa f) s f .rcp

/-- R184, R185. -/
def execFrsqa (f : RegForm) (s : State) : Result :=
  approximate (.frsqa f) s f .rsq

/-- R184, R185. -/
def execFex2 (f : RegForm) (s : State) : Result :=
  approximate (.fex2 f) s f .ex2

/-- R184, R185. -/
def execFlg2 (f : RegForm) (s : State) : Result :=
  approximate (.flg2 f) s f .lg2

/-- R184, R185. -/
def execFsin (f : RegForm) (s : State) : Result :=
  approximate (.fsin f) s f .sin

/-- R184, R185. -/
def execFcos (f : RegForm) (s : State) : Result :=
  approximate (.fcos f) s f .cos

/-- R184, R185. -/
def execFtanh (f : RegForm) (s : State) : Result :=
  approximate (.ftanh f) s f .tanh

/-- R179. -/
def execFscale (f : RegForm) (s : State) : Result :=
  scaleBy (.fscale f) s f.ty f.rnd f.dst (.op f.a) (.op f.b)

/-- R179. -/
def execFscaleImm (f : ImmForm) (s : State) : Result :=
  scaleBy (.fscaleImm f) s f.ty f.rnd f.dst (.op f.a) (.imm f.imm.toNat)

/-- R179. -/
def execFrnd (f : RegForm) (s : State) : Result :=
  issue (.frnd f) s fun s c =>
    c.compute s f.dst f.ty.width [(.op f.a, f.ty.width)] (narrowP f.ty f.rnd) fun lane xs =>
      frndOf f.ty f.rnd (c.draw f.rnd lane 0) (floatAt f.ty xs 0)

/-- R183. -/
def execFdot (f : RegForm) (s : State) : Result :=
  issue (.fdot f) s fun s c =>
    c.compute s f.dst 32 [(.op f.a, 32), (.op f.b, 32), (.op f.c, 32)] (decide (f.rnd = .sr)) fun lane xs =>
      fdotOf f.ty f.rnd (c.draw f.rnd lane 0) (natAt xs 0) (natAt xs 1) (natAt xs 2)

end Sys2Proof.Machine
end

