-- ==== Sys2Proof/Machine/Access.lean ====
section
/-! DEFINITION. The accesses of one issue: their addresses (R150), the checks of R202 over its lanes, what a load sees
and marks, what a store performs or buffers (R134), the hints of R124, and the operations of atomics (R203). -/

namespace Sys2Proof.Machine

open Sys2Proof

/-- The units of an issue: its lanes of ACTIVE, or lane index 32 for one access of the warp (R201, R204). -/
def Ctx.units (c : Ctx) (once : Bool) : List Nat :=
  if c.active = 0 then [] else if once then [32] else c.active.list

def Ctx.unitLanes (c : Ctx) (u : Nat) : Lanes := if u = 32 then c.active else BitVec.ofNat 32 (2 ^ u)

/-- Whether what a unit writes is P whatever its sources (R59, R98, R108). -/
def Ctx.forcedUnit (c : Ctx) (u : Nat) : Bool := if u = 32 then c.forcedAny c.w.c else c.forced c.w.c u

/-- The address of a unit and the tag of its base (R150). -/
def memAddr (c : Ctx) (f : MemForm) (u : Nat) : Int × Bool :=
  let x := c.w.c.read f.base u (if f.space.narrowBase then 32 else 64)
  let a := (x.1 : Int) + f.off.toInt
  (if f.space.narrowBase then a else a % 2 ^ 64, x.2)

/-- An access of the issuing warp. -/
def Ctx.access (c : Ctx) (sp : Space) (n align : Nat) (write atomic : Bool) : Access :=
  { part := c.pi, launch := some c.li, gang := some c.gi, group := c.w.group, space := sp, addr := 0, n := n,
    align := align, write := write, atomic := atomic }

/-- Where an access of the issuing warp lies: the parameter block (R120) or a place. -/
inductive Located
  | param (off : Nat)
  | place (q : Place)
deriving DecidableEq, Repr

/-- Locate an access at an address that may lie below zero (R117, R120, R121, R150). -/
def State.locate (s : State) (a : Access) (addr : Int) : Except (Nat × Stop) Located :=
  if addr % (a.align : Int) ≠ 0 then .error (0, .fault .align 0 false)
  else if addr < 0 then .error (1, .fault .translation 2 false)
  else if a.space = .p then
    if addr.toNat + a.n ≤ 0x400 then .ok (.param addr.toNat) else .error (1, .fault .translation 2 false)
  else (s.place { a with addr := addr.toNat }).map .place

/-- A unit whose check failed: its lanes, the rank of the check, what it meets, its address and its base's tag. -/
structure Failure where
  lanes : Lanes
  rank : Nat
  stop : Stop
  addr : Int
  atag : Bool
deriving DecidableEq, Repr

/-- The lowest rank among failures. -/
def lowestRank : List Failure → Nat
  | [] => 0
  | [f] => f.rank
  | f :: fs => min f.rank (lowestRank fs)

/-- Pages met by the failures that sleep, one hit for each page (R202, R315). -/
def pageHits : List Failure → List PageHit
  | [] => []
  | f :: fs =>
    let rest := pageHits fs
    match f.stop with
    | .sleep va reg =>
      let page := va / 65536
      let here := rest.filter fun h => h.page == page
      ({ page := page, reg := reg, lanes := here.foldl (fun m h => m ||| h.lanes) f.lanes, addr := va
         paddr := f.atag || here.any (·.paddr) } : PageHit) :: rest.filter fun h => h.page != page
    | .fault _ _ _ => rest

/-- The outcome of the deciding check over an issue's failures (R202). -/
def decideFailures (fs : List Failure) : Body :=
  let r := lowestRank fs
  let here := fs.filter fun f => f.rank == r
  match here with
  | [] => .wait
  | f :: _ => match f.stop with
    | .sleep _ _ => .sleep (pageHits here)
    | .fault cls cause _ =>
      .fault { cls := cls, cause := cause, lanes := here.foldl (fun m x => m ||| x.lanes) 0
               addr := BitVec.ofInt 64 f.addr
               tags := (here.any (·.atag)).toNat + 4 * (here.any fun x => match x.stop with
                 | .fault _ _ p => p
                 | _ => false).toNat }

/-- Locate every unit of an issue, or the outcome where one of them fails. A load, atomic or SCATC that would consume
uncorrectable data fails last (R202). -/
def State.locateAll (s : State) (c : Ctx) (units : List Nat) (addr : Nat → Int × Bool) (a : Access) (consumes : Bool) :
    Except Body (List (Nat × Located)) :=
  let tried := units.map fun u => (u, addr u, s.locate a (addr u).1)
  let failures := tried.filterMap fun x => match x.2.2 with
    | .error e => some (⟨c.unitLanes x.1, e.1, e.2, x.2.1.1, x.2.1.2⟩ : Failure)
    | .ok (.place q) =>
      if consumes && s.poisoned q then some ⟨c.unitLanes x.1, 60, .fault .bus 0 q.prop, x.2.1.1, x.2.1.2⟩ else none
    | .ok (.param _) => none
  let places := tried.filterMap fun x => match x.2.2 with
    | .ok l => some (x.1, l)
    | .error _ => none
  if failures.isEmpty then .ok places else .error (decideFailures failures)

/-- Whether an issue reaches MMIO space, so that it waits for commit (R127). -/
def touchesMmio (ls : List (Nat × Located)) : Bool :=
  ls.any fun x => match x.2 with
    | .place q => q.dev
    | .param _ => false

/-- Bytes and tag that a unit's load returns: from the parameter block, from memory with the warp's buffered stores, or
a free value from MMIO space [9]. A page with PROP adds P to every load (R307). -/
def loadUnit (s view : State) (c : Ctx) (u : Nat) (l : Located) (n : Nat) : List Byte × Bool :=
  match l with
  | .param off => (((c.g.params.drop off).take n) ++ List.replicate (n - (c.g.params.drop off).length) 0, false)
  | .place q => match q.loc with
    | .phys pa => if q.dev then (leBytes n (Config.mmioRead s.turn (pa + 2 ^ 52 * u)).toNat, q.prop) else view.loadAt q n
    | .local _ _ => view.loadAt q n

/-- The lines that a load of a place reads: its own, and that of its sector's shadow bit (R102, R134). -/
def Place.lines (q : Place) : List Nat :=
  match q.loc with
  | .phys pa => if q.dev then [] else pa / 128 :: (q.shadow.map fun b => b / 8 / 128).toList
  | .local _ _ => []

/-- The page that a located access uses, if it is translated: its VA / 65536 and its PA / 65536. -/
def Located.page (l : Located) : Option (Nat × Nat) :=
  match l with
  | .param _ => none
  | .place q => match q.loc with
    | .phys pa => some (q.va / 65536, pa / 65536)
    | .local _ _ => none

/-- A checkpoint keeps the pages that an issue under it uses (R260). -/
def Ckpt.notePages (k : Ckpt) (ls : List (Nat × Located)) : Ckpt :=
  { k with pages := ((ls.filterMap fun x => x.2.page).filter fun x => !k.pages.contains x) ++ k.pages }

/-- Mark what a load reads under a checkpoint (R134). -/
def Ckpt.markPlace (k : Ckpt) (l : Located) : Ckpt :=
  match l with
  | .param _ => k
  | .place q => match q.loc with
    | .phys _ => { k with marks := (q.lines.filter fun x => !k.marks.contains x) ++ k.marks }
    | .local cell o =>
      let sec := (cell * cellBytes + o) / 32
      if k.localMarks.contains sec then k else { k with localMarks := sec :: k.localMarks }

def State.markLoads (s : State) (c : Ctx) (ls : List (Nat × Located)) : State :=
  s.modWarp c.wi fun w => w.modYoungest fun k => ls.foldl (fun k l => k.markPlace l.2) (k.notePages ls)

/-! Hints (R124). -/

/-- The issuing core's key, as a deque's. -/
def Ctx.coreKey (c : Ctx) : Nat := dequeKey c.g.die c.g.cell c.w.core

def linesOf (ls : List (Nat × Located)) : List Nat :=
  (ls.filterMap fun l => match l.2 with
    | .place q => match q.loc with
      | .phys pa => if q.dev then none else some (pa / 128)
      | .local _ _ => none
    | .param _ => none).dedup

/-- The core of a warp. -/
def State.coreOf (s : State) (w : Warp) : Nat :=
  match nth s.gangs w.gang with
  | some g => dequeKey g.die g.cell w.core
  | none => 0

/-- Lines leave some cores' L1s: a conflict for the checkpoints there that have read them, but for those of one warp (R136, R208). -/
def State.evict (s : State) (cores : Nat → Bool) (but : Option Nat) (lines : List Nat) : State :=
  match lines with
  | [] => s
  | _ => { s with warps := (List.range s.warps.length).filterMap fun i => (nth s.warps i).map fun w =>
      if but = some i || !cores (s.coreOf w) then w
      else { w with ckpts := w.ckpts.map fun k => if lines.any k.marks.contains then { k with conflict := true } else k } }

/-- The lines that leave L1 as reads lower their counts to zero. -/
def leaving (ms : List LineMark) (core : Nat) (lines : List Nat) : List Nat :=
  (ms.filter fun m => m.core == core && lines.contains m.line && m.count.any (decide <| · ≤ 1)).map (·.line)

/-- Reads lower a line's count, and a line at zero leaves L1. -/
def lowerCounts (ms : List LineMark) (core : Nat) (lines : List Nat) : List LineMark :=
  ms.filterMap fun m =>
    if m.core == core && lines.contains m.line then match m.count with
      | some n => if n ≤ 1 then none else some { m with count := some (n - 1) }
      | none => some m
    else some m

/-- Remove a core's marks of some lines. -/
def clearMarks (ms : List LineMark) (core : Nat) (lines : List Nat) : List LineMark :=
  ms.filter fun m => !(m.core == core && lines.contains m.line)

/-- Keep lines as a hint asks (R124). -/
def keepLines (ms : List LineMark) (core : Nat) (lines : List Nat) (h : Hint) (count : Nat) : List LineMark :=
  match h with
  | .readCount => clearMarks ms core lines ++ lines.map fun l => ⟨core, l, some count⟩
  | .keep => clearMarks ms core lines ++ lines.map fun l => ⟨core, l, none⟩
  | _ => ms

/-- An issue reads lines and keeps them as its hint asks (R124, R136). -/
def State.readLines (s : State) (core : Nat) (lines : List Nat) (h : Hint) (count : Nat) : State :=
  let s' := s.evict (· == core) none (leaving s.marks core lines)
  { s' with marks := keepLines (lowerCounts s.marks core lines) core lines h count }

/-- A store cancels the counts of its lines. -/
def cancelCounts (ms : List LineMark) (core : Nat) (lines : List Nat) : List LineMark :=
  ms.filter fun m => !(m.core == core && lines.contains m.line && m.count.isSome)

/-- An issue writes lines and keeps them as its hint asks. -/
def State.writeLines (s : State) (core : Nat) (lines : List Nat) (h : Hint) (count : Nat) : State :=
  { s with marks := keepLines (cancelCounts s.marks core lines) core lines h count }

/-- The cores that an operation of a core reaches: those of its cell, of its die, or every one (R131). -/
def scopeReaches (sc : Scope) (core other : Nat) : Bool :=
  match sc with
  | .warp | .group | .gang => other / 4 == core / 4
  | .die => other / 96 == core / 96
  | .pkg | .fabric => true

/-- A cache operation performs (R131, R208): a dropped line leaves the L1s of the core's cell, and is no conflict for the warp that
drops it; a line made normal loses its marks wherever the scope reaches. A copy written back stays, with nothing to show. -/
def State.cacheOp (s : State) (core wi : Nat) (x : CacheOp) : State :=
  let unmark (s : State) (sc : Scope) : State :=
    { s with marks := s.marks.filter fun m => !(scopeReaches sc core m.core && x.lines.contains m.line) }
  match x.mode with
  | 0 => s
  | 1 => unmark (s.evict (scopeReaches .warp core) (some wi) x.lines) .warp
  | _ => unmark s x.scope

/-! Stores. -/

/-- A store that meets an uncorrectable error performs, and the die's controller is told; the spec gives no argument for one in local
memory (R202, R321) [21]. -/
def State.reportErrors (s : State) (die : Nat) (ws : List Write) : State :=
  ws.foldl (fun s w =>
    if s.poisoned w.place then
      s.fwEvent die 6 (match w.place.loc with
        | .phys pa => pa / 16
        | .local _ o => Config.free s.turn o % 2 ^ 48)
    else s) s

/-- The writes of a store issue to its places, as one access for R101: performed, or buffered under a checkpoint (R134). -/
def State.storeIssue (s : State) (c : Ctx) (ls : List (Nat × Located)) (ws : List Write) : State :=
  match c.w.ckpts with
  | [] => (s.store (some c.wi) ws).reportErrors c.g.die ws
  | _ => s.modWarp c.wi fun w => w.modYoungest fun k => { k.notePages ls with stores := k.stores ++ [ws.map Write.buffered] }

/-! Atomic operations (R203). -/

/-- The new value, from the old one and the operands, with flags for the float operations. -/
def atomicOf (t : Ty) (op : Nat) (old y z : Nat) : Nat × Flags :=
  match op with
  | 0 => if t.isFloat then roundTo t .rn 0 ((FVal.decode t.fmt old).add (FVal.decode t.fmt y) .rn)
         else (t.wrap (t.toInt old + t.toInt y), 0)
  | 1 => if t.isFloat then fMinMax t false old y else (t.wrap (min (t.toInt old) (t.toInt y)), 0)
  | 2 => if t.isFloat then fMinMax t true old y else (t.wrap (max (t.toInt old) (t.toInt y)), 0)
  | 3 => (old &&& y, 0)
  | 4 => (old ||| y, 0)
  | 5 => (old ^^^ y, 0)
  | 6 => (y, 0)
  | _ => (if old = z then y else old, 0)

/-- One atomic at a place: the state, the old value, the sector's prior tag, the flags. -/
def State.atomicAt (s : State) (wi : Nat) (q : Place) (t : Ty) (op y z : Nat) (tag : Bool) : State × Nat × Bool × Flags :=
  let r := s.loadAt q t.bytes
  let v := atomicOf t op (leNat r.1) y z
  (s.storeAtomic (some wi) q (leBytes t.bytes v.1) tag, leNat r.1, r.2, v.2)

end Sys2Proof.Machine
end

