-- ==== Sys2Proof/Machine/MemInstr.lean ====
section
/-! DEFINITION. The memory instructions: LD, ST, ATOM, RED, SCATC, FENCE, PFT, CCTL (R199 to R208) and the completion
objects CINIT, CWAIT, CTEST (R129, R214). -/

namespace Sys2Proof.Machine

open Sys2Proof

def isK : Operand → Bool
  | .k _ => true
  | _ => false

/-- Elements of one access (R200). -/
def ldCount (f : MemForm) : Nat := 2 ^ (f.sub.toNat / 16)

/-- Bytes of one access (R200). -/
def ldBytes (f : MemForm) : Nat := f.ty.bytes * ldCount f

/-- Vector registers of one access (R200). -/
def ldRegs (f : MemForm) : Nat := f.ty.regs * ldCount f

/-- How a loaded value fills its registers: S8 and S16 are sign-extended to 32 bits, all else leaves zeros (R200). -/
def fillValue (t : Ty) (x : Nat) : Nat :=
  match t with
  | .s8 | .s16 => Ty.s32.wrap (t.toInt x)
  | _ => x

/-- Write what a unit has loaded. -/
def writeLoaded (f : MemForm) (k : WCore) (u x : Nat) (tag : Bool) : WCore :=
  match f.dst with
  | .v r => k.writeVs u r.toNat (fillValue f.ty x) tag (ldRegs f)
  | o => k.write o u 64 (fillValue f.ty x) tag

/-- Replace the captured state of the warp at issue. -/
def State.putCore (s : State) (c : Ctx) (k : WCore) : State := s.modWarp c.wi fun w => { w with c := k }

/-- The state after the loads of an issue: the lines marked, read, and kept as the hint asks. -/
def State.afterLoads (s : State) (c : Ctx) (f : MemForm) (ls : List (Nat × Located)) : State :=
  (s.markLoads c ls).readLines c.coreKey (linesOf ls) f.hdr.hint (f.sub.toNat % 16)

/-- The state after the stores of an issue. -/
def State.afterStores (s : State) (c : Ctx) (f : MemForm) (ls : List (Nat × Located)) (ws : List Write) : State :=
  (s.storeIssue c ls ws).writeLines c.coreKey (linesOf ls) f.hdr.hint (f.sub.toNat % 16)

/-- R96, R201: a value of a narrow format is P. -/
def execLd (f : MemForm) (s : State) : Result :=
  issue (.ld f) s fun s c =>
    let n := ldBytes f
    match s.locateAll c (c.units (isK f.dst)) (memAddr c f) (c.access f.space n n false false) true with
    | .error b => b
    | .ok ls =>
      if touchesMmio ls && !c.w.ckpts.isEmpty then .wait
      else
        let view := s.seenBy c.w
        let k := ls.foldl (fun k x =>
          let r := loadUnit s view c x.1 x.2 n
          writeLoaded f k x.1 (leNat r.1) (r.2 || (memAddr c f x.1).2 || f.ty.narrow || c.forcedUnit x.1)) c.w.c
        .done { s := (s.afterLoads c f ls).putCore c k }

/-- The datum that a unit stores, with its tag (R96, R200, R201). -/
def storeDatum (f : MemForm) (c : Ctx) (u : Nat) : Nat × Bool :=
  let x := match f.b with
    | .v r => c.w.c.readVs u r.toNat (ldRegs f)
    | o => c.w.c.read o u 64
  (x.1, x.2 || f.ty.narrow)

/-- The writes of an issue that stores one datum for each unit. -/
def storeWrites (c : Ctx) (ls : List (Nat × Located)) (n : Nat) (datum : Nat → Nat × Bool) : List Write :=
  ls.filterMap fun x => match x.2 with
    | .place q => some ⟨q, leBytes n (datum x.1).1, (datum x.1).2 || c.forcedUnit x.1⟩
    | .param _ => none

/-- A store issue of n bytes for each unit (R201, R214). -/
def storeBody (f : MemForm) (n : Nat) (s : State) (c : Ctx) (datum : Nat → Nat × Bool) : Body :=
  match s.locateAll c (c.units (isK f.base && isK f.b)) (memAddr c f) (c.access f.space n n true false) false with
  | .error b => b
  | .ok ls =>
    if touchesMmio ls && !c.w.ckpts.isEmpty then .wait
    else .done { s := s.afterStores c f ls (storeWrites c ls n datum) }

/-- R201. -/
def execSt (f : MemForm) (s : State) : Result :=
  issue (.st f) s fun s c => storeBody f (ldBytes f) s c (storeDatum f c)

/-- R214. -/
def execCinit (f : MemForm) (s : State) : Result :=
  issue (.cinit f) s fun s c => storeBody f 8 s c fun u => c.w.c.read f.b u 64

/-- R214. -/
def execCtest (f : MemForm) (s : State) : Result :=
  issue (.ctest f) s fun s c =>
    match s.locateAll c (c.units (isK f.dst)) (memAddr c f) (c.access f.space 8 8 false false) true with
    | .error b => b
    | .ok ls =>
      if touchesMmio ls && !c.w.ckpts.isEmpty then .wait
      else
        let view := s.seenBy c.w
        let k := ls.foldl (fun k x =>
          let r := loadUnit s view c x.1 x.2 8
          let y := c.w.c.read f.b x.1 64
          k.write f.dst x.1 32 (decide (y.1 ≤ leNat r.1)).toNat
            (r.2 || (memAddr c f x.1).2 || y.2 || c.forcedUnit x.1)) c.w.c
        .done { s := (s.afterLoads c f ls).putCore c k }

/-- R214: the load that first observes the condition in every lane is the issue; until then the split waits. -/
def execCwait (f : MemForm) (s : State) : Result :=
  issue (.cwait f) s fun s c =>
    match s.locateAll c (c.units (isK f.base && isK f.b)) (memAddr c f) (c.access f.space 8 8 false false) true with
    | .error b => b
    | .ok ls =>
      if touchesMmio ls && !c.w.ckpts.isEmpty then .wait
      else
        let view := s.seenBy c.w
        if ls.all fun x => (c.w.c.read f.b x.1 64).1 ≤ leNat (loadUnit s view c x.1 x.2 8).1 then
          .done { s := s.afterLoads c f ls }
        else .hold (.cwait (ls.map fun x =>
          (f.space, (memAddr c f x.1).1.toNat, BitVec.ofNat 64 (c.w.c.read f.b x.1 64).1)))

/-! Atomics. -/

/-- What the atomics of an issue have done so far. -/
structure Atomics where
  s : State
  k : WCore
  raised : Raised := []
deriving DecidableEq, Repr

/-- One atomic of an issue: operands y and z, the operand tags, and where the old value goes, if anywhere (R204). -/
def Atomics.run (a : Atomics) (f : MemForm) (c : Ctx) (op : Nat) (dst : Option Operand) (x : Nat × Located) : Atomics :=
  match x.2 with
  | .param _ => a
  | .place q =>
    let u := x.1
    let w := f.ty.width
    let y := c.w.c.read f.b u w
    let z := if op = 7 then c.w.c.read f.c u w else (0, false)
    let r := a.s.atomicAt c.wi q f.ty op y.1 z.1 (y.2 || z.2 || c.forcedUnit u)
    { s := r.1
      k := match dst with
        | some d => a.k.write d u w r.2.1 (r.2.2.1 || (memAddr c f u).2 || c.forcedUnit u)
        | none => a.k
      raised := a.raised ++ (c.unitLanes u).list.map fun j => (j, r.2.2.2) }

/-- The state after the atomics of an issue, which have read and written their lines. -/
def Atomics.after (a : Atomics) (f : MemForm) (c : Ctx) (ls : List (Nat × Located)) : State :=
  (a.s.putCore c a.k).writeLines c.coreKey (linesOf ls) f.hdr.hint 0

/-- ATOM and RED (R204). -/
def atomics (i : Instr) (f : MemForm) (s : State) (dst : Option Operand) : Result :=
  issue i s fun s c =>
    let op := f.sub.toNat
    let once := isK f.base && isK f.b && (op != 7 || isK f.c) && (match dst with
      | some d => isK d
      | none => true)
    match s.locateAll c (c.units once) (memAddr c f) (c.access f.space f.ty.bytes f.ty.bytes true true) true with
    | .error b => b
    | .ok ls =>
      let r := ls.foldl (fun a x => a.run f c op dst x) ({ s := s, k := c.w.c } : Atomics)
      .done { s := r.after f c ls, raised := r.raised, traps := false }

/-- R203, R204. -/
def execAtom (f : MemForm) (s : State) : Result := atomics (.atom f) f s (some f.dst)

/-- R203, R204. -/
def execRed (f : MemForm) (s : State) : Result := atomics (.red f) f s none

/-- The lanes of an issue that name one address, in order of each set's lowest lane (R205). -/
def byAddress (addr : Nat → Int) (lanes : List Nat) : List (List Nat) :=
  (lanes.filter fun j => lanes.all fun i => j ≤ i || addr i ≠ addr j).map fun j => lanes.filter fun i => addr i = addr j

/-- One combined atomic of SCATC, for the lanes L of an address (R205). -/
def Atomics.combine (a : Atomics) (f : MemForm) (c : Ctx) (op : Nat) (L : List Nat) (q : Place) : Atomics :=
  let w := f.ty.width
  let y (j : Nat) : Nat × Bool := c.w.c.read f.b j w
  let v := reduce (fun x z => atomicOf f.ty op x z 0) ((List.range 32).map fun j => if L.contains j then some (y j).1 else none)
  let tag := L.any fun j => (y j).2 || (memAddr c f j).2 || c.forced c.w.c j
  let r := a.s.atomicAt c.wi q f.ty op (v.1.getD 0) 0 tag
  { s := r.1
    k := if bit f.sub.toNat 4 then
        L.foldl (fun k j => k.write f.dst j 32 (L.filter (· < j)).length (c.forced c.w.c j)) a.k
      else a.k
    raised := a.raised ++ [((L.head?).getD 0, v.2 ||| r.2.2.2)] }

/-- The place among located units that a lane names. -/
def placeOf (ls : List (Nat × Located)) (j : Nat) : Option Place :=
  (ls.find? fun x => x.1 == j).bind fun x => match x.2 with
    | .place q => some q
    | .param _ => none

/-- R205. -/
def execScatc (f : MemForm) (s : State) : Result :=
  issue (.scatc f) s fun s c =>
    match s.locateAll c (c.units false) (memAddr c f) (c.access f.space f.ty.bytes f.ty.bytes true true) true with
    | .error b => b
    | .ok ls =>
      let sets := byAddress (fun j => (memAddr c f j).1) c.active.list
      let r := sets.foldl (fun a L => match placeOf ls (L.head?.getD 0) with
        | some q => a.combine f c (f.sub.toNat % 16) L q
        | none => a) ({ s := s, k := c.w.c } : Atomics)
      .done { s := r.after f c ls, raised := r.raised, traps := false }

/-- R130, R206: it issues when every earlier access has performed, and has no further effect in one order of accesses. -/
def execFence (f : RegForm) (s : State) : Result := issue (.fence f) s fun s c => c.done s c.w.c []

/-- The units of a hint that can be located as 1-byte loads. -/
def hintUnits (f : MemForm) (s : State) (c : Ctx) : List (Nat × Located) :=
  (c.units (isK f.base)).filterMap fun u => match s.locate (c.access f.space 1 1 false false) (memAddr c f u).1 with
    | .ok l => some (u, l)
    | .error _ => none

/-- R131, R207: a prefetch that reaches no farther than a slice leaves the issuing core's L1 as it is. -/
def execPft (f : MemForm) (s : State) : Result :=
  issue (.pft f) s fun s c =>
    let ls := hintUnits f s c
    .done { s := match f.scope with
      | .warp | .group | .gang => { s with marks := keepLines s.marks c.coreKey (linesOf ls) f.hdr.hint (f.sub.toNat % 16) }
      | .die | .pkg | .fabric => s }

/-- R208: it performs when the checkpoint that covers it commits. Like a 1-byte load it raises BUS for a line in no storage that the
device reaches, which R208 neither names nor excludes [15]. -/
def execCctl (f : MemForm) (s : State) : Result :=
  issue (.cctl f) s fun s c =>
    let sp := if f.space = .c then .g else f.space
    match s.locateAll c (c.units (isK f.base)) (memAddr c f) (c.access sp 1 1 false false) false with
    | .error b => b
    | .ok ls =>
      let s := { s with marks := keepLines s.marks c.coreKey (linesOf ls) f.hdr.hint 0 }
      let x : CacheOp := ⟨f.sub.toNat % 4, f.scope, linesOf ls⟩
      .done { s := match c.w.ckpts with
        | [] => s.cacheOp c.coreKey c.wi x
        | _ => s.modWarp c.wi fun w => w.modYoungest fun k => { k.notePages ls with cctls := k.cctls ++ [x] } }

end Sys2Proof.Machine
end

