-- ==== Sys2Proof/Machine/Tile.lean ====
section
/-! DEFINITION. Operand slots, accumulator tiles and the matrix unit (R91 to R94, R218 to R222, R226 to R231): OCLM, ORLS,
ACLM, ARLS, ACLR, MMA, MMAS, ASTAT. A matrix operation takes effect at its acceptance, which is its issue. -/

namespace Sys2Proof.Machine

open Sys2Proof

/-- The value of a uniform operand, with its tag. -/
def Ctx.uniform (c : Ctx) (o : Operand) : Nat × Bool :=
  match o with
  | .k _ => c.w.c.read o 32 64
  | _ => (0, false)

/-- SLOT, with the descriptor at fault (R220, R315). -/
def slotFault (lanes : Lanes) (desc : Nat) : FaultInfo := { cls := .slot, lanes := lanes, addr := BitVec.ofNat 64 desc }

/-- ALIGN of an address operand found at issue. -/
def alignFault (c : Ctx) (a : Nat × Bool) : FaultInfo :=
  { cls := .align, lanes := c.active, addr := BitVec.ofNat 64 a.1, tags := a.2.toNat }

def Gang.slot (g : Gang) (n : Nat) : Option OSlot := FMap.get none g.slots n
def Gang.tile (g : Gang) (n : Nat) : Option Tile := FMap.get none g.tiles n
def State.setSlot (s : State) (gi n : Nat) (x : Option OSlot) : State :=
  s.modGang gi fun g => { g with slots := FMap.set none g.slots n x }
def State.setTile (s : State) (gi n : Nat) (x : Option Tile) : State :=
  s.modGang gi fun g => { g with tiles := FMap.set none g.tiles n x }

/-- The gang of an issue as the effect finds it. -/
def State.gangOf (s : State) (c : Ctx) : Gang := (nth s.gangs c.gi).getD c.g

/-! Operations that name a slot or a tile (R221, R231). -/

def EOp.slot (o : EOp) : Option Nat :=
  match o.instr with
  | .old _ | .ost _ => some (o.dst.toNat % 32)
  | _ => none

def EOp.tile (o : EOp) : Option Nat :=
  match o.instr with
  | .adrn _ | .wupd _ => some (o.dst.toNat % 16)
  | _ => none

def State.slotBusy (s : State) (gi n : Nat) : Bool :=
  (s.ops.any fun o => o.gang == gi && decide (o.phase ≠ .done) && o.slot == some n)
    || s.mops.any fun m => m.gang == gi && m.slots.contains n

def State.tileBusy (s : State) (gi n : Nat) : Bool :=
  (s.ops.any fun o => o.gang == gi && decide (o.phase ≠ .done) && o.tile == some n)
    || s.mops.any fun m => m.gang == gi && m.tile == some n

/-! Claims (R221). -/

/-- A claim: the result register receives 1 or 0. -/
def claimResult (f : RegForm) (s : State) (c : Ctx) (ok : Bool) : Body :=
  .done { s := s.putCore c (c.w.c.write f.dst 32 64 ok.toNat (c.forcedAny c.w.c)) }

/-- R221. -/
def execOclm (f : RegForm) (s : State) : Result :=
  issue (.oclm f) s fun s c =>
    let n := (c.uniform f.a).1
    if c.active = 0 then c.done s c.w.c []
    else if n ≥ c.l.lrec.slots then .fault (slotFault c.active n)
    else match (s.gangOf c).slot n with
      | some _ => claimResult f s c false
      | none => claimResult f (s.setSlot c.gi n (some {})) c true

/-- R221. -/
def execAclm (f : RegForm) (s : State) : Result :=
  issue (.aclm f) s fun s c =>
    let n := (c.uniform f.a).1
    if c.active = 0 then c.done s c.w.c []
    else if n ≥ c.l.lrec.tiles then .fault (slotFault c.active n)
    else match (s.gangOf c).tile n with
      | some _ => claimResult f s c false
      | none => claimResult f (s.setTile c.gi n (some {})) c true

/-- R221. -/
def execOrls (f : RegForm) (s : State) : Result :=
  issue (.orls f) s fun s c =>
    let n := (c.uniform f.a).1
    if c.active = 0 then c.done s c.w.c []
    else if n ≥ c.l.lrec.slots then .fault (slotFault c.active n)
    else if s.slotBusy c.gi n then .wait
    else .done { s := s.setSlot c.gi n none }

/-- R221. -/
def execArls (f : RegForm) (s : State) : Result :=
  issue (.arls f) s fun s c =>
    let n := (c.uniform f.a).1
    if c.active = 0 then c.done s c.w.c []
    else if n ≥ c.l.lrec.tiles then .fault (slotFault c.active n)
    else if s.tileBusy c.gi n then .wait
    else .done { s := s.setTile c.gi n none }

/-- The mode that a type names (R221). -/
def modeOf : Ty → TileMode
  | .f64 => .f64
  | .s32 => .s32
  | _ => .f32

/-- R221: the cleared rows are S whatever the guard and the taint of the issue, as R100 and R221 say without the "unless R108 applies" that
they give a claim's result [14]. -/
def execAclr (f : RegForm) (s : State) : Result :=
  issue (.aclr f) s fun s c =>
    let n := (c.uniform f.a).1
    if c.active = 0 then c.done s c.w.c []
    else if n ≥ c.l.lrec.tiles then .fault (slotFault c.active n)
    else match (s.gangOf c).tile n with
      | none => .fault (slotFault c.active n)
      | some _ =>
        if s.tileBusy c.gi n then .wait
        else .done { s := s.setTile c.gi n (some { mode := modeOf f.ty }) }

/-- The status word of a tile (R231). -/
def Tile.word (t : Tile) : Nat :=
  512 + 128 * (match t.mode with
    | .f32 => 0
    | .s32 => 1
    | .f64 => 2) + t.status.toNat

/-- R231. -/
def execAstat (f : RegForm) (s : State) : Result :=
  issue (.astat f) s fun s c =>
    let n := (c.uniform f.a).1
    if c.active = 0 then c.done s c.w.c []
    else if n ≥ c.l.lrec.tiles then .fault (slotFault c.active n)
    else if s.tileBusy c.gi n then .wait
    else
      let t := (s.gangOf c).tile n
      let word := match t with
        | some t => t.word
        | none => 0
      let s := s.putCore c (c.w.c.write f.dst 32 64 word (c.forcedAny c.w.c))
      .done { s := match t with
        | some t => if bit f.sub.toNat 0 then s.setTile c.gi n (some { t with status := 0 }) else s
        | none => s }

/-! Elements of slots and tiles. -/

/-- Tile status flags of arithmetic flags (R231). -/
def tileFlags (f : Flags) : BitVec 6 :=
  let on (m : Flags) (b : BitVec 6) : BitVec 6 := if f &&& m = 0 then 0 else b
  on fNV 1 ||| on fOF 2 ||| on fUF 4 ||| on fNX 8 ||| on fUZ 16

/-- The value of an element; an integer one is exact. -/
def elemValue (t : Ty) (raw : Nat) : FVal := if t.isInt then FVal.ofInt (t.toInt raw) else FVal.decode t.fmt raw

def OSlot.raw (o : OSlot) (row off n : Nat) : Nat := leNat (FMap.getN 0 o.data (128 * row + off) n)

/-- Elements 0 to n − 1 of a slot row (R79, R222). -/
def OSlot.elems (o : OSlot) (t : Ty) (row n : Nat) : List FVal :=
  if t = .b4 then
    let scale := o.raw row 64 1
    (List.range n).map fun k => b4Value (o.raw row (k / 2) 1 / 16 ^ (k % 2) % 16) scale
  else (List.range n).map fun k => elemValue t (o.raw row (k * t.bytes) t.bytes)

/-- The OR of the tags of the sectors that hold elements 0 to n − 1 of a row, a scale byte's included. -/
def OSlot.rowTag (o : OSlot) (t : Ty) (row n : Nat) : Bool :=
  let secs := if t = .b4 then 2 :: List.range ((n + 63) / 64) else List.range ((n * t.bytes + 31) / 32)
  secs.any fun k => FMap.get false o.tags (4 * row + k)

def TileMode.width : TileMode → Nat
  | .f64 => 64
  | _ => 128

/-- The value of a tile element. -/
def TileMode.value (m : TileMode) (x : Word64) : FVal :=
  match m with
  | .f32 => FVal.decode Ty.f32.fmt x.toNat
  | .s32 => FVal.ofInt (Ty.s32.toInt x.toNat)
  | .f64 => FVal.decode Ty.f64.fmt x.toNat

/-- One accumulation (R91 to R93): the new element, and the tile flags it raises. -/
def accumulate (t : Ty) (prior : Nat) (xs ys : List FVal) : Nat × BitVec 6 :=
  let prods := (xs.zip ys).map fun p => p.1.mul p.2
  if t.isInt then
    let v := (prods.map (FVal.units 0)).foldl (· + ·) (Ty.s32.toInt prior)
    (Ty.s32.wrap v, if Ty.s32.intMin ≤ v && v ≤ Ty.s32.intMax then 0 else 32)
  else
    let acc : Ty := if t = .f64 then .f64 else .f32
    let old := FVal.decode acc.fmt prior
    if t = .f32 || t = .f64 then
      let node (x y : FVal) : FVal × Flags :=
        let r := roundTo acc .rn 0 (x.add y .rn)
        (FVal.decode acc.fmt r.1, r.2)
      let sum := reduce node (prods.map some)
      let r := roundTo acc .rn 0 (old.add (sum.1.getD (.fin false 0 0)) .rn)
      (r.1, tileFlags (sum.2 ||| r.2))
    else
      let r := roundTo acc .rn 0 (FVal.sum (old :: prods) .rn)
      (r.1, tileFlags r.2)

/-! MMA and MMAS. -/

/-- M, N and K of a shape (R226). -/
def shapeM (sub : Nat) : Nat := 8 * 2 ^ bits sub 4 3
def shapeN (sub : Nat) : Nat := 32 * 2 ^ bits sub 2 1
def shapeK (t : Ty) (sub : Nat) : Nat := if t = .b4 then 128 else 512 / t.width * 2 ^ bits sub 0 0

/-- The mode that an operand type needs (R226). -/
def mmaMode : Ty → TileMode
  | .f64 => .f64
  | .s8 | .n8 => .s32
  | _ => .f32

/-- What an operation multiplies: its operands as they stand at issue. `n` of 8 stored values for MMAS (R230). -/
structure Mma where
  t : Ty
  m : Nat
  n : Nat
  k : Nat
  d : Nat
  a : Nat
  b : Nat
  meta_ : Option Nat
  sparse : Nat
deriving DecidableEq, Repr

def Mma.of (f : RegForm) (c : Ctx) (sparse : Bool) : Mma :=
  let sub := f.sub.toNat
  { t := f.ty, m := shapeM sub, n := shapeN sub, k := shapeK f.ty sub, d := (c.uniform f.dst).1, a := (c.uniform f.a).1,
    b := (c.uniform f.b).1, meta_ := if sparse then some (c.uniform f.c).1 else none, sparse := 2 * bits sub 6 5 }

/-- A row range that leaves a slot or a tile, or a descriptor out of range (R218, R220, R226, R227, R229, R230): the
descriptor at fault for a quarter. -/
def Mma.bad (x : Mma) (g : Gang) (l : Launch) (q : Nat) : Option Nat :=
  let slotBad (n : Nat) : Bool := n ≥ l.lrec.slots || (g.slot n).isNone
  let tile := x.d % 16
  let west := bit x.b 5
  let dBad := bits x.d 63 13 ≠ 0 || tile ≥ l.lrec.tiles || (match g.tile tile with
    | none => true
    | some t => decide (t.mode ≠ mmaMode x.t) || 32 * bits x.d 12 11 + x.n > t.mode.width)
    || bits x.d 10 4 + q * x.m + x.m > 128
  let aBad := bits x.a 63 13 ≠ 0 || slotBad (x.a % 32) || bits x.a 12 5 + q * x.m + x.m > 256
  let bBad := bits x.b 63 14 ≠ 0 || slotBad (x.b % 32) || (if west then
      x.meta_.isSome || bits x.b 13 6 + x.k > 256 || x.n * x.t.width > 1024 || decide (x.t = .b4)
    else bits x.b 13 6 + x.n > 256)
  if dBad then some x.d
  else if aBad then some x.a
  else if bBad then some x.b
  else match x.meta_ with
    | none => none
    | some m => if bits m 63 13 ≠ 0 || slotBad (m % 32) || bits m 12 5 + q * x.m + x.m > 256 then some m else none

/-- The logical A row of MMAS: stored values spread by a mask byte for each group of eight (R230). -/
def spread (n : Nat) (masks : List Nat) (stored : List FVal) : List FVal :=
  (List.range masks.length).flatMap fun g =>
    let mask := (nth masks g).getD 0
    (List.range 8).map fun p =>
      let before := ((List.range p).filter fun r => bit mask r).length
      if bit mask p && before < n then (nth stored (n * g + before)).getD (.fin false 0 0) else .fin false 0 0

/-- The A operand of a slot row, with its tag and that of the metadata row that expands it, and no other row's (R100) [16]. -/
def Mma.aRow (x : Mma) (g : Gang) (row metaRow : Nat) : List FVal × Bool :=
  let o := (g.slot (x.a % 32)).getD {}
  match x.meta_ with
  | none => (o.elems x.t row x.k, o.rowTag x.t row x.k)
  | some m =>
    let ms := (g.slot (m % 32)).getD {}
    let stored := x.k / 8 * x.sparse
    (spread x.sparse ((List.range (x.k / 8)).map fun i => ms.raw metaRow i 1) (o.elems x.t row stored),
     o.rowTag x.t row stored || ms.rowTag .n8 metaRow (x.k / 8))

/-- The columns of the B operand and the OR of its sectors' tags (R229). -/
def Mma.cols (x : Mma) (g : Gang) : List (List FVal) × Bool :=
  let o := (g.slot (x.b % 32)).getD {}
  let row0 := bits x.b 13 6
  if bit x.b 5 then
    let rows := (List.range x.k).map fun k => o.elems x.t (row0 + k) x.n
    ((List.range x.n).map fun n => rows.map fun r => (nth r n).getD (.fin false 0 0),
     (List.range x.k).any fun k => o.rowTag x.t (row0 + k) x.n)
  else
    ((List.range x.n).map fun n => o.elems x.t (row0 + n) x.k, (List.range x.n).any fun n => o.rowTag x.t (row0 + n) x.k)

/-- One row of an operation (R228). -/
def Tile.mulRow (t : Tile) (ty : Ty) (row col0 : Nat) (a : List FVal) (cols : List (List FVal)) (tag : Bool) : Tile :=
  let t := (List.range cols.length).foldl (fun (t : Tile) n =>
    let key := 128 * row + col0 + n
    let r := accumulate ty (FMap.get 0 t.acc key).toNat a ((nth cols n).getD [])
    { t with acc := FMap.set 0 t.acc key (BitVec.ofNat 64 r.1), status := t.status ||| r.2 }) t
  { t with tags := FMap.set false t.tags row (FMap.get false t.tags row || tag) }

/-- One executing quarter (R228): `tag` is that of its operands, guard and taint. -/
def Mma.quarter (x : Mma) (g : Gang) (t : Tile) (q : Nat) (tag : Bool) : Tile :=
  let cols := x.cols g
  (List.range x.m).foldl (fun (t : Tile) i =>
    let m := q * x.m + i
    let a := x.aRow g (bits x.a 12 5 + m) (bits (x.meta_.getD 0) 12 5 + m)
    t.mulRow x.t (bits x.d 10 4 + m) (32 * bits x.d 12 11) a.1 cols.1 (tag || a.2 || cols.2)) t

/-- The quarters of ACTIVE (R32, R218), and the lanes of one. -/
def quarterLanes (m : Lanes) (q : Nat) : Lanes := m &&& BitVec.ofNat 32 (255 * 2 ^ (8 * q))
def quartersOf (m : Lanes) : List Nat := (List.range 4).filter fun q => quarterLanes m q ≠ 0

/-- Whether an earlier drain of the rows has not read its record yet, so that it may still clear them (R232). -/
def State.drainPending (s : State) (gi tile : Nat) : Bool :=
  s.ops.any fun o => o.gang == gi && o.tile == some tile && decide (o.phase ≠ .done) && o.record.isEmpty
    && (match o.instr with
      | .adrn _ => true
      | _ => false)

/-- MMA and MMAS (R226 to R230). -/
def multiply (i : Instr) (f : RegForm) (s : State) (sparse : Bool) : Result :=
  issue i s fun s c =>
    let x := Mma.of f c sparse
    let g := s.gangOf c
    let qs := quartersOf c.active
    let bad := qs.filter fun q => (x.bad g c.l q).isSome
    match bad with
    | q :: _ => .fault (slotFault (bad.foldl (fun m q => m ||| quarterLanes c.active q) 0) ((x.bad g c.l q).getD 0))
    | [] =>
      if s.drainPending c.gi (x.d % 16) then .wait
      else
        let operands := [f.dst, f.a, f.b] ++ if sparse then [f.c] else []
        let ptag := operands.any fun o => (c.uniform o).2
        let t := qs.foldl (fun t q =>
          x.quarter g t q (ptag || (quarterLanes c.active q).list.any fun j => c.forced c.w.c j)) ((g.tile (x.d % 16)).getD {})
        let slots := [x.a % 32, x.b % 32] ++ match x.meta_ with
          | some m => [m % 32]
          | none => []
        let ops := (List.range qs.length).map fun k => (⟨s.nextOp + k, c.gi, slots, some (x.d % 16)⟩ : MOp)
        if qs.isEmpty then c.done s c.w.c []
        else
          let s := s.setTile c.gi (x.d % 16) (some t)
          .done { s := { s with mops := s.mops ++ ops, nextOp := s.nextOp + qs.length } }

/-- R226 to R229. -/
def execMma (f : RegForm) (s : State) : Result := multiply (.mma f) f s false

/-- R230. -/
def execMmas (f : RegForm) (s : State) : Result := multiply (.mmas f) f s true

end Sys2Proof.Machine
end

