-- ==== Sys2Proof/Machine/Engine.lean ====
section
/-! DEFINITION. The issue of engine operations (R127 to R129, R218, R219, R223 to R225, R232 to R240): OLD, OST, ADRN, WUPD,
CPY, CPYR, ISECT, DCORM. What their threads do is in EngineThread. -/

namespace Sys2Proof.Machine

open Sys2Proof

/-! Accesses of an engine thread. -/

/-- What stops a thread: a page to wait for, or a fault with its address and page (R236). -/
inductive Halt
  | sleep (page : Nat) (reg : Option Nat) (addr : Nat)
  | fault (cls : FClass) (cause : Nat) (addr : Nat) (prop : Bool)
deriving DecidableEq, Repr

/-- An access of an operation's thread. -/
def State.threadAccess (s : State) (o : EOp) (sp : Space) (addr n : Nat) (write : Bool) : Access :=
  { part := s.partOf o.gang, launch := some o.launch, gang := some o.gang, group := o.group, space := sp, addr := addr,
    n := n, align := 1, write := write }

/-- Where a piece of a thread's access lies. -/
def State.threadPlace (s : State) (a : Access) (consumes : Bool) : Except Halt Place :=
  match s.place a with
  | .error (_, .sleep va reg) => .error (.sleep (va / 65536) reg va)
  | .error (_, .fault cls cause prop) => .error (.fault cls cause a.addr prop)
  | .ok q => if consumes && s.poisoned q then .error (.fault .bus 0 a.addr q.prop) else .ok q

/-- Addresses wrap at 64 bits; offsets into local memory do not reach that far. -/
def wrapAddr (a : Nat) : Nat := a % 2 ^ 64

/-- A base address of a space (R17, R219). -/
def spaceBase (sp : Space) (a : Word64) : Nat := if sp = .l then a.toNat % 2 ^ 32 else a.toNat

/-- Read n bytes as a thread: the bytes, and the OR of their sectors' tags. -/
def State.threadRead (s : State) (o : EOp) (sp : Space) (addr n : Nat) : Except Halt (List Byte × Bool) :=
  (pieces (n + 1) (wrapAddr addr) n).foldl (fun acc x => match acc with
    | .error e => .error e
    | .ok r => match s.threadPlace (s.threadAccess o sp x.1 x.2 false) true with
      | .error e => .error e
      | .ok q =>
        let b := s.loadAt q x.2
        .ok (r.1 ++ b.1, r.2 || b.2)) (.ok ([], false))

/-- Locate the pieces of a thread's writes: address, bytes, tag. -/
def State.threadWrites (s : State) (o : EOp) (sp : Space) (ws : List (Nat × List Byte × Bool)) : Except Halt (List Write) :=
  (ws.flatMap fun w => (pieces (w.2.1.length + 1) (wrapAddr w.1) w.2.1.length).map fun p =>
      (p.1, (w.2.1.drop (p.1 - wrapAddr w.1)).take p.2, w.2.2)).foldl (fun acc x => match acc with
    | .error e => .error e
    | .ok l => match s.threadPlace (s.threadAccess o sp x.1 x.2.1.length true) false with
      | .error e => .error e
      | .ok q => .ok (l ++ [(⟨q, x.2.1, x.2.2⟩ : Write)])) (.ok [])

/-! The epilogue record of ADRN (R233). -/

structure Epilogue where
  rscale : Nat
  cscale : Nat
  bias : Nat
  stride : Nat
  otype : Ty
  rnd : Rnd
  act : Nat
  clr : Bool
deriving DecidableEq, Repr

/-- The output types of a tile mode. -/
def TileMode.outputs : TileMode → List Ty
  | .f64 => [.f64, .f32]
  | _ => [.f32, .f16, .bf16, .e4m3, .e5m2, .s8, .n8, .s16, .n16, .s32]

/-- The record, or the class of the thread's fault and its address (R233). -/
def parseEpilogue (bs : List Byte) (mode : TileMode) : Except (FClass × Nat) Epilogue :=
  let n := Record.n bs
  let ctrl := n 0x1C 4
  let bias := n 0x10 8
  match Ty.ofCode (bits ctrl 15 12), Rnd.ofCode (bits ctrl 11 9) with
  | some t, some r =>
    if bits ctrl 31 16 ≠ 0 || bits ctrl 4 0 ≠ 0 || !allZero bs 0x20 32 || bits ctrl 8 6 > 3 || !mode.outputs.contains t then
      .error (.illegal, 0)
    else if n 0x18 4 % 16 ≠ 0 then .error (.align, 0)
    else if bias % (if mode = .f64 then 8 else 4) ≠ 0 then .error (.align, bias)
    else .ok ⟨n 0 8, n 8 8, bias, n 0x18 4, t, r, bits ctrl 8 6, bit ctrl 5⟩
  | _, _ => .error (.illegal, 0)

/-! Issue. -/

/-- The operation that an issue places in the launch queue, or forks where no checkpoint is open (R127). -/
def mkOp (i : Instr) (f : RegForm) (c : Ctx) : EOp :=
  let v (o : Operand) : Word64 := BitVec.ofNat 64 (c.uniform o).1
  { instr := i, gang := c.gi, warp := c.wi, launch := c.li, group := c.w.group, kind := c.w.kind, pc := c.pc,
    eqix := c.w.c.leqix, altpc := c.l.kern.altPc c.w.kind c.w.c.leqix, dst := v f.dst, a := v f.a, b := v f.b, c := v f.c,
    d := v f.d, tag := ([f.dst, f.a, f.b, f.c, f.d].any fun o => (c.uniform o).2) || c.forcedAny c.w.c
    paddr := operandTag i c 0, rngk := c.w.c.rngk, rngc := c.w.c.rngc
    phase := if c.w.ckpts.isEmpty then .running else .queued c.w.ckpts.length }

/-- Operations in a warp's launch queue (R127). -/
def State.queuedOps (s : State) (wi : Nat) : Nat :=
  (s.ops.filter fun o => o.warp == wi && match o.phase with
    | .queued _ => true
    | _ => false).length

/-- The completion object's checks at issue (R129). -/
def State.completionFault (s : State) (f : RegForm) (c : Ctx) : Option FaultInfo :=
  let x := c.uniform f.c
  if x.1 % 8 ≠ 0 then some (alignFault c x)
  else if bit f.sub.toNat 6 then none
  else
    let ro (prop : Bool) : Option FaultInfo :=
      some { cls := .readonly, lanes := c.active, addr := BitVec.ofNat 64 x.1, tags := x.2.toNat + 4 * prop.toNat }
    if s.touchesRo { c.access .g 8 8 true false with addr := x.1 } then ro false
    else match s.translate c.pi x.1 with
      | .ok _ e => if pteRo e then ro (pteProp e) else none
      | _ => none

/-- Issue an engine operation: `check` its operands, then let `start` place it. -/
def engine (i : Instr) (f : RegForm) (s : State) (check : State → Ctx → Option FaultInfo)
    (start : State → Ctx → EOp → Option (State × EOp)) : Result :=
  issue i s fun s c =>
    if c.active = 0 then c.done s c.w.c []
    else match check s c with
      | some x => .fault x
      | none => match s.completionFault f c with
        | some x => .fault x
        | none =>
          if s.queuedOps c.wi ≥ 8 then .wait
          else match start s c (mkOp i f c) with
            | none => .wait
            | some (s, o) => .done { s := { s with ops := s.ops ++ [o] } }

def startPlain (s : State) (_ : Ctx) (o : EOp) : Option (State × EOp) := some (s, o)

/-- The first of a list of checks that fails. -/
def firstFault (xs : List (Bool × FaultInfo)) : Option FaultInfo := (xs.find? (·.1)).map (·.2)

/-- The slot descriptor's check (R220, R223). -/
def slotDescBad (s : State) (c : Ctx) (d : Nat) : Bool :=
  bits d 63 22 ≠ 0 || bits d 21 13 = 0 || bits d 12 5 + bits d 21 13 > 256 || d % 32 ≥ c.l.lrec.slots
    || ((s.gangOf c).slot (d % 32)).isNone

/-- Bytes of an element of a row, B4 packed two to a byte taken as bytes (R222). -/
def elemBytes (t : Ty) : Nat := max t.bytes 1

/-- R223, R224. -/
def execOld (f : RegForm) (s : State) : Result :=
  engine (.old f) f s (fun s c =>
    let d := (c.uniform f.dst).1
    let a := c.uniform f.a
    let form := f.sub.toNat % 4
    let unit := if form % 2 = 0 then 16 else elemBytes f.ty
    let x := (c.uniform f.d).1
    firstFault [(slotDescBad s c d, slotFault c.active d),
      (form = 2 && bits d 21 13 % 8 ≠ 0, slotFault c.active d),
      (form = 2 && x ≥ 2 ^ 32, slotFault c.active x),
      (a.1 % unit ≠ 0, alignFault c a),
      (form < 2 && (c.uniform f.b).1 % unit ≠ 0, alignFault c a)]) startPlain

/-- R223, R224. -/
def execOst (f : RegForm) (s : State) : Result :=
  engine (.ost f) f s (fun s c =>
    let d := (c.uniform f.dst).1
    let a := c.uniform f.a
    firstFault [(slotDescBad s c d, slotFault c.active d),
      (a.1 % 16 ≠ 0 || (c.uniform f.b).1 % 16 ≠ 0, alignFault c a)]) startPlain

/-- The drain descriptor's check (R220, R232). -/
def drainDescBad (s : State) (c : Ctx) (d : Nat) : Bool :=
  bits d 63 19 ≠ 0 || bits d 18 11 = 0 || bits d 10 4 + bits d 18 11 > 128 || d % 16 ≥ c.l.lrec.tiles
    || ((s.gangOf c).tile (d % 16)).isNone

/-- The rows that a drain reads, with their tags (R232). -/
def Tile.snapshot (t : Tile) (row0 count : Nat) : List (List Word64 × Bool) :=
  (List.range count).map fun r =>
    ((List.range t.mode.width).map fun j => FMap.get 0 t.acc (128 * (row0 + r) + j), FMap.get false t.tags (row0 + r))

/-- Clear rows to +0, tagged S whatever the guard and the taint of the issue (R233) [14]. -/
def Tile.clearRows (t : Tile) (row0 count : Nat) : Tile :=
  { t with acc := FMap.outside t.acc (128 * row0) (128 * (row0 + count)), tags := FMap.outside t.tags row0 (row0 + count) }

/-- Clear the rows that an operation drains. -/
def State.clearDrained (s : State) (o : EOp) : State :=
  let d := o.dst.toNat
  match (nth s.gangs o.gang).bind fun g => g.tile (d % 16) with
  | none => s
  | some t => s.setTile o.gang (d % 16) (some (t.clearRows (bits d 10 4) (bits d 18 11)))

/-- The bytes that a thread reads, each with its sector's tag. -/
def State.readRecord (s : State) (o : EOp) (sp : Space) (addr n : Nat) : Except Halt (List (Byte × Bool)) :=
  (List.range ((n + 15) / 16)).foldl (fun acc k => match acc with
    | .error e => .error e
    | .ok l => match s.threadRead o sp (addr + 16 * k) (min 16 (n - 16 * k)) with
      | .error e => .error e
      | .ok r => .ok (l ++ r.1.map fun b => (b, r.2))) (.ok [])

/-- A drain accepted by the matrix unit: the rows as they stand; the record, where it can be read at once, with the
clear that it asks for (R232, R233) [20]. -/
def startDrain (sp : Space) (s : State) (c : Ctx) (o : EOp) : Option (State × EOp) :=
  let d := o.dst.toNat
  let t := ((s.gangOf c).tile (d % 16)).getD {}
  if s.drainPending c.gi (d % 16) then none
  else
    let o := { o with rows := t.snapshot (bits d 10 4) (bits d 18 11) }
    match s.readRecord o sp (spaceBase sp o.b) 64 with
    | .error _ => some (s, o)
    | .ok r =>
      let o := { o with record := r }
      match parseEpilogue (r.map (·.1)) t.mode with
      | .ok e => some (if e.clr then s.clearDrained o else s, o)
      | .error _ => some (s, o)

/-- R232 to R234. -/
def execAdrn (f : RegForm) (s : State) : Result :=
  engine (.adrn f) f s (fun s c =>
    let d := (c.uniform f.dst).1
    firstFault [(drainDescBad s c d, slotFault c.active d), ((c.uniform f.b).1 % 64 ≠ 0, alignFault c (c.uniform f.b)),
      ((c.uniform f.a).1 % 16 ≠ 0, alignFault c (c.uniform f.a))]) (startDrain f.space)

/-- R232, R235. R235 requires an F64 tile for F64 weights and names no fault; one in another mode raises SLOT at issue with the drain
descriptor [15]. -/
def execWupd (f : RegForm) (s : State) : Result :=
  engine (.wupd f) f s (fun s c =>
    let d := (c.uniform f.dst).1
    let a := c.uniform f.a
    let mode := (((s.gangOf c).tile (d % 16)).getD {}).mode
    firstFault [(drainDescBad s c d, slotFault c.active d),
      (decide (f.ty = .f64) && decide (mode ≠ .f64), slotFault c.active d),
      (a.1 % 16 ≠ 0 || bits (c.uniform f.b).1 63 32 % 16 ≠ 0, alignFault c a)])
    fun s c o =>
      let d := o.dst.toNat
      if s.drainPending c.gi (d % 16) then none
      else
        let t := ((s.gangOf c).tile (d % 16)).getD {}
        let o := { o with rows := t.snapshot (bits d 10 4) (bits d 18 11) }
        some (if bit f.sub.toNat 0 then s.clearDrained o else s, o)

/-- R237. -/
def execCpy (f : RegForm) (s : State) : Result :=
  engine (.cpy f) f s (fun _ c =>
    let n := (c.uniform f.d).1
    let a := c.uniform f.a
    let b := c.uniform f.b
    firstFault [(a.1 % 16 ≠ 0, alignFault c a), (b.1 % 16 ≠ 0, alignFault c b),
      (n % 16 ≠ 0 || n ≥ 2 ^ 48, alignFault c a)]) startPlain

/-- R238. -/
def execCpyr (f : RegForm) (s : State) : Result :=
  engine (.cpyr f) f s (fun _ c =>
    let n := (c.uniform f.d).1
    let a := c.uniform f.a
    let b := c.uniform f.b
    firstFault [(bits n 31 12 ≠ 0, slotFault c.active n), (a.1 % 16 ≠ 0, alignFault c a),
      (b.1 % 16 ≠ 0, alignFault c b)]) startPlain

/-- R239. -/
def execIsect (f : RegForm) (s : State) : Result :=
  engine (.isect f) f s (fun _ c => firstFault [((c.uniform f.b).1 % 64 ≠ 0, alignFault c (c.uniform f.b))]) startPlain

/-- R112, R240. -/
def execDcorm (f : RegForm) (s : State) : Result :=
  engine (.dcorm f) f s (fun _ c =>
    firstFault [((c.uniform f.b).1 % 64 ≠ 0, alignFault c (c.uniform f.b)),
      ((c.uniform f.c).1 % 32 ≠ 0, alignFault c (c.uniform f.c))]) startPlain

end Sys2Proof.Machine
end

