-- ==== Sys2Proof/Machine/EngineThread.lean ====
section
/-! DEFINITION. What the threads of engine operations do (R113, R114, R224, R232 to R241): one unit of an operation, an
operation up to a number of units, and the rise of its completion object (R129). A unit is the 4 KiB of slot rows, of
destination or of stream reads, or the row, that R241 names. -/

namespace Sys2Proof.Machine

open Sys2Proof

/-- A thread at work. -/
structure Thread where
  s : State
  o : EOp
  halt : Option Halt := none
deriving DecidableEq, Repr

def Thread.stop (t : Thread) (h : Halt) : Thread := { t with halt := some h }

/-- Keep the lines of an access in the core's L1 where the operation's hint asks for it (R124, R154). An engine operation has no read
count: of the hints only keep has an effect here. -/
def Thread.keep (t : Thread) (sp : Space) (addr n : Nat) (write : Bool) : Thread :=
  match (hdrOf t.o.instr).hint, nth t.s.warps t.o.warp with
  | .keep, some w =>
    let lines := (pieces (n + 1) (wrapAddr addr) n).flatMap fun x => match t.s.place (t.s.threadAccess t.o sp x.1 x.2 write) with
      | .ok q => q.lines.take 1
      | .error _ => []
    { t with s := { t.s with marks := keepLines t.s.marks (t.s.coreOf w) lines.dedup .keep 0 } }
  | _, _ => t

/-- Read, then go on. -/
def Thread.read (t : Thread) (sp : Space) (addr n : Nat) (k : Thread → List Byte → Bool → Thread) : Thread :=
  match t.s.threadRead t.o sp addr n with
  | .ok r => k (t.keep sp addr n false) r.1 r.2
  | .error h => t.stop h

/-- Read a list of (address, bytes), then go on. -/
def Thread.readAll (t : Thread) (sp : Space) (reqs : List (Nat × Nat)) (k : Thread → List (Nat × Bool) → Thread) : Thread :=
  match reqs.foldl (fun (acc : Except Halt (List (Nat × Bool))) x => match acc with
    | .error e => .error e
    | .ok l => match t.s.threadRead t.o sp x.1 x.2 with
      | .error e => .error e
      | .ok r => .ok ((leNat r.1, r.2) :: l)) (.ok []) with
  | .ok l => k (reqs.foldl (fun t x => t.keep sp x.1 x.2 false) t) l.reverse
  | .error h => t.stop h

/-- Perform each of a list in turn until one stops the thread. -/
def Thread.each {α : Type} (t : Thread) (xs : List α) (f : Thread → α → Thread) : Thread :=
  xs.foldl (fun t x => if t.halt.isSome then t else f t x) t

/-- What an operation has written of a sector so far: bytes covered, and whether all of them S. -/
def EOp.written (o : EOp) (sec : Loc) : Nat × Bool :=
  match o.sectors.find? fun x => x.1 = sec with
  | some x => x.2
  | none => (0, true)

/-- Whether a sector is among those of some bytes that an operation has still to write: address and length. -/
def Thread.returnsTo (t : Thread) (sp : Space) (sec : Loc) (later : List (Nat × Nat)) : Bool :=
  later.any fun x => (pieces (x.2 + 1) (wrapAddr x.1) x.2).any fun y =>
    match t.s.place (t.s.threadAccess t.o sp y.1 y.2 true) with
    | .ok q => q.sector = sec
    | .error _ => false

/-- The tag of a sector after some of an operation's writes to it, all of them one access: S no earlier than its last write, `later`
being what the operation's later rows write (R101). -/
def Thread.tagSector (t : Thread) (sp : Space) (later : List (Nat × Nat)) (sec : Loc) (ws : List Write) : Thread :=
  match ws.filter fun w => w.place.sector = sec with
  | [] => t
  | w :: rest =>
    let here := w :: rest
    let old := t.o.written sec
    let cover := here.foldl (fun a w => a ||| w.cover) old.1
    let allS := old.2 && !here.any (·.tag)
    let tag := if here.any (·.tag) then true
      else if cover = 2 ^ 32 - 1 && allS && !t.returnsTo sp sec later then false else t.s.tagAt w.place
    { t with s := (t.s.setTag w.place tag).shadowConflict none w.place
             o := { t.o with sectors := (sec, cover, allS) :: t.o.sectors.filter fun x => x.1 ≠ sec } }

/-- Write a list of (address, bytes, tag), before later rows that write some bytes. -/
def Thread.write (t : Thread) (sp : Space) (ws : List (Nat × List Byte × Bool)) (later : List (Nat × Nat) := []) : Thread :=
  match t.s.threadWrites t.o sp ws with
  | .error h => t.stop h
  | .ok l =>
    let t := ws.foldl (fun (t : Thread) w => t.keep sp w.1 w.2.1.length true) t
    let s := l.foldl (fun s w => (s.putBytes w.place w.data).conflict none w.place) t.s
    let s := s.reportErrors ((nth s.gangs t.o.gang).map (·.die) |>.getD 0) l
    ((l.map fun w => w.place.sector).dedup).foldl (fun t sec => t.tagSector sp later sec l) { t with s := s }

/-- Change a slot of the operation's gang. -/
def Thread.modSlot (t : Thread) (f : OSlot → OSlot) : Thread :=
  let n := t.o.dst.toNat % 32
  match (nth t.s.gangs t.o.gang).bind fun g => g.slot n with
  | some x => { t with s := t.s.setSlot t.o.gang n (some (f x)) }
  | none => t

/-- Raise status flags of the drained tile (R231). -/
def Thread.tileStatus (t : Thread) (m : BitVec 6) : Thread :=
  let n := t.o.dst.toNat % 16
  match (nth t.s.gangs t.o.gang).bind fun g => g.tile n with
  | some x => { t with s := t.s.setTile t.o.gang n (some { x with status := x.status ||| m }) }
  | none => t

/-- Fill one sector of a slot row. -/
def OSlot.fill (o : OSlot) (row sec : Nat) (data : List Byte) (tag : Bool) : OSlot :=
  { data := FMap.setN 0 o.data (128 * row + 32 * sec) data, tags := FMap.set false o.tags (4 * row + sec) tag }

/-- Fill a row from elements of e bytes in order, each with the tag of the sector that supplies it. -/
def Thread.fillRow (t : Thread) (row e : Nat) (xs : List (Nat × Bool)) : Thread :=
  let per := 32 / e
  (List.range 4).foldl (fun t k =>
    let here := (xs.drop (k * per)).take per
    t.modSlot fun o => o.fill row k (here.flatMap fun x => leBytes e x.1) (t.o.tag || here.any (·.2))) t

/-! OLD and OST (R224). -/

def popCount (x n : Nat) : Nat := ((List.range n).filter fun j => bit x j).length

/-- Row r of an OLD; for `.bmp` the operation's record holds the bitmap. -/
def Thread.oldRow (t : Thread) (f : RegForm) (r : Nat) : Thread :=
  let o := t.o
  let row := bits o.dst.toNat 12 5 + r
  let src := spaceBase f.space o.a
  let e := elemBytes f.ty
  let E := 128 / e
  match f.sub.toNat % 4 with
  | 0 => t.readAll f.space ((List.range 8).map fun i => (src + r * o.b.toNat + 16 * i, 16)) fun t xs => t.fillRow row 16 xs
  | 1 => t.readAll f.space ((List.range E).map fun k => (src + k * o.b.toNat + r * e, e)) fun t xs => t.fillRow row e xs
  | 2 =>
    if bit o.d.toNat (r / 8) then
      t.readAll f.space ((List.range 8).map fun i =>
        (src + 1024 * popCount o.d.toNat (r / 8) + 128 * (r % 8) + 16 * i, 16)) fun t xs => t.fillRow row 16 xs
    else t.fillRow row 16 (List.replicate 8 (0, false))
  | _ =>
    let byte (p : Nat) : Byte × Bool := (nth o.record (p / 8)).getD (0, false)
    let set (p : Nat) : Bool := (byte p).1.getLsbD (p % 8)
    let first := r * E
    let before := ((List.range first).filter set).length
    let here := (List.range E).map fun k => first + k
    let reqs := (List.range E).filterMap fun k =>
      if set (first + k) then some (src + e * (before + ((List.range k).filter fun j => set (first + j)).length), e) else none
    t.readAll f.space reqs fun t xs =>
      let vals := here.foldl (fun (acc : List (Nat × Bool) × List (Nat × Bool)) p =>
        if set p then match acc.2 with
          | x :: rest => ((x.1, x.2 || (byte p).2) :: acc.1, rest)
          | [] => (acc.1, [])
        else ((0, (byte p).2) :: acc.1, acc.2)) ([], xs)
      t.fillRow row e vals.1.reverse

/-- The bitmap of a `.bmp` is read once, with each unit the bytes for its slot rows, those below `rows` (R224, R241). -/
def Thread.withBitmap (t : Thread) (f : RegForm) (rows : Nat) (k : Thread → Thread) : Thread :=
  if f.sub.toNat % 4 = 3 then
    let have_ := t.o.record.length
    let n := rows * (128 / elemBytes f.ty)
    match (List.range ((n + 7) / 8 - have_)).foldl (fun (acc : Except Halt (List (Byte × Bool))) j => match acc with
      | .error e => .error e
      | .ok l => match t.s.threadRead t.o f.space (spaceBase f.space t.o.d + have_ + j) 1 with
        | .error e => .error e
        | .ok r => .ok ((r.1.headD 0, r.2) :: l)) (.ok []) with
    | .error h => t.stop h
    | .ok l => k { t with o := { t.o with record := t.o.record ++ l.reverse } }
  else k t

/-- The bytes that rows after r of `count` write, each row `stride` after the one before and of n bytes. -/
def laterRows (base stride n r count : Nat) : List (Nat × Nat) :=
  (List.range (count - (r + 1))).map fun i => (base + (r + 1 + i) * stride, n)

/-- Row r of an OST. -/
def Thread.ostRow (t : Thread) (f : RegForm) (r : Nat) : Thread :=
  let row := bits t.o.dst.toNat 12 5 + r
  let x := ((nth t.s.gangs t.o.gang).bind fun g => g.slot (t.o.dst.toNat % 32)).getD {}
  t.write f.space ((List.range 8).map fun i =>
    (spaceBase f.space t.o.a + r * t.o.b.toNat + 16 * i, FMap.getN 0 x.data (128 * row + 16 * i) 16,
     t.o.tag || FMap.get false x.tags (4 * row + i / 2)))
    (laterRows (spaceBase f.space t.o.a) t.o.b.toNat 128 r (bits t.o.dst.toNat 21 13))

/-! ADRN and WUPD (R233 to R235). -/

/-- The activation of the epilogue on an exact value. -/
def activation (act : Nat) (v : FVal) : FVal :=
  if v.isNan then v
  else match act with
    | 1 => if v.sign then .fin false 0 0 else v
    | 2 => if v.lt (.fin false 0 0) then v.scale (-3) else v
    | 3 => if v.lt (.fin true 1 0) then .fin true 1 0 else if (FVal.fin false 1 0).lt v then .fin false 1 0 else v
    | _ => v

/-- Round to any output type, with UZ for a nonzero value that a narrow format turns into zero (R77, R78, R231). -/
def roundOut (t : Ty) (rnd : Rnd) (draw : Nat) (v : FVal) : Nat × Flags :=
  if t.isInt then toIntSat t rnd draw v
  else
    let r := roundTo t rnd draw v
    (r.1, r.2 ||| Flags.on (t.narrow && v.isFin && !v.isZero && r.1 % 2 ^ (t.width - 1) == 0) fUZ)

/-- One element of ADRN (R234). -/
def epilogueOf (e : Epilogue) (draw : Nat) (v : FVal) (exponent : Int) (bias : Option FVal) : Nat × Flags :=
  if v.isNan then (if e.otype.isInt then (0, fNV) else (e.otype.fmt.nan, 0))
  else
    let v := v.scale exponent
    let v := match bias with
      | some b => v.add b e.rnd
      | none => v
    roundOut e.otype e.rnd draw (activation e.act v)

/-- The draw of an element of a drained row (R234). -/
def EOp.drawOf (o : EOp) (rnd : Rnd) (i s : Nat) : Nat := if rnd = .sr then drawAt o.rngk o.rngc i s else 0

/-- Requests for an array of n values of z bytes, or none where it is absent. -/
def arrayReqs (base z n : Nat) : List (Nat × Nat) := if base = 0 then [] else (List.range n).map fun i => (base + z * i, z)

/-- Row r of an ADRN whose record has been read. -/
def Thread.adrnRow (t : Thread) (f : RegForm) (mode : TileMode) (e : Epilogue) (r : Nat) : Thread :=
  let row := (nth t.o.rows r).getD ([], false)
  let w := row.1.length
  let z := if mode = .f64 then 8 else 4
  let acc : Ty := if mode = .f64 then .f64 else .f32
  t.readAll f.space (arrayReqs (if e.rscale = 0 then 0 else e.rscale + r) 1 1) fun t rs =>
    t.readAll f.space (arrayReqs e.cscale 1 w) fun t cs =>
      t.readAll f.space (arrayReqs e.bias z w) fun t bs =>
        let row0 := bits t.o.dst.toNat 10 4 + r
        let base := t.o.tag || t.o.record.any (·.2) || e.otype.narrow || decide (e.rnd = .sr) || row.2 || rs.any (·.2)
        let rexp := match rs with
          | x :: _ => Ty.s8.toInt x.1
          | [] => 0
        let outs := (List.range w).map fun j =>
          let c := (nth cs j).getD (0, false)
          let b := nth bs j
          let v := epilogueOf e (t.o.drawOf e.rnd 32 (128 * row0 + j)) (mode.value ((nth row.1 j).getD 0))
            (rexp + Ty.s8.toInt c.1) (b.map fun x => FVal.decode acc.fmt x.1)
          (v, base || c.2 || b.any (·.2))
        let dst := spaceBase f.space t.o.a + r * e.stride
        let t := t.write f.space ((List.range w).map fun j =>
          let x := (nth outs j).getD ((0, 0), false)
          (dst + j * e.otype.bytes, leBytes e.otype.bytes x.1.1, x.2))
          (laterRows (spaceBase f.space t.o.a) e.stride (w * e.otype.bytes) r (bits t.o.dst.toNat 18 11))
        if t.halt.isSome then t else t.tileStatus (tileFlags (outs.foldl (fun m x => m ||| x.1.2) 0))

/-- The mode of the drained tile. -/
def Thread.mode (t : Thread) : TileMode :=
  (((nth t.s.gangs t.o.gang).bind fun g => g.tile (t.o.dst.toNat % 16)).getD {}).mode

/-- The record of an ADRN, read once, with the clear that it asks for (R233). -/
def Thread.withEpilogue (t : Thread) (f : RegForm) (k : Thread → Epilogue → Thread) : Thread :=
  let go (t : Thread) (fresh : Bool) : Thread :=
    match parseEpilogue (t.o.record.map (·.1)) t.mode with
    | .error (cls, addr) => t.stop (.fault cls 0 addr false)
    | .ok e => k (if fresh && e.clr then { t with s := t.s.clearDrained t.o } else t) e
  if t.o.record.isEmpty then
    match t.s.readRecord t.o f.space (spaceBase f.space t.o.b) 64 with
    | .error h => t.stop h
    | .ok r => go { t with o := { t.o with record := r } } true
  else go t false

/-- Row r of a WUPD: each 16-byte granule of weights is read and written adjacently (R235). -/
def Thread.wupdRow (t : Thread) (f : RegForm) (r : Nat) : Thread :=
  let row := (nth t.o.rows r).getD ([], false)
  let z := f.ty.bytes
  let alpha := FVal.decode Ty.f32.fmt (bits t.o.b.toNat 31 0)
  let base := spaceBase f.space t.o.a + r * bits t.o.b.toNat 63 32
  let row0 := bits t.o.dst.toNat 10 4 + r
  let mode := t.mode
  t.each (List.range (row.1.length * z / 16)) fun t g =>
    t.read f.space (base + 16 * g) 16 fun t bs tag =>
      let outs := (List.range (16 / z)).map fun i =>
        let j := g * (16 / z) + i
        let old := FVal.decode f.ty.fmt (Record.n bs (z * i) z)
        roundOut f.ty f.rnd (t.o.drawOf f.rnd 32 (128 * row0 + j))
          (old.add (alpha.mul (mode.value ((nth row.1 j).getD 0))) f.rnd)
      let t := t.write f.space [(base + 16 * g, outs.flatMap fun x => leBytes z x.1,
        tag || t.o.tag || row.2 || narrowP f.ty f.rnd)]
        (laterRows (spaceBase f.space t.o.a) (bits t.o.b.toNat 63 32) (row.1.length * z) r (bits t.o.dst.toNat 18 11))
      if t.halt.isSome then t else t.tileStatus (tileFlags (outs.foldl (fun m x => m ||| x.2) 0))

/-! CPY and CPYR (R237, R238). -/

/-- The offsets of a unit of 4 KiB of destination. -/
def destUnit (dst step total k : Nat) : List Nat :=
  let lo := if k = 0 then 0 else (dst / 4096 + k) * 4096 - dst
  let hi := min total ((dst / 4096 + k + 1) * 4096 - dst)
  (List.range ((hi - lo) / step)).map fun i => lo + i * step

def sourceSpace (f : RegForm) : Space := if bit f.sub.toNat 0 then .l else .g

def Thread.cpyUnit (t : Thread) (f : RegForm) (k : Nat) : Thread :=
  let dst := spaceBase f.space t.o.a
  t.each (destUnit dst 16 t.o.d.toNat k) fun t off =>
    t.read (sourceSpace f) (spaceBase (sourceSpace f) t.o.b + off) 16 fun t bs tag =>
      t.write f.space [(dst + off, bs, tag || t.o.tag)]

/-- The reduction of one element over its sources: encoding in TYPE (R238). -/
def cpyrOf (t : Ty) (op : Nat) (rnd : Rnd) (draw : Nat) (xs : List Nat) : Nat :=
  if t.isInt then
    ((reduce (fun x y => (match op with
      | 0 => t.wrap (t.toInt x + t.toInt y)
      | 1 => t.wrap (min (t.toInt x) (t.toInt y))
      | _ => t.wrap (max (t.toInt x) (t.toInt y)), (0 : Flags))) (xs.map some)).1).getD 0
  else
    let acc : Ty := if t = .f64 then .f64 else .f32
    let node (x y : Nat) : Nat × Flags :=
      if op = 0 then roundTo acc .rn 0 ((FVal.decode acc.fmt x).add (FVal.decode acc.fmt y) .rn)
      else fMinMax acc (op == 2) x y
    let wide := xs.map fun x => (roundTo acc .rn 0 (FVal.decode t.fmt x)).1
    (roundTo t rnd draw (FVal.decode acc.fmt (((reduce node (wide.map some)).1).getD 0))).1

def Thread.cpyrUnit (t : Thread) (f : RegForm) (k : Nat) : Thread :=
  let z := f.ty.bytes
  let n := bits t.o.d.toNat 11 0 + 1
  let count := bits t.o.d.toNat 63 32
  let stride := (count * z + 15) / 16 * 16
  let dst := spaceBase f.space t.o.a
  let src := spaceBase (sourceSpace f) t.o.b
  t.each (destUnit dst z (count * z) k) fun t off =>
    t.readAll (sourceSpace f) ((List.range n).map fun j => (src + j * stride + off, z)) fun t xs =>
      let v := cpyrOf f.ty (bits f.sub.toNat 2 1) f.rnd (t.o.drawOf f.rnd 32 (off / z)) (xs.map (·.1))
      t.write f.space [(dst + off, leBytes z v, t.o.tag || xs.any (·.2) || narrowP f.ty f.rnd)]

/-! ISECT (R239). -/

structure IsectRec where
  x : Nat
  y : Nat
  nx : Nat
  ny : Nat
  out : Nat
  maxOut : Nat
  z : Nat
deriving DecidableEq, Repr

def parseIsect (bs : List Byte) : Except (FClass × Nat) IsectRec :=
  let n := Record.n bs
  let ctrl := n 0x24 4
  let z := if bit ctrl 0 then 8 else 4
  if bits ctrl 31 1 ≠ 0 || n 0x28 8 ≠ 0 || n 0x38 8 ≠ 0 then .error (.illegal, 0)
  else if n 0 8 % z ≠ 0 then .error (.align, n 0 8)
  else if n 8 8 % z ≠ 0 then .error (.align, n 8 8)
  else if n 0x18 8 % 8 ≠ 0 then .error (.align, n 0x18 8)
  else .ok ⟨n 0 8, n 8 8, n 0x10 4, n 0x14 4, n 0x18 8, n 0x20 4, z⟩

/-- The merge, until it has passed so many elements of the streams or one of them ends, in at most so many comparisons: an element
counts once, when the merge has done with it [20]. -/
def Thread.isectFrom (r : IsectRec) (bound : Nat) : Nat → Thread → Thread
  | 0, t => t
  | left + 1, t =>
    if t.halt.isSome || t.o.i ≥ r.nx || t.o.j ≥ r.ny || bound ≤ t.o.i + t.o.j then t
    else
      let t' := t.readAll .g [(r.x + r.z * t.o.i, r.z), (r.y + r.z * t.o.j, r.z)] fun t xs =>
        let a := (nth xs 0).getD (0, false)
        let b := (nth xs 1).getD (0, false)
        let t := { t with o := { t.o with streamTag := t.o.streamTag || a.2 || b.2 } }
        if a.1 < b.1 then { t with o := { t.o with i := t.o.i + 1 } }
        else if a.1 > b.1 then { t with o := { t.o with j := t.o.j + 1 } }
        else
          let w := if t.o.k < r.maxOut then
              t.write .g [(r.out + 8 * t.o.k, leBytes 4 t.o.i ++ leBytes 4 t.o.j, a.2 || b.2 || t.o.tag)]
            else t
          if w.halt.isSome then w
          else { w with o := { w.o with k := w.o.k + 1, i := w.o.i + 1, j := w.o.j + 1 } }
      Thread.isectFrom r bound left t'

def Thread.isectUnit (t : Thread) : Thread × Bool :=
  let go (t : Thread) : Thread × Bool :=
    match parseIsect (t.o.record.map (·.1)) with
    | .error (cls, addr) => (t.stop (.fault cls 0 addr false), false)
    | .ok r =>
      let per := 4096 / r.z
      let t := t.isectFrom r ((t.o.units + 1) * per) per
      if t.halt.isSome then (t, false)
      else if t.o.i ≥ r.nx || t.o.j ≥ r.ny then
        (t.write .g [(t.o.b.toNat + 0x30, leBytes 8 t.o.k, t.o.streamTag || t.o.tag)], true)
      else (t, false)
  if t.o.record.isEmpty then match t.s.readRecord t.o .g t.o.b.toNat 64 with
    | .error h => (t.stop h, false)
    | .ok r => go { t with o := { t.o with record := r } }
  else go t

/-! DCORM (R112, R113, R240). -/

structure DcormDesc where
  a : Nat
  b : Nat
  x : Nat
  m : Nat
  n : Nat
  lda : Nat
  ldm : Nat
  tol : Nat
  mscale : Nat
deriving DecidableEq, Repr

def parseDcorm (bs : List Byte) (t : Ty) : Except (FClass × Nat) DcormDesc :=
  let n := Record.n bs
  let size := n 0x20 4
  let ctrl := n 0x2C 4
  if size = 0 || size > 16384 || n 0x24 4 < size || n 0x28 4 < size || (decide (t = .b4) && n 0x28 4 % 128 ≠ 0)
      || bits ctrl 31 6 ≠ 0 || n 0x38 8 ≠ 0 || (decide (t ≠ .b4) && n 0x30 8 ≠ 0) then .error (.illegal, 0)
  else if n 0 8 % 8 ≠ 0 then .error (.align, n 0 8)
  else if n 8 8 % 8 ≠ 0 then .error (.align, n 8 8)
  else if n 0x10 8 % 32 ≠ 0 then .error (.align, n 0x10 8)
  else if n 0x18 8 % elemBytes t ≠ 0 then .error (.align, n 0x18 8)
  else .ok ⟨n 0 8, n 8 8, n 0x10 8, n 0x18 8, size, n 0x24 4, n 0x28 4, bits ctrl 5 0, n 0x30 8⟩

def f64Of (x : Nat) : FVal := FVal.decode Ty.f64.fmt x

/-- Reduce128: a 128-bit significand at every node (R113). -/
def reduce128 (xs : List FVal) : FVal :=
  ((reduce (fun x y => ((x.add y .rn).roundSig 128, (0 : Flags))) (xs.map some)).1).getD (.fin false 0 0)

/-- A residual and its bound, from a row of A, x and an element of b. -/
def residualOf (row xs : List FVal) (b : FVal) : Nat × Nat :=
  let p := (row.zip xs).map fun y => y.1.mul y.2
  ((roundTo .f64 .rn 0 (reduce128 ((p.map FVal.neg) ++ [b]))).1, (roundTo .f64 .rd 0 (reduce128 ((p.map FVal.abs) ++ [b.abs]))).1)

/-- The record's DSTAT and PNORM as the call began, kept after the descriptor. -/
def EOp.dstat (o : EOp) : Nat := Record.n (o.record.map (·.1)) 64 4
def EOp.pnorm (o : EOp) : Nat := Record.n (o.record.map (·.1)) 68 8

/-- What a call decides after its residuals (R113): correct, settle or neither; DSTAT; PNORM. -/
structure Verdict where
  correct : Bool
  settle : Bool
  dstat : Nat
  pnorm : Nat
  refused : Bool
deriving DecidableEq, Repr

def verdictOf (o : EOp) (pctl : Nat) (tol : Nat) (rs : List (List Word64 × Bool)) : Verdict :=
  let at_ (x : List Word64 × Bool) (k : Nat) : Nat := ((nth x.1 k).getD 0).toNat
  let r := rs.map fun x => f64Of (at_ x 0)
  let bd := rs.map fun x => f64Of (at_ x 1)
  let old := o.dstat
  let fen := bits old 11 11
  let pv := bits old 10 10
  let stalls := bits old 7 4
  let word (st pv stalls : Nat) : Nat := st + 16 * stalls + 1024 * pv + 2048 * fen
  let finite := r.all FVal.isFin
  let nu := if finite then (rs.map fun x => at_ x 0 % 2 ^ 63).foldl max 0 else Ty.f64.fmt.inf
  let small := (r.zip bd).all fun y => !y.1.isNan && !y.2.isNan && y.1.abs.le (y.2.scale (-(tol : Int)))
  if rs.any (·.2) then ⟨true, false, word 5 pv stalls, o.pnorm, false⟩
  else if small then ⟨false, true, word 1 1 0, nu, false⟩
  else if pv = 1 && ((FVal.fin false (bits pctl 9 2) (-8)).mul (f64Of o.pnorm)).lt (f64Of nu)
      && !(f64Of o.pnorm).isNan then
    let st := min (stalls + 1) 15
    if st ≥ bits pctl 13 10 then ⟨false, false, word 4 pv st, o.pnorm, true⟩ else ⟨true, false, word 3 pv st, nu, false⟩
  else ⟨true, false, word 2 1 0, nu, false⟩

/-- The read requests of row i of M, and its values (R79, R240). -/
def mReqs (d : DcormDesc) (t : Ty) (i : Nat) : List (Nat × Nat) :=
  (List.range d.n).map fun j =>
    let e := i * d.ldm + j
    if t = .b4 then (d.m + e / 2, 1) else (d.m + t.bytes * e, t.bytes)

def mValues (d : DcormDesc) (t : Ty) (i : Nat) (xs scales : List Nat) : List FVal :=
  (List.range d.n).map fun j =>
    let e := i * d.ldm + j
    let raw := (nth xs j).getD 0
    if t = .b4 then b4Value (raw / 16 ^ (e % 2) % 16) ((nth scales j).getD 0) else elemValue t raw

/-- The corrected element x + (M·r) of a row, a product as R93 forms it. -/
def correctedOf (x : FVal) (m r : List FVal) : Nat :=
  let node (a b : FVal) : FVal × Flags := (f64Of (roundTo .f64 .rn 0 (a.add b .rn)).1, 0)
  let p := (m.zip r).map fun y => y.1.mul y.2
  (roundTo .f64 .rn 0 (x.add (((reduce node (p.map some)).1).getD (.fin false 0 0)) .rn)).1

def recSpace (f : RegForm) : Space := if bit f.sub.toNat 6 then .l else .g

/-- Write DSTAT and PNORM, before COUNT rises (R112): P where an operand of the call or a sector of x, A or b, of the descriptor or of
the record as it stood is, since both come from them (R96). -/
def Thread.writeRecord (t : Thread) (f : RegForm) (v : Verdict) : Thread :=
  let c := spaceBase (recSpace f) t.o.c
  let tag := t.o.tag || t.o.rows.any (·.2) || t.o.record.any (·.2)
  let t := t.write (recSpace f) [(c + 8, leBytes 8 v.dstat, tag), (c + 16, leBytes 8 v.pnorm ++ leBytes 8 0, tag)]
  { t with o := { t.o with dcor := v.refused && bits v.dstat 11 11 == 1 } }

def Thread.dcormFrom (t : Thread) (f : RegForm) (pctl : Nat) (d : DcormDesc) : Thread × Bool :=
  let sectors := (d.n + 3) / 4
  match t.o.rows with
  | [] =>
    -- the call begins: a refused record stays so, else x is read as whole sectors
    if bits t.o.dstat 3 0 = 4 then ({ t with o := { t.o with dcor := bits t.o.dstat 11 11 == 1 } }, true)
    else (t.readAll .g ((List.range (4 * sectors)).map fun j => (d.x + 8 * j, 8)) fun t xs =>
      { t with o := { t.o with rows := [(xs.map fun x => BitVec.ofNat 64 x.1, xs.any (·.2))] } }, false)
  | xrow :: rs =>
    let xs := (xrow.1.take d.n).map fun x => f64Of x.toNat
    if rs.length < d.n then
      let i := rs.length
      (t.readAll .g ((List.range d.n).map fun j => (d.a + 8 * (i * d.lda + j), 8)) fun t row =>
        t.readAll .g [(d.b + 8 * i, 8)] fun t b =>
          let y := residualOf (row.map fun v => f64Of v.1) xs (f64Of ((b.head?.map (·.1)).getD 0))
          { t with o := { t.o with rows := t.o.rows ++
              [([BitVec.ofNat 64 y.1, BitVec.ofNat 64 y.2], row.any (·.2) || b.any (·.2))] } }, false)
    else
      let v := verdictOf t.o pctl d.tol rs
      let i := t.o.i
      if v.correct && i < d.n then
        (t.readAll .g (mReqs d f.ty i) fun t ms =>
          t.readAll .g (if f.ty = .b4 then (List.range d.n).map fun j => (d.mscale + (i * d.ldm + j) / 128, 1) else [])
            fun t sc =>
              let r := rs.map fun x => f64Of (((nth x.1 0).getD 0).toNat)
              let y := correctedOf ((nth xs i).getD (.fin false 0 0))
                (mValues d f.ty i (ms.map (·.1)) (sc.map (·.1))) r
              let t := t.write .g [(d.x + 8 * i, leBytes 8 y, true)]
              if t.halt.isSome then t else { t with o := { t.o with i := i + 1 } }, false)
      else
        let pads := (List.range (4 * sectors - d.n)).map fun j => (d.x + 8 * (d.n + j), leBytes 8 0, v.correct || t.o.tag)
        let vals := if v.settle then
            (List.range d.n).map fun j => (d.x + 8 * j, leBytes 8 ((nth xrow.1 j).getD 0).toNat, t.o.tag)
          else []
        let t := if v.correct || v.settle then t.write .g (vals ++ pads) else t
        if t.halt.isSome then (t, false) else (t.writeRecord f v, true)

def Thread.dcormUnit (t : Thread) (f : RegForm) : Thread × Bool :=
  let pctl := match nth t.s.launches t.o.launch with
    | some l => l.lrec.pctl.toNat
    | none => 0
  let go (t : Thread) : Thread × Bool :=
    match parseDcorm (t.o.record.map (·.1)) f.ty with
    | .error (cls, addr) => (t.stop (.fault cls 0 addr false), false)
    | .ok d => t.dcormFrom f pctl d
  if t.o.record.isEmpty then
    match t.s.readRecord t.o .g t.o.b.toNat 64 with
    | .error h => (t.stop h, false)
    | .ok r => match parseDcorm (r.map (·.1)) f.ty with
      | .error (cls, addr) => (t.stop (.fault cls 0 addr false), false)
      | .ok _ =>
        let c := spaceBase (recSpace f) t.o.c
        match t.s.threadRead t.o (recSpace f) (c + 8) 4, t.s.threadRead t.o (recSpace f) (c + 16) 8 with
        | .ok st, .ok pn => go { t with o := { t.o with record := r ++ (st.1.map fun b => (b, st.2)) ++ pn.1.map fun b => (b, pn.2) } }
        | .error h, _ => (t.stop h, false)
        | _, .error h => (t.stop h, false)
  else go t

/-! Units and operations. -/

/-- The form of an engine operation. -/
def engineForm : Instr → Option RegForm
  | .old f | .ost f | .adrn f | .wupd f | .cpy f | .cpyr f | .isect f | .dcorm f => some f
  | _ => none

/-- The next unit of an operation, and whether the operation has then performed all its element accesses. -/
def Thread.unit (t : Thread) : Thread × Bool :=
  let d := t.o.dst.toNat
  let k := t.o.units
  let rows := bits d 21 13
  -- a unit of slot rows ends at a row that is a multiple of 32
  let row0 := bits d 12 5
  let lo := if k = 0 then 0 else (row0 / 32 + k) * 32 - row0
  let hi := min rows ((row0 / 32 + k + 1) * 32 - row0)
  let slotRows := (List.range (hi - lo)).map fun i => lo + i
  match t.o.instr with
  | .old f => (t.withBitmap f hi fun t => t.each slotRows fun t r => t.oldRow f r, rows ≤ hi)
  | .ost f => (t.each slotRows fun t r => t.ostRow f r, rows ≤ hi)
  | .adrn f => (t.withEpilogue f fun t e => t.adrnRow f t.mode e k, bits d 18 11 ≤ k + 1)
  | .wupd f => (t.wupdRow f k, bits d 18 11 ≤ k + 1)
  | .cpy f =>
    let a := spaceBase f.space t.o.a
    (t.cpyUnit f k, a + t.o.d.toNat ≤ (a / 4096 + k + 1) * 4096)
  | .cpyr f =>
    let a := spaceBase f.space t.o.a
    (t.cpyrUnit f k, a + bits t.o.d.toNat 63 32 * f.ty.bytes ≤ (a / 4096 + k + 1) * 4096)
  | .isect _ => t.isectUnit
  | .dcorm f => t.dcormUnit f
  | _ => (t, true)

/-- Whether the residuals and corrections of a DCORM are done, so that what follows writes its record (R113, R241). -/
def Thread.atRecord (t : Thread) : Bool :=
  match t.o.instr with
  | .dcorm f => match parseDcorm ((t.o.record.map (·.1)).take 64) f.ty, t.o.rows with
    | .ok d, _ :: rs =>
      let pctl := ((nth t.s.launches t.o.launch).map (·.lrec.pctl.toNat)).getD 0
      decide (d.n ≤ rs.length) && (!(verdictOf t.o pctl d.tol rs).correct || decide (d.n ≤ t.o.i))
    | _, _ => false
  | _ => false

/-- Run an operation until it has performed all its accesses, it halts, it stands where `hold` says, or `limit` more units are done.
Of a unit that meets a page to wait for, nothing has performed; of one that meets a fault, the accesses before it (R236, R241). -/
def Thread.run (hold : Thread → Bool) : Nat → Thread → Thread
  | 0, t => t
  | limit + 1, t =>
    if t.o.finished || hold t then t
    else match t.unit with
      | (t', fin) => match t'.halt with
        | some (.sleep page reg addr) => t.stop (.sleep page reg addr)
        | some (.fault _ _ _ _) => t'
        | none => Thread.run hold limit { t' with o := { t'.o with units := t'.o.units + 1, finished := fin } }

/-- More units than any operation has. -/
def manyUnits : Nat := 2 ^ 40

/-- Raise the completion object by one, atomically (R101, R129). -/
def Thread.complete (t : Thread) : Thread :=
  match engineForm t.o.instr with
  | none => t
  | some f =>
    let sp := recSpace f
    let a := { t.s.threadAccess t.o sp (spaceBase sp t.o.c) 8 true with align := 8, atomic := true }
    match t.s.threadPlace a true with
    | .error h => t.stop h
    | .ok q => { t with s := t.s.storeAtomic none q (leBytes 8 ((leNat (t.s.bytesAt q 8) + 1) % 2 ^ 64)) t.o.tag }

/-- Run an operation to its end, completion object included. -/
def Thread.finish (t : Thread) : Thread :=
  let t := Thread.run (fun _ => false) manyUnits t
  if t.halt.isNone && t.o.finished then t.complete else t

end Sys2Proof.Machine
end

