-- ==== Sys2Proof/Machine/EngineEvents.lean ====
section
/-! DEFINITION. The steps of the engines and of the matrix unit (R128, R129, R236, R241): ENGINE_COMPLETION,
ENGINE_THREAD_FAULT, MMA_COMPLETION. -/

namespace Sys2Proof.Machine

open Sys2Proof

/-- A step that its rule does not enable. -/
def notEnabled : Result := .fault .notEnabled

def removeAt {α : Type} : List α → Nat → List α
  | [], _ => []
  | _ :: xs, 0 => xs
  | x :: xs, n + 1 => x :: removeAt xs n

/-- Whether a gang runs: on its cell, its launch not about to end. -/
def State.running (s : State) (gi : Nat) : Bool :=
  match nth s.gangs gi with
  | none => false
  | some g => match nth s.launches g.launch with
    | none => false
    | some l => decide (g.phase = .resident) && decide (l.phase = .dispatched) && !l.dying

/-- The record of a fault that is reported against the launch of a warp that has exited: the variant, die and cell are those at its
exit (R365). -/
def exitedRecord (w : Warp) (g : Gang) (l : Launch) (f : LateFault) : FRec :=
  let r := faultRecord w g l { f with kind := w.kind } dispFatal
  if w.ended then { r with die := w.exitDie, cell := w.exitCell } else r

/-- The faults of a warp's earlier operations, settled as far as they can be: against its launch where it has exited; at once, and the
block ends, where every split is blocked, but for DCOR, which waits for an issue (R113, R236). Checkpoints that cannot commit while a
split sleeps roll back first. -/
def State.settlePending (s : State) (wi : Nat) : State :=
  match nth s.warps wi with
  | none => s
  | some w => match w.pending, nth s.gangs w.gang with
    | f :: fs, some g =>
      if w.live = 0 && w.ckpts.isEmpty then match nth s.launches g.launch with
        | some l => (f :: fs).foldl (fun s f => s.dieWith g.launch (exitedRecord w g l f)) (s.modWarp wi fun w => { w with pending := [] })
        | none => s
      else if !w.c.frontier.any Split.issues && s.running w.gang && (w.ckpts.isEmpty || w.asleep) then
        match w.pending.find? fun x => decide (x.info.cls ≠ .dcor) with
        | some x => (s.unwound wi).deliverPending wi x
        | none => s
      else s
    | _, _ => s

/-- A fault of an operation after its issue waits for its warp (R236). -/
def State.lateFault (s : State) (o : EOp) (info : FaultInfo) : State :=
  (s.modWarp o.warp fun w => { w with pending := w.pending ++ [⟨info, o.pc, o.eqix, o.altpc, o.kind⟩] }).settlePending o.warp

/-- What a record of an operation's access says of the address (R315). -/
def EOp.faultAt (o : EOp) (cls : FClass) (cause addr : Nat) (prop : Bool) : FaultInfo :=
  { cls := cls, cause := cause, addr := BitVec.ofNat 64 addr, tags := o.paddr.toNat + 4 * prop.toNat }

/-- The fault of a page that an operation meets. -/
def EOp.pageFault (o : EOp) (reg : Option Nat) (cause addr : Nat) : FaultInfo :=
  o.faultAt (if reg.isSome then .recompute else .translation) cause addr false

/-- Where the record of a DCORM lies; none of another operation, or where it cannot be reached. -/
def State.recordLoc (s : State) (o : EOp) : Option Loc :=
  match o.instr with
  | .dcorm f => match s.place (s.threadAccess o (recSpace f) (spaceBase (recSpace f) o.c) 8 true) with
    | .ok q => some q.loc
    | .error _ => none
  | _ => none

/-- Another call that names the same record, by whichever address, has begun and not finished (R112). -/
def State.recordBusy (s : State) (k : Nat) (o : EOp) : Bool :=
  match s.recordLoc o with
  | some loc => (List.range s.ops.length).any fun j => j != k && match nth s.ops j with
    | some p => decide (p.phase ≠ .done) && !p.record.isEmpty && s.recordLoc p == some loc
    | none => false
  | none => false

/-- The operation at an index, where its thread runs. -/
def State.thread (s : State) (k : Nat) : Option EOp :=
  match nth s.ops k with
  | none => none
  | some o =>
    if decide (o.phase = .running) && s.running o.gang && !o.cancelled && o.failed.isNone && !s.recordBusy k o then some o
    else none

/-- An operation that has ended leaves; its gang may retire (R54). -/
def State.dropOp (s : State) (k : Nat) (o : EOp) : State := ({ s with ops := removeAt s.ops k }).retire o.gang

/-- R112, R113, R129, R241: the operation performs all its accesses and its completion object rises. -/
def execEngineCompletion (op : Nat) (s : State) : Result :=
  match s.thread op with
  | none => notEnabled
  | some o =>
    let t := Thread.finish { s := s, o := o }
    if t.halt.isSome then notEnabled
    else
      let s := if t.o.dcor then t.s.lateFault o (o.faultAt .dcor 0 o.c.toNat false) else t.s
      .next (s.dropOp op o)

/-- What a thread's access that meets a missing page does: its record is posted, its producer started (R309, R312). -/
def State.threadSleep (s : State) (k : Nat) (o : EOp) (page : Nat) (reg : Option Nat) (addr : Nat) : State :=
  match nth s.warps o.warp with
  | none => s
  | some w => match nth s.gangs o.gang with
    | none => s
    | some g => match nth s.launches o.launch with
      | none => s
      | some l =>
        let r := faultRecord w g l ⟨o.pageFault reg 0 addr, o.pc, o.eqix, o.altpc, o.kind⟩
          (if reg.isSome then dispRecompute else dispReplay)
        let s := if reg.isNone && s.sleepsOn o.warp w page then s else s.post l.part r .nothing
        let wait (s : State) : State := s.modOp k fun o => { o with phase := (.asleep { page := page, reg := reg, addr := addr } : OpPhase) }
        match reg with
        | none => wait s
        | some n => match s.startProducer o.launch n g.die with
          | (s, none) => wait s
          | (s, some c) =>
            (s.lateFault o (o.pageFault reg c addr)).dropOp k o

/-- What a halt does to the operation at an index, whose thread stands as given: it waits for a page, or leaves with a fault (R236). -/
def Thread.haltAt (t : Thread) (k : Nat) (h : Halt) : State :=
  match h with
  | .sleep page reg addr => (t.s.modOp k fun _ => t.o).threadSleep k t.o page reg addr
  | .fault cls cause addr prop => (t.s.lateFault t.o (t.o.faultAt cls cause addr prop)).dropOp k t.o

/-- R236: the thread stops at a fault, its earlier accesses standing, or waits for a page. A cancellation met while its
gang was off the cells is taken (R310, R325). -/
def execEngineThreadFault (op : Nat) (s : State) : Result :=
  match nth s.ops op with
  | none => notEnabled
  | some o =>
    if s.running o.gang && (o.cancelled || o.failed.isSome) then
      let addr := match o.phase with
        | .asleep x => x.addr
        | _ => 0
      .next ((s.lateFault o (o.pageFault (o.failed.map fun _ => 0) (o.failed.getD 0) addr)).dropOp op o)
    else match s.thread op with
      | none => notEnabled
      | some o =>
        let t := Thread.finish { s := s, o := o }
        match t.halt with
        | none => notEnabled
        | some h => .next (({ t with halt := none }).haltAt op h)

/-! Stopping (R241, R276). -/

/-- An operation's thread as it stands at the boundary at which it stops; a DCORM stops before it writes its record (R241) [20]. -/
def State.toBoundary (s : State) (k : Nat) (o : EOp) : Thread :=
  Thread.run Thread.atRecord (Config.progress s.turn k) { s := s, o := o }

/-- Stop the operation at an index for a pre-emption: it stays with its progress, waits for a page, or ends in a fault (R241, R325). -/
def State.stopOp (s : State) (k : Nat) : State :=
  match nth s.ops k with
  | none => s
  | some o =>
    if o.phase ≠ .running || s.recordBusy k o then s
    else
      let t := s.toBoundary k o
      match t.halt with
      | none => t.s.modOp k fun _ => t.o
      | some (.sleep page reg addr) => t.haltAt k (.sleep page reg addr)
      | some (.fault cls cause addr prop) =>
        (t.s.lateFault o (o.faultAt cls cause addr prop)).modOp k fun _ => { o with phase := .done }

/-- Whether a gang stands on its cell and its operations have not been stopped: one that a BKPT stops issues nothing, but step 3 of its
pre-emption comes with its area in the pool (R241, R322). -/
def State.residentGang (s : State) (gi : Nat) : Bool :=
  (nth s.gangs gi).any fun g => decide (g.phase = .resident) || (decide (g.phase = .stopping) && g.ctx.isNone)

/-- Stop the operation at an index for good: what it has performed stands (R276). One of a gang that has stopped before stands at the
boundary of that stop. -/
def State.abandonOp (s : State) (k : Nat) : State :=
  match nth s.ops k with
  | none => s
  | some o => if o.phase ≠ .running || !s.residentGang o.gang || s.recordBusy k o then s else (s.toBoundary k o).s

/-- A forced end (R276): running operations stop at their boundaries, resident gangs stop and lose their contexts, others are
dropped. -/
def State.forceEnd (s : State) (li code : Nat) : State :=
  let mine := (List.range s.gangs.length).filter fun gi => match nth s.gangs gi with
    | some g => g.launch == li && decide (g.phase ≠ .retired)
    | none => false
  let s := (List.range s.ops.length).foldl (fun s k => match nth s.ops k with
    | some o => if o.launch = li then s.abandonOp k else s
    | none => s) s
  let s := { s with ops := s.ops.filter fun o => o.launch ≠ li }
  (mine.foldl (fun s gi => s.releaseGang gi) s).toEnding li code

/-- R221, R231, R241: the waits on an accepted operation end. -/
def execMmaCompletion (op : Nat) (s : State) : Result :=
  match s.mops.find? fun m => m.id == op with
  | none => notEnabled
  | some m =>
    if s.mops.any fun x => x.gang == m.gang && decide (x.id < op) then notEnabled
    else .next ({ s with mops := s.mops.filter fun x => x.id != op }.retire m.gang)

end Sys2Proof.Machine
end

