-- ==== Sys2Proof/Machine/Predicate.lean ====
section
/-! DEFINITION. The predicate instructions (R174) and the specials (R34, R67 to R70, R175): PLOP, P2V, V2P, GETS, SETS. -/

namespace Sys2Proof.Machine

open Sys2Proof

/-- PLOP's operations (R174). -/
def plopOf (op x y : Nat) : Nat :=
  match op with
  | 0 => min x y | 1 => max x y | 2 => (x + y) % 2 | _ => x

/-- R174. -/
def execPlop (f : RegForm) (s : State) : Result :=
  bitwise (.plop f) s f.dst 1 ((.op f.a, 1) :: if f.sub = 3 then [] else [(.op f.b, 1)]) fun xs =>
    plopOf f.sub.toNat (natAt xs 0) (natAt xs 1)

def predicates : List (Source × Nat) := (List.range 16).map fun j => (.op (.p false (BitVec.ofNat 4 j)), 1)

/-- R174. -/
def execP2v (f : RegForm) (s : State) : Result :=
  bitwise (.p2v f) s f.dst 32 (if f.sub = 1 then predicates else [(.op f.a, 1)]) fun xs =>
    (xs.foldr (fun b n => b + 2 * n) 0)

/-- R174: `.unpack` writes all sixteen predicates, the guard read before any. -/
def execV2p (f : RegForm) (s : State) : Result :=
  if f.sub = 1 then
    issue (.v2p f) s fun s c =>
      let k := c.w.c
      let k' := c.active.list.foldl (fun a i =>
        let x := k.read f.a i 32
        (List.range 16).foldl (fun a j => a.setP i j ⟨bit x.1 j, x.2 || c.forced k i⟩) a) k
      c.done s k' []
  else bitwise (.v2p f) s f.dst 1 [(.op f.a, 32)] fun xs => (decide (natAt xs 0 ≠ 0)).toNat

/-! Specials. -/

/-- A field list packed with the widths of R34. -/
def packWid : List Nat → List Nat → Nat
  | w :: ws, x :: xs => x % 2 ^ w + 2 ^ w * packWid ws xs
  | _, _ => 0

/-- WID fields of a lane (R34). -/
def widFields (w : Warp) (g : Gang) (lane : Nat) : List Nat := [32 * w.inGroup + lane, w.group] ++ g.coords

/-- The WID of a lane (R34). -/
def widOf (w : Warp) (g : Gang) (l : Launch) (lane : Nat) : Nat := packWid l.lrec.widths (widFields w g lane)

/-- The value of a special in a lane (R67). -/
def specialValue (s : State) (c : Ctx) (x : Special) (lane : Nat) : Nat :=
  let w := c.w
  match x with
  | .laneid => lane
  | .warpid => w.inGroup
  | .wid => widOf w c.g c.l lane
  | .wid0 => natAt (widFields w c.g lane) 0
  | .wid1 => natAt (widFields w c.g lane) 1
  | .wid2 => natAt (widFields w c.g lane) 2
  | .wid3 => natAt (widFields w c.g lane) 3
  | .wid4 => natAt (widFields w c.g lane) 4
  | .wid5 => natAt (widFields w c.g lane) 5
  | .cellid => c.g.cell
  | .coreid => w.core
  | .corekind => kindCode w.kind
  | .dieid => c.g.die
  | .clock => s.pkg.clock.toNat
  | .pctl => c.l.lrec.pctl.toNat
  | .lstat => w.c.lstat lane
  | .wstat => w.wstat
  | .mstat => w.c.mstat.toNat
  | .rngc => w.c.rngc.toNat
  | .rngklo => w.c.rngk.toNat % 2 ^ 64
  | .rngkhi => w.c.rngk.toNat / 2 ^ 64
  | .leqix => w.c.leqix.toNat
  | .gsize => c.l.lrec.lanes
  | .ganggrp => c.l.lrec.groups

/-- R67, R175. -/
def execGets (f : RegForm) (s : State) : Result :=
  issue (.gets f) s fun s c =>
    match f.a with
    | .sp x => c.compute s f.dst (if x.wide then 64 else 32) [] false fun lane _ => (specialValue s c x lane, 0)
    | _ => c.done s c.w.c []

/-- Write a status word (R70). -/
def setSpecial (s : State) (c : Ctx) (x : Special) (val : Nat → Nat) : Body :=
  match x, c.active.list with
  | .lstat, l => c.done s (l.foldl (fun k j => k.setLstat j (val j)) c.w.c) []
  | .wstat, j :: _ => .done { s := s.modWarp c.wi fun w => w.setWstat (val j) }
  | .mstat, j :: _ => c.done s { c.w.c with mstat := BitVec.ofNat 64 (val j) } []
  | _, _ => c.done s c.w.c []

/-- R70, R175. -/
def execSets (f : RegForm) (s : State) : Result :=
  issue (.sets f) s fun s c =>
    match f.dst with
    | .sp x => setSpecial s c x fun j => (c.w.c.read f.a j (if x = .mstat then 64 else 32)).1
    | _ => c.done s c.w.c []

/-- R70, R175: the immediate is zero-extended. -/
def execSetsImm (f : ImmForm) (s : State) : Result :=
  issue (.setsImm f) s fun s c =>
    match f.dst with
    | .sp x => setSpecial s c x fun _ => f.imm.toNat
    | _ => c.done s c.w.c []

end Sys2Proof.Machine
end

