-- ==== Sys2Proof/Machine/Trace.lean ====
section
/-! DEFINITION. How a replayed sillage trace binds operations (R290) [12]: the gate of an operation, and the end of a launch
that cannot follow its trace. -/

namespace Sys2Proof.Machine

open Sys2Proof

/-- Entries before the first that satisfies a test. -/
def entriesBefore (f : TraceEntry → Bool) (es : List TraceEntry) : List TraceEntry := es.takeWhile fun e => !f e

/-- Placements and pre-emptions stand in one order. -/
def TraceEntry.places (e : TraceEntry) : Bool := e.kind = 0 || e.kind = 1

/-- The placement or pre-emption of a replay that is due: no operation stands before it in the trace. Publications bind nothing [12]. -/
def duePlacing (es : List TraceEntry) : Option TraceEntry :=
  (es.find? fun e => e.kind != 5).filter TraceEntry.places

/-- Whether the placement (kind 0) or the pre-emption (kind 1) of a gang is due. -/
def dueFor (es : List TraceEntry) (kind : Nat) (g : Gang) : Bool :=
  (duePlacing es).any fun e => e.kind == kind && e.gang == g.lin

/-- Whether a gang waits on the trace: each of its warps that could issue does and it is not to be pre-empted now, or its placement, or
its leaving after a stop, is not due. -/
def State.gangOnTrace (s : State) (gi : Nat) (es : List TraceEntry) : Bool :=
  match nth s.gangs gi with
  | none => false
  | some g => match g.phase with
    | .eligible => !dueFor es 0 g
    | .resident =>
      let mine := s.warps.filter fun w => w.gang == gi && !w.ended
      mine.any (·.onTrace) && (mine.all fun w => w.onTrace || !w.c.frontier.any Split.issues) && !dueFor es 1 g
    | .stopping => g.ctx.isNone && !dueFor es 1 g
    | _ => false

/-- Whether every unretired gang of a launch waits on the trace (R290). -/
def State.stuckOnTrace (s : State) (li : Nat) : Bool :=
  match nth s.launches li with
  | none => false
  | some l =>
    let mine := (List.range s.gangs.length).filter fun gi => match nth s.gangs gi with
      | some g => g.launch == li && decide (g.phase ≠ .retired)
      | none => false
    mine.all fun gi => s.gangOnTrace gi l.replay

/-- The launch ends with CODE DIVERGED (R275, R290). -/
def State.diverge (s : State) (li : Nat) : State := s.forceEnd li 4

/-- A warp's operation waits on the trace; its launch ends where none of its gangs can go on. -/
def State.waitOnTrace (s : State) (wi li : Nat) : State :=
  let s := s.modWarp wi fun w => { w with onTrace := true }
  if s.stuckOnTrace li then s.diverge li else s

/-- What the trace says to an operation. -/
inductive Gate
  | go (rest : List TraceEntry)
  | wait
  | diverge
deriving DecidableEq, Repr

/-- The gate of an operation: the first remaining entry that `which` selects must satisfy `mine`, with no placement or pre-emption
recorded before it that has still to come. -/
def gateOf (l : Launch) (which mine : TraceEntry → Bool) : Gate :=
  if l.lrec.det ≠ 2 then .go l.replay
  else match takeEntry which l.replay with
    | none => .diverge
    | some (e, rest) =>
      if mine e && !(entriesBefore which l.replay).any TraceEntry.places then .go rest else .wait

end Sys2Proof.Machine
end

