-- ==== Sys2Proof/Machine/Place.lean ====
section
/-! DEFINITION. Where a gang fits and how it takes its place on a cell: R281 to R284, R290, R324, with the start of its warps
(R34, R60, R66) and the saving and restoring of what a cell holds for it (R47, R323). -/

namespace Sys2Proof.Machine

open Sys2Proof

/-- Every cell with either kind of core. -/
def everyCell : List (Nat × Nat × CoreKind) :=
  (List.range 8).flatMap fun d => (List.range 24).flatMap fun c => [(d, c, .l), (d, c, .d)]

/-! Room on a cell. -/

/-- Where a free range of a size in [lo, hi) may start as low as the used ones let it, at a multiple of an alignment. -/
def freeStarts (used : List (Nat × Nat)) (lo hi align size : Nat) : List Nat :=
  let up (x : Nat) : Nat := (x + align - 1) / align * align
  let fits (a : Nat) : Bool := lo ≤ a && a + size ≤ hi && used.all fun u => !overlap a size u.1 u.2
  (up lo :: used.map fun u => up (u.1 + u.2)).filter fits

/-- The lowest free range. -/
def freeRange (used : List (Nat × Nat)) (lo hi align size : Nat) : Option Nat := (freeStarts used lo hi align size).min?

/-- A gang's place on a cell: the core and kind of each warp by its place in State.warps, each group's local offset, and its
vault stages. -/
structure Seat where
  cores : List (Nat × Nat × CoreKind)
  locals : List Nat
  vaults : List (Nat × Nat × Nat)
deriving DecidableEq, Repr

/-- Gangs that hold room on a cell. -/
def State.gangsOn (s : State) (die cell : Nat) : List Gang :=
  s.gangs.filter fun g => g.onCell && g.die == die && g.cell == cell

/-- Fields of the launch of a gang. -/
def State.recOf (s : State) (g : Gang) : LaunchRec := match nth s.launches g.launch with
  | some l => l.lrec
  | none => {}

/-- Local ranges in use on a cell. -/
def State.localUsed (s : State) (die cell : Nat) : List (Nat × Nat) :=
  (s.gangsOn die cell).flatMap fun g => g.localAt.map fun o => (o, (s.recOf g).localBytes)

/-- A local range for each of n groups, in order (R282). -/
def localSeats (used : List (Nat × Nat)) (size : Nat) : Nat → Option (List Nat)
  | 0 => some []
  | n + 1 => match freeRange used 0 cellBytes 256 size with
    | none => none
    | some o => (localSeats ((o, size) :: used) size n).map fun l => o :: l

/-- Ranges for the vault stages of a gang in the four vaults of a cell, each in one vault (R281): what `k` makes of the first choice, in
key order, that it accepts. -/
def vaultSeats {α : Type} (die cell : Nat) (k : List (Nat × Nat × Nat) → Option α) : List (Nat × Stage) → List (Nat × Nat) →
    List (Nat × Nat × Nat) → Option α
  | [], _, taken => k taken.reverse
  | (i, st) :: rest, used, taken =>
    let vault (j : Nat) : Nat := vaultPa + ((die * 24 + cell) * 4 + j) * 2 ^ 21
    ((List.range 4).flatMap fun j => freeStarts used (vault j) (vault j + 2 ^ 21) 256 st.bytes).findSome? fun pa =>
      vaultSeats die cell k rest ((pa, st.bytes) :: used) ((i, pa, st.bytes) :: taken)

/-- The warps that a gang will hold slots for, with their kinds: existing ones that have not ended, in their own kind once
the gang has started, or new ones. -/
def State.seatWarps (s : State) (gi : Nat) (g : Gang) (r : LaunchRec) (kind : CoreKind) : List (Nat × CoreKind) :=
  let mine := (List.range s.warps.length).filterMap fun wi => match nth s.warps wi with
    | some w => if w.gang = gi then some (wi, w) else none
    | none => none
  if mine.isEmpty then (List.range r.gangWarps).map fun i => (s.warps.length + i, kind)
  else (mine.filter fun x => !x.2.ended).map fun x => (x.1, if g.started then x.2.kind else kind)

/-- Each warp to the core of its kind with the most free slots (R282); the first to the named core, if one is (R290). -/
def State.assign (s : State) (die cell : Nat) (first : Option Nat) (ws : List (Nat × CoreKind)) : List (Nat × Nat × CoreKind) :=
  ws.foldl (fun acc x =>
    let free (c : Nat) : Nat := coreSlots x.2 - (s.onCore die cell c).length - acc.countP fun (y : Nat × Nat × CoreKind) => y.2.1 == c
    let core := match first, acc with
      | some c, [] => c
      | _, _ => bestCore x.2 free
    acc ++ [(x.1, core, x.2)]) []

/-- Whether the cores of a cell hold the assigned warps beside their own (R281). -/
def State.coresHold (s : State) (die cell : Nat) (k : Kernel) (seats : List (Nat × Nat × CoreKind)) : Bool :=
  [CoreKind.l, .d].all fun x => (coresOf x).all fun c =>
    let here := seats.filter fun y => y.2.1 == c
    let regs := match k.variant x with
      | some v => v.regs
      | none => 0
    (s.onCore die cell c).length + here.length ≤ coreSlots x && here.length * regs ≤ s.regRoom die cell c

/-- What `go` makes of the place of a gang on a cell and core kind, where it fits (R281); of several choices of vault ranges the first that
it accepts. A saved deque comes back on the core of its first warp that has not ended [41]. -/
def State.seatThen {α : Type} (s : State) (gi die cell : Nat) (kind : CoreKind) (first : Option Nat) (go : Seat → Option α) : Option α :=
  match nth s.gangs gi with
  | none => none
  | some g => match nth s.launches g.launch with
    | none => none
    | some l =>
      let r := l.lrec
      let cores := s.assign die cell first (s.seatWarps gi g r kind)
      let core0 := match cores with
        | x :: _ => x.2.1
        | [] => 0
      let on := s.gangsOn die cell
      let slots := on.foldl (fun n h => n + (s.recOf h).slots) 0
      let tiles := on.foldl (fun n h => n + (s.recOf h).tiles) 0
      let dequeFree := g.savedDeque.isEmpty || (FMap.get {} s.deques (dequeKey die cell core0)).launch.isNone
      let stages := if g.started then [] else ((List.range r.stages.length).zip r.stages).filter fun x => x.2.vault
      if !(s.cellsOf (s.part l.part)).contains (die, cell) || !(r.kinds l.kern).contains kind || !s.coresHold die cell l.kern cores
          || slots + r.slots > 32 || tiles + r.tiles > 16 || !dequeFree then none
      else match localSeats (s.localUsed die cell) r.localBytes r.groups with
        | some locals =>
          vaultSeats die cell (fun vaults => go ⟨cores, locals, if g.started then g.vaults else vaults⟩) stages s.vaultUsed []
        | none => none

/-! What the trace and the launch allow (R290). -/

/-- Whether a gang waits to be placed. -/
def State.waiting (s : State) (gi : Nat) : Bool :=
  match nth s.gangs gi with
  | none => false
  | some g => decide (g.phase = .eligible) && match nth s.launches g.launch with
    | some l => decide (l.phase = .dispatched) && !l.dying
    | none => false

/-- Under replay a gang is placed where the next recorded placement says: none where it may not be placed so, else the core
of its warp 0 if that is bound. -/
def placedBy (l : Launch) (g : Gang) (die cell : Nat) (kind : CoreKind) : Option (Option Nat) :=
  if l.lrec.det ≠ 2 then some none
  else match duePlacing l.replay with
    | none => none
    | some e =>
      let core := bits e.body.toNat 1 0
      if e.kind = 0 && e.gang == g.lin && e.die == die && e.cell == cell && (coresOf kind).contains core then some (some core)
      else none

/-- What `go` makes of the place of a waiting gang that both the cell and the trace allow. -/
def State.seatForThen {α : Type} (s : State) (gi die cell : Nat) (kind : CoreKind) (go : Seat → Option α) : Option α :=
  match nth s.gangs gi with
  | none => none
  | some g => match nth s.launches g.launch with
    | none => none
    | some l =>
      if g.started && (s.warps.find? fun (w : Warp) => w.gang == gi && w.index == 0).any fun w => w.kind ≠ kind then none
      else match placedBy l g die cell kind with
        | none => none
        | some first => s.seatThen gi die cell kind first go

/-- That place. -/
def State.seatFor (s : State) (gi die cell : Nat) (kind : CoreKind) : Option Seat := s.seatForThen gi die cell kind some

/-- The cells and kinds where a gang fits now; of two kinds the other one only where the preferred one fits nowhere (R281). -/
def State.fitPlaces (s : State) (gi : Nat) : List (Nat × Nat × CoreKind) :=
  if !s.waiting gi then []
  else
    let fits := everyCell.filter fun x => (s.seatFor gi x.1 x.2.1 x.2.2).isSome
    let prefer := match (nth s.gangs gi).bind fun g => (nth s.launches g.launch).map fun (l : Launch) => l.lrec.kinds l.kern with
      | some (k :: _) => fits.filter fun x => x.2.2 = k
      | _ => []
    let replay := match (nth s.gangs gi).map fun g => (s.recOf g).det with
      | some d => d == 2
      | none => false
    if prefer.isEmpty || replay then fits else prefer

/-! Taking a place. -/

/-- The entry PC of a launch's class in a variant (R49, R271). -/
def Launch.entryPc (l : Launch) (kind : CoreKind) : Word64 :=
  let i := match nth l.lrec.classes l.cls with
    | some c => c.entry
    | none => 0
  match nth l.kern.entries i with
  | some e => match kind with
    | .l => e.1
    | .d => e.2
  | none => 0

/-- A warp at its start (R33, R60, R66). -/
def newWarp (gi idx : Nat) (g : Gang) (l : Launch) (core : Nat) (kind : CoreKind) : Warp :=
  let per := max l.lrec.groupWarps 1
  let n := min 32 (l.lrec.lanes - 32 * (idx % per))
  let lanes : Lanes := BitVec.ofNat 32 (2 ^ n - 1)
  let w : Warp := { gang := gi, index := idx, group := idx / per, inGroup := idx % per, populated := lanes, core := core, kind := kind }
  { w with c := { frontier := [⟨lanes, l.entryPc kind, 0, .ready⟩], sel := lanes, rngk := BitVec.ofNat 128 (widOf w g l 0) } }

/-- The vault stages' addresses in the launch parameter block (R48). -/
def withVaults (params : List Byte) (base : Nat) (vaults : List (Nat × Nat × Nat)) : List Byte :=
  vaults.foldl (fun ps v =>
    let o := 0x100 + 8 * v.1
    ps.take o ++ leBytes 8 (base + (v.2.1 - vaultPa)) ++ ps.drop (o + 8)) params

/-- A quantum field of the queue whose quanta a launch's gangs run under (R277, R312). -/
def State.quantaOf (s : State) (l : Launch) (hi lo : Nat) : Nat :=
  bits (FMap.get ({} : Queue) (s.part l.part).queues l.quanta).cfg.toNat hi lo

/-- The gang's fields at its placement (R280, R281). -/
def State.seated (s : State) (g : Gang) (l : Launch) (die cell : Nat) (kind : CoreKind) (x : Seat) : Gang :=
  { g with die := die, cell := cell, kind := kind, localAt := x.locals, vaults := x.vaults, e := l.base,
           placedAt := s.pkg.clock.toNat, placeNo := s.nextPlace, quantum := 0, minq := s.quantaOf l 47 32,
           maxq := s.quantaOf l 63 48, params := withVaults g.params (s.part l.part).vaultBase.toNat x.vaults }

/-- The trace entry of a placement or pre-emption is written, or the one of a replay that is due for it is taken (R288, R290). -/
def State.notePlacing (s : State) (g : Gang) (entry : TraceEntry) : State :=
  let s := s.modLaunch g.launch fun l =>
    if l.lrec.det = 2 then { l with replay := match duePlacing l.replay with
      | some e => if e.kind == entry.kind && e.gang == entry.gang then l.replay.erase e else l.replay
      | none => l.replay } else l
  s.record g.launch entry

/-- A gang that has not started takes its place: its warps stand at the entry; with nothing to stage it starts at once. -/
def State.placeNew (s : State) (gi die cell : Nat) (kind : CoreKind) (g : Gang) (l : Launch) (x : Seat) : State :=
  let g' := s.seated g l die cell kind x
  let now := l.lrec.stages.isEmpty
  let ws := (List.range x.cores.length).filterMap fun i => (nth x.cores i).map fun y => (y.1, newWarp gi i g' l y.2.1 kind)
  let warps := ws.foldl (fun l y => if y.1 < l.length then setAt l y.1 y.2 else l ++ [y.2]) s.warps
  let s := { s with warps := warps, nextPlace := s.nextPlace + 1 }
  let s := s.modGang gi fun _ => { g' with phase := if now then .resident else .staging, started := now }
  s.modLaunch g.launch fun l => if now then { l with started := l.started + 1 } else l

/-- Ends of waits that a resumption delivers (R255, R324). -/
def Warp.delivered (w : Warp) (marked : Addr → Bool) : Warp :=
  (w.entries.filterMap fun e => match e.block with
    | .svc dst tag (some x) => some (e.lanes, dst, tag, x)
    | _ => none).foldl (fun w y =>
      (w.unblocked marked fun e => if e.lanes = y.1 then { e with pc := nextSlot e.pc, block := .ready } else e).mapCores fun k =>
          k.setK y.2.1.toNat ⟨y.2.2.2, y.2.2.1⟩) w

/-- A warp resumes on a core: the split at the lowest PC is selected (R37, R324). -/
def Warp.resumed (w : Warp) (marked : Addr → Bool) (core : Nat) : Warp :=
  let w := w.delivered marked
  { w with core := core, latch := [], slow := false, c := { w.c with
      sel := (w.c.frontier.head?.map (·.lanes)).getD 0, yielded := false } }

/-- Local memory and its tags at a gang's new place (R324). -/
def State.restoreLocal (s : State) (g : Gang) (size : Nat) (locals : List Nat) : State :=
  let base := g.cellKey * cellBytes
  ((List.range locals.length).zip locals).foldl (fun s x =>
    let at_ := base + x.2
    { s with
      lmem := FMap.setN 0 s.lmem at_ (FMap.getN 0 g.savedLocal (x.1 * size) size)
      ltags := FMap.setN false s.ltags (at_ / 32) (FMap.getN false g.savedTags (x.1 * size / 32) (size / 32)) }) s

/-- A gang that has started takes a new place with its context, and what its operations have met while it was off the cells is settled
(R236, R324, R325); `step` for a single step, one that a pre-emption has cut included (R344). -/
def State.placeSaved (s : State) (gi die cell : Nat) (kind : CoreKind) (g : Gang) (l : Launch) (x : Seat) : State :=
  let g' := s.seated g l die cell kind x
  let key := dequeKey die cell (match x.cores with
    | y :: _ => y.2.1
    | [] => 0)
  let s := s.restoreLocal g' l.lrec.localBytes x.locals
  let s := if g.savedDeque.isEmpty then s
    else { s with deques := FMap.set {} s.deques key { entries := g.savedDeque, gang := some gi, launch := some g.launch } }
  let s := x.cores.foldl (fun s y => s.modWarp y.1 fun w => w.resumed (s.marked l.part) y.2.1) { s with nextPlace := s.nextPlace + 1 }
  let s := s.modGang gi fun _ => { g' with phase := .resident, savedDeque := [], savedLocal := [], savedTags := [], ctx := none
                                           step := if g.stepNext then some [] else g.step, stepNext := false }
  x.cores.foldl (fun s y => s.settlePending y.1) s

/-- An uncorrectable error in the saved context (R324). -/
def State.contextBad (s : State) (g : Gang) : Bool :=
  match g.ctx with
  | some (pa, n) => s.poison.any fun x => pa / 32 ≤ x && x < (pa + n + 31) / 32
  | none => false

/-- Place a gang at a seat, or end its launch where its context cannot be read. -/
def State.placeAt (s : State) (gi die cell : Nat) (kind : CoreKind) (x : Seat) : State :=
  match nth s.gangs gi with
  | none => s
  | some g => match nth s.launches g.launch with
    | none => s
    | some l =>
      if g.started && s.contextBad g then s.dieWith g.launch (launchRec l .bus 4 0 g.lin)
      else
        let core := match x.cores with
          | y :: _ => y.2.1
          | [] => 0
        let s := if g.started then s.placeSaved gi die cell kind g l x else s.placeNew gi die cell kind g l x
        s.notePlacing g (traceEntry 0 g.lin 0 die cell core)

/-! Priority (R280, R283). -/

/-- The gangs that are placed with a gang: itself, or the waiting gangs of its cooperative launch in linear order. -/
def State.unit (s : State) (gi : Nat) : List Nat :=
  match nth s.gangs gi with
  | none => []
  | some g =>
    if (s.recOf g).coop then (List.range s.gangs.length).filter fun i => match nth s.gangs i with
      | some h => h.launch == g.launch && decide (h.phase ≠ .retired)
      | none => false
    else [gi]

/-- Effective priority and order of eligibility: of a cooperative unit, those of its oldest waiting gang. -/
def State.rank (s : State) (gi : Nat) : Nat × Nat :=
  let l := ((s.unit gi).filter s.waiting).filterMap fun i => (nth s.gangs i).map fun (g : Gang) => (g.e, g.order)
  match l with
  | [] => (0, 0)
  | x :: xs => xs.foldl (fun a b => if b.2 < a.2 then b else a) x

/-- Place a unit in its order, the first gang at the given place where there is one: the first choice of cells and vault ranges with
which all of its gangs fit; none where there is none (R283). -/
def State.placeUnit (s : State) (first : Option (Nat × Nat × CoreKind)) : List Nat → Option State
  | [] => some s
  | gi :: rest =>
    let fits := s.fitPlaces gi
    (match first with
      | some x => if fits.contains x then [x] else []
      | none => fits).findSome? fun (x : Nat × Nat × CoreKind) =>
        s.seatForThen gi x.1 x.2.1 x.2.2 fun seat => (s.placeAt gi x.1 x.2.1 x.2.2 seat).placeUnit none rest

/-- Whether a unit can be placed now. -/
def State.unitFits (s : State) (gi : Nat) : Bool :=
  let u := s.unit gi
  u.all s.waiting && (s.placeUnit none u).isSome

/-- Whether a waiting gang of the same partition goes first: a higher E, or the same and eligible earlier, and it fits
(R280). -/
def State.outranked (s : State) (gi : Nat) : Bool :=
  let me := s.rank gi
  (List.range s.gangs.length).any fun i =>
    let r := s.rank i
    s.waiting i && !(s.unit gi).contains i && s.partOf i == s.partOf gi && (me.1 < r.1 || (me.1 == r.1 && r.2 < me.2)) && s.unitFits i

/-- A waiting gang, or its unit, takes a place (R280 to R283). -/
def State.placeGang (s : State) (gi die cell : Nat) (kind : CoreKind) (started : Bool) : Result :=
  match nth s.gangs gi with
  | none => notEnabled
  | some g =>
    let u := s.unit gi
    if !s.waiting gi || g.started != started || u.head? ≠ some gi || !u.all s.waiting || s.outranked gi then notEnabled
    else match s.placeUnit (some (die, cell, kind)) u with
      | some s => .next s
      | none => notEnabled

end Sys2Proof.Machine
end

