-- ==== Sys2Proof/Machine/Route.lean ====
section
/-! DEFINITION. Expert routing as programs meet it (R248 to R254, R294, R295, R302): ROUTE, RTREL, RTVER. -/

namespace Sys2Proof.Machine

open Sys2Proof

/-- A route word (R248). -/
def routeWord (ver die rep : Nat) : Nat := ver % 2 ^ 16 + 2 ^ 16 * die + 2 ^ 19 * rep

/-- Change a partition's Etesian state. -/
def State.modEt (s : State) (pi : Nat) (f : Etesian → Etesian) : State :=
  s.modPart pi fun p => { p with et := f p.et }

def Etesian.expert (t : Etesian) (eid : Nat) : Option Expert := t.experts.find? fun x => x.eid == eid

def Etesian.modExpert (t : Etesian) (eid : Nat) (f : Expert → Expert) : Etesian :=
  { t with experts := t.experts.map fun x => if x.eid == eid then f x else x }

def Expert.modCopy (x : Expert) (rep : Nat) (f : Copy → Copy) : Expert :=
  { x with copies := x.copies.map fun k => if k.rep == rep then f k else k }

/-- A copy of the current version (R296, R297). -/
def Copy.current (k : Copy) : Bool := decide (k.phase = .live) && k.published

/-- The copies that Choose picks among (R295, R300). -/
def Expert.choices (x : Expert) : List Copy := x.copies.filter fun k => k.current && !k.quarantined

/-- A copy's outstanding count divided by its share of routes, as a fraction (R295). -/
def Expert.load (x : Expert) (k : Copy) : Nat × Nat :=
  match k.lastRoutes with
  | none => (k.outstanding, 1)
  | some r => if r = 0 || x.lastRoutes = 0 then (k.outstanding, 1) else (k.outstanding * x.lastRoutes, r)

/-- Whether the first of two copies is picked in normal mode: ties go to the lower REP. -/
def Expert.before (x : Expert) (a b : Copy) : Bool :=
  let p := x.load a
  let q := x.load b
  p.1 * q.2 < q.1 * p.2 || (p.1 * q.2 == q.1 * p.2 && a.rep < b.rep)

/-- Copies in ascending REP. -/
def byRep (l : List Copy) : List Copy :=
  (List.range 32).flatMap fun r => l.filter fun k => k.rep == r

/-- Choose in normal mode (R295). -/
def Expert.chooseNormal (x : Expert) : Option Copy :=
  x.choices.foldl (fun b k => match b with
    | none => some k
    | some y => if x.before k y then some k else some y) none

/-- Choose in deterministic mode: by token block (R295). -/
def Expert.chooseBlock (x : Expert) (token : Nat) : Option Copy :=
  let l := byRep x.choices
  nth l (token / 128 % l.length)

/-- The copy that a lane's ROUTE is granted, with its expert (R250); none where it is granted nothing. -/
def Etesian.choose (t : Etesian) (det : Bool) (eid token : Nat) : Option (Expert × Copy) :=
  if eid > 4095 then none
  else (t.expert eid).bind fun x =>
    if !x.registered then none
    else (if det then x.chooseBlock token else x.chooseNormal).map fun k => (x, k)

/-- The counts after a grant (R250, R294). -/
def Etesian.granted (t : Etesian) (eid rep : Nat) : Etesian :=
  let t := { t with loads := FMap.set 0 t.loads eid (FMap.get 0 t.loads eid + 1) }
  t.modExpert eid fun x =>
    { x.modCopy rep fun k => { k with routes := k.routes + 1, outstanding := k.outstanding + 1 } with routes := x.routes + 1 }

/-- The instructions that have routed so far within one issue. -/
structure Routing where
  s : State
  k : WCore
deriving DecidableEq, Repr

/-- Write the four words of a route and whether it was granted (R249, R250). -/
def routeWrite (c : Ctx) (f : RegForm) (k : WCore) (u val : Nat) (tag ok : Bool) : WCore :=
  let tag := tag || c.forcedUnit u
  let k := match f.dst with
    | .v r => k.writeVs u r.toNat val tag 4
    | .k r => (k.setK r.toNat ⟨BitVec.ofNat 64 val, tag⟩).setK (r.toNat + 1) ⟨BitVec.ofNat 64 (val / 2 ^ 64), tag⟩
    | _ => k
  (c.unitLanes u).list.foldl (fun k j => k.write f.d j 1 ok.toNat (c.forced c.w.c j)) k

/-- The trace body of a lane's ROUTE (R289). -/
def routeBody (c : Ctx) (ver u ordinal : Nat) : Nat :=
  ver + 2 ^ 16 * (if u = 32 then (c.active.list.head?).getD 0 else u) + 2 ^ 32 * ordinal

/-- One lane's ROUTE, or the warp's (R250). -/
def Routing.unit (r : Routing) (c : Ctx) (f : RegForm) (ordinal u : Nat) : Routing :=
  let a := c.w.c.read f.a u 32
  let b := c.w.c.read f.b u 32
  let t := (r.s.part c.pi).et
  let tag := a.2 || b.2
  let s := r.s.record c.li (traceEntry 4 c.g.lin c.w.index c.g.die c.g.cell (routeBody c t.ver u ordinal))
  match t.choose (decide (c.l.lrec.det ≠ 0)) a.1 b.1 with
  | none => ⟨s, routeWrite c f r.k u 0 tag false⟩
  | some (x, k) =>
    let s := s.modEt c.pi fun t => t.granted x.eid k.rep
    let s := s.modLaunch c.li fun l => { l with grants := l.grants ++ [⟨t.ver, k.die, k.rep, x.eid⟩] }
    ⟨s, routeWrite c f r.k u (routeWord t.ver k.die k.rep + 2 ^ 32 * x.eid + 2 ^ 64 * k.base.toNat) tag true⟩

/-- What the trace says to a unit's ROUTE: the recorded entry must be there, of the current version (R290, R302). -/
def routeGate (c : Ctx) (l : Launch) (ver ordinal u : Nat) : Gate :=
  let mine (e : TraceEntry) : Bool :=
    e.kind == 4 && e.gang == c.g.lin && e.warp == c.w.index && e.body.toNat / 2 ^ 16 == routeBody c 0 u ordinal / 2 ^ 16
  match gateOf l mine mine with
  | .go rest =>
    if l.lrec.det = 2 && (l.replay.find? mine).any fun e => bits e.body.toNat 15 0 != ver then .diverge else .go rest
  | g => g

/-- The gates of all units of an issue in turn. -/
def routeGates (c : Ctx) (l : Launch) (ver ordinal : Nat) : List Nat → Gate
  | [] => .go l.replay
  | u :: us => match routeGate c l ver ordinal u with
    | .go rest => routeGates c { l with replay := rest } ver ordinal us
    | g => g

/-- R249, R250, R290. -/
def execRoute (f : RegForm) (s : State) : Result :=
  issue (.route f) s fun s c =>
    let units := c.units (isK f.dst)
    let l := (nth s.launches c.li).getD c.l
    let key := 64 * c.g.lin + c.w.index
    let ordinal := FMap.get 0 l.rtOrd key + 1
    match routeGates c l (s.part c.pi).et.ver ordinal units with
    | .wait => .partial_ (s.waitOnTrace c.wi c.li)
    | .diverge => .partial_ (s.diverge c.li)
    | .go rest =>
      let s := s.modLaunch c.li fun l => { l with replay := rest, rtOrd := FMap.set 0 l.rtOrd key ordinal }
      let r := units.foldl (fun r u => r.unit c f ordinal u) ({ s := s, k := c.w.c } : Routing)
      .done { s := r.s.putCore c r.k }

/-! Giving back (R252). -/

/-- The grant that a route word releases: that of the lowest expert id among those that match. -/
def matchGrant (l : List Grant) (w : Nat) : Option Grant :=
  (l.filter fun g => g.ver == bits w 15 0 && g.die == bits w 18 16 && g.rep == bits w 23 19).foldl (fun b g => match b with
    | none => some g
    | some x => if g.eid < x.eid then some g else some x) none

/-- Release a grant of a launch: its reference and its copy's outstanding count go. -/
def State.dropGrant (s : State) (li pi : Nat) (g : Grant) : State :=
  let s := s.modLaunch li fun l => { l with grants := l.grants.erase g }
  s.modEt pi fun t => t.modExpert g.eid fun x => x.modCopy g.rep fun k => { k with outstanding := k.outstanding - 1 }

/-- One unit's RTREL. -/
def Routing.release (r : Routing) (c : Ctx) (f : RegForm) (u : Nat) : Routing :=
  let w := (c.w.c.read f.a u 32).1
  let grants := ((nth r.s.launches c.li).getD c.l).grants
  let found := if bits w 31 24 ≠ 0 then none else matchGrant grants w
  let put (ok : Bool) : WCore :=
    (c.unitLanes u).list.foldl (fun k j => k.write f.d j 1 ok.toNat (c.forced c.w.c j)) r.k
  match found with
  | none => ⟨r.s, put false⟩
  | some g => ⟨r.s.dropGrant c.li c.pi g, put true⟩

/-- R252. -/
def execRtrel (f : RegForm) (s : State) : Result :=
  issue (.rtrel f) s fun s c =>
    let r := (c.units (isK f.a)).foldl (fun r u => r.release c f u) ({ s := s, k := c.w.c } : Routing)
    .done { s := r.s.putCore c r.k }

/-- R253. -/
def execRtver (f : RegForm) (s : State) : Result :=
  issue (.rtver f) s fun s c =>
    let r := c.each c.w.c f.dst 32 fun _ => ⟨(s.part c.pi).et.ver % 2 ^ 16, false, 0⟩
    c.done s r.1 []

end Sys2Proof.Machine
end

