-- ==== Sys2Proof/Machine/SysRegs.lean ====
section
/-! DEFINITION. The device's control registers (R10, R256): which register stands where in each block, what it reads as and what
a write does to it: CONSCTL (R123), the scheduler's (R277), Etesian's (R291, R293), the command processor's and its rings'
(R310, R319, R341), the capability list (R356), handler state (R258, R317), and the management function's (R350, R352). -/

namespace Sys2Proof.Machine

open Sys2Proof

/-- A register. -/
inductive Reg
  | consctl (die : Nat)
  | qcfg (q : Nat) | qstat (q : Nat)
  | ectl | eintv | estat | ecmdaddr | ecmd | eevbase | eevsize | eevhead | eevtail
  | epool (die : Nat) | eload (eid : Nat)
  | ptroot | prbase | prcount | frbase | frsize | frhead | frtail | freplay | ctxbase | ctxsize
  | rbase (n : Nat) | rsize (n : Nat) | rhead (n : Nat) | rtail (n : Nat) | rerr (n : Nat)
  | cbase (n : Nat) | csize (n : Nat) | ctail (n : Nat) | chead (n : Nat)
  /-- The 4 bytes at an offset of the capability list. -/
  | caps (off : Nat)
  | bustat | capptr | partn (n : Nat) | carve (n j : Nat)
  | epc | emask
  /-- A 4-byte word of the fault record in handler state. -/
  | frec (k : Nat)
deriving DecidableEq, Repr

/-- Whether a register has 8 bytes. -/
def Reg.wide : Reg → Bool
  | .qcfg _ | .ecmdaddr | .eevbase | .epool _ | .eload _ | .ptroot | .prbase | .frbase | .freplay | .ctxbase | .ctxsize
  | .rbase _ | .cbase _ | .bustat | .capptr | .partn _ | .carve _ _ | .epc => true
  | _ => false

/-- Who reads or writes: the partition, the die if there is one, the warp if it is one. -/
structure Agent where
  part : Nat
  die : Option Nat
  warp : Option Nat
deriving DecidableEq, Repr

/-! Where the registers stand: the register at a 4-aligned offset, and whether its upper half is meant. -/

def whole (r : Reg) : Option (Reg × Bool) := some (r, false)

/-- A register of 8 bytes from an offset within 8 bytes. -/
def halves (r : Reg) (off : Nat) : Option (Reg × Bool) := some (r, off % 8 = 4)

def dieReg (die off : Nat) : Option (Reg × Bool) := if off = 0x40 then whole (.consctl die) else none

def schedReg (off : Nat) : Option (Reg × Bool) :=
  let q := (off - 0x1000) / 16
  if off < 0x1000 || 63 < q then none
  else match off % 16 with
    | 0 | 4 => halves (.qcfg q) off
    | 8 => whole (.qstat q)
    | _ => none

def etReg (off : Nat) : Option (Reg × Bool) :=
  match off with
  | 0x00 => whole .ectl
  | 0x04 => whole .eintv
  | 0x08 => whole .estat
  | 0x10 | 0x14 => halves .ecmdaddr off
  | 0x18 => whole .ecmd
  | 0x20 | 0x24 => halves .eevbase off
  | 0x28 => whole .eevsize
  | 0x2C => whole .eevhead
  | 0x30 => whole .eevtail
  | _ =>
    if 0x100 ≤ off && off < 0x140 then halves (.epool ((off - 0x100) / 8)) off
    else if 0x10000 ≤ off && off < 0x18000 then halves (.eload ((off - 0x10000) / 8)) off
    else none

/-- Ring n's registers (R341). -/
def ringReg (off : Nat) : Option (Reg × Bool) :=
  let n := (off - 0x1000) / 64
  if off < 0x1000 || 15 < n then none
  else match off % 64 with
    | 0x00 | 0x04 => halves (.rbase n) off
    | 0x08 => whole (.rsize n)
    | 0x0C => whole (.rhead n)
    | 0x10 => whole (.rtail n)
    | 0x14 => whole (.rerr n)
    | 0x18 | 0x1C => halves (.cbase n) off
    | 0x20 => whole (.csize n)
    | 0x24 => whole (.ctail n)
    | 0x28 => whole (.chead n)
    | _ => none

def cpReg (off : Nat) : Option (Reg × Bool) :=
  match off with
  | 0x80 | 0x84 => halves .ptroot off
  | 0x88 | 0x8C => halves .prbase off
  | 0x90 => whole .prcount
  | 0xA0 | 0xA4 => halves .frbase off
  | 0xA8 => whole .frsize
  | 0xAC => whole .frhead
  | 0xB0 => whole .frtail
  | 0xB8 | 0xBC => halves .freplay off
  | 0xC0 | 0xC4 => halves .ctxbase off
  | 0xC8 | 0xCC => halves .ctxsize off
  | _ => if 0x8000 ≤ off then whole (.caps (off - 0x8000)) else ringReg off

def handlerReg (off : Nat) : Option (Reg × Bool) :=
  match off with
  | 0x00 | 0x04 => halves .epc off
  | 0x08 => whole .emask
  | _ => if 0x40 ≤ off && off < 0x80 then whole (.frec ((off - 0x40) / 4)) else none

/-- The management function's BAR0 (R340, R350, R352, R356); the capability list stands at CAPPTR. -/
def pfReg (capptr off : Nat) : Option (Reg × Bool) :=
  if off < 8 then halves .bustat off
  else if off < 16 then halves .capptr off
  else if 0x100 ≤ off && off < 0x300 then
    let n := (off - 0x100) / 64
    if (off - 0x100) % 64 < 8 then halves (.partn n) off else halves (.carve n ((off - 0x100) % 64 / 8 - 1)) off
  else if capptr ≤ off then whole (.caps (off - capptr))
  else none

/-- Block 0x12: its ring registers stand from READY on (R341, R351). -/
def State.cpBlock (s : State) (off : Nat) : Option (Reg × Bool) :=
  if s.pkg.stage < 7 && (ringReg off).isSome then none else cpReg off

/-- The block of a system address as an agent sees it (R256, R317): how its offsets name registers; none where it is
unmapped. -/
def State.block (s : State) (a : Agent) (addr : Nat) : Option (Nat → Option (Reg × Bool)) :=
  let b := addr / 2 ^ 24
  let handling := match a.warp.bind (nth s.warps) with
    | some w => w.handler.isSome
    | none => false
  if handling then if b = 0x20 then some handlerReg else none
  else if b = 0 then a.die.map dieReg
  else if b ≤ 8 then
    if (s.part a.part).dies.getLsbD (b - 1) && s.pkg.dies.getLsbD (b - 1) then some (dieReg (b - 1)) else none
  else if b = 0x10 then some schedReg
  else if b = 0x11 then some etReg
  else if b = 0x12 then some s.cpBlock
  else none

/-! The capability list (R356). -/

/-- An entry: ID and body, the body padded to 8 bytes. -/
def padded (bs : List Byte) : List Byte := bs ++ List.replicate ((8 - bs.length % 8) % 8) 0

def Package.capBodies (k : Package) : List (Nat × List Byte) :=
  let types := mma9
  let cells := (List.range 8).flatMap fun d => leBytes 4 (if k.dies.getLsbD d then ((nth k.cells d).getD 0).toNat else 0)
  let shapes := (List.range 16).flatMap fun c => leBytes 4 (match Ty.ofCode c with
    | some t => if types.contains t then
        (List.range 32).foldl (fun n x => n + if shapeOk t x then 2 ^ x else 0) 0
      else 0
    | none => 0)
  let formats := types.foldl (fun n t => n + 2 ^ t.code) 0
  let port (p : Nat) : List Byte := leBytes 8 (let c := (nth k.cxl p).getD 0 * 2 ^ 30; c - c / 256)
  [(1, leBytes 4 k.number ++ leBytes 4 k.dies.toNat ++ cells), (2, leBytes 8 0xFF), (3, leBytes 4 k.dgen ++ leBytes 4 0),
   (4, leBytes 4 formats), (5, shapes), (6, leBytes 4 k.device ++ leBytes 4 k.group ++ leBytes 4 k.ports.toNat),
   (7, leBytes 8 Config.packageBytes ++ (List.range 4).flatMap port),
   (8, leBytes 4 k.services.length ++ k.services.flatMap fun (x : Word32) => leBytes 4 x.toNat),
   (9, leBytes 4 k.svn.toNat ++ leBytes 4 k.release.toNat)]

/-- Lay entries out from an offset, each with its header. -/
def capLayout : Nat → List (Nat × List Byte) → List Byte
  | _, [] => []
  | at_, (id, body) :: rest =>
    let b := padded body
    let next := at_ + 8 + b.length
    leBytes 8 (id + 2 ^ 16 + 2 ^ 32 * (if rest.isEmpty then 0 else next)) ++ b ++ capLayout next rest

/-- CAPS writes the list (R351, R356). -/
def Package.writeCaps (k : Package) : Package := { k with caps := capLayout k.capptr.toNat k.capBodies }

/-- Where the DECODE entry's body lies in the list: after PART, FEATURES and its own header. -/
def capDecodeAt : Nat := 8 + 40 + (8 + 8) + 8

/-- A decode table is swapped in: the list's DECODE entry changes, and nothing else of it (R335, R356). -/
def Package.installed (k : Package) (n : Nat) : Package :=
  { k with dgen := n, install := none, caps := k.caps.take capDecodeAt ++ leBytes 4 n ++ k.caps.drop (capDecodeAt + 4) }

/-! Reading. -/

/-- Whether a launch holds its partition's table: a recording or replaying one, from its dispatch until it has ENDED (R302). -/
def Launch.holds (l : Launch) (pi : Nat) : Bool := l.part == pi && l.lrec.det != 0 && l.began && decide (l.phase ≠ .ended)

/-- Etesian's HELD (R302). -/
def State.held (s : State) (pi : Nat) : Bool := s.launches.any fun l => l.holds pi

/-- Whether some launch of a partition holds a reference to a version (R254, R297). -/
def State.verHeld (s : State) (pi ver : Nat) : Bool :=
  s.launches.any fun (l : Launch) => l.part == pi && l.grants.any fun g => g.ver == ver

/-- A publication waits for its VER (R297). -/
def State.vwait (s : State) (pi : Nat) : Bool :=
  let t := (s.part pi).et
  !t.waiting.isEmpty && s.verHeld pi ((t.ver + 1) % 2 ^ 16)

/-- An interval begins (R292, R295). -/
def Etesian.begin_ (t : Etesian) (now : Nat) : Etesian :=
  let copy (k : Copy) : Copy := { k with routes := 0, whole := decide (k.phase = .live) }
  { t with
    since := now, samples := [], nsamples := 0
    experts := t.experts.map fun x =>
      { x with routes := 0, thr := x.next.getD x.thr, next := none, copies := x.copies.map copy } }

/-- Copies in flight (R291, R296). -/
def Etesian.inflight (t : Etesian) : Nat :=
  (t.experts.flatMap (·.copies)).countP fun (k : Copy) => decide (k.phase = .copying) || decide (k.phase = .verifying)

def State.ring (s : State) (pi n : Nat) : Ring := FMap.get {} (s.part pi).rings n
def State.modRing (s : State) (pi n : Nat) (f : Ring → Ring) : State :=
  s.modPart pi fun p => { p with rings := FMap.set {} p.rings n (f (FMap.get {} p.rings n)) }

/-- The value of a register (R10). -/
def State.regValue (s : State) (a : Agent) (r : Reg) : Nat :=
  let p := s.part a.part
  let t := p.et
  let handler := (a.warp.bind (nth s.warps)).bind (·.handler)
  match r with
  | .consctl d => s.consctl d
  | .qcfg q => (FMap.get {} p.queues q).cfg.toNat
  | .qstat q =>
    let pend := s.launches.countP fun (l : Launch) =>
      l.part == a.part && l.queue == some q && (decide (l.phase = .queued) || decide (l.phase = .ready))
    2 ^ 16 * min pend 0xFFFF + 8 * (s.queueReady a.part q).toNat + (FMap.get {} p.queues q).level
  | .ectl => t.ectl.toNat
  | .eintv => t.eintv.toNat
  | .estat => 2 ^ 16 * t.ver + 256 * t.lost + 16 * t.inflight + 8 * (s.held a.part).toNat + 4 * (s.vwait a.part).toNat
  | .ecmdaddr => t.cmdAddr.toNat
  | .ecmd => 2 ^ 31 * t.busy.toNat + 2 ^ 28 * t.result + t.op
  | .eevbase => t.evBase.toNat
  | .eevsize => t.evSize.toNat
  | .eevhead => t.evHead.toNat
  | .eevtail => t.evTail.toNat
  | .epool d => let x := FMap.get (0, 0) t.pools d; 2 ^ 16 * x.2 + 256 * x.1
  | .eload e => (FMap.get 0 t.loads e).toNat
  | .ptroot => p.ptroot.toNat
  | .prbase => p.prbase.toNat
  | .prcount => p.prcount
  | .frbase => p.frbase.toNat
  | .frsize => p.frsize
  | .frhead => p.frhead.toNat
  | .frtail => p.frtail.toNat
  | .freplay => 0
  | .ctxbase => p.ctxbase.toNat
  | .ctxsize => p.ctxsize.toNat
  | .rbase n => (s.ring a.part n).base.toNat
  | .rsize n => (s.ring a.part n).size.toNat
  | .rhead n => (s.ring a.part n).head.toNat
  | .rtail n => (s.ring a.part n).tail.toNat
  | .rerr n => (s.ring a.part n).err.toNat
  | .cbase n => (s.ring a.part n).cbase.toNat
  | .csize n => (s.ring a.part n).csize.toNat
  | .ctail n => (s.ring a.part n).ctail.toNat
  | .chead n => (s.ring a.part n).chead.toNat
  | .caps off => leNat ((s.pkg.caps.drop off).take 4)
  | .bustat => 2 ^ 32 * s.pkg.detail.toNat + 256 * s.pkg.code + s.pkg.stage
  | .capptr => s.pkg.capptr.toNat
  | .partn n => let q := s.part n; 256 * q.en.toNat + (q.dies &&& s.pkg.dies).toNat
  | .carve n j => ((nth (s.part n).carves j).getD 0).toNat
  | .epc => match handler with
    | some h => h.epc.toNat
    | none => 0
  | .emask => match handler with
    | some h => h.emask.toNat
    | none => 0
  | .frec k => match handler with
    | some h => leNat ((h.frec.bytes.drop (4 * k)).take 4)
    | none => 0

/-- The 4 bytes at an offset of a block: zero where nothing stands. -/
def State.readWord (s : State) (a : Agent) (block : Nat → Option (Reg × Bool)) (off : Nat) : Nat :=
  match block off with
  | none => 0
  | some (r, high) => if high then s.regValue a r / 2 ^ 32 else s.regValue a r % 2 ^ 32

/-- A read of 4 or 8 aligned bytes of a block. -/
def State.readBlock (s : State) (a : Agent) (block : Nat → Option (Reg × Bool)) (off size : Nat) : Nat :=
  if size = 8 then s.readWord a block off + 2 ^ 32 * s.readWord a block (off + 4) else s.readWord a block off

/-! Replays (R310). -/

/-- What a FREPLAY write does to a sleeping entry whose sleep has not ended in a fault. -/
def Split.replayed (e : Split) (all cancel : Bool) (page : Nat) : Split :=
  match e.block with
  | .sleep pages cancelled failed =>
    let hit (x : Sleep) : Bool := x.reg.isNone && (all || x.page == page)
    if cancelled || failed.isSome || !pages.any hit then e
    else if cancel then { e with block := .sleep (pages.filter hit) true failed }
    else { e with block := .sleep (pages.filter fun x => !hit x) cancelled failed }
  | _ => e

def EOp.replayed (o : EOp) (all cancel : Bool) (page : Nat) : EOp :=
  match o.phase with
  | .asleep x =>
    if x.reg.isNone && (all || x.page == page) && !o.cancelled && o.failed.isNone then
      if cancel then { o with cancelled := true } else { o with phase := .running }
    else o
  | _ => o

/-- What a FREPLAY write does to a copy whose die agent waits for a page (R296, R310). -/
def Copy.replayed (k : Copy) (all cancel : Bool) (page : Nat) : Copy :=
  match k.sleep with
  | some x =>
    if x.reg.isNone && (all || x.page == page) then { k with sleep := none, refused := cancel } else k
  | none => k

def Etesian.replayed (t : Etesian) (all cancel : Bool) (page : Nat) : Etesian :=
  { t with experts := t.experts.map fun x => { x with copies := x.copies.map fun k => k.replayed all cancel page } }

/-- A gang's staging goes on, or ends its launch with a fault, as a page that it waits for is settled (R284, R310, R312) [35]. -/
def State.settleStaging (s : State) (pi : Nat) (hit : Sleep → Bool) (failed : Option (FClass × Nat)) : State :=
  (List.range s.gangs.length).foldl (fun s gi => match nth s.gangs gi with
    | some g => match g.staging, nth s.launches g.launch with
      | some x, some l =>
        if l.part ≠ pi || !hit x then s
        else
          let s := s.modGang gi fun g => { g with staging := none }
          match failed with
          | none => s
          | some (cls, cause) => if l.phase ≠ .dispatched || l.dying then s
              else s.dieWith g.launch (launchRec l cls cause (BitVec.ofNat 64 x.addr) 0)
      | _, _ => s
    | none => s) s

/-- A FREPLAY write (R310). -/
def State.freplay (s : State) (pi value : Nat) : State :=
  if bits value 63 56 ≠ 0 || bits value 15 2 ≠ 0 then s
  else
    let page := bits value 55 16
    let all := bit value 1
    let cancel := bit value 0
    let ws := s.warps.map fun (w : Warp) =>
      if s.partOf w.gang == pi then w.unblocked (s.marked pi) fun e => e.replayed all cancel page else w
    let os := s.ops.map fun (o : EOp) => if s.partOf o.gang == pi then o.replayed all cancel page else o
    let s := { s with warps := ws, ops := os }
    let s := s.modPart pi fun p => { p with et := p.et.replayed all cancel page }
    let s := s.settleStaging pi (fun x => x.reg.isNone && (all || x.page == page)) (if cancel then some (.translation, 0) else none)
    (List.range 8).foldl (fun s d =>
      if (s.part pi).dies.getLsbD d && s.pkg.dies.getLsbD d then s.fwEvent d 2 page else s) s

/-! Writing. -/

/-- A write of QCFG (R277). -/
def qcfgWrite (old new : Nat) : Nat :=
  let m0 := bits old 63 48
  let n0 := bits old 47 32
  let m := bits new 63 48
  let n := bits new 47 32
  let q : Nat × Nat :=
    if m = 0 && n = 0 then (m0, n0)
    else if m = 0 then (m0, if n ≤ m0 then n else n0)
    else if n = 0 then (if n0 ≤ m then m else m0, n0)
    else if n ≤ m then (m, n) else (m0, n0)
  let age := if bits new 31 16 = 0 then bits old 31 16 else bits new 31 16
  2 ^ 48 * q.1 + 2 ^ 32 * q.2 + 2 ^ 16 * age + bits new 4 0

/-- Whether a doorbell value is accepted (R341): it lies at or ahead of RTAIL and at most 2^k ahead of RHEAD. -/
def Ring.accepts (r : Ring) (v : Word32) : Bool :=
  let k := r.size.toNat % 16
  4 ≤ k && k ≤ 12 && (v - r.tail).toNat ≤ (v - r.head).toNat && (v - r.head).toNat ≤ 2 ^ k

/-- The write of RTAIL (R341): the new entries are read, or RERR shows that the value was ignored. -/
def State.doorbell (s : State) (pi n : Nat) (v : Word32) : State :=
  let r := s.ring pi n
  if !r.accepts v then s.modRing pi n fun r => { r with err := true }
  else
    let read (i : Nat) : List Byte :=
      match s.readVa pi (r.base.toNat + 64 * ((r.tail.toNat + i) % 2 ^ (r.size.toNat % 16))) 64 with
      | .ok bs => bs
      | .error _ => []
    s.modRing pi n fun r => { r with tail := v, entries := r.entries ++ (List.range (v - r.tail).toNat).map read }

/-- A ring's addresses and sizes change only while it is empty (R341). -/
def Ring.idle (r : Ring) : Bool := r.head = r.tail

/-- Whether every launch of every partition has ended (R350). -/
def State.allEnded (s : State) : Bool := s.launches.all fun (l : Launch) => decide (l.phase = .ended)

/-- Whether a carve-out overlaps one of another partition (R350). -/
def State.carveClash (s : State) (n : Nat) (c : Word64) : Bool :=
  (List.range 8).any fun m => m != n && (s.part m).carves.any fun (x : Word64) =>
    overlap (bits c.toNat 51 30 * 2 ^ 30) (bits c.toNat 63 52 * 2 ^ 30) (bits x.toNat 51 30 * 2 ^ 30) (bits x.toNat 63 52 * 2 ^ 30)

/-- The write of ECMD (R291): a command starts, or RESULT shows that one is being carried out. -/
def Etesian.command (t : Etesian) (op : Nat) : Etesian :=
  if op = 0 then t else if t.busy then { t with result := 4 } else { t with busy := true, op := op, result := 0 }

/-- A write of a whole register (R10). -/
def State.writeReg (s : State) (a : Agent) (r : Reg) (v : Nat) : State :=
  let pi := a.part
  let v32 : Word32 := BitVec.ofNat 32 v
  let v64 : Word64 := BitVec.ofNat 64 v
  let part (f : Part → Part) : State := s.modPart pi f
  let et (f : Etesian → Etesian) : State := s.modPart pi fun p => { p with et := f p.et }
  let ring (n : Nat) (f : Ring → Ring) : State := s.modRing pi n f
  let handler (f : Handler → Handler) : State := match a.warp with
    | some wi => s.modWarp wi fun w => { w with handler := w.handler.map f }
    | none => s
  match r with
  | .consctl d =>
    let rb := if v % 16 = 0 then s.consctl d % 16 else v % 16
    s.modPkg fun k => { k with consctl := FMap.set consReset k.consctl d (BitVec.ofNat 32 (bits v 29 12 * 2 ^ 12 + rb)) }
  | .qcfg q => s.noteReady (part fun p =>
    let x := FMap.get ({} : Queue) p.queues q
    { p with queues := FMap.set {} p.queues q { x with cfg := BitVec.ofNat 64 (qcfgWrite x.cfg.toNat v) } }) pi (some q)
  | .ectl =>
    let now := s.pkg.clock.toNat
    et fun t =>
      let u := if v32.getLsbD 0 && !t.ectl.getLsbD 0 then t.begin_ now else t
      { u with ectl := v32 &&& 0x07FFFF01 }
  | .eintv => et fun t =>
    let c := if bits v 31 16 = 0 then bits t.eintv.toNat 31 16 else bits v 31 16
    let n := if bits v 15 0 = 0 then bits t.eintv.toNat 15 0 else bits v 15 0
    { t with eintv := BitVec.ofNat 32 (2 ^ 16 * c + n) }
  | .estat => et fun t => { t with lost := bits v 15 8 }
  | .ecmdaddr => et fun t => { t with cmdAddr := v64 }
  | .ecmd => et fun t => t.command (v % 16)
  | .eevbase => et fun t => { t with evBase := v64 }
  | .eevsize => et fun t => { t with evSize := v32 &&& 31 }
  | .eevhead => et fun t => { t with evHead := v32 }
  | .epool d => et fun t =>
    if bits v 15 8 + bits v 23 16 > 96 then t else { t with pools := FMap.set (0, 0) t.pools d (bits v 15 8, bits v 23 16) }
  | .ptroot => part fun p => { p with ptroot := v64 }
  | .prbase => part fun p => { p with prbase := v64 }
  | .prcount => part fun p => if v % 2 ^ 32 > 4096 then p else { p with prcount := v % 2 ^ 32 }
  | .frbase => part fun p => { p with frbase := v64 }
  | .frsize => part fun p => { p with frsize := v % 16 }
  | .frhead => part fun p => { p with frhead := v32 }
  | .freplay => s.freplay pi v
  | .ctxbase => part fun p => { p with ctxbase := v64 }
  | .ctxsize => part fun p => { p with ctxsize := v64 }
  | .rbase n => ring n fun x => if x.idle then { x with base := v64 } else x
  | .rsize n => ring n fun x => if x.idle then { x with size := v32 &&& 15 } else x
  | .rtail n => s.doorbell pi n v32
  | .rerr n => ring n fun x => if bit v 0 then { x with err := false } else x
  | .cbase n => ring n fun x => if x.idle then { x with cbase := v64 } else x
  | .csize n => ring n fun x => if x.idle then { x with csize := v32 &&& 15 } else x
  | .chead n => ring n fun x => { x with chead := v32 }
  | .partn n =>
    let dies := BitVec.ofNat 8 v &&& s.pkg.dies
    let en := bit v 8
    let clash := en && (List.range 8).any fun m => m != n && (s.part m).en && decide ((s.part m).dies &&& dies ≠ 0)
    if s.pkg.stage < 7 || !s.allEnded || clash then s else s.modPart n fun p => { p with en := en, dies := dies }
  | .carve n j =>
    let c : Word64 := BitVec.ofNat 64 (bits v 63 30 * 2 ^ 30)
    if s.pkg.stage < 7 || !s.allEnded || s.carveClash n c then s else s.modPart n fun p => { p with carves := setAt p.carves j c }
  | .epc => handler fun h => { h with epc := v64 }
  | .emask => handler fun h => { h with emask := v32 }
  | .qstat _ | .eevtail | .eload _ | .frtail | .rhead _ | .ctail _ | .caps _ | .bustat | .capptr | .frec _ => s

/-- A write of 4 bytes at an offset of a block: half of a wide register, the other half as it reads. -/
def State.writeWord (s : State) (a : Agent) (block : Nat → Option (Reg × Bool)) (off v : Nat) : State :=
  match block off with
  | none => s
  | some (r, high) =>
    let old := s.regValue a r
    if !r.wide then s.writeReg a r v
    else if high then s.writeReg a r (old % 2 ^ 32 + 2 ^ 32 * v)
    else s.writeReg a r (old / 2 ^ 32 * 2 ^ 32 + v)

/-- A write of 4 or 8 aligned bytes of a block. -/
def State.writeBlock (s : State) (a : Agent) (block : Nat → Option (Reg × Bool)) (off size v : Nat) : State :=
  if size ≠ 8 then s.writeWord a block off (v % 2 ^ 32)
  else match block off with
    | some (r, false) => if r.wide then s.writeReg a r (v % 2 ^ 64)
        else (s.writeWord a block off (v % 2 ^ 32)).writeWord a block (off + 4) (v / 2 ^ 32 % 2 ^ 32)
    | _ => (s.writeWord a block off (v % 2 ^ 32)).writeWord a block (off + 4) (v / 2 ^ 32 % 2 ^ 32)

end Sys2Proof.Machine
end

