-- ==== Sys2Proof/Machine/WarpEvents.lean ====
section
/-! DEFINITION. The steps of a warp other than its issues: answers and completions that end a wait (R255, R260, R261),
checkpoints (R134 to R138), serial mode (R137), yielding (R39) and MASKWAIT (R210). -/

namespace Sys2Proof.Machine

open Sys2Proof

/-! Waits that end from outside. -/

/-- The entry of a warp with these lanes. -/
def Warp.entryOf (w : Warp) (lanes : Lanes) : Option Split := w.entries.find? fun e => e.lanes = lanes

/-- The blocked split goes on at the next slot (R363). -/
def Warp.unblock (w : Warp) (marked : Addr → Bool) (lanes : Lanes) : Warp :=
  w.unblocked marked fun e => if e.lanes = lanes && !e.ready then { e with pc := nextSlot e.pc, block := .ready } else e

/-- The wait ends with a value for a uniform register. -/
def Warp.answer (w : Warp) (marked : Addr → Bool) (lanes : Lanes) (dst : BitVec 6) (x : Word64) (tag : Bool) : Warp :=
  let w := (w.unblock marked lanes).mapCores fun k => k.setK dst.toNat ⟨x, tag⟩
  { w with latch := w.latch.filter fun x => !x.regs.contains (.k dst) }

/-- What a request's code is answered with: all ones where the firmware offers no such service (R255). -/
def State.answerOf (s : State) (r : SvcReq) (x : Word64) : Word64 := if s.pkg.services.contains r.code then x else 0xFFFFFFFFFFFFFFFF

/-- R255: a gang off the cells keeps its answer until it resumes. -/
def execSvcAnswer (wi : Nat) (split : Lanes) (answer : Word64) (s : State) : Result :=
  match nth s.warps wi, s.requests.find? fun r => r.warp == wi && r.lanes == split with
  | some w, some r => match w.entryOf split with
    | some ⟨_, _, _, .svc dst tag none⟩ =>
      let x := s.answerOf r answer
      let s := { s with requests := s.requests.erase r }
      if s.running w.gang then .next (s.modWarp wi fun w => w.answer (s.marked (s.partOf w.gang)) split dst x tag)
      else .next (s.modWarp wi fun w => w.mapFrontiers fun l => l.map fun e =>
        if e.lanes = split then { e with block := .svc dst tag (some x) } else e)
    | _ => notEnabled
  | _, _ => notEnabled

/-- Whether a TLBI removes what a checkpoint's access has used of a page, and the tables give another translation now (R260). -/
def State.outdated (s : State) (pi : Nat) (va : Option Nat) (x : Nat × Nat) : Bool :=
  let covered := match va with
    | none => true
    | some a => a / 65536 == x.1 || s.tlb.any fun t => t.covers pi a && pteType t.pte != 0 && t.covers pi (x.1 * 65536)
  covered && match s.walk (s.part pi) (x.1 * 65536) with
    | .ok pa _ => s.pkg.norm pa / 65536 != x.2
    | _ => true

/-- An access that a checkpoint still holds back would perform by a translation that has been removed: the checkpoint rolls back, and
the access issues afresh (R260) [26]. -/
def State.dropSpeculation (s : State) (pi : Nat) (va : Option Nat) : State :=
  { s with warps := s.warps.map fun w =>
      if s.partOf w.gang != pi then w
      else { w with ckpts := w.ckpts.map fun k => if k.pages.any (s.outdated pi va) then { k with conflict := true } else k } }

/-- R260: the removal is complete on every die. -/
def execTlbiCompletion (wi : Nat) (split : Lanes) (s : State) : Result :=
  match nth s.warps wi with
  | none => notEnabled
  | some w => match w.entryOf split with
    | some ⟨_, _, _, .tlbi va⟩ =>
      let pi := s.partOf w.gang
      let va := va.map (·.toNat)
      let s := (s.dropSpeculation pi va).dropTlb pi va
      .next (s.modWarp wi fun w => w.unblock (s.marked pi) split)
    | _ => notEnabled

/-- R261. -/
def execIdleWake (wi : Nat) (split : Lanes) (s : State) : Result :=
  match nth s.warps wi with
  | none => notEnabled
  | some w => match w.entryOf split with
    | some ⟨_, _, _, .idle dst tag deadline woken⟩ =>
      if !s.running w.gang then notEnabled
      else if woken then .next (s.modWarp wi fun w => w.answer (s.marked (s.partOf w.gang)) split dst 1 tag)
      else if deadline.toNat ≤ s.pkg.clock.toNat then .next (s.modWarp wi fun w => w.answer (s.marked (s.partOf w.gang)) split dst 0 tag)
      else notEnabled
    | _ => notEnabled

/-! Checkpoints. -/

/-- Operations queued under the oldest checkpoint fork, the others wait for one commit less (R127, R128). -/
def EOp.committed (o : EOp) : EOp :=
  match o.phase with
  | .queued n => { o with phase := if n ≤ 1 then .running else .queued (n - 1) }
  | _ => o

/-- The oldest checkpoint's stores perform, issue by issue (R134). -/
def State.performStores (s : State) (wi die : Nat) (stores : List (List Buffered)) : State :=
  stores.foldl (fun s ws =>
    let ws := ws.map Buffered.write
    (s.store (some wi) ws).reportErrors die ws) s

/-- R134, R138. -/
def execCheckpointCommit (wi : Nat) (s : State) : Result :=
  match nth s.warps wi with
  | none => notEnabled
  | some w => match w.ckpts, nth s.gangs w.gang with
    | k :: ks, some g =>
      if !s.running w.gang || k.conflict || w.asleep then notEnabled
      else
        let s := s.modWarp wi fun w => { w with ckpts := ks, slow := w.slow && !ks.isEmpty, rbRow := w.rbRow.tail }
        let s := s.performStores wi g.die k.stores
        let s := { s with ops := s.ops.map fun (o : EOp) => if o.warp = wi then o.committed else o }
        let s := k.cctls.foldl (fun s x => s.cacheOp (dequeKey g.die g.cell w.core) wi x) s
        let s := match k.held with
          | some f => s.deliver wi f (w.c.faultedLanes f)
          | none => s
        .next (((s.depart w.gang).settlePending wi).settleEnd wi)
    | _, _ => notEnabled

/-- R134, R136, R137: a conflict, which an eviction or a signature match may be without anything having changed. -/
def execRollback (wi ckpt : Nat) (s : State) : Result :=
  match nth s.warps wi with
  | none => notEnabled
  | some w => match nth w.ckpts ckpt with
    | none => notEnabled
    | some k =>
      if s.running w.gang && (k.conflict || !k.marks.isEmpty || !k.localMarks.isEmpty) then .next (s.rollback wi ckpt true)
      else notEnabled

/-- R137. -/
def execSerialModeEnd (wi : Nat) (s : State) : Result :=
  match nth s.warps wi with
  | none => notEnabled
  | some w =>
    if w.ser && w.serLeft == 0 then .next (s.modWarp wi fun w => { w with ser := false, rbRow := [] }) else notEnabled

/-! Selection. -/

/-- R39: the first of its two cases, which comes before the next issue. -/
def execWaitCountYield (wi : Nat) (s : State) : Result :=
  match s.issuer wi with
  | none => notEnabled
  | some (w, g, l) =>
    let c := s.refreshed w g l.part
    if c.frontier.any fun e => e.lanes != c.sel && e.issues && 256 ≤ e.wait then
      match longestWait (c.frontier.filter Split.issues) with
      | some x =>
        if x.lanes = c.sel then notEnabled
        else .next (s.modWarp wi fun w => w.reselect { c with sel := x.lanes, yielded := false })
      | none => notEnabled
    else notEnabled

/-- R210: a bound that has come stops every other issue of the warp until the fault is taken. -/
def execMaskwait (wi : Nat) (split : Lanes) (s : State) : Result :=
  match s.issuer wi with
  | none => notEnabled
  | some (w, g, l) =>
    let c := s.refreshed w g l.part
    match c.frontier.find? fun e => e.lanes = split with
    | some ⟨lanes, pc, _, .collective _ since⟩ =>
      let stuck := c.frontier.all fun (e : Split) => match e.block with
        | .collective _ _ => true
        | _ => false
      if 65536 ≤ since || stuck then .next (s.raiseFault wi pc lanes { cls := .maskwait, lanes := lanes }) else notEnabled
    | _ => notEnabled

end Sys2Proof.Machine
end

