-- ==== Sys2Proof/Machine/Sched.lean ====
section
/-! DEFINITION. The steps of the scheduler and of the die controllers: launches (R274 to R279, R364), ageing (R278, R280),
placement and staging (R48, R281 to R284), quanta and pre-emption (R285, R286, R322 to R325), and scheduler-initiated
migration (R287). -/

namespace Sys2Proof.Machine

open Sys2Proof

/-- Ticks of CLOCK in a number of microseconds. -/
def micros (n : Nat) : Nat := 1000 * n

/-! Launches. -/

/-- Launches of a partition submitted before one that hold a handle, with whether they hold it RW. -/
def State.holders (s : State) (l : Launch) (index : Nat) : List (Launch × Bool) :=
  s.launches.filterMap fun (m : Launch) =>
    if m.part == l.part && m.order < l.order then (m.lrec.handles.find? fun h => h.index == index).map fun h => (m, h.rw)
    else none

/-- R279 for one handle: its last writer has ended, and for a writer every earlier holder. -/
def State.handleFree (s : State) (l : Launch) (h : HandleRef) : Bool :=
  let hs := s.holders l h.index
  let ended (m : Launch) : Bool := decide (m.phase = .ended)
  (match (hs.filter (·.2)).getLast? with
    | some w => ended w.1
    | none => true) && (!h.rw || hs.all fun x => ended x.1)

/-- R274, R279. -/
def execLaunchReady (li : Nat) (s : State) : Result :=
  match nth s.launches li with
  | none => notEnabled
  | some l =>
    if l.phase = .queued && l.lrec.waits.all (·.reached) && l.lrec.handles.all (s.handleFree l) then
      .next (s.noteReady (s.modLaunch li fun l => { l with phase := .ready }) l.part l.queue)
    else notEnabled

/-- R274: an object that cannot be read counts as not reached. -/
def execWaitObjectPoll (li : Nat) (s : State) : Result :=
  match nth s.launches li with
  | none => notEnabled
  | some l =>
    if l.phase = .queued && l.lrec.waits.any fun w => !w.reached then
      let read (w : WaitObj) : WaitObj := { w with reached := w.reached || match s.readNat l.part w.addr.toNat 8 with
        | some v => w.value.toNat ≤ v
        | none => false }
      .next (s.modLaunch li fun l => { l with lrec := { l.lrec with waits := l.lrec.waits.map read } })
    else notEnabled

/-- The queue that the scheduler serves: the highest LEVEL, then the next after the one served last at that level (R278). -/
def State.servedQueue (s : State) (pi : Nat) : Option Nat :=
  let p := s.part pi
  let level (q : Nat) : Nat := (FMap.get ({} : Queue) p.queues q).level
  let ready := (List.range 64).filter fun q => s.queueReady pi q
  let top := ready.foldl (fun m q => max m (level q)) 0
  let here := ready.filter fun q => level q == top
  match here.find? fun q => match FMap.get none (p.served.map fun e => (e.1, some e.2)) top with
      | some last => decide (last < q)
      | none => true with
  | some q => some q
  | none => here.head?

/-- R49, R274, R278, R364. A decode table that waits to be installed holds every dispatch (R335). -/
def execDispatch (pi : Nat) (s : State) : Result :=
  match s.servedQueue pi with
  | none => notEnabled
  | some q => match s.headOf pi q with
    | none => notEnabled
    | some li => match nth s.launches li with
      | none => notEnabled
      | some l =>
        if s.pkg.install.isSome then notEnabled
        else
          let p := s.part pi
          let x := FMap.get ({} : Queue) p.queues q
          let s := s.modPart pi fun p =>
            { p with served := FMap.set 64 p.served x.level q }
          .next ((s.dispatch li x.level (p.baseOf q l.lrec.prio)).newHead pi q)

/-- R278. -/
def execQueueAgeing (pi q : Nat) (s : State) : Result :=
  let x := FMap.get ({} : Queue) (s.part pi).queues q
  let due := x.agedAt + micros (bits x.cfg.toNat 31 16)
  if q < 64 && s.queueReady pi q && x.level < 7 && due ≤ s.pkg.clock.toNat then
    .next (s.modPart pi fun p => { p with queues := FMap.set {} p.queues q { x with level := x.level + 1, agedAt := due } })
  else notEnabled

/-- R276. -/
def execLaunchTimeout (li : Nat) (s : State) : Result :=
  match nth s.launches li with
  | none => notEnabled
  | some l =>
    if l.phase = .dispatched && !l.dying && l.lrec.timeout ≠ 0
        && l.dispatchedAt + micros (1000 * l.lrec.timeout) ≤ s.pkg.clock.toNat then .next (s.forceEnd li 3)
    else notEnabled

/-- The status word (R275). -/
def Launch.status (l : Launch) : Nat := 2 ^ 32 * l.started + 2 ^ 16 * min l.refs 0xFFFF + l.code

/-- The writes of a launch's end: the status word, then DONE; each is dropped where it cannot be performed (R275). -/
def State.signalEnd (s : State) (l : Launch) : State :=
  let s := if l.lrec.staddr = 0 then s else (s.writeVa l.part l.lrec.staddr.toNat (leBytes 8 l.status)).getD s
  if l.lrec.done = 0 then s
  else if l.lrec.done.toNat % 8 ≠ 0 then s
  else (s.raiseVa l.part l.lrec.done.toNat).getD s

/-- The launch as it ends: the references that it holds drop and are counted, with no RTREL of its grants, and a recording that
stopped short gives CODE TRACEFULL if no other code applies (R254, R275, R288, R294). -/
def Launch.closed (l : Launch) : Launch :=
  { l with refs := l.refs + l.grants.length, grants := [], code := if l.code = 0 && l.overflow then 5 else l.code }

/-- R54, R254, R274, R275; the launch waits while a record of it waits for the fault ring (R318). -/
def execLaunchEnded (li : Nat) (s : State) : Result :=
  match nth s.launches li with
  | none => notEnabled
  | some l =>
    if l.phase ≠ .ending || (s.part l.part).pendingRecs.any fun r => r.frec.lseq == l.seq then notEnabled
    else .next (s.noteReady ((s.signalEnd l.closed).modLaunch li fun l => { l.closed with phase := .ended }) l.part l.queue)

/-! Gangs. -/

/-- Whether a gang is eligible and not resident: one that has been pre-empted is from then on, while its context is saved (R280, R286). -/
def State.ages (s : State) (gi : Nat) : Bool :=
  s.waiting gi || (match nth s.gangs gi with
    | some g => decide (g.phase = .saving) && (match nth s.launches g.launch with
      | some l => decide (l.phase = .dispatched) && !l.dying
      | none => false)
    | none => false)

/-- R280. -/
def execGangAgeing (gi : Nat) (s : State) : Result :=
  match nth s.gangs gi with
  | none => notEnabled
  | some g => match nth s.launches g.launch with
    | none => notEnabled
    | some l =>
      let due := g.agedAt + micros (s.quantaOf l 31 16)
      if s.ages gi && g.e < 7 && due ≤ s.pkg.clock.toNat then
        .next (s.modGang gi fun g => { g with e := g.e + 1, agedAt := due })
      else notEnabled

/-- Whether a replaying launch can place this gang no more, or none of its gangs can go on (R290). -/
def State.placementLost (s : State) (gi : Nat) : Bool :=
  match nth s.gangs gi with
  | none => false
  | some g => match nth s.launches g.launch with
    | none => false
    | some l => s.waiting gi && l.lrec.det == 2
        && (!(l.replay.any fun e => e.kind == 0 && e.gang == g.lin) || s.stuckOnTrace g.launch)

/-- R281 to R283, R290. -/
def execGangPlacement (gi die cell : Nat) (kind : CoreKind) (s : State) : Result :=
  match nth s.gangs gi with
  | none => notEnabled
  | some g => if s.placementLost gi then .next (s.diverge g.launch) else s.placeGang gi die cell kind false

/-- R290, R324. -/
def execResumption (gi die cell : Nat) (kind : CoreKind) (s : State) : Result :=
  match nth s.gangs gi with
  | none => notEnabled
  | some g => if g.started && s.placementLost gi then .next (s.diverge g.launch) else s.placeGang gi die cell kind true

/-! Staging (R48, R284). -/

/-- One piece of memory as an agent reads it: its bytes and tag, or what stops the reading, with the address. -/
def State.readPiece (s : State) (pi va size : Nat) : Except (Stop × Nat) (List Byte × Bool) :=
  match s.place (agentAccess pi va size false) with
  | .error e => .error (e.2, va)
  | .ok q => if s.poisoned q then .error (.fault .bus 0 q.prop, va) else .ok (s.loadAt q size)

/-- n pieces of a size from an address on, or what stops the reading of the first that cannot be read. -/
def State.readPieces (s : State) (pi va size : Nat) : Nat → Except (Stop × Nat) (List (List Byte × Bool))
  | 0 => .ok []
  | n + 1 => match s.readPiece pi va size with
    | .error e => .error e
    | .ok x => (s.readPieces pi (va + size) size n).map (x :: ·)

/-- A stage's source, by granules of 16 bytes (R48). -/
def State.stageSource (s : State) (pi va n : Nat) : Except (Stop × Nat) (List (List Byte × Bool)) := s.readPieces pi va 16 (n / 16)

/-- Write a staged copy, as one access for the sector rule. -/
def State.stageInto (s : State) (at_ : Nat → Loc) (src : List (List Byte × Bool)) : State :=
  s.store none ((List.range src.length).filterMap fun i => (nth src i).map fun x =>
    (⟨⟨at_ i, none, false, false, 0⟩, x.1, x.2⟩ : Write))

/-- The buffer of a stage. -/
def State.stageBuffer (s : State) (l : Launch) (st : Stage) : Option Handle :=
  (nth l.lrec.handles st.handle).bind fun h => FMap.get none (s.part l.part).handles h.index

/-- One stage of a gang: a copy in each group's local memory, or one in its vault. -/
def State.stageOne (s : State) (g : Gang) (l : Launch) (i : Nat) (st : Stage) : Except (Stop × Nat) State :=
  match s.stageBuffer l st with
  | none => .error (.fault .translation 2 false, st.offset)
  | some h => (s.stageSource l.part (h.base.toNat + st.offset) st.bytes).map fun src =>
    if st.vault then match g.vaults.find? fun v => v.1 == i with
      | some v => s.stageInto (fun k => .phys (v.2.1 + 16 * k)) src
      | none => s
    else
      let off := ((nth (localStages l.lrec.stages).1 i).join).getD 0
      g.localAt.foldl (fun s o => s.stageInto (fun k => .local g.cellKey (o + off + 16 * k)) src) s

/-- Every stage of a gang in order, or what stops the first that fails. -/
def State.stageAll (s : State) (g : Gang) (l : Launch) : Except (Stop × Nat) State :=
  (List.range l.lrec.stages.length).foldl (fun acc i => match acc, nth l.lrec.stages i with
    | .ok s, some st => s.stageOne g l i st
    | e, _ => e) (.ok s)

/-- Staging meets a page that is not present, or a RECOMPUTE entry: its record is posted, its producer started, and the gang waits
for the page. No other fault has a warp to take it: it ends the launch (R309, R312, R314, R365) [35]. -/
def State.stageStop (s : State) (gi : Nat) (g : Gang) (l : Launch) (stop : Stop) (addr : Nat) : State :=
  match stop with
  | .fault cls cause _ => s.dieWith g.launch (launchRec l cls cause (BitVec.ofNat 64 addr) 0)
  | .sleep va none =>
    (s.post l.part (bareRec l.seq .translation dispReplay 0 (BitVec.ofNat 64 va) 0) (.staging gi)).modGang gi fun g =>
      { g with staging := some { page := va / 65536, reg := none, addr := va } }
  | .sleep va (some n) =>
    match (s.post l.part (bareRec l.seq .recompute dispRecompute 0 (BitVec.ofNat 64 va) 0) (.staging gi)).startProducer g.launch n g.die with
    | (s, some c) => s.dieWith g.launch (launchRec l .recompute c (BitVec.ofNat 64 va) 0)
    | (s, none) => s.modGang gi fun g => { g with staging := some { page := va / 65536, reg := some n, addr := va } }

/-- Whether a record of a gang's staging waits for the fault ring: the gang waits with it (R318). -/
def State.stageRecordWaits (s : State) (pi gi : Nat) : Bool := (s.part pi).pendingRecs.any fun r => decide (r.after = .staging gi)

/-- R48, R284: every tile is in place and the gang starts. -/
def execStageCopy (gi : Nat) (s : State) : Result :=
  match nth s.gangs gi with
  | none => notEnabled
  | some g => match nth s.launches g.launch with
    | none => notEnabled
    | some l =>
      if g.phase ≠ .staging || g.staging.isSome || s.stageRecordWaits l.part gi || l.dying || l.phase ≠ .dispatched then notEnabled
      else match s.stageAll g l with
        | .error (stop, addr) => .next (s.stageStop gi g l stop addr)
        | .ok s =>
          let s := s.modGang gi fun g => { g with phase := .resident, started := true }
          .next (s.modLaunch g.launch fun l => { l with started := l.started + 1 })

/-! Quanta and pre-emption (R285, R322). -/

/-- R285: a placed gang reaches its minimum or its maximum quantum. -/
def execQuantumExpiry (gi : Nat) (s : State) : Result :=
  match nth s.gangs gi with
  | none => notEnabled
  | some g =>
    let t := s.pkg.clock.toNat - g.placedAt
    let q := if micros g.maxq ≤ t then 2 else if micros g.minq ≤ t then 1 else 0
    if (g.phase = .resident || g.phase = .staging) && g.quantum < q then
      .next (s.modGang gi fun g => { g with quantum := q })
    else notEnabled

/-- Bytes of a gang's context: of its operations, those that stop (R323). -/
def State.contextSize (s : State) (gi : Nat) (g : Gang) : Nat :=
  let r := s.recOf g
  let warps := s.warps.countP fun (w : Warp) => w.gang == gi
  let ops := s.ops.countP fun (o : EOp) => o.gang == gi && match o.phase with
    | .running | .asleep _ => true
    | .queued _ | .done => false
  1024 * (4 + 40 * warps + 32 * g.slots.length + 64 * g.tiles.length + 4 + ops) + r.localBytes * r.groups

/-- A free area of the context pool (R322). -/
def State.contextArea (s : State) (pi size : Nat) : Option (Nat × Nat) :=
  let p := s.part pi
  let used := (List.range s.gangs.length).filterMap fun i => match nth s.gangs i with
    | some g => if s.partOf i == pi then g.ctx else none
    | none => none
  (freeRange used p.ctxbase.toNat (p.ctxbase.toNat + p.ctxsize.toNat) 1024 size).map fun a => (a, size)

/-- Give a gang its area, if the pool has room; a gang that has not started saves nothing. -/
def State.giveArea (s : State) (gi : Nat) : Option State :=
  match nth s.gangs gi with
  | none => none
  | some g =>
    if !g.started then some s
    else (s.contextArea (s.partOf gi) (s.contextSize gi g)).map fun a => s.modGang gi fun g => { g with ctx := some a }

def State.giveAreas (s : State) : List Nat → Option State
  | [] => some s
  | gi :: rest => (s.giveArea gi).bind fun s => s.giveAreas rest

/-- The state as it will be once some gangs have left their cells, for reckoning alone: one that has not started leaves its vault
ranges too (R284). -/
def State.without (s : State) (gs : List Nat) : State :=
  { s with
    gangs := (List.range s.gangs.length).filterMap fun i => (nth s.gangs i).map fun (g : Gang) =>
      if gs.contains i then { g with phase := .stopped, vaults := if g.started then g.vaults else [] } else g
    deques := s.deques.filter fun e => !(match e.2.gang with
      | some g => gs.contains g
      | none => false) }

/-- Gangs already on their way off their cells. -/
def State.leaving (s : State) : List Nat :=
  (List.range s.gangs.length).filter fun i => match nth s.gangs i with
    | some g => decide (g.phase = .saving) || (decide (g.phase = .stopping) && g.ctx.isSome)
    | none => false

/-- Whether a gang has a lane that has not exited, or has yet to start: one whose lanes have all exited while its operations run is
never pre-empted (R54, R322). -/
def State.active (s : State) (gi : Nat) (g : Gang) : Bool := (s.warps.any fun (w : Warp) => w.gang == gi && w.live != 0) || !g.started

/-- The gangs that leave together with some: the placed ones of their cooperative launches (R283). -/
def State.closure (s : State) (gs : List Nat) : List Nat :=
  (gs.flatMap fun gi => (s.unit gi).filter fun i => match nth s.gangs i with
    | some g => (decide (g.phase = .resident) || decide (g.phase = .staging)) && s.active i g
    | none => false).dedup

/-- Whether a gang may be pre-empted for one of effective priority e (R285, R322). -/
def State.candidate (s : State) (gi e : Nat) : Bool :=
  match nth s.gangs gi with
  | none => false
  | some g =>
    (decide (g.phase = .resident) || decide (g.phase = .staging)) && s.active gi g && (s.recOf g).det != 2
      && 1 ≤ g.quantum && (g.e < e || (g.quantum == 2 && g.e ≤ e)) && (s.giveAreas (s.closure [gi])).isSome

/-- The sublists of n elements. -/
def combos {α : Type} : Nat → List α → List (List α)
  | 0, _ => [[]]
  | _ + 1, [] => []
  | n + 1, x :: xs => (combos n xs).map (x :: ·) ++ combos (n + 1) xs

/-- A set of gangs that would make room, with the cell and kind where it makes it. -/
structure Victims where
  gangs : List Nat
  die : Nat
  cell : Nat
  kind : CoreKind
deriving DecidableEq, Repr

/-- The candidate sets of a cell for a waiting gang: the smallest that make it fit there (R285). -/
def State.cellSets (s : State) (gi e die cell : Nat) : List Victims :=
  let cands := (List.range s.gangs.length).filter fun i => s.candidate i e && match nth s.gangs i with
    | some g => g.die == die && g.cell == cell
    | none => false
  let room (vs : List Nat) : Option CoreKind :=
    let t := s.without (s.leaving ++ s.closure vs)
    (((t.fitPlaces gi).find? fun x => x.1 == die && x.2.1 == cell).map fun x => x.2.2)
  let sets (n : Nat) : List Victims := (combos n cands).filterMap fun vs => match room vs with
    | some k => if (s.giveAreas (s.closure vs)).isSome then some ⟨vs, die, cell, k⟩ else none
    | none => none
  (((List.range cands.length).map fun n => sets (n + 1)).find? fun l => !l.isEmpty).getD []

/-- Greatest E of a set, and its placement numbers, latest first. -/
def State.victimKey (s : State) (v : Victims) : Nat × List Nat :=
  let gs := v.gangs.filterMap fun i => nth s.gangs i
  (gs.foldl (fun m (g : Gang) => max m g.e) 0, (gs.map fun (g : Gang) => g.placeNo).mergeSort fun a b => b ≤ a)

/-- Lexicographic: whether the first list is larger at the first place where they differ. -/
def later : List Nat → List Nat → Bool
  | x :: xs, y :: ys => y < x || (x == y && later xs ys)
  | _, _ => false

/-- Whether a set is chosen before another (R285). -/
def State.chosenBefore (s : State) (a b : Victims) : Bool :=
  let x := s.victimKey a
  let y := s.victimKey b
  x.1 < y.1 || (x.1 == y.1 && (later x.2 y.2
    || (x.2 == y.2 && (a.die < b.die || (a.die == b.die && a.cell < b.cell)))))

/-- The candidate set chosen for a waiting gang that fits nowhere. -/
def State.chooseVictims (s : State) (gi e : Nat) : Option Victims :=
  ((s.cellsOf (s.part (s.partOf gi))).flatMap fun c => s.cellSets gi e c.1 c.2).foldl (fun b v => match b with
    | none => some v
    | some x => if s.chosenBefore v x then some v else some x) none

/-- The sets that make room for a waiting unit, gang by gang, reckoning with the room that its earlier gangs take and that
the sets chosen for them free (R285). -/
def State.victimsFor (s : State) (e : Nat) : List Nat → Option (List Nat)
  | [] => some []
  | gi :: rest =>
    let t := s.without s.leaving
    match (t.fitPlaces gi).head? with
    | some x => match t.seatFor gi x.1 x.2.1 x.2.2 with
      | some seat => (s.placeAt gi x.1 x.2.1 x.2.2 seat).victimsFor e rest
      | none => none
    | none => match s.chooseVictims gi e with
      | none => none
      | some v =>
        let gone := s.closure v.gangs
        let t := s.without (s.leaving ++ gone)
        match t.seatFor gi v.die v.cell v.kind with
        | some seat => (((s.without gone).placeAt gi v.die v.cell v.kind seat).victimsFor e rest).map fun l => gone ++ l
        | none => none

/-- The gangs pre-empted with a gang, if it is to be pre-empted now for a waiting one. -/
def State.preempted (s : State) (gi : Nat) : Option (List Nat) :=
  ((List.range s.gangs.length).filterMap fun w =>
    let u := s.unit w
    if !s.waiting w || s.partOf w != s.partOf gi || u.head? ≠ some w || !u.all s.waiting then none
    else match s.victimsFor (s.rank w).1 u with
      | some l => if l.contains gi then some l else none
      | none => none).head?

/-- A gang's launch's base level (R280). -/
def State.baseLevel (s : State) (g : Gang) : Nat :=
  match nth s.launches g.launch with
  | some l => l.base
  | none => 0

/-- Steps 1 to 3 of a pre-emption (R322): checkpoints roll back, queued operations are dropped, accepted matrix operations
complete, running operations stop at their boundaries. The gang is eligible again from now on and ages afresh, unless it is STOPPED
(R280, R286). -/
def State.quiesce (s : State) (gi : Nat) : State :=
  let now := s.pkg.clock.toNat
  let s := s.modGang gi fun g =>
    let g := { g with staging := none }
    if g.phase = .stopping then g
    else { g with phase := .saving, e := s.baseLevel g, order := s.nextElig, agedAt := now }
  let s := { s with nextElig := s.nextElig + 1 }
  let s := (List.range s.warps.length).foldl (fun s wi => match nth s.warps wi with
    | some w => if w.gang == gi && !w.ckpts.isEmpty then s.rollback wi 0 false else s
    | none => s) s
  let s := { s with mops := s.mops.filter fun m => m.gang != gi }
  (List.range s.ops.length).foldl (fun s k => match nth s.ops k with
    | some o => if o.gang == gi then s.stopOp k else s
    | none => s) s

/-- Every gang of a set is pre-empted: areas given, traces written. -/
def State.preemptAll (s : State) (gs : List Nat) : Option State :=
  (s.giveAreas gs).map fun s => gs.foldl (fun s gi => match nth s.gangs gi with
    | some g =>
      (s.notePlacing g (traceEntry 1 g.lin 0 g.die g.cell 0)).quiesce gi
    | none => s) s

/-- Whether a replay's pre-emption of this gang is due. -/
def preemptDue (l : Launch) (g : Gang) : Bool := l.lrec.det == 2 && dueFor l.replay 1 g

/-- Whether a replay still holds a pre-emption of this gang. -/
def preemptLeft (l : Launch) (g : Gang) : Bool := l.replay.any fun e => e.kind == 1 && e.gang == g.lin

/-- Whether the record of a gang's stop waits for the fault ring (R318). -/
def State.stopWaits (s : State) (g : Gang) (l : Launch) : Bool :=
  (s.part l.part).pendingRecs.any fun r => r.frec.lseq == l.seq && r.frec.gang == g.lin && r.frec.disp == dispStopped

/-- R283, R285, R290, R314, R322: a gang that stops leaves its cell with the others of its unit, once its record is written; under replay
at its place in the trace, and a stop that the trace does not hold diverges. -/
def execPreemption (gi : Nat) (s : State) : Result :=
  match nth s.gangs gi with
  | none => notEnabled
  | some g => match nth s.launches g.launch with
    | none => notEnabled
    | some l =>
      let stops := decide (g.phase = .stopping) && g.ctx.isNone && !s.stopWaits g l
      if l.phase ≠ .dispatched || l.dying then notEnabled
      else if stops && l.lrec.det == 2 && !preemptLeft l g then .next (s.diverge g.launch)
      else
        let placed := decide (g.phase = .resident) || decide (g.phase = .staging)
        let set := if g.phase = .stopping then
            (if stops && (l.lrec.det != 2 || preemptDue l g) then some (gi :: s.closure [gi]) else none)
          else if placed && s.active gi g && preemptDue l g then some [gi]
          else if placed then s.preempted gi else none
        match set.bind s.preemptAll with
        | some s => .next s
        | none => notEnabled

/-- A gang's local memory and tags as it leaves its cell (R323). -/
def State.savedLocal (s : State) (g : Gang) (size : Nat) : FMap Byte × FMap Bool :=
  let base := g.cellKey * cellBytes
  ((List.range g.localAt.length).zip g.localAt).foldl (fun acc x =>
    (FMap.setN 0 acc.1 (x.1 * size) (FMap.getN 0 s.lmem (base + x.2) size),
     FMap.setN false acc.2 (x.1 * size / 32) (FMap.getN false s.ltags ((base + x.2) / 32) (size / 32)))) ([], [])

/-- R47, R280, R286, R322, R323: the context is in the pool, and what the gang held on its cell is free. The entries of every deque
that it is bound to are saved in one list [41]. -/
def execSaved (gi : Nat) (s : State) : Result :=
  match nth s.gangs gi with
  | none => notEnabled
  | some g =>
    if !(g.phase = .saving || (g.phase = .stopping && g.ctx.isSome)) then notEnabled
    else
      let size := (s.recOf g).localBytes
      let saved := if g.started then s.savedLocal g size else ([], [])
      let bound := s.deques.filter fun e => e.2.gang == some gi
      let s := { s with deques := s.deques.filter fun e => e.2.gang != some gi }
      let s := s.modGang gi fun g =>
        { g with phase := if g.phase = .stopping && !g.resumed then .stopped else .eligible, resumed := false
                 savedLocal := saved.1, savedTags := saved.2, localAt := []
                 savedDeque := bound.flatMap fun e => e.2.entries, vaults := if g.started then g.vaults else [] }
      .next (s.fwEvent g.die 4 g.lin)

/-! Migration by the scheduler (R287). -/

/-- Whether a core of the other kind has a slot for a warp within the other variant's budget. -/
def State.migrationRoom (s : State) (w : Warp) (g : Gang) (l : Launch) : Bool :=
  match l.kern.variant (otherKind w.kind) with
  | none => false
  | some v => (s.migrationCore g.die g.cell (otherKind w.kind) v.regs).isSome

/-- R246, R287. -/
def execSchedMigrationRequest (wi : Nat) (s : State) : Result :=
  match nth s.warps wi with
  | none => notEnabled
  | some w => match nth s.gangs w.gang with
    | none => notEnabled
    | some g => match nth s.launches g.launch with
      | none => notEnabled
      | some l =>
        if s.running w.gang && !w.ended && l.lrec.migrate && !w.migp && s.migrationRoom w g l then
          .next (s.modWarp wi fun w => { w with migp := true, sched := true })
        else notEnabled

/-- R246, R287: the slot has been taken. -/
def execSchedMigrationWithdraw (wi : Nat) (s : State) : Result :=
  match nth s.warps wi with
  | none => notEnabled
  | some w => match nth s.gangs w.gang with
    | none => notEnabled
    | some g => match nth s.launches g.launch with
      | none => notEnabled
      | some l =>
        if s.running w.gang && !w.ended && w.migp && w.sched && !s.migrationRoom w g l then
          .next (s.modWarp wi fun w => { w with migp := false, sched := false, noslot := false })
        else notEnabled

end Sys2Proof.Machine
end

