-- ==== Sys2Proof/Machine/Etesian.lean ====
section
/-! DEFINITION. Etesian (17): its commands (R291, R292), samples and interval decisions (R295), the copies' lives (R296),
publications (R297, R302), queue closures (R298, R299), failures (R300) and events (R301). -/

namespace Sys2Proof.Machine

open Sys2Proof

/-! Events (R301). -/

def evRegistered : Nat := 1
def evDeregistered : Nat := 2
def evCopystart : Nat := 3
def evPublished : Nat := 4
def evRetired : Nat := 5
def evFreed : Nat := 6
def evCopyfail : Nat := 7
def evLivefail : Nat := 8
def evRedirect : Nat := 9
def evStranded : Nat := 10

def causeNum : CopyCause → Nat
  | .uncorrectable => 1 | .dieFault => 2 | .timeout => 3 | .mismatch => 4 | .access => 5

/-- Log an event, or count it lost. -/
def State.etEvent (s : State) (pi code ver eid die rep cause count : Nat) : State :=
  let t := (s.part pi).et
  let k := t.evSize.toNat % 32
  let lost := s.modEt pi fun t => { t with lost := min 255 (t.lost + 1) }
  if k < 4 || 16 < k || (t.evTail - t.evHead).toNat = 2 ^ k then lost
  else
    let bs := leBytes 8 s.pkg.clock.toNat ++ leBytes 2 code ++ leBytes 2 ver ++ leBytes 2 eid ++ leBytes 1 die ++ leBytes 1 rep
      ++ leBytes 4 cause ++ leBytes 4 count ++ leBytes 8 0
    match s.writeVa pi (t.evBase.toNat + 32 * (t.evTail.toNat % 2 ^ k)) bs with
    | none => lost
    | some s => s.modEt pi fun t => { t with evTail := t.evTail + 1 }

/-- Log an event of a copy under the current version. -/
def State.copyEvent (s : State) (pi code eid : Nat) (k : Copy) (cause count : Nat) : State :=
  s.etEvent pi code (s.part pi).et.ver eid k.die k.rep cause count

/-! Copies. -/

def State.copyOf (s : State) (pi eid rep : Nat) : Option (Expert × Copy) :=
  ((s.part pi).et.expert eid).bind fun x => (x.copies.find? fun k => k.rep == rep).map fun k => (x, k)

def State.modCopy (s : State) (pi eid rep : Nat) (f : Copy → Copy) : State :=
  s.modEt pi fun t => t.modExpert eid fun x => x.modCopy rep f

/-- A copy is in flight. -/
def Copy.flying (k : Copy) : Bool := decide (k.phase = .copying) || decide (k.phase = .verifying)

/-- A copy's entry goes, and with its last copy an expert that is no longer registered. -/
def Etesian.dropCopy (t : Etesian) (eid rep : Nat) : Etesian :=
  let t := t.modExpert eid fun x => { x with copies := x.copies.filter fun k => k.rep != rep }
  { t with experts := t.experts.filter fun x => x.registered || !x.copies.isEmpty }

/-- A copy becomes FREED, logged [30]. -/
def State.freeCopy (s : State) (pi eid : Nat) (k : Copy) : State :=
  (s.modEt pi fun t => t.dropCopy eid k.rep).copyEvent pi evFreed eid k 0 0

/-- A command aborts an expert's copies in flight (R292). -/
def State.abortCopies (s : State) (pi eid : Nat) : State :=
  match (s.part pi).et.expert eid with
  | none => s
  | some x => (x.copies.filter Copy.flying).foldl (fun s k => s.freeCopy pi eid k) s

/-- A copy becomes FAILED and is freed at once; the hold-offs start (R296, R300). -/
def State.failCopy (s : State) (pi eid : Nat) (k : Copy) (cause : CopyCause) : State :=
  let h := bits (s.part pi).et.ectl.toNat 23 16
  let s := s.copyEvent pi evCopyfail eid k (causeNum cause) 0
  (s.modEt pi fun t => t.modExpert eid fun x => { x with holdoff := h, dieHold := FMap.set 0 x.dieHold k.die h }).freeCopy pi eid k

/-! Commands (R291, R292). -/

/-- RESULT of ECMD. -/
def ecmdOk : Nat := 0
def ecmdBadrec : Nat := 1
def ecmdInuse : Nat := 2
def ecmdNotreg : Nat := 3

/-- The command in progress finishes. -/
def State.ecmdDone (s : State) (pi result : Nat) : State := s.modEt pi fun t => { t with busy := false, result := result }

/-- Whether a change stems from a command. -/
def Change.ofCommand : Change → Bool
  | .register _ | .deregister _ | .refresh _ => true
  | _ => false

/-- A command is carried out when its operation is the one asked for, the table is not held, and its publication is not yet
waiting (R302). -/
def State.takesCommand (s : State) (pi : Nat) (mine : Nat → Bool) : Bool :=
  let t := (s.part pi).et
  t.busy && mine t.op && !s.held pi && !t.waiting.any Change.ofCommand

/-- The command record (R292). -/
def State.commandRecord (s : State) (pi : Nat) : Option (List Byte) :=
  let a := (s.part pi).et.cmdAddr.toNat
  if a % 64 ≠ 0 then none
  else match s.readVa pi a 64 with
    | .ok bs => some bs
    | .error _ => none

/-- Carry out a command on its record. -/
def State.etCommand (s : State) (pi op : Nat) (f : State → List Byte → State) : Result :=
  if !s.takesCommand pi (· == op) then notEnabled
  else match s.commandRecord pi with
    | none => .next (s.ecmdDone pi ecmdBadrec)
    | some bs => .next (f s bs)

/-- FLAGS, HOT, COLD and COLDN; none where one is out of its limits. -/
def parseThresholds (bs : List Byte) : Option Thresholds :=
  let n := Record.n bs
  let copies := bits (n 4 4) 5 1
  if bits (n 4 4) 31 6 = 0 && 1 ≤ copies && copies ≤ 8 && 1 ≤ n 0x18 4 && 1 ≤ n 0x20 4 && n 0x20 4 ≤ 255 then
    some ⟨bit (n 4 4) 0, copies, n 0x18 4, n 0x1C 4, n 0x20 4⟩
  else none

/-- The expert that a REGISTER record describes, with its home copy; none where a field is out of its limits. -/
def State.parseExpert (s : State) (pi : Nat) (bs : List Byte) : Option Expert :=
  let n := Record.n bs
  let p := s.part pi
  match parseThresholds bs, FMap.get none p.handles (bits (n 8 4) 23 0) with
  | some thr, some h =>
    let home := n 0xC 4
    let size := n 0x10 8
    if n 0 4 ≤ 4095 && bits (n 8 4) 31 24 == 0 && home ≤ 7 && p.dies.getLsbD home && s.pkg.dies.getLsbD home
        && size % 65536 == 0 && 65536 ≤ size && size ≤ h.len && n 0x24 4 == 0 && n 0x28 8 % 32 == 0 && allZero bs 0x30 16 then
      some { eid := n 0 4, thr := thr, size := size, qaddr := BitVec.ofNat 64 (n 0x28 8)
             copies := [{ rep := 0, die := home, base := h.base, phase := .live, published := true }] }
    else none
  | _, _ => none

/-- A change waits for its publication. -/
def State.change (s : State) (pi : Nat) (c : Change) : State := s.modEt pi fun t => { t with waiting := t.waiting ++ [c] }

/-- R292. -/
def execRegister (pi : Nat) (s : State) : Result :=
  s.etCommand pi 1 fun s bs =>
    match s.parseExpert pi bs with
    | none => s.ecmdDone pi ecmdBadrec
    | some x => if ((s.part pi).et.expert x.eid).isSome then s.ecmdDone pi ecmdInuse else s.change pi (.register x)

/-- The registered expert that a record names. -/
def State.named (s : State) (pi : Nat) (bs : List Byte) : Option Expert :=
  ((s.part pi).et.expert (Record.n bs 0 4)).filter (·.registered)

/-- R292. -/
def execDeregister (pi : Nat) (s : State) : Result :=
  s.etCommand pi 2 fun s bs =>
    match s.named pi bs with
    | none => s.ecmdDone pi ecmdNotreg
    | some x => (s.abortCopies pi x.eid).change pi (.deregister x.eid)

/-- R292. -/
def execSetthr (pi : Nat) (s : State) : Result :=
  s.etCommand pi 3 fun s bs =>
    match s.named pi bs, parseThresholds bs with
    | none, _ => s.ecmdDone pi ecmdNotreg
    | _, none => s.ecmdDone pi ecmdBadrec
    | some x, some thr => (s.modEt pi fun t => t.modExpert x.eid fun x => { x with next := some thr }).ecmdDone pi ecmdOk

/-- LIVE copies other than REP 0. -/
def Expert.replicas (x : Expert) : List Copy := x.copies.filter fun k => decide (k.phase = .live) && k.rep != 0

/-- R292. -/
def execRefresh (pi : Nat) (s : State) : Result :=
  s.etCommand pi 4 fun s bs =>
    match s.named pi bs with
    | none => s.ecmdDone pi ecmdNotreg
    | some x =>
      let s := s.abortCopies pi x.eid
      if x.replicas.isEmpty then s.ecmdDone pi ecmdOk else s.change pi (.refresh x.eid)

/-- R291: codes 5 to 15. -/
def execBadrec (pi : Nat) (s : State) : Result :=
  if s.takesCommand pi (5 ≤ ·) then .next (s.ecmdDone pi ecmdBadrec) else notEnabled

/-! Publications (R297, R302). -/

/-- A copy leaves the table; without a queue its closure is complete (R296, R299). -/
def Copy.retired (k : Copy) (qaddr : Word64) : Copy :=
  { k with phase := .retiring, marked := false, closed := k.closed || qaddr = 0 }

/-- Retire the LIVE copies of an expert that a test selects. -/
def Expert.retire (x : Expert) (which : Copy → Bool) : Expert :=
  { x with copies := x.copies.map fun k => if decide (k.phase = .live) && which k then k.retired x.qaddr else k }

/-- The LIVE copies that a change would retire, with their experts. -/
def Etesian.leavers (t : Etesian) (c : Change) : List (Nat × Copy) :=
  let of (eid : Nat) (which : Copy → Bool) : List (Nat × Copy) := match t.expert eid with
    | some x => (x.copies.filter fun k => decide (k.phase = .live) && which k).map fun k => (eid, k)
    | none => []
  match c with
  | .deregister eid => of eid fun _ => true
  | .refresh eid => of eid fun k => k.rep != 0
  | .retire l => l.flatMap fun x => of x.1 fun k => k.rep == x.2
  | .fail eid rep => of eid fun k => k.rep == rep
  | .register _ | .add _ _ => []

/-- The expert whose copies in flight a change aborts (R292). -/
def Change.aborts : Change → Option Nat
  | .deregister eid | .refresh eid => some eid
  | _ => none

/-- Whether a change still changes the table (R297). -/
def Etesian.changes (t : Etesian) (c : Change) : Bool :=
  match c with
  | .register _ | .deregister _ => true
  | .add eid rep => match (t.expert eid).bind fun x => x.copies.find? fun k => k.rep == rep with
    | some k => decide (k.phase = .live) && !k.published
    | none => false
  | c => !(t.leavers c).isEmpty

/-- The table after a change. -/
def Etesian.apply (t : Etesian) (c : Change) : Etesian :=
  let gone := (t.leavers c).foldl (fun t x => t.modExpert x.1 fun e => e.retire fun k => k.rep == x.2.rep) t
  match c with
  | .register x => { t with experts := t.experts ++ [x] }
  | .deregister eid =>
    let t := gone.modExpert eid fun x => { x with registered := false }
    { t with experts := t.experts.filter fun x => x.registered || !x.copies.isEmpty }
  | .add eid rep => t.modExpert eid fun x => x.modCopy rep fun k => { k with published := true }
  | _ => gone

/-- The version's value is noted in each copy that it includes (R296). -/
def Etesian.stamp (t : Etesian) (ver : Nat) : Etesian :=
  let copy (k : Copy) : Copy :=
    let old := k.versions.filter (· != ver)
    { k with versions := if k.current then old ++ [ver] else old }
  { t with ver := ver, experts := t.experts.map fun x => { x with copies := x.copies.map copy } }

/-- The events of a publication, logged before its VER shows (R297, R301) [30]. -/
def State.logChange (s : State) (pi ver : Nat) (c : Change) : State :=
  let t := (s.part pi).et
  match c with
  | .register x => x.copies.foldl (fun s k => s.etEvent pi evRegistered ver x.eid k.die k.rep 0 0) s
  | .deregister eid =>
    let home := ((t.expert eid).bind fun x => x.copies.find? fun k => k.rep == 0).map fun k => k.die
    s.etEvent pi evDeregistered ver eid (home.getD 0) 0 0 0
  | .add eid rep => match s.copyOf pi eid rep with
    | some (_, k) => s.etEvent pi evPublished ver eid k.die rep 0 0
    | none => s
  | c => (t.leavers c).foldl (fun s x => s.etEvent pi evRetired ver x.1 x.2.die x.2.rep 0 0) s

/-- What a publication does to a launch that holds the partition's table: a recording one has an entry of it until it has ENDED, a
replaying one must find it in its trace (R288, R290, R302). -/
def State.tracePublish (s : State) (pi ver : Nat) : State :=
  (List.range s.launches.length).foldl (fun s li => match nth s.launches li with
    | none => s
    | some l =>
      if !l.holds pi then s
      else if l.lrec.det = 1 then s.record li (traceEntry 5 0 0 0 0 ver)
      else if l.phase = .dispatched then
        match takeEntry (fun e => e.kind == 5) l.replay with
        | some (e, rest) => if e.body.toNat = ver then s.modLaunch li fun l => { l with replay := rest } else s.diverge li
        | none => s.diverge li
      else s) s

/-- A quarantined copy has not left the table yet (R300). -/
def Etesian.failing (t : Etesian) : Bool := t.experts.any fun x => x.copies.any fun k => decide (k.phase = .live) && k.quarantined

def Change.ofFailure : Change → Bool
  | .fail _ _ => true
  | _ => false

/-- The change that is published next: first one that a failure asks for, and while the table is held no other; an interval's changes
wait for a failing copy to leave the table (R300, R302). -/
def State.nextChange (s : State) (pi : Nat) : Option Change :=
  let t := (s.part pi).et
  match t.waiting.find? Change.ofFailure with
  | some c => some c
  | none => if s.held pi then none else t.waiting.find? fun c => c.ofCommand || !t.failing

/-- R297: a change that no longer changes the table publishes nothing. -/
def execPublication (pi : Nat) (s : State) : Result :=
  match s.nextChange pi with
  | none => notEnabled
  | some c =>
    let done (s : State) : State := if c.ofCommand then s.ecmdDone pi ecmdOk else s
    let t := (s.part pi).et
    let ver := (t.ver + 1) % 2 ^ 16
    let s' := s.modEt pi fun t => { t with waiting := t.waiting.erase c }
    if !t.changes c then .next (done s')
    else if s.verHeld pi ver then notEnabled
    else
      let s' := match c.aborts with
        | some eid => s'.abortCopies pi eid
        | none => s'
      let s' := s'.logChange pi ver c
      let s' := s'.modEt pi fun t => (t.apply c).stamp ver
      .next (done (s'.tracePublish pi ver))

/-! Samples and intervals (R295). -/

/-- Ticks of an interval. -/
def Etesian.ticks (t : Etesian) : Nat := micros (t.eintv.toNat % 2 ^ 16)

/-- Cells of a die that hold a gang. -/
def State.busyCells (s : State) (die : Nat) : Nat :=
  (List.range 24).countP fun c => s.pkg.cellPresent die c && s.gangs.any fun (g : Gang) => g.onCell && g.die == die && g.cell == c

/-- R295: 32 samples at equal spacing. -/
def execIdleSample (pi : Nat) (s : State) : Result :=
  let t := (s.part pi).et
  if (s.part pi).en && t.ectl.getLsbD 0 && t.nsamples < 32 && t.since + t.ticks * (t.nsamples + 1) / 32 ≤ s.pkg.clock.toNat then
    .next (s.modEt pi fun t =>
      { t with nsamples := t.nsamples + 1
               samples := (List.range 8).foldl (fun m d => FMap.set 0 m d (FMap.get 0 m d + s.busyCells d)) t.samples })
  else notEnabled

/-- The counts of a completed interval become those of the last one; streaks and hold-offs go on (R295, R300). -/
def Expert.ended (x : Expert) : Expert :=
  let copy (k : Copy) : Copy :=
    { k with lastRoutes := if k.whole then some k.routes else none
             cold := if decide (k.phase = .live) && k.routes < x.thr.cold then k.cold + 1 else 0 }
  { x with lastRoutes := x.routes, copies := x.copies.map copy }

def Expert.holdPassed (x : Expert) : Expert :=
  { x with holdoff := x.holdoff - 1, dieHold := x.dieHold.filterMap fun e => if e.2 ≤ 1 then none else some (e.1, e.2 - 1) }

/-- The copies to mark for retirement. -/
def Expert.coldCopies (x : Expert) : List (Nat × Nat) :=
  (x.copies.filter fun k => decide (k.phase = .live) && k.rep != 0 && !k.marked && x.thr.coldN ≤ k.cold).map fun k => (x.eid, k.rep)

/-- The LIVE copies that stay. -/
def Expert.staying (x : Expert) : Nat := x.copies.countP fun k => decide (k.phase = .live) && !k.marked

/-- Whether an expert is hot and may be given a copy. -/
def Expert.hot (x : Expert) : Bool :=
  x.registered && 0 < x.staying && x.thr.hot * x.staying < x.lastRoutes && !x.thr.pin && x.staying < x.thr.maxCopy
    && !x.copies.any Copy.flying && x.holdoff == 0

/-- Descending quotient of routes by copies, ties to the lower EID. -/
def Expert.hotter (x y : Expert) : Bool :=
  y.lastRoutes * x.staying < x.lastRoutes * y.staying || (y.lastRoutes * x.staying == x.lastRoutes * y.staying && x.eid ≤ y.eid)

/-- Where a copy would lie in a die's pool: an offset in the vault window (R293). -/
def State.poolRoom (s : State) (pi die size : Nat) : Option Nat :=
  let x := FMap.get (0, 0) (s.part pi).et.pools die
  let vault (v : Nat) : Nat := (die * 96 + v) * 2 ^ 21
  let absent := (List.range 24).filterMap fun c => if s.pkg.cellPresent die c then none else some (vault (4 * c), 2 ^ 23)
  let used := s.vaultUsed.map fun u => (u.1 - vaultPa, u.2)
  if x.2 = 0 then none else freeRange (absent ++ used) (vault x.1) (vault (x.1 + x.2)) 65536 size

/-- Present cells of a die. -/
def State.dieCells (s : State) (die : Nat) : Nat := (List.range 24).countP fun c => s.pkg.cellPresent die c

/-- The target die of a new copy, with its place. -/
def State.targetDie (s : State) (pi : Nat) (x : Expert) : Option (Nat × Nat) :=
  let p := s.part pi
  let busy (d : Nat) : Nat := FMap.get 0 p.et.samples d
  let idle (d : Nat) : Bool :=
    p.dies.getLsbD d && s.pkg.dies.getLsbD d && 0 < s.dieCells d
      && busy d * 256 < bits p.et.ectl.toNat 15 8 * (p.et.nsamples * s.dieCells d)
      && !(x.copies.any fun k => k.die == d) && FMap.get 0 x.dieHold d == 0
  let ok := (List.range 8).filterMap fun d => if idle d then (s.poolRoom pi d x.size).map fun a => (d, a) else none
  ok.foldl (fun b c => match b with
    | none => some c
    | some y => if busy c.1 * s.dieCells y.1 < busy y.1 * s.dieCells c.1 then some c else some y) none

/-- The lowest free REP index. -/
def Expert.freeRep (x : Expert) : Option Nat :=
  ((List.range 31).map (· + 1)).find? fun r => !x.copies.any fun k => k.rep == r

/-- A new copy enters COPYING on its target die (R296); the die's firmware has copy work (R321). -/
def State.copyStart (s : State) (pi : Nat) (x : Expert) : State :=
  match s.targetDie pi x, x.freeRep with
  | some (die, off), some rep =>
    let k : Copy := { rep := rep, die := die, base := (s.part pi).vaultBase + BitVec.ofNat 64 off, phase := .copying
                      startedAt := s.pkg.clock.toNat }
    let s := s.modEt pi fun t => t.modExpert x.eid fun x => { x with copies := x.copies ++ [k] }
    (s.copyEvent pi evCopystart x.eid k 0 0).fwEvent die 7 x.eid
  | _, _ => s

/-- Steps 2 to 4 of the decisions; an expert whose copies in flight a waiting change has aborted is given none (R292). -/
def State.replicate (s : State) (pi : Nat) : State :=
  let t := (s.part pi).et
  let leaving (x : Expert) : Bool := t.waiting.any fun c => c.aborts == some x.eid
  ((t.experts.filter fun x => x.hot && !leaving x).mergeSort Expert.hotter).foldl (fun s x =>
    let t := (s.part pi).et
    if t.inflight < bits t.ectl.toNat 26 24 + 1 then s.copyStart pi x else s) s

/-- R295, R300, R302: at the end of an interval, once no failing copy is in the table, the counts pass on, and unless the table is held
Etesian decides. -/
def execEtesianInterval (pi : Nat) (s : State) : Result :=
  let t := (s.part pi).et
  if !((s.part pi).en && t.ectl.getLsbD 0 && t.nsamples == 32 && t.since + t.ticks ≤ s.pkg.clock.toNat && !t.failing) then notEnabled
  else
    let s := s.modEt pi fun t => { t with experts := t.experts.map Expert.ended }
    let marks := (((s.part pi).et.experts.filter (·.registered)).flatMap Expert.coldCopies)
    let mark (s : State) : State :=
      if marks.isEmpty then s
      else (marks.foldl (fun s x => s.modCopy pi x.1 x.2 fun k => { k with marked := true }) s).change pi (.retire marks)
    let s := if s.held pi then s else (mark s).replicate pi
    .next (s.modEt pi fun t => ({ t with experts := t.experts.map Expert.holdPassed }).begin_ (t.since + t.ticks))

/-! The die agent (R296). -/

/-- The sectors of a copy's source: bytes and tag, or what stops the agent first, with the address. -/
def State.copySource (s : State) (pi : Nat) (x : Expert) : Except (Stop × Nat) (List (List Byte × Bool)) :=
  match x.copies.find? fun k => k.rep == 0 with
  | none => .error (.fault .translation 2 false, 0)
  | some home => s.readPieces pi home.base.toNat 32 (x.size / 32)

/-- The agent meets a page that is not present: the record is posted, and the copy waits for the page (R296, R309). -/
def State.agentWaits (s : State) (pi eid : Nat) (k : Copy) (page addr : Nat) : State :=
  let r := { bareRec 0 .translation dispReplay 0 (BitVec.ofNat 64 addr) 0 with die := k.die }
  (s.post pi r .nothing).modCopy pi eid k.rep fun k => { k with sleep := some { page := page, reg := none, addr := addr } }

/-- The places of the sectors of a copy's region for the agent's writes, or what stops the first that it may not write. -/
def State.regionPlaces (s : State) (pi va : Nat) : Nat → Except (Stop × Nat) (List Place)
  | 0 => .ok []
  | n + 1 => match s.place (agentAccess pi va 32 true) with
    | .error e => .error (e.2, va)
    | .ok q => (s.regionPlaces pi (va + 32) n).map (q :: ·)

/-- The agent writes a copy's source into the region, which it reaches by its virtual address (R296, R304). -/
def State.writeRegion (s : State) (pi : Nat) (x : Expert) (k : Copy) (src : List (List Byte × Bool)) : Except (Stop × Nat) State :=
  (s.regionPlaces pi k.base.toNat (x.size / 32)).map fun ps =>
    s.store none ((ps.zip src).map fun y => (⟨y.1, y.2.1, y.2.2⟩ : Write))

/-- The sectors of a copy's region, as its verification reads them. -/
def State.readRegion (s : State) (pi : Nat) (x : Expert) (k : Copy) : Except (Stop × Nat) (List (List Byte × Bool)) :=
  s.readPieces pi k.base.toNat 32 (x.size / 32)

/-- A step of the die agent that reads the whole source and goes on with what it reads: it waits for a page that it meets. -/
def State.withSource (s : State) (pi eid rep : Nat) (phase : CPhase)
    (f : Expert → Copy → List (List Byte × Bool) → Except (Stop × Nat) State) : Result :=
  match s.copyOf pi eid rep with
  | none => notEnabled
  | some (x, k) =>
    if k.phase ≠ phase || k.sleep.isSome || k.refused then notEnabled
    else match (s.copySource pi x).bind (f x k) with
      | .ok t => .next t
      | .error (.sleep va none, _) => .next (s.agentWaits pi eid k (va / 65536) va)
      | .error _ => notEnabled

/-- R296: all bytes and tags are in the region. -/
def execCopyWritten (pi eid rep : Nat) (s : State) : Result :=
  s.withSource pi eid rep .copying fun x k src =>
    (s.writeRegion pi x k src).map fun s => s.modCopy pi eid rep fun k => { k with phase := .verifying }

/-- R296: LIVE, with a publication to follow, or FAILED with UNCORRECTABLE or MISMATCH. -/
def execCopyVerified (pi eid rep : Nat) (s : State) : Result :=
  s.withSource pi eid rep .verifying fun x k src => match s.readRegion pi x k with
    | .error (.fault .bus 0 _, _) => .ok (s.failCopy pi eid k .uncorrectable)
    | .error e => .error e
    | .ok region =>
      if region = src then .ok ((s.modCopy pi eid rep fun k => { k with phase := .live }).change pi (.add eid rep))
      else .ok (s.failCopy pi eid k .mismatch)

/-- What the agent meets as it goes on with a copy: its reads of the source, then its writes or its reads of the region. -/
def State.agentMeets (s : State) (pi : Nat) (x : Expert) (k : Copy) : Except (Stop × Nat) Unit :=
  (s.copySource pi x).bind fun src =>
    if k.phase = .copying then (s.writeRegion pi x k src).map fun _ => () else (s.readRegion pi x k).map fun _ => ()

/-- Whether the agent meets a fault that no replay ends, or a cancellation (R296, R310). -/
def State.agentBad (s : State) (pi : Nat) (x : Expert) (k : Copy) : Bool :=
  k.refused || match s.agentMeets pi x k with
  | .error (.fault .bus 0 _, _) => false
  | .error (.sleep _ none, _) | .ok _ => false
  | .error _ => true

/-- R296, R300: an uncorrectable error or the target die's fault comes from outside; ACCESS where the agent meets a fault; the other
causes have steps of their own. -/
def execCopyfail (pi eid rep : Nat) (cause : CopyCause) (s : State) : Result :=
  match s.copyOf pi eid rep with
  | none => notEnabled
  | some (x, k) =>
    let may := match cause with
      | .uncorrectable | .dieFault => true
      | .access => s.agentBad pi x k
      | .timeout | .mismatch => false
    if k.flying && may then .next (s.failCopy pi eid k cause) else notEnabled

/-- R296: CTMO has elapsed since the copy began. -/
def execCopyTimeout (pi eid rep : Nat) (s : State) : Result :=
  match s.copyOf pi eid rep with
  | none => notEnabled
  | some (_, k) =>
    if k.flying && k.startedAt + micros (1000 * bits (s.part pi).et.eintv.toNat 31 16) ≤ s.pkg.clock.toNat then
      .next (s.failCopy pi eid k .timeout)
    else notEnabled

/-! Token queues (R298, R299). -/

/-- A token queue's descriptor (R298). -/
structure TokenQueue where
  at_ : Nat
  ring : Nat
  cap : Nat
  head : Nat
  tail : Nat
  closed : Bool
deriving DecidableEq, Repr

/-- The descriptor of REP r's queue; none where it breaks its limits or cannot be read. -/
def State.tokenQueue (s : State) (pi : Nat) (x : Expert) (rep : Nat) : Option TokenQueue :=
  let at_ := x.qaddr.toNat + 32 * rep
  match s.readVa pi at_ 32 with
  | .error _ => none
  | .ok bs =>
    let n := Record.n bs
    let q : TokenQueue := ⟨at_, n 0 8, n 8 4, n 0x10 4 % 2 ^ 31, n 0x14 4 % 2 ^ 31, bit (n 0x14 4) 31⟩
    let power := (List.range 21).any fun i => q.cap == 2 ^ (i + 4)
    if x.qaddr ≠ 0 && q.ring % 8 == 0 && power && q.head < 0x7FFFFFFF && q.tail < 0x7FFFFFFF && q.tail ≤ q.head + q.cap then some q
    else none

/-- Set CLOSED in both counts: the prior TAIL and HEAD, or nothing where they cannot be written. -/
def State.closeQueue (s : State) (pi : Nat) (q : TokenQueue) : Option State :=
  (s.writeVa pi (q.at_ + 0x14) (leBytes 4 (q.tail + 2 ^ 31))).bind fun s => s.writeVa pi (q.at_ + 0x10) (leBytes 4 (q.head + 2 ^ 31))

/-- The open queues that a token may move to: those of live, unquarantined copies of the current version. -/
def State.openQueues (s : State) (pi : Nat) (x : Expert) : List (Nat × TokenQueue) :=
  (byRep x.choices).filterMap fun k => match s.tokenQueue pi x k.rep with
    | some q => if q.closed then none else some (k.rep, q)
    | none => none

/-- The one with the least TAIL − HEAD, ties to the lower REP. -/
def leastLoaded (l : List (Nat × TokenQueue)) : Option TokenQueue :=
  (l.foldl (fun b c => match b with
    | none => some c
    | some y => if c.2.tail + y.2.head < y.2.tail + c.2.head then some c else some y) none).map (·.2)

/-- Move an entry to a queue: its place is reserved, then it is written with MOVED set. -/
def State.moveEntry (s : State) (pi : Nat) (q : TokenQueue) (entry : Nat) (tag : Bool) : Option State :=
  (s.writeVa pi (q.at_ + 0x14) (leBytes 4 (q.tail + 1))).bind fun s =>
    s.writeTagged pi (q.ring + 8 * (q.tail % q.cap)) (leBytes 8 (entry ||| 2 ^ 62)) tag

/-- Move entries in order from a closed queue until one is not yet VALID, none is left, or no queue takes the next: the state and the
closure, and how many are stranded if it has ended. An entry is awaited before its target is chosen (R299). -/
def State.drain (s : State) (pi : Nat) (x : Expert) : Nat → Closure → State × Closure × Option Nat
  | 0, c => (s, c, some 0)
  | fuel + 1, c =>
    if c.last ≤ c.next then (s, c, some 0)
    else match s.place (agentAccess pi (c.ring + 8 * (c.next % c.cap)) 8 false) with
      | .error _ => (s, c, none)
      | .ok place =>
        let e := s.loadAt place 8
        if !bit (leNat e.1) 63 then (s, c, none)
        else match leastLoaded (s.openQueues pi x) with
          | none => (s, c, some (c.last - c.next))
          | some target => match s.moveEntry pi target (leNat e.1) e.2 with
            | none => (s, c, some (c.last - c.next))
            | some s => s.drain pi x fuel { c with next := c.next + 1, moved := c.moved + 1 }

/-- A closure ends: its events, and for a quarantined copy LIVEFAIL and the publication without it (R299, R300). -/
def State.endClosure (s : State) (pi eid : Nat) (k : Copy) (moved stranded : Nat) : State :=
  let s := if moved = 0 then s else s.copyEvent pi evRedirect eid k 0 moved
  let s := if stranded = 0 then s else s.copyEvent pi evStranded eid k 0 stranded
  let s := s.modCopy pi eid k.rep fun k => { k with closed := true }
  let s := if k.quarantined then s.copyEvent pi evLivefail eid k k.failCause 0 else s
  if k.quarantined && k.phase = .live then s.change pi (.fail eid k.rep) else s

/-- Whether a closure is that of a copy. -/
def Closure.of (c : Closure) (eid : Nat) (k : Copy) : Bool := c.eid == eid && c.rep == k.rep

/-- The closure of a copy that is in progress. -/
def State.closing (s : State) (pi eid : Nat) (k : Copy) : Option Closure := (s.part pi).et.closures.find? fun c => c.of eid k

/-- Close a copy's queue: h, t, the ring and CAP are read once; none where its descriptor breaks its limits or cannot be written. -/
def State.startClosure (s : State) (pi : Nat) (x : Expert) (k : Copy) : Option (State × Closure) :=
  (s.tokenQueue pi x k.rep).bind fun q => (s.closeQueue pi q).map fun s => (s, ⟨x.eid, k.rep, q.ring, q.cap, q.head, q.tail, 0⟩)

/-- Carry a closure on as far as it goes now. -/
def State.carryClosure (s : State) (pi : Nat) (x : Expert) (k : Copy) (c : Closure) : State :=
  let r := s.drain pi x (c.last - c.next + 1) c
  let s := r.1.modEt pi fun t => { t with closures := t.closures.filter fun c => !c.of x.eid k }
  match r.2.2 with
  | some stranded => s.endClosure pi x.eid k r.2.1.moved stranded
  | none => s.modEt pi fun t => { t with closures := t.closures ++ [r.2.1] }

/-- Begin a copy's closure, or carry it on; one whose queue is left alone ends at once, with STRANDED (R298, R299). -/
def State.closeOn (s : State) (pi : Nat) (x : Expert) (k : Copy) : State :=
  match s.closing pi x.eid k with
  | some c => s.carryClosure pi x k c
  | none =>
    if x.qaddr = 0 then s.endClosure pi x.eid k 0 0
    else match s.startClosure pi x k with
      | some (s, c) => s.carryClosure pi x k c
      | none => (s.copyEvent pi evStranded x.eid k 0 0).endClosure pi x.eid k 0 0

/-- R299. -/
def execQueueClosure (pi eid rep : Nat) (s : State) : Result :=
  match s.copyOf pi eid rep with
  | none => notEnabled
  | some (x, k) =>
    if k.closed || !(k.phase = .retiring || (k.phase = .live && k.quarantined)) then notEnabled
    else
      let s' := s.closeOn pi x k
      if (s'.closing pi eid k).isSome && s'.closing pi eid k = s.closing pi eid k then notEnabled else .next s'

/-- R300: the copy is quarantined, its queue is closed as far as it can be now, and LIVEFAIL and the publication follow. -/
def execLivefail (pi eid rep : Nat) (cause : CopyCause) (s : State) : Result :=
  match s.copyOf pi eid rep with
  | none => notEnabled
  | some (x, k) =>
    if k.phase ≠ .live || k.quarantined || !(cause = .uncorrectable || cause = .dieFault) then notEnabled
    else
      let bad (k : Copy) : Copy := { k with quarantined := true, failCause := causeNum cause }
      let s := s.modCopy pi eid rep bad
      .next (s.closeOn pi (x.modCopy rep bad) (bad k))

/-- R254, R296, R297: no launch holds a reference to a version that includes the copy. -/
def execFreed (pi eid rep : Nat) (s : State) : Result :=
  match s.copyOf pi eid rep with
  | none => notEnabled
  | some (x, k) =>
    if k.phase ≠ .retiring || !k.closed || k.versions.any (s.verHeld pi) then notEnabled
    else
      let off := k.base.toNat - (s.part pi).vaultBase.toNat
      let s := if k.rep = 0 then s else { s with freed := s.freed.erase (off, x.size) ++ [(off, x.size)] }
      .next (s.freeCopy pi eid k)

end Sys2Proof.Machine
end

