-- ==== Sys2Proof/Machine/Agents.lean ====
section
/-! DEFINITION. The steps that the device's own agents may take, enabled or not: each is tried by its own rule. What comes from
outside (the host, a peer, an error, the die's firmware) comes by the agenda alone [3]. -/

namespace Sys2Proof.Machine

open Sys2Proof

def warpEvents (wi : Nat) (w : Warp) : List Instr :=
  List.append
    [.checkpointCommit wi, .rollback wi 0, .rollback wi 1, .serialModeEnd wi, .waitCountYield wi, .schedMigrationRequest wi,
     .schedMigrationWithdraw wi]
    (w.entries.flatMap fun e => [.maskwait wi e.lanes, .tlbiCompletion wi e.lanes, .idleWake wi e.lanes])

def gangEvents (g : Nat) : List Instr :=
  List.append [.gangAgeing g, .stageCopy g, .quantumExpiry g, .preemption g, .saved g, .singleStepStop g]
    (everyCell.flatMap fun x => [.gangPlacement g x.1 x.2.1 x.2.2, .resumption g x.1 x.2.1 x.2.2])

def launchEvents (l : Nat) : List Instr :=
  List.append [.launchReady l, .waitObjectPoll l, .launchTimeout l, .launchEnded l]
    ((List.range 8).map fun p => .recomputeProducerEnd p l)

def ringEvents (p r : Nat) : List Instr :=
  [.submit p r, .cancel p r, .resume p r, .hset p r, .hclr p r, .load p r, .unload p r, .badcmd p r, .commandCompletion p r]

def copyEvents (p : Nat) (x : Expert) : List Instr :=
  x.copies.flatMap fun k => [.copyWritten p x.eid k.rep, .copyVerified p x.eid k.rep, .copyTimeout p x.eid k.rep,
    .copyfail p x.eid k.rep .access, .queueClosure p x.eid k.rep, .freed p x.eid k.rep]

/-- Errors that die controllers have found in an expert's copies, or that the agent meets in its source (R296, R300). -/
def State.errorEvents (s : State) (p : Nat) (x : Expert) : List Instr :=
  let bad (base : Nat) : Bool := (List.range (x.size / 65536 + 1)).any fun i =>
    let page := (base / 65536 + i) * 65536
    match s.walk (s.part p) page with
    | .ok pa _ => s.poison.any fun y => s.pkg.norm pa ≤ 32 * y && 32 * y < s.pkg.norm pa + 65536
        && base ≤ page + (32 * y - s.pkg.norm pa) && page + (32 * y - s.pkg.norm pa) < base + x.size
    | _ => false
  let source := x.copies.any fun k => k.rep == 0 && bad k.base.toNat
  x.copies.flatMap fun k =>
    List.append (if k.flying && (source || bad k.base.toNat) then [.copyfail p x.eid k.rep .uncorrectable] else [])
      (if decide (k.phase = .live) && bad k.base.toNat then [.livefail p x.eid k.rep .uncorrectable] else [])

def partEvents (s : State) (p : Nat) (x : Part) : List Instr :=
  let own : List Instr := [.dispatch p, .register p, .deregister p, .setthr p, .refresh p, .badrec p, .idleSample p,
   .etesianInterval p, .publication p]
  let records := (List.range 8).map fun d => Instr.faultRecordWrite ⟨p, d⟩
  let rings := (List.range 16).flatMap (ringEvents p)
  let ageing := (List.range 64).map (Instr.queueAgeing p)
  let copies := x.et.experts.flatMap fun e => List.append (copyEvents p e) (s.errorEvents p e)
  [own, records, rings, ageing, copies].flatten

/-- A function of each element of a list and its index. -/
def withIndex {α β : Type} (f : Nat → α → List β) (l : List α) : List β :=
  (List.range l.length).flatMap fun k => match nth l k with
    | some x => f k x
    | none => []

/-- Every move that some agent might make. -/
def State.candidates (s : State) : List Move :=
  let warps := withIndex (fun wi (w : Warp) =>
    Move.issue wi false :: .issue wi true :: (warpEvents wi w).map .event) s.warps
  let ops := withIndex (fun k (_ : EOp) => [.engineCompletion k, .engineThreadFault k]) s.ops
  let matrix := s.mops.map fun m => Instr.mmaCompletion m.id
  let gangs := withIndex (fun g (_ : Gang) => gangEvents g) s.gangs
  let launches := withIndex (fun l (_ : Launch) => launchEvents l) s.launches
  let parts := withIndex (partEvents s) s.parts
  let answers := s.requests.filterMap fun r =>
    if s.pkg.services.contains r.code then none else some (Instr.svcAnswer r.warp r.lanes 0xFFFFFFFFFFFFFFFF)
  let tables : List Instr := if s.pkg.install.isSome then [.decodeTableInstall []] else []
  let regions := s.regions.map fun r => Instr.regionMerge r.line
  List.append warps ([ops, matrix, gangs, launches, parts, answers, tables, regions].flatten.map .event)

end Sys2Proof.Machine
end

