-- ==== Sys2Proof/Machine/Links.lean ====
section
/-! DEFINITION. What reaches the device's memory and links from outside (R122, R202, R321, R340, R347, R348): flits, the BAR2
windows, uncorrectable errors, a CXL link that goes down, and the directory's merges. -/

namespace Sys2Proof.Machine

open Sys2Proof

/-! Fabric flits (R348). -/

/-- The eight beats of a flit with its CRC field zero. -/
def flitBytes (f : Flit) : List Byte :=
  let head := f.dest.toNat + 2 ^ 5 * f.src.toNat + 2 ^ 10 * f.kind.toNat + 2 ^ 16 * f.seq.toNat + 2 ^ 32 * f.tags.toNat
  leBytes 8 head ++ leBytes 6 f.pa.toNat ++ List.replicate 18 0 ++ (f.data ++ List.replicate 224 0).take 224

/-- The physical address that a flit names, in this device's own map. -/
def State.flitPa (s : State) (f : Flit) : Nat := s.pkg.norm (f.pa.toNat / 2 * 32)

/-- Store a flit's sectors with their tags, where its type stores (R102) [31]. -/
def State.consumeFlit (s : State) (f : Flit) : State :=
  let pa := s.flitPa f
  let ws := (List.range (min 7 (f.data.length / 32))).map fun i =>
    (⟨{ loc := .phys (pa + 32 * i) }, (f.data.drop (32 * i)).take 32, f.tags.getLsbD i⟩ : Write)
  if Config.flitStores f.kind.toNat && ws.all fun w => (match w.place.loc with
      | .phys x => s.pkg.reaches x
      | .local _ _ => false) then s.store none ws
  else s

/-- R348: a bad CRC leaves the flit to the link's replay; one for another device goes on along its route. -/
def execFlitReceive (f : Flit) (s : State) : Result :=
  if Config.crc16 (flitBytes f) ≠ f.crc then .next s
  else if f.dest.toNat ≠ s.pkg.device then .next (s.modPkg fun k => { k with outbox := k.outbox ++ [f] })
  else .next (s.consumeFlit f)

/-! CXL (R347). -/

/-- R347: the port's range becomes absent. -/
def execCxlLinkDown (port : Nat) (s : State) : Result :=
  if (nth s.pkg.cxl port).getD 0 = 0 then notEnabled
  else .next (s.modPkg fun k => { k with cxl := setAt k.cxl port 0 })

/-! The host's window (R340). -/

/-- The partition's first package-memory carve-out: base and bytes. -/
def Part.window (p : Part) : Option (Nat × Nat) :=
  (p.carves.map fun (c : Word64) => (bits c.toNat 51 30 * 2 ^ 30, bits c.toNat 63 52 * 2 ^ 30)).find? fun x =>
    x.2 != 0 && x.1 < pkgEnd

/-- Where an access through the window lies; none outside the carve-out, package memory or the 64 GiB of the window. -/
def State.windowPa (s : State) (pi offset n : Nat) : Option Nat :=
  match (s.part pi).window with
  | none => none
  | some (base, len) =>
    let top := min (base + min len (2 ^ 36)) pkgEnd
    if (s.part pi).en && s.pkg.stage == 7 && base + offset + n ≤ top then some (base + offset) else none

/-- Pieces of an access, each within a sector. -/
def sectorPieces : Nat → Nat → List Byte → List (Nat × List Byte)
  | 0, _, _ => []
  | fuel + 1, pa, bs =>
    if bs.isEmpty then []
    else
      let k := 32 - pa % 32
      (pa, bs.take k) :: sectorPieces fuel (pa + k) (bs.drop k)

/-- The lowest die of a partition, whose controller reports errors that the host's accesses meet [21]. -/
def State.firstDie (s : State) (pi : Nat) : Nat :=
  ((List.range 8).find? fun d => (s.part pi).dies.getLsbD d && s.pkg.dies.getLsbD d).getD 0

/-- A host write: S under the sector rule (R97, R101). -/
def State.hostWrite (s : State) (pi pa : Nat) (bs : List Byte) : State :=
  let ws := (sectorPieces (bs.length + 1) pa bs).map fun x => (⟨{ loc := .phys x.1 }, x.2, false⟩ : Write)
  (s.store none ws).reportErrors (s.firstDie pi) ws

/-- R97, R132, R340: an access outside the window is answered as unsupported: a write is dropped and a read gives all ones [31]. -/
def execHostWindowAccess (pi offset : Nat) (write : Option (List Byte)) (size : Nat) (s : State) : Result :=
  match write with
  | some bs =>
    match s.windowPa pi offset bs.length with
    | none => .next s
    | some pa => .next (s.hostWrite pi pa bs)
  | none =>
    let got := match s.windowPa pi offset size with
      | none => List.replicate size 0xFF
      | some pa =>
        if s.poison.any fun x => pa / 32 ≤ x && 32 * x < pa + size then leBytes size (Config.free s.turn pa)
        else s.bytes pa size
    .next (s.modPkg fun k => { k with hostRead := got })

/-! Errors (R202, R321). -/

/-- An uncorrectable error in a cell's local memory, whose event names no physical address [21]. -/
def State.localError (s : State) (die cell off : Nat) : Result :=
  if s.pkg.cellPresent die cell && off < cellBytes then
    let x := ((die * 24 + cell) * cellBytes + off) / 32
    let s := { s with lpoison := if s.lpoison.contains x then s.lpoison else s.lpoison ++ [x] }
    .next (s.fwEvent die 6 (Config.free s.turn off % 2 ^ 48))
  else notEnabled

/-- R202, R321: an error found in memory, or in the local memory of a cell of the die. -/
def execUncorrectableError (die : Nat) (place : ErrorPlace) (s : State) : Result :=
  match place with
  | .cell c off => s.localError die c off
  | .memory pa =>
    if pa < 2 ^ 52 && s.pkg.reaches pa && s.pkg.dies.getLsbD die then
      let x := s.pkg.norm pa / 32
      let s := { s with poison := if s.poison.contains x then s.poison else s.poison ++ [x] }
      .next (s.fwEvent die 6 (pa / 16))
    else notEnabled

/-! The directory (R122, R123). -/

/-- Whether a region that starts at a line has been quiet for a die's interval: MERGEQ times 4,096 cell clocks of 4/7 ns. -/
def Region.quiet (r : Region) (now consctl : Nat) : Bool :=
  let m := bits consctl 29 24
  m != 0 && r.seen * 7 + m * 4096 * 4 ≤ now * 7

/-- The other half of the region that a region is half of. -/
def Region.sibling (r x : Region) : Bool := x.lines == r.lines && x.line / (2 * r.lines) == r.line / (2 * r.lines) && x.line != r.line

/-- What two halves merge into: a 64 KiB region is listed no more. -/
def Region.merged (r x : Region) : List Region :=
  if 512 ≤ 2 * r.lines then [] else [⟨min r.line x.line, 2 * r.lines, max r.seen x.seen⟩]

/-- R122, R123: the region that starts at a line merges with its other half, once both have been quiet [7]. -/
def execRegionMerge (line : Nat) (s : State) : Result :=
  match s.regions.find? fun r => r.line == line with
  | none => notEnabled
  | some r => match s.regions.find? r.sibling with
    | none => notEnabled
    | some x =>
      let quiet (d : Nat) : Bool := r.quiet s.pkg.clock.toNat (s.consctl d) && x.quiet s.pkg.clock.toNat (s.consctl d)
      if (List.range 8).any fun d => s.pkg.dies.getLsbD d && quiet d then
        .next { s with regions := r.merged x ++ (s.regions.erase r).erase x }
      else notEnabled

end Sys2Proof.Machine
end

