-- ==== Sys2Proof/Machine/Bringup.lean ====
section
/-! DEFINITION. Bring-up, firmware trust and attestation (R335, R351 to R357), and writes of registers from outside (R10, R340,
R350). -/

namespace Sys2Proof.Machine

open Sys2Proof

/-! Firmware images (R353, R354). -/

def fwPayloadAt (bs : List Byte) : Nat := (0xB0 + Record.n bs 0xA0 4 + 63) / 64 * 64
def fwDigest (bs : List Byte) : List Byte := (bs.drop 0x10).take 48
def fwSvn (bs : List Byte) : Nat := Record.n bs 8 4
def fwDgen (bs : List Byte) : Nat := Record.n bs 6 2

/-- Everything that R354 asks of an image of a KIND but its SVN [23]. -/
def firmwareOk (kind : Nat) (bs : List Byte) : Bool :=
  let n := Record.n bs
  let signed := bs.take 0x40
  n 0 4 == 0x54464C48 && n 4 2 == kind && (if kind = 1 then n 6 2 == 0 else 1 ≤ n 6 2) && 1 ≤ n 0xA0 4 && n 0xA0 4 ≤ 8192
    && allZero bs 0xA4 12 && fwPayloadAt bs + n 0xC 4 ≤ bs.length
    && Config.sha384 ((bs.drop (fwPayloadAt bs)).take (n 0xC 4)) == fwDigest bs
    && Config.ecdsaOk signed ((bs.drop 0x40).take 96) && Config.lmsOk signed ((bs.drop 0xB0).take (n 0xA0 4))

/-- CODE of a refused image (R352, R354): 0 where it is accepted. -/
def Package.trust (k : Package) (kind : Nat) (bs : List Byte) : Nat :=
  if !firmwareOk kind bs then 1
  else if fwSvn bs < ((nth k.minSvn (kind - 1)).getD 0).toNat then 2
  else 0

/-- An accepted image is measured, and may raise its fused minimum (R354, R355). -/
def Package.accept (k : Package) (kind : Nat) (bs : List Byte) : Package :=
  let m := (nth k.measure (kind - 1)).getD []
  let low := ((nth k.minSvn (kind - 1)).getD 0).toNat
  { k with measure := setAt k.measure (kind - 1) (Config.sha384 (m ++ fwDigest bs))
           minSvn := if Config.raisesSvn bs && low < fwSvn bs then setAt k.minSvn (kind - 1) (BitVec.ofNat 32 (fwSvn bs))
                     else k.minSvn }

/-! Bring-up (R351, R352, R357). -/

/-- The part number: an HLS-9600 has six compute dies enabled (R4, R356). -/
def partNumber (b : Boot) : Nat := if (List.range 8).countP b.enabled.getLsbD = 6 then 9600 else 9800

/-- Whether one byte string stands before another of the same length. -/
def bytesBefore : List Byte → List Byte → Bool
  | x :: xs, y :: ys => x.toNat < y.toNat || (x == y && bytesBefore xs ys)
  | _, _ => false

/-- The members of the fabric group; a device alone forms a group of one (R348, R351). -/
def groupSize (b : Boot) : Nat := if 31 < b.digests.length then 1 else b.digests.length + 1

/-- The device number: the rank of the hash of the device's identity key among those of the group (R357) [23]. -/
def deviceNumber (b : Boot) : Nat :=
  if groupSize b = 1 then 0 else b.digests.countP fun x => bytesBefore x (Config.sha384 Config.identityKeys)

/-- The package as it leaves reset: what is fused, and what has left the device, stay. -/
def Package.cleared (k : Package) (b : Boot) : Package :=
  { stage := 0, number := partNumber b, minSvn := k.minSvn, dies := 0, mmio := k.mmio, reports := k.reports, outbox := k.outbox
    hostRead := k.hostRead, cxl := [0, 0, 0, 0], pcieUp := 0, dgen := 0 }

/-- A halt in a stage. -/
def Package.halt (k : Package) (stage code detail : Nat) : Package :=
  { k with stage := stage, code := code, detail := BitVec.ofNat 32 detail }

/-- The stages TRUST to READY, or the halt that stops them. -/
def Package.bringUp (k : Package) (b : Boot) : Package :=
  let up := { k with pcieUp := b.pcieUp }
  match k.trust 1 b.firmware with
  | 0 =>
    let k := { (k.accept 1 b.firmware) with svn := BitVec.ofNat 32 (fwSvn b.firmware), release := b.release }
    match k.trust 2 b.decode with
    | 0 =>
      let k := { (k.accept 2 b.decode) with dgen := fwDgen b.decode }
      let up := { k with pcieUp := b.pcieUp }
      let dies := b.diesUp &&& b.enabled
      if dies = 0 then up.halt 2 4 0
      else
        let up := { up with dies := dies, cells := (List.range 8).map fun d => (nth b.cells d).getD 0 }
        if !b.lpddr then up.halt 3 3 0
        else
          let one := groupSize b = 1
          { up with
            cxl := (List.range 4).map fun p => min 2048 ((nth b.cxlGib p).getD 0), stage := 7, services := b.services
            device := deviceNumber b, group := groupSize b
            peers := if one then 0 else b.peers &&& BitVec.ofNat 32 (2 ^ groupSize b - 1), ports := if one then 0 else b.ports }.writeCaps
    | c => { k with pcieUp := b.pcieUp }.halt 1 c 2
  | c => up.halt 1 c 1

/-- R351, R354 to R357: the device as bring-up leaves it. Memory is not cleared, and what is ordered from outside stays [32]. -/
def execReset (b : Boot) (s : State) : Result :=
  let k := (s.pkg.cleared b).bringUp b
  let parts := if k.stage = 7 then Part.first k.dies k.cxl :: List.replicate 7 {} else List.replicate 8 {}
  .next { turn := s.turn, agenda := s.agenda, pkg := k, mem := s.mem, tags := s.tags, poison := s.poison, lmem := s.lmem
          ltags := s.ltags, lpoison := s.lpoison, parts := parts }

/-! Decode tables (R335) and attestation (R355). -/

/-- Whether some launch of the package is DISPATCHED or ENDING. -/
def State.someRunning (s : State) : Bool :=
  s.launches.any fun (l : Launch) => decide (l.phase = .dispatched) || decide (l.phase = .ending)

/-- R335, R354: a table is refused, or accepted and swapped in once nothing runs, dispatch being held meanwhile. A table that waits
is swapped in by the next such step. -/
def execDecodeTableInstall (image : List Byte) (s : State) : Result :=
  match s.pkg.install with
  | some n => if s.someRunning then notEnabled else .next (s.modPkg fun k => k.installed n)
  | none =>
    if s.pkg.stage ≠ 7 then notEnabled
    else if s.pkg.trust 2 image ≠ 0 || fwDgen image < s.pkg.dgen then .next s
    else
      let s := s.modPkg fun k => k.accept 2 image
      if s.someRunning then .next (s.modPkg fun k => { k with install := some (fwDgen image) })
      else .next (s.modPkg fun k => k.installed (fwDgen image))

/-- The signed part of a report [23]. -/
def Package.reportBody (k : Package) (nonce : List Byte) : List Byte :=
  nonce ++ k.measure.flatten ++ k.minSvn.flatMap (fun (x : Word32) => leBytes 4 x.toNat) ++ leBytes 4 k.dgen ++ Config.identityKeys

/-- R355. -/
def execAttestationReport (nonce : List Byte) (s : State) : Result :=
  if nonce.length ≠ 32 then notEnabled
  else
    let body := s.pkg.reportBody nonce
    let report := body ++ Config.signEcdsa body ++ Config.signLms body
    .next (s.modPkg fun k => { k with reports := k.reports ++ [report] })

/-! Register writes (R10, R340, R350, R351). -/

/-- R10, R256, R340, R341, R350: 4 or 8 aligned bytes, at a register or at nothing. -/
def execRegisterWrite (site : RegSite) (size : Nat) (value : Word64) (s : State) : Result :=
  let off := match site with
    | .pf0 o => o
    | .vf _ o => o
    | .sys _ _ addr => addr.toNat
  if !((size = 4 || size = 8) && off % size = 0) then notEnabled
  else match site with
    | .pf0 o => .next (s.writeBlock ⟨0, none, none⟩ (pfReg s.pkg.capptr.toNat) o size value.toNat)
    | .vf n o =>
      if s.pkg.stage = 7 && (s.part n).en then .next (s.writeBlock ⟨n, none, none⟩ ringReg o size value.toNat) else .next s
    | .sys n die addr =>
      match s.block ⟨n, die, none⟩ addr.toNat with
      | none => .next s
      | some block => .next (s.writeBlock ⟨n, die, none⟩ block (addr.toNat % 2 ^ 24) size value.toNat)

end Sys2Proof.Machine
end

