-- ==== Sys2Proof/Machine/Collective.lean ====
section
/-! DEFINITION. The warp collectives (R209 to R212): SHFL, VOTE, WRED, WSCAN, MATCH. -/

namespace Sys2Proof.Machine

open Sys2Proof

/-- The union of the entries at the issuing split's PC, with its ACTIVE (R209). -/
def Ctx.union (c : Ctx) : Ctx :=
  let lanes := lanesOf (c.w.c.frontier.filter fun e => e.pc = c.pc)
  { c with split := { c.split with lanes := lanes }, active := c.w.c.guarded lanes c.hdr.guard }

/-- Every entry at the collective's PC that is not yet blocked there blocks, and selection passes on (R37, R209). -/
def WCore.holdAt (k : WCore) (pc : Addr) (mask : Lanes) : WCore :=
  let table := k.frontier.map fun e => if e.pc = pc && e.ready then { e with block := .collective mask 0 } else e
  let sel := match nextReady table pc with
    | some x => x.lanes
    | none => k.sel
  { k with frontier := table, sel := sel }

/-- The contributing lanes: named lanes in ACTIVE (R209). -/
def Ctx.contributors (c : Ctx) (f : ColForm) : Lanes := f.mask &&& c.active

/-- Whether some named lane was absent (R209). -/
def Ctx.someAbsent (c : Ctx) (f : ColForm) : Bool := f.mask &&& ~~~c.w.live != 0

/-- The status predicate in each lane of ACTIVE (R209). -/
def Ctx.status (c : Ctx) (f : ColForm) (k : WCore) : WCore :=
  match f.b with
  | .p _ _ => c.active.list.foldl (fun k i => k.write f.b i 1 (c.someAbsent f).toNat (c.forced c.w.c i)) k
  | _ => k

/-- A collective: it waits until every named lane is absent or at its PC, then issues once for all entries there, and
`value` is what a lane of ACTIVE receives. -/
def collective (i : Instr) (f : ColForm) (s : State) (width : Nat) (hasStatus : Bool) (value : Ctx → Nat → Value) : Result :=
  match s.context i with
  | none => .fault .noIssue
  | some c =>
    if c.w.pending.isEmpty && !c.w.gathered f.mask c.pc then
      .next ((s.selected c).modWarp c.wi fun w => w.reselect (w.c.holdAt c.pc f.mask))
    else issueAt i s c.union fun s c =>
      let r := c.each c.w.c f.dst width (value c)
      c.done s (if hasStatus then c.status f r.1 else r.1) r.2

/-- The source lane that SHFL's selector names (R212). -/
def shflLane (mode i s : Nat) : Option Nat :=
  let j : Option Int := match mode with
    | 0 => some (s : Int)
    | 1 => some ((i : Int) + Ty.s32.toInt s)
    | 2 => if bits s 31 15 = 0 then some ((((i &&& bits s 4 0) ||| bits s 9 5) ^^^ bits s 14 10 : Nat) : Int) else none
    | _ =>
      if bits s 31 8 = 0 && bits s 7 5 ≤ 5 then
        let w := 2 ^ bits s 7 5
        some ((i - i % w + (i % w + bits s 4 0) % w : Nat) : Int)
      else none
  j.bind fun j => if 0 ≤ j && j ≤ 31 then some j.toNat else none

/-- R211, R212. -/
def execShfl (f : ColForm) (s : State) : Result :=
  collective (.shfl f) f s f.ty.width false fun c i =>
    let sel := c.w.c.read f.b i 32
    let j := match shflLane f.op.toNat i sel.1 with
      | some j => if (c.contributors f).has j then j else i
      | none => i
    let x := c.w.c.read f.a j f.ty.width
    ⟨x.1, x.2 || sel.2, 0⟩

/-- VOTE's result over the contributors' predicates, by lane (R211). -/
def voteOf (op : Nat) (ps : List (Nat × Bool)) : Nat :=
  match op with
  | 0 => (ps.all (·.2)).toNat
  | 1 => (ps.any (·.2)).toNat
  | 2 => (ps.all (·.2) || ps.all (!·.2)).toNat
  | _ => ps.foldl (fun n p => n + if p.2 then 2 ^ p.1 else 0) 0

/-- R211. -/
def execVote (f : ColForm) (s : State) : Result :=
  collective (.vote f) f s 32 true fun c _ =>
    let xs := (c.contributors f).list.map fun j => (j, c.w.c.read f.a j 1)
    ⟨voteOf f.op.toNat (xs.map fun x => (x.1, x.2.1 == 1)), xs.any (·.2.2), 0⟩

/-- A node of WRED and WSCAN (R211, R212). R90 rounds it in "the accumulation format", which neither names for F16 and BF16; it is the
instruction's own type here [16]. -/
def foldOf (t : Ty) (op : Nat) (rnd : Rnd) (x y : Nat) : Nat × Flags :=
  if t.isFloat && op = 0 then roundTo t rnd 0 ((FVal.decode t.fmt x).add (FVal.decode t.fmt y) rnd)
  else if t.isFloat then fMinMax t (op == 2) x y
  else match op with
    | 0 => (t.wrap (t.toInt x + t.toInt y), 0)
    | 1 => (t.wrap (min (t.toInt x) (t.toInt y)), 0)
    | 2 => (t.wrap (max (t.toInt x) (t.toInt y)), 0)
    | 3 => (x &&& y, 0)
    | 4 => (x ||| y, 0)
    | _ => (x ^^^ y, 0)

/-- What an empty reduction yields (R90, R212). -/
def foldEmpty (t : Ty) (op : Nat) : Nat :=
  if t.isFloat then (if op = 0 then 0 else t.fmt.nan)
  else match op with
    | 1 => t.wrap t.intMax
    | 2 => t.wrap t.intMin
    | 3 => 2 ^ t.width - 1
    | _ => 0

/-- The reduction of the contributors among the first n lanes. -/
def foldLanes (c : Ctx) (f : ColForm) (n : Nat) : Value :=
  let xs := (List.range n).map fun j =>
    if (c.contributors f).has j then some (c.w.c.read f.a j f.ty.width) else none
  let r := reduce (foldOf f.ty f.op.toNat f.rnd) (xs.map fun x => x.map (·.1))
  ⟨r.1.getD (foldEmpty f.ty f.op.toNat), (xs.any fun x => x.any (·.2)) || f.ty.narrow, r.2⟩

/-- R211, R212. -/
def execWred (f : ColForm) (s : State) : Result :=
  collective (.wred f) f s f.ty.width true fun c _ => foldLanes c f 32

/-- R211, R212. -/
def execWscan (f : ColForm) (s : State) : Result :=
  collective (.wscan f) f s f.ty.width true fun c i => foldLanes c f (i + 1)

/-- R211. -/
def execMatchL (f : ColForm) (s : State) : Result :=
  collective (.matchL f) f s 32 true fun c i =>
    let xs := (c.contributors f).list.map fun j => (j, c.w.c.read f.a j f.ty.width)
    let own := (c.w.c.read f.a i f.ty.width).1
    let same (v : Nat) : Nat := xs.foldl (fun n x => n + if x.2.1 = v then 2 ^ x.1 else 0) 0
    let all := (c.contributors f).toNat
    ⟨if f.op = 0 then same own
     else match xs with
      | [] => 0
      | x :: _ => if same x.2.1 = all then all else 0, xs.any (·.2.2), 0⟩

end Sys2Proof.Machine
end

