-- ==== Sys2Proof/Machine/PageMap.lean ====
section
/-! DEFINITION. How the loader maps an image's pages in its partition's translation tree, and takes them out again (R304 to R306,
R329, R334): entries of 64 KiB pages, with the tables above them where there are none yet [10]. -/

namespace Sys2Proof.Machine

open Sys2Proof

/-- A table entry that a walk goes through (R306, R307). -/
def pteTable (e level : Nat) : Bool :=
  pteV e && pteType e == 0 && bits e 63 52 == 0 && !bit e 7 && pteAddr e % belowSize level == 0

/-- Where the entry that an address indexes in a table lies, if the partition's walks may read it (R305, R349). -/
def State.entryAt (s : State) (p : Part) (va level table : Nat) : Option Nat :=
  let ea := s.pkg.norm (table + 8 * levelIndex va level)
  if s.ownsPa p ea && s.pkg.reaches ea then some ea else none

/-- Where the level-3 entry of an address lies, if the tables above it stand; `left` levels remain below the table. -/
def State.leafAt (s : State) (p : Part) (va : Nat) : Nat → Nat → Option Nat
  | 0, table => s.entryAt p va 3 table
  | left + 1, table => (s.entryAt p va (2 - left) table).bind fun ea =>
    if pteTable (s.word64 ea) (2 - left) then s.leafAt p va left (pteAddr (s.word64 ea)) else none

/-- Write an entry. -/
def State.putPte (s : State) (ea e : Nat) : State := s.store none [⟨{ loc := .phys ea }, leBytes 8 e, false⟩]

/-- The loader fills the memory of a new table with zeros, S: unlisted bytes and sectors are that (R101, R305). -/
def State.clearTable (s : State) (pa n : Nat) : State :=
  let s := (List.range (n / 128)).foldl (fun s j => s.conflict none { loc := .phys (pa + 128 * j) }) s
  { s with mem := s.mem.filter fun x => x.1 < pa || pa + n ≤ x.1
           tags := s.tags.filter fun x => x.1 < pa / 32 || (pa + n) / 32 ≤ x.1 }

/-- Make the tables above an address's level-3 entry stand, new ones from `free` on, cleared before they are linked: the state and where
free memory begins now; none where something else stands in their place. -/
def State.openTables (s : State) (p : Part) (va : Nat) : Nat → Nat → Nat → Option (State × Nat)
  | 0, _, free => some (s, free)
  | left + 1, table, free => (s.entryAt p va (2 - left) table).bind fun ea =>
    let e := s.word64 ea
    let n := belowSize (2 - left)
    let at_ := (free + n - 1) / n * n
    if pteTable e (2 - left) then s.openTables p va left (pteAddr e) free
    else if pteV e then none
    else ((s.clearTable at_ n).putPte ea (at_ + 1)).openTables p va left at_ (at_ + n)

/-- Map one page, where nothing is mapped. -/
def State.mapPage (s : State) (p : Part) (va e free : Nat) : Option (State × Nat) :=
  (s.openTables p va 3 p.root free).bind fun r => (r.1.leafAt p va 3 p.root).bind fun ea =>
    if pteV (r.1.word64 ea) then none else some (r.1.putPte ea e, r.2)

/-- Map pages, each an address and its entry. -/
def State.mapPages (s : State) (p : Part) : List (Nat × Nat) → Nat → Option State
  | [], _ => some s
  | x :: xs, free => (s.mapPage p x.1 x.2 free).bind fun r => r.1.mapPages p xs r.2

/-- Bytes that hold the new tables of a range of pages at most, in whole pages. -/
def tablesRoom (pages : Nat) : Nat :=
  let n := 2 + (pages / 2 ^ 14 + 2)
  (8192 * n + 256 * (pages / 32 + 2) + 65535) / 65536 * 65536

/-- Take one page out, if it still maps what it mapped. -/
def State.unmapPage (s : State) (p : Part) (va pa : Nat) : State :=
  ((s.leafAt p va 3 p.root).map fun ea =>
    if pteV (s.word64 ea) && pteType (s.word64 ea) == 1 && pteAddr (s.word64 ea) == pa then s.putPte ea 0 else s).getD s

end Sys2Proof.Machine
end

