-- ==== Sys2Proof/Machine/Commands.lean ====
section
/-! DEFINITION. The command processor's rings (R341 to R345): each command taken from a ring, and the completion that answers it.
LOAD stands with the images. -/

namespace Sys2Proof.Machine

open Sys2Proof

/-- RESULT codes (R343). -/
def resOkCode : Nat := 0
def resBadcmd : Nat := 1
def resRefused : Nat := 2
def resNotfound : Nat := 3
def resBusy : Nat := 4
def resLoadfail : Nat := 5

/-- What a command leaves: the state, RESULT, VALUE and VALUE2. -/
structure Answer where
  s : State
  result : Nat
  value : Nat := 0
  value2 : Nat := 0
deriving DecidableEq, Repr

/-- The ring served next: round-robin by number, each ring's completions before its next entry (R343) [28]. -/
def State.nextRing (s : State) (pi : Nat) : Option Nat :=
  let p := s.part pi
  ((List.range 16).map fun i => (p.lastRing + 1 + i) % 16).find? fun n =>
    !(s.ring pi n).entries.isEmpty && !p.completions.any fun c => c.ring == n

/-- Take the next entry of a ring if its OP is one that a command answers to (R342, R343). -/
def State.takeCommand (s : State) (pi n : Nat) (mine : Nat → Bool) (f : State → List Byte → Answer) : Result :=
  match (s.ring pi n).entries with
  | [] => notEnabled
  | e :: rest =>
    let op := Record.n e 0 2
    if (s.part pi).en && s.nextRing pi == some n && mine op then
      let s := s.modRing pi n fun r => { r with head := r.head + 1, entries := rest }
      let a := f (s.modPart pi fun p => { p with lastRing := n }) e
      let c : Completion := ⟨n, BitVec.ofNat 64 (Record.n e 8 8), op, a.result, BitVec.ofNat 64 a.value, BitVec.ofNat 64 a.value2⟩
      .next (a.s.modPart pi fun p => { p with completions := p.completions ++ [c] })
    else notEnabled

/-- The k-th 8-byte argument of an entry. -/
def commandArg (e : List Byte) (k : Nat) : Nat := Record.n e (0x10 + 8 * k) 8

/-- R272, R342. -/
def execSubmit (pi n : Nat) (s : State) : Result :=
  s.takeCommand pi n (· == 1) fun s e =>
    let r := s.submit pi (commandArg e 0) (Record.n e 2 2)
    if r.2 = 0 then ⟨s, resRefused, 0, 0⟩ else ⟨r.1, resOkCode, r.2, 0⟩

/-- The place of a partition's launch with a sequence number. -/
def State.launchBySeq (s : State) (pi seq : Nat) : Option Nat :=
  (List.range s.launches.length).find? fun i => match nth s.launches i with
    | some l => l.part == pi && l.seq == seq
    | none => false

/-- Cancellation of a launch (R274, R276). One that a fatal fault is ending goes on to that end. -/
def State.cancelLaunch (s : State) (li : Nat) : Option State :=
  match nth s.launches li with
  | none => none
  | some l => match l.phase with
    | .queued | .ready =>
      let head := match l.queue with
        | some q => s.headOf l.part q == some li
        | none => false
      let t := s.toEnding li 6
      some (match l.queue with
        | some q => if head then s.noteReady (t.newHead l.part q) l.part l.queue else t
        | none => t)
    | .dispatched => some (if l.dying then s else s.forceEnd li 6)
    | .ending | .ended => none

/-- R276, R343. -/
def execCancel (pi n : Nat) (s : State) : Result :=
  s.takeCommand pi n (· == 2) fun s e =>
    match (s.launchBySeq pi (commandArg e 0)).bind s.cancelLaunch with
    | some t => ⟨t, resOkCode, 0, 0⟩
    | none => ⟨s, resNotfound, 0, 0⟩

/-- A STOPPED gang becomes eligible, on its cell still or off it (R280, R314, R322, R344). -/
def State.resumeGang (s : State) (step : Bool) (base gi : Nat) : State :=
  let s := s.modGang gi fun g =>
    let g := { g with stepNext := step, e := base, order := s.nextElig, agedAt := s.pkg.clock.toNat }
    if g.phase = .stopping then { g with resumed := true } else { g with phase := .eligible }
  { s with nextElig := s.nextElig + 1 }

/-- The STOPPED gangs of a launch. -/
def State.stoppedGangs (s : State) (li : Nat) : List Nat :=
  (List.range s.gangs.length).filter fun i => match nth s.gangs i with
    | some g => g.launch == li && (decide (g.phase = .stopped) || (decide (g.phase = .stopping) && !g.resumed))
    | none => false

/-- R314, R342 to R344. -/
def execResume (pi n : Nat) (s : State) : Result :=
  s.takeCommand pi n (· == 3) fun s e =>
    match s.launchBySeq pi (commandArg e 0) with
    | none => ⟨s, resNotfound, 0, 0⟩
    | some li =>
      let gs := s.stoppedGangs li
      let base := match nth s.launches li with
        | some l => l.base
        | none => 0
      if gs.isEmpty then ⟨s, resNotfound, 0, 0⟩
      else ⟨gs.foldl (fun s gi => s.resumeGang (bit (commandArg e 1) 0) base gi) s, resOkCode, 0, 0⟩

/-- Whether a handle index may not change: a launch not ENDED names it, or an image holds it (R343, R345). -/
def State.handleBusy (s : State) (pi i : Nat) : Bool :=
  (s.launches.any fun (l : Launch) => l.part == pi && decide (l.phase ≠ .ended) && l.lrec.handles.any fun h => h.index == i)
    || (match FMap.get none (s.part pi).handles i with
      | some h => h.image
      | none => false)

/-- The limits of HSET (R345) [28]. -/
def Part.hsetOk (p : Part) (i base len bitmap : Nat) : Bool :=
  let others := p.handles.filterMap fun e => if e.1 = i then none else e.2
  let hits := others.filter fun h => overlap base len h.base.toNat h.len
  i < 2 ^ 24 && len ≠ 0 && len % 256 == 0 && base % 256 == 0 && bitmap % 8 == 0
    && (if bitmap = 0 then hits.all fun h => h.bitmap.isNone else hits.isEmpty)

/-- R345. -/
def execHset (pi n : Nat) (s : State) : Result :=
  s.takeCommand pi n (· == 4) fun s e =>
    let i := commandArg e 0
    let bm := commandArg e 3
    if !(s.part pi).hsetOk i (commandArg e 1) (commandArg e 2) bm then ⟨s, resBadcmd, 0, 0⟩
    else if s.handleBusy pi i then ⟨s, resBusy, 0, 0⟩
    else
      let h : Handle := { base := BitVec.ofNat 64 (commandArg e 1), len := commandArg e 2,
                          bitmap := if bm = 0 then none else some (BitVec.ofNat 64 bm), ro := bit (commandArg e 4) 0,
                          image := false }
      ⟨s.modPart pi fun p => { p with handles := FMap.set none p.handles i (some h) }, resOkCode, 0, 0⟩

/-- R345. -/
def execHclr (pi n : Nat) (s : State) : Result :=
  s.takeCommand pi n (· == 5) fun s e =>
    let i := commandArg e 0
    if s.handleBusy pi i then ⟨s, resBusy, 0, 0⟩
    else ⟨s.modPart pi fun p => { p with handles := FMap.set none p.handles i none }, resOkCode, 0, 0⟩

/-- Whether a launch not ENDED names a kernel of an image (R334). -/
def State.imageHeld (s : State) (pi : Nat) (im : Image) : Bool :=
  s.launches.any fun (l : Launch) => l.part == pi && decide (l.phase ≠ .ended) && im.kernels.any fun k => k.kdesc == l.lrec.kdesc

/-- R334, R343. -/
def execUnload (pi n : Nat) (s : State) : Result :=
  s.takeCommand pi n (· == 7) fun s e =>
    match (s.part pi).images.find? fun im => im.base.toNat == commandArg e 0 with
    | none => ⟨s, resNotfound, 0, 0⟩
    | some im =>
      if s.imageHeld pi im then ⟨s, resBusy, 0, 0⟩
      else
        let s := (List.range ((im.len + 65535) / 65536)).foldl (fun s k =>
          (s.unmapPage (s.part pi) (im.base.toNat + 65536 * k) (im.pa + 65536 * k)).dropTlb pi (some (im.base.toNat + 65536 * k))) s
        ⟨s.modPart pi fun p =>
          { p with images := p.images.filter (fun x => x.base != im.base)
                   handles := p.handles.filter fun h => !im.handles.contains h.1 }, resOkCode, 0, 0⟩

/-- R342: codes 0 and 8 upward. -/
def execBadcmd (pi n : Nat) (s : State) : Result :=
  s.takeCommand pi n (fun op => op == 0 || 8 ≤ op) fun s _ => ⟨s, resBadcmd, 0, 0⟩

/-- The 32 bytes of a completion (R343). -/
def Completion.bytes (c : Completion) : List Byte :=
  leBytes 8 c.cookie.toNat ++ leBytes 2 c.op ++ leBytes 2 c.result ++ leBytes 4 0 ++ leBytes 8 c.value.toNat
    ++ leBytes 8 c.value2.toNat

/-- Whether a completion ring has room (R343). -/
def Ring.room (r : Ring) : Bool :=
  let k := r.csize.toNat % 16
  4 ≤ k && k ≤ 12 && (r.ctail - r.chead).toNat ≠ 2 ^ k

/-- R343: the ring's oldest completion is written, and CTAIL rises; one that cannot be written waits [28]. -/
def execCommandCompletion (pi n : Nat) (s : State) : Result :=
  let r := s.ring pi n
  match (s.part pi).completions.find? fun c => c.ring == n with
  | none => notEnabled
  | some c =>
    if !r.room then notEnabled
    else match s.writeVa pi (r.cbase.toNat + 32 * (r.ctail.toNat % 2 ^ (r.csize.toNat % 16))) c.bytes with
      | none => notEnabled
      | some s =>
        let s := s.modRing pi n fun r => { r with ctail := r.ctail + 1 }
        .next (s.modPart pi fun p => { p with completions := p.completions.erase c })

end Sys2Proof.Machine
end

