-- ==== Sys2Proof/Machine/Control.lean ====
section
/-! DEFINITION. The control instructions (R159 to R166): NOP, BRA, MBR, BRX, CALL, CALLX, RET, EXIT, YIELD, TRAP, BKPT,
TRST. -/

namespace Sys2Proof.Machine

open Sys2Proof

def laneSet (i : Nat) : Lanes := BitVec.ofNat 32 (2 ^ i)

/-- The destination of BRA, CALL and the pairs of MBR (R151): lines from the PC's line, and a slot. -/
def target (pc : Addr) (lines : Int) (slot : Nat) : Addr :=
  BitVec.ofNat 64 (lineBase pc) + BitVec.ofInt 64 (64 * lines) + BitVec.ofNat 64 slot

def brDest (pc : Addr) (f : BrForm) : Addr := target pc f.line.toInt f.slot.toNat

/-- A destination whose mark cannot be read, as the failure of an access to its line, in the order of R202 [15]. -/
def unreadTarget (lanes : Lanes) (pc : Addr) (tag : Bool) (x : Stop) : Failure :=
  ⟨lanes, (match x with
    | .sleep _ _ => 40
    | .fault .bus cause _ => 50 + cause
    | .fault _ cause _ => 10 + cause), x, lineBase pc, tag⟩

/-- What keeps a transfer from its destinations: TARGET where one of them may not be gone to (R143, R160), then what an access to the
line of one meets whose mark cannot be read: a fault, or the sleep of the split [15]. -/
def targetStop (i : Instr) (s : State) (c : Ctx) (dests : List (Nat × Addr)) : Option Body :=
  let bad := dests.filter fun d => outOfCode c.variant d.2 || (s.lineUnread c.pi d.2).isNone && !s.marked c.pi d.2
  let unread := dests.filterMap fun d => (s.lineUnread c.pi d.2).map (unreadTarget (laneSet d.1) d.2 (addressTag i c d.1))
  if !bad.isEmpty then
    some (.fault { cls := .target, lanes := Lanes.ofList (bad.map (·.1)), tags := (bad.any fun d => addressTag i c d.1).toNat })
  else if unread.isEmpty then none else some (decideFailures unread)

/-- Move lanes to their destinations, or what keeps the transfer from one of them (R143, R160). `effect` is the captured state with the
link written and taint pushed. -/
def transferTo (i : Instr) (s : State) (c : Ctx) (effect : WCore) (dests : List (Nat × Addr)) : Body :=
  match targetStop i s c dests with
  | some b => b
  | none =>
    .done { s := s.modWarp c.wi fun w => { w with c := effect }, flow := .transfer (dests.map fun d => (laneSet d.1, d.2)) }

/-- Push the branch's PC in the lanes of ACTIVE that a test selects, under TAINT (R106). ACTIVE leaves out the lanes whose guard is
false (R40), a P guard too, so those of a BRA, BRX or CALLX push nothing, whatever R106 says of a branch not taken [17]. -/
def Ctx.pushes (c : Ctx) (test : Nat → Bool) : WCore :=
  if c.policy = 2 then (c.active.list.filter test).foldl (fun k j => k.pushTaint j c.pc) c.w.c else c.w.c

/-- The link in each lane of ACTIVE (R161). -/
def Ctx.links (c : Ctx) (k : WCore) : WCore :=
  c.active.list.foldl (fun a j => a.write (.v 0) j 64 (nextSlot c.pc).toNat (c.forced c.w.c j)) k

/-- R164. -/
def execNop (f : RegForm) (s : State) : Result := issue (.nop f) s fun s c => c.done s c.w.c []

/-- R160. -/
def execBra (f : BrForm) (s : State) : Result :=
  issue (.bra f) s fun s c =>
    transferTo (.bra f) s c (c.pushes (c.guardTag c.w.c)) (c.active.list.map fun j => (j, brDest c.pc f))

/-- The target that MBR chooses in a lane (R162). -/
def mbrChoice (k : WCore) (pc : Addr) (lane : Nat) : List MbrPair → Option Addr
  | [] => none
  | p :: ps => if (k.getP lane p.pred.toNat).val then some (target pc p.line.toInt p.slot.toNat) else mbrChoice k pc lane ps

/-- R160, R162. -/
def execMbr (f : MbrForm) (s : State) : Result :=
  issue (.mbr f) s fun s c =>
    let pairs := f.first :: f.rest
    transferTo (.mbr f) s c (c.pushes fun j => mbrTainted c.w.c j pairs)
      (c.active.list.filterMap fun j => (mbrChoice c.w.c c.pc j pairs).map fun d => (j, d))

/-- The destinations that a register names in each lane of ACTIVE (R160). -/
def Ctx.registerDests (c : Ctx) (o : Operand) : List (Nat × Addr) :=
  c.active.list.map fun j => (j, BitVec.ofNat 64 (c.w.c.read o j 64).1)

/-- R160. -/
def execBrx (f : RegForm) (s : State) : Result :=
  issue (.brx f) s fun s c =>
    transferTo (.brx f) s c (c.pushes fun j => c.guardTag c.w.c j || c.w.c.tagOf f.a j 64) (c.registerDests f.a)

/-- R160, R161. -/
def execCall (f : BrForm) (s : State) : Result :=
  issue (.call f) s fun s c =>
    transferTo (.call f) s c (c.links c.w.c) (c.active.list.map fun j => (j, brDest c.pc f))

/-- R160, R161: the target is read before the link is written. -/
def execCallx (f : RegForm) (s : State) : Result :=
  issue (.callx f) s fun s c =>
    transferTo (.callx f) s c (c.links (c.pushes fun j => c.guardTag c.w.c j || c.w.c.tagOf f.a j 64))
      (c.registerDests f.a)

/-- R160. -/
def execRet (f : RegForm) (s : State) : Result :=
  issue (.ret f) s fun s c => transferTo (.ret f) s c c.w.c (c.registerDests f.a)

/-- R163. -/
def execExit (f : RegForm) (s : State) : Result :=
  issue (.exit f) s fun s _ => .done { s := s, flow := .exit }

/-- R39, R164. -/
def execYield (f : RegForm) (s : State) : Result :=
  issue (.yield f) s fun s c => .done { s := s, yields := c.active != 0 }

/-- R165: where ACTIVE is empty it raises nothing, and even then it does not advance RNGC [39]. -/
def execTrap (f : ImmForm) (s : State) : Result :=
  issue (.trap f) s fun s c =>
    if c.active = 0 then .done { s := s, ownRngc := true }
    else .fault { cls := .trap, lanes := c.active, info := f.imm }

/-- R165; as TRAP where ACTIVE is empty [39]. -/
def execBkpt (f : RegForm) (s : State) : Result :=
  issue (.bkpt f) s fun s c =>
    if c.active = 0 then .done { s := s, ownRngc := true } else .fault { cls := .bkpt, lanes := c.active }

/-- R109, R166: every live lane in one split, and the guard true in each. -/
def execTrst (f : RegForm) (s : State) : Result :=
  issue (.trst f) s fun s c =>
    if c.split.lanes = c.w.live && c.active = c.split.lanes then c.done s (c.w.c.clearTaint c.active) []
    else c.done s c.w.c []

end Sys2Proof.Machine
end

