-- ==== Sys2Proof/Machine/Convert.lean ====
section
/-! DEFINITION. Conversion and quantisation (R186 to R190), random numbers (R192, R193), tags (R195, R196) and the
correction of one value per lane (R115, R197, R198). -/

namespace Sys2Proof.Machine

open Sys2Proof

/-! CVT. -/

/-- One conversion (R77, R78, R187): encoding, flags, and whether a nonzero finite value became zero. -/
def convert (d src : Ty) (sat : Bool) (rnd : Rnd) (draw x : Nat) : Nat × Flags × Bool :=
  if src.isFloat then
    let v := FVal.decode src.fmt x
    if d.isFloat then
      let r := roundTo d rnd draw v
      let lost := d.narrow && v.isFin && !v.isZero && r.1 % 2 ^ (d.width - 1) == 0
      (r.1, r.2 ||| Flags.on lost fUZ, lost)
    else
      let r := toIntSat d rnd draw v
      (r.1, r.2, false)
  else
    let n := src.toInt x
    if d.isFloat then
      let r := roundTo d rnd draw (FVal.ofInt n)
      (r.1, r.2, false)
    else if sat then
      let r := narrow d true n
      (r.1, r.2, false)
    else (d.wrap n, 0, false)

/-- R186, R187. -/
def execCvt (f : RegForm) (s : State) : Result :=
  issue (.cvt f) s fun s c =>
    let src := (Ty.ofCode (f.sub.toNat % 16)).getD .f32
    let one (lane : Nat) : (Nat × Flags × Bool) × Bool :=
      let x := c.w.c.read f.a lane src.width
      (convert f.ty src (bit f.sub.toNat 4) f.rnd (c.draw f.rnd lane 0) x.1, x.2)
    let r := c.each c.w.c f.dst f.ty.width fun lane =>
      let x := one lane
      ⟨x.1.1, x.2 || narrowP f.ty f.rnd, x.1.2.1⟩
    let lanes := if c.active = 0 then [] else match f.dst with
      | .k _ => [32]
      | _ => c.active.list
    c.done s (r.1.addZcnt (lanes.filter fun j => (one j).1.2.2).length) r.2

/-! QNT and DQNT. -/

/-- The four elements that a lane supplies (R189); those of a lane outside ACTIVE are +0. -/
def qntLane (c : Ctx) (f : RegForm) (src : Ty) (lane : Nat) : List FVal :=
  if c.active.has lane then
    [f.a, f.b, f.c, f.d].map fun o => FVal.decode src.fmt (c.w.c.read o lane src.width).1
  else List.replicate 4 (.fin false 0 0)

/-- The block type that a mode chooses, with its exponent (R81, R82). -/
def qntType (mode : Nat) (xs : List FVal) : Nat × Nat :=
  if mode ≥ 4 then (mode - 4, b4Exp (mode - 4) xs 63 0)
  else
    let cand := (List.range 4).map fun t =>
      let e := b4Exp t xs 63 0
      (b4Lost t e xs, t, e)
    match cand with
    | [] => (0, 0)
    | x :: rest =>
      let best := rest.foldl (fun a y => if y.1 < a.1 then y else a) x
      best.2

/-- R81 to R83, R188, R189. -/
def execQnt (f : RegForm) (s : State) : Result :=
  issue (.qnt f) s fun s c =>
    let src := (Ty.ofCode (bits f.sub.toNat 6 3)).getD .f32
    let xs := (List.range 32).flatMap (qntLane c f src)
    let te := qntType (bits f.sub.toNat 2 0) xs
    let coded (lane : Nat) : List (Nat × Flags × Bool) :=
      (List.range 4).map fun j =>
        b4Encode te.1 te.2 f.rnd (c.draw f.rnd lane j) ((nth (qntLane c f src lane) j).getD (.fin false 0 0))
    let r := c.each c.w.c f.dst 32 fun lane =>
      let cs := coded lane
      let codes := cs.foldr (fun x n => x.1 + 16 * n) 0
      ⟨codes + 65536 * (64 * te.1 + te.2), true, cs.foldl (fun a x => a ||| x.2.1) 0⟩
    let lost := (c.active.list.flatMap coded).filter fun x => x.2.2
    c.done s ((r.1.addZcnt lost.length).addBlock te.1) r.2

/-- R80, R190. -/
def execDqnt (f : RegForm) (s : State) : Result :=
  let sep := bit f.sub.toNat 2
  issue (.dqnt f) s fun s c =>
    c.compute s f.dst 32 ((.op f.a, 32) :: if sep then [(.op f.b, 32)] else []) false fun _ xs =>
      let code := natAt xs 0 / 2 ^ (4 * (f.sub.toNat % 4)) % 16
      let scale := if sep then natAt xs 1 % 256 else bits (natAt xs 0) 23 16
      ((roundTo .f32 .rn 0 (b4Value code scale)).1, 0)

/-! Random numbers. -/

/-- R192. -/
def execRngdraw (f : RegForm) (s : State) : Result :=
  let form := f.sub.toNat % 4
  let pos := 0x80000000 + f.sub.toNat / 4
  issue (.rngdraw f) s fun s c =>
    let k := c.w.c
    c.compute s f.dst (if form = 1 then 64 else 32) [] false fun lane _ =>
      let x := drawAt k.rngk k.rngc lane pos
      match form with
      | 0 => (x, 0)
      | 1 => (x + 2 ^ 32 * drawAt k.rngk k.rngc lane (pos + 0x40000000), 0)
      | _ => ((roundTo .f32 .rn 0 (.fin false (x / 256) (-24))).1, 0)

/-- R193. -/
def execRngkey (f : RegForm) (s : State) : Result :=
  issue (.rngkey f) s fun s c =>
    let k := c.w.c
    if c.active = 0 then c.done s k []
    else
      let get (o : Operand) : Nat := (k.read o 0 64).1
      let k' := { k with rngk := BitVec.ofNat 128 (get f.a + 2 ^ 64 * get f.b)
                         rngc := if f.sub = 1 then BitVec.ofNat 64 (get f.c) else 0 }
      .done { s := s.modWarp c.wi fun w => { w with c := k' }, ownRngc := true }

/-- RNGSKIP by n (R193). -/
def skip (s : State) (c : Ctx) (n : Nat) : Body :=
  let k := c.w.c
  if c.active = 0 then c.done s k []
  else .done { s := s.modWarp c.wi fun w => { w with c := { k with rngc := k.rngc + 1 + BitVec.ofNat 64 n } },
               ownRngc := true }

/-- R193. -/
def execRngskip (f : RegForm) (s : State) : Result :=
  issue (.rngskip f) s fun s c => skip s c (c.w.c.read f.a 0 64).1

/-- R193. -/
def execRngskipImm (f : ImmForm) (s : State) : Result :=
  issue (.rngskipImm f) s fun s c => skip s c f.imm.toNat

/-! Tags. -/

/-- R195. -/
def execTagq (f : RegForm) (s : State) : Result :=
  issue (.tagq f) s fun s c =>
    c.compute s f.dst 32 [] false fun lane _ => ((c.w.c.tagOf f.a lane (if f.sub = 1 then 64 else 32)).toNat, 0)

/-- R196: a uniform destination takes all 64 bits. -/
def execTagp (f : RegForm) (s : State) : Result :=
  issue (.tagp f) s fun s c =>
    let width := match f.dst with
      | .k _ => 64
      | .p _ _ => 1
      | _ => if f.sub = 1 then 64 else 32
    c.compute s f.dst width [(.op f.a, width)] true fun _ xs => (natAt xs 0, 0)

/-! DCORV. -/

/-- One correction (R198): the value, whether the test passed, and the flags. A signalling NaN m of `.lin` raises NV, as R76 says of an
operand, even where the test passes and m enters nothing [16]. -/
def dcorvOf (t : Ty) (form tol : Nat) (clean : Bool) (x a b m : Nat) : Nat × Bool × Flags :=
  let dec (v : Nat) : FVal := FVal.decode t.fmt v
  let one : FVal := .fin false 1 0
  let xv := dec x
  let ax := (dec a).mul xv
  let p := if form = 1 then ax.mul xv else ax
  let base := if form = 2 then dec b else one
  let res := dec (roundTo t .rn 0 (base.add p.neg .rn)).1
  let bnd := dec (roundTo t .rd 0 (p.abs.add base.abs .rd)).1
  let sig := xv.signals || (dec a).signals || (form == 2 && ((dec b).signals || (dec m).signals))
  if clean && res.isFin && bnd.isFin && res.abs.le (bnd.scale (-(tol : Int))) then (x, true, Flags.on sig fNV)
  else
    let g := match form with
      | 0 => xv
      | 1 => xv.scale (-1)
      | _ => dec m
    let r := roundTo t .rn 0 (xv.add (g.mul res) .rn)
    (r.1, false, r.2 ||| Flags.on sig fNV)

/-- R115, R197, R198. -/
def execDcorv (f : DcorvForm) (s : State) : Result :=
  issue (.dcorv f) s fun s c =>
    let k := c.w.c
    let n := f.ty.width
    let form := f.form.toNat
    let r := c.active.list.foldl (fun (acc : WCore × Raised) lane =>
      let x := k.read f.dst lane n
      let a := k.read f.a lane n
      let b := if form = 2 then k.read f.b lane n else (0, false)
      let m := if form = 2 then k.read f.c lane n else (0, false)
      let y := dcorvOf f.ty form f.t.toNat (!a.2 && !b.2) x.1 a.1 b.1 m.1
      let tainted := c.policy == 2 && k.tainted lane
      let forced := c.forced k lane
      ((acc.1.write f.dst lane n y.1 (!y.2.1 || forced)).write f.d lane 1 (y.2.1 && !tainted).toNat forced,
        acc.2 ++ [(lane, y.2.2)])) (k, [])
    c.done s r.1 r.2

end Sys2Proof.Machine
end

