-- ==== Sys2Proof/Machine/Deque.lean ====
section
/-! DEFINITION. Deques and the device launch (R46, R215 to R217): DQADD, DQTAKE, DQSTEAL, DQCNT, LAUNCH. -/

namespace Sys2Proof.Machine

open Sys2Proof

/-- The operations of a deque, in the codes of R289. -/
inductive DqOp | add | take | steal
deriving DecidableEq, Repr

def DqOp.code : DqOp → Nat
  | .add => 0 | .take => 1 | .steal => 2

/-- Whether a deque is bound to another launch (R46). -/
def Deque.foreign (d : Deque) (li : Nat) : Bool :=
  match d.launch with
  | some l => l != li
  | none => false

/-- A deque without an entry is released (R46). -/
def Deque.settle (d : Deque) : Deque := if d.entries.isEmpty then {} else d

/-- One operation on a deque: the deque after it, what it returns, whether it succeeds (R46, R216). -/
def Deque.run (d : Deque) (gi li : Nat) (op : DqOp) (entry : KReg) : Deque × KReg × Bool :=
  if d.foreign li then (d, {}, false)
  else match op with
    | .add =>
      if 256 ≤ d.entries.length then (d, {}, false)
      else ({ entries := entry :: d.entries, gang := if d.entries.isEmpty then some gi else d.gang, launch := some li }, {},
        true)
    | .take => match d.entries with
      | [] => (d, {}, false)
      | e :: es => ({ d with entries := es }.settle, e, true)
    | .steal => match d.entries.getLast? with
      | none => (d, {}, false)
      | some e => ({ d with entries := d.entries.dropLast }.settle, e, true)

/-- The deque of a die core on the warp's die (R215, R216); none where the number names no core. -/
def Ctx.dieCore (c : Ctx) (v : Nat) : Option Nat := if v > 95 then none else some (c.g.die * 96 + v)

/-- The issuing core's die core number. -/
def Ctx.ownCore (c : Ctx) : Nat := c.g.cell * 4 + c.w.core

/-- The lane that stands for a unit in the trace. -/
def Ctx.traceLane (c : Ctx) (u : Nat) : Nat := if u = 32 then (c.active.list.head?).getD 0 else u

/-- The lane operations of an issue, so far. -/
structure DqRun where
  s : State
  k : WCore
  finished : Lanes := 0
  stop : Option Bool := none
deriving DecidableEq, Repr

/-- Write what a unit's operation returns and whether it succeeded. -/
def dqWrite (c : Ctx) (f : RegForm) (k : WCore) (u : Nat) (hasDst : Bool) (e : KReg) (ok : Bool) : WCore :=
  let k := if hasDst then k.write f.dst u 64 e.bits.toNat (e.tag || c.forcedUnit u) else k
  (c.unitLanes u).list.foldl (fun k j => k.write f.d j 1 ok.toNat (c.forced c.w.c j)) k

/-- One unit's operation, as the trace lets it. `stop` is whether the launch diverges. -/
def DqRun.unit (r : DqRun) (c : Ctx) (f : RegForm) (op : DqOp) (core u : Nat) : DqRun :=
  if r.stop.isSome then r
  else
    let hasDst := op != .add
    match c.dieCore core with
    | none => { r with k := dqWrite c f r.k u hasDst {} false, finished := r.finished ||| c.unitLanes u }
    | some key =>
      let l := (nth r.s.launches c.li).getD c.l
      let here (e : TraceEntry) : Bool := e.kind == 2 && e.die == c.g.die && bits e.body.toNat 6 0 == core
      let mine (e : TraceEntry) : Bool :=
        e.gang == c.g.lin && e.warp == c.w.index && bits e.body.toNat 14 10 == c.traceLane u && bits e.body.toNat 8 7 == op.code
      match gateOf l here mine with
      | .wait => { r with stop := some false }
      | .diverge => { r with stop := some true }
      | .go rest =>
        let x := c.w.c.read f.a u 64
        let entry : KReg := if op = .add then ⟨BitVec.ofNat 64 x.1, x.2 || c.forcedUnit u⟩ else {}
        let d := (FMap.get {} r.s.deques key).run c.gi c.li op entry
        let ordinal := FMap.get 0 l.dqOrd key + 1
        let s := { r.s with deques := FMap.set {} r.s.deques key d.1 }
        let s := s.modLaunch c.li fun l => { l with dqOrd := FMap.set 0 l.dqOrd key ordinal, replay := rest }
        let s := s.record c.li (traceEntry 2 c.g.lin c.w.index c.g.die c.g.cell
          (core + 128 * op.code + 512 * d.2.2.toNat + 1024 * c.traceLane u + 2 ^ 32 * ordinal))
        { r with s := s, k := dqWrite c f r.k u hasDst d.2.1 d.2.2, finished := r.finished ||| c.unitLanes u }

/-- DQADD, DQTAKE and DQSTEAL: the lanes that have not performed yet, in order (R216, R290). -/
def deques (i : Instr) (f : RegForm) (s : State) (op : DqOp) (once : Bool) (core : Ctx → Nat → Nat) : Result :=
  issue i s fun s c =>
    let todo := (c.units once).filter fun u => c.w.dqDone &&& c.unitLanes u = 0
    let r := todo.foldl (fun r u => r.unit c f op (core c u) u) ({ s := s, k := c.w.c } : DqRun)
    match r.stop with
    | none => .done { s := (r.s.putCore c r.k).modWarp c.wi fun w => { w with dqDone := w.dqDone &&& ~~~c.active } }
    | some true => .partial_ (r.s.diverge c.li)
    | some false => .partial_ (((r.s.putCore c r.k).modWarp c.wi fun w =>
        { w with dqDone := w.dqDone ||| r.finished }).waitOnTrace c.wi c.li)

/-- R216. -/
def execDqadd (f : RegForm) (s : State) : Result :=
  deques (.dqadd f) f s .add (isK f.a) fun c _ => c.ownCore

/-- R216. -/
def execDqtake (f : RegForm) (s : State) : Result :=
  deques (.dqtake f) f s .take (isK f.dst) fun c _ => c.ownCore

/-- R216. -/
def execDqsteal (f : RegForm) (s : State) : Result :=
  deques (.dqsteal f) f s .steal (isK f.dst && isK f.a) fun c u => (c.w.c.read f.a u 32).1

/-- R216. -/
def execDqcnt (f : RegForm) (s : State) : Result :=
  issue (.dqcnt f) s fun s c =>
    let vic := bit f.sub.toNat 0
    let r := c.each c.w.c f.dst 32 fun lane =>
      let v := if vic then c.w.c.read f.a lane 32 else (c.ownCore, false)
      let d := match c.dieCore v.1 with
        | some key => FMap.get ({} : Deque) s.deques key
        | none => ({} : Deque)
      ⟨if d.foreign c.li then 0 else d.entries.length, v.2, 0⟩
    c.done s r.1 []

/-- R217. -/
def execLaunch (f : RegForm) (s : State) : Result :=
  issue (.launch f) s fun s c =>
    if c.active = 0 then c.done s c.w.c []
    else
      let a := c.w.c.read f.a 32 64
      if a.1 % 256 ≠ 0 then
        .fault { cls := .align, lanes := c.active, addr := BitVec.ofNat 64 a.1, tags := a.2.toNat }
      else
        let r := s.submit c.pi a.1 (c.w.c.read f.b 32 64).1
        .done { s := r.1.putCore c (c.w.c.write f.dst 32 64 r.2 (c.forcedAny c.w.c)) }

end Sys2Proof.Machine
end

