-- ==== Sys2Proof/Machine/FaultEvents.lean ====
section
/-! DEFINITION. The steps that follow faults: replays (R310), the end of a recompute producer (R312, R325), the fault ring
(R318), and the end of a single step (R344). -/

namespace Sys2Proof.Machine

open Sys2Proof

/-- R310. -/
def execFreplayReissue (pi : Nat) (value : Word64) (s : State) : Result :=
  if value.getLsbD 0 then notEnabled else .next (s.freplay pi value.toNat)

/-- R310. -/
def execFreplayCancel (pi : Nat) (value : Word64) (s : State) : Result :=
  if value.getLsbD 0 then .next (s.freplay pi value.toNat) else notEnabled

/-! Producers (R312). -/

/-- The index in a RECOMPUTE entry of a level (R306). -/
def pteRecompute (e level : Nat) : Option Nat :=
  if pteV e && pteType e == 2 && bits e 63 52 == 0 && !bit e 7 && level != 0 && bits e 51 20 == 0 then some (bits e 19 8) else none

/-- The RECOMPUTE entry that a walk of an address ends at: its physical address, level and index; `left` levels remain below the
table. -/
def State.recomputeAt (s : State) (p : Part) (va : Nat) : Nat → Nat → Option (Nat × Nat × Nat)
  | 0, table => (s.entryAt p va 3 table).bind fun ea => (pteRecompute (s.word64 ea) 3).map fun g => (ea, 3, g)
  | left + 1, table => (s.entryAt p va (2 - left) table).bind fun ea =>
    if pteTable (s.word64 ea) (2 - left) then s.recomputeAt p va left (pteAddr (s.word64 ea))
    else (pteRecompute (s.word64 ea) (2 - left)).map fun g => (ea, 2 - left, g)

/-- The page entry that replaces a RECOMPUTE entry of a level for an address (R306, R312). -/
def Producer.entry (r : Producer) (va level : Nat) : Nat :=
  let start := va / 2 ^ levelShift level * 2 ^ levelShift level
  let pa := ((r.pbase : Int) + start - r.vbase) % 2 ^ 52
  pa.toNat / 256 * 256 + 16 * bits r.flags 1 1 + 8 * bits r.flags 0 0 + 3

/-- Map the produced range in, and drop its cached translations. -/
def State.mapProduced (s : State) (pi : Nat) (r : Producer) : State :=
  (List.range (r.len / 65536)).foldl (fun s i =>
    let va := r.vbase + 65536 * i
    let s := s.dropTlb pi (some va)
    match s.recomputeAt (s.part pi) va 3 (s.part pi).root with
    | some (ea, level, g) =>
      if g = r.reg then s.store none [⟨⟨.phys ea, none, false, false, 0⟩, leBytes 8 (r.entry va level), false⟩] else s
    | none => s) s

/-- An entry that sleeps for a registration, and not yet ended in a fault, is replayed, or fails with CAUSE 2. -/
def Split.produced (e : Split) (g : Nat) (ok : Bool) : Split :=
  match e.block with
  | .sleep pages cancelled failed =>
    let hit (x : Sleep) : Bool := x.reg == some g
    if cancelled || failed.isSome || !pages.any hit then e
    else if !ok then { e with block := .sleep (pages.filter hit) cancelled (some 2) }
    else { e with block := .sleep (pages.filter fun x => !hit x) cancelled failed }
  | _ => e

def EOp.produced (o : EOp) (g : Nat) (ok : Bool) : EOp :=
  match o.phase with
  | .asleep x =>
    if x.reg == some g && !o.cancelled && o.failed.isNone then if ok then { o with phase := .running } else { o with failed := some 2 } else o
  | _ => o

/-- Every sleeper of a registration goes on or fails; in a gang off the cells, at its next issue (R325). -/
def State.produced (s : State) (pi g : Nat) (ok : Bool) : State :=
  let s := s.settleStaging pi (fun x => x.reg == some g) (if ok then none else some (.recompute, 2))
  { s with
    warps := s.warps.map fun (w : Warp) =>
      if s.partOf w.gang == pi then w.unblocked (s.marked pi) fun e => e.produced g ok else w
    ops := s.ops.map fun (o : EOp) => if s.partOf o.gang == pi then o.produced g ok else o }

/-- R312. -/
def execRecomputeProducerEnd (pi launch : Nat) (s : State) : Result :=
  match (s.part pi).producers.find? fun x => x.launch == launch, nth s.launches launch with
  | some r, some l =>
    if l.phase ≠ .ended then notEnabled
    else
      let ok := l.code == 0
      let s := s.modPart pi fun p => { p with producers := p.producers.filter fun x => x.launch != launch }
      let s := if ok then s.mapProduced pi r else s
      let s := (s.writeVa pi (r.addr + 0x24) (leBytes 4 (if ok then 2 else 3))).getD s
      .next ((s.produced pi r.reg ok).fwEvent r.die 3 (r.reg + 2 ^ 12))
  | _, _ => notEnabled

/-! The fault ring (R318). -/

/-- What the writing of a record ends. -/
def State.afterRecord (s : State) (a : AfterRecord) : State :=
  match a with
  | .nothing | .staging _ => s
  | .endLaunch li code => match nth s.launches li with
    | some l => if l.phase = .dispatched then s.forceEnd li code else s
    | none => s

/-- R318, R320: the oldest record of a die that waits. -/
def execFaultRecordWrite (source : RecordSource) (s : State) : Result :=
  let pi := source.part
  let p := s.part pi
  match p.pendingRecs.find? fun r => r.frec.die == source.die with
  | none => notEnabled
  | some r =>
    let n := 2 ^ p.frsize
    if p.frsize < 4 || 14 < p.frsize || (p.frtail - p.frhead).toNat = n then notEnabled
    else match s.writeVa pi (p.frbase.toNat + 64 * (p.frtail.toNat % n)) r.frec.bytes with
      | none => notEnabled
      | some s =>
        let s := s.modPart pi fun p => { p with pendingRecs := p.pendingRecs.erase r, frtail := p.frtail + 1 }
        .next ((s.fwEvent r.frec.die 1 p.frtail.toNat).afterRecord r.after)

/-! The end of a single step (R344). -/

/-- Where a split issues next: after a wait that its issue has begun, at the next slot. -/
def Split.nextPc (e : Split) : Addr :=
  match e.block with
  | .barrier _ | .svc _ _ _ | .idle _ _ _ _ | .tlbi _ => nextSlot e.pc
  | _ => e.pc

/-- The split that a warp would issue, or its selected one where all are blocked. -/
def WCore.upcoming (c : WCore) : Option Split :=
  match c.resolve with
  | some x => some x.1
  | none => match c.frontier.find? fun e => e.lanes = c.sel with
    | some e => some e
    | none => c.frontier.head?

/-- The record of a warp at which a single step has stopped. -/
def State.postStep (s : State) (w : Warp) (g : Gang) (l : Launch) : State :=
  match w.c.upcoming with
  | none => s
  | some e => s.post l.part (faultRecord w g l (lateOf w l e.nextPc { cls := .bkpt, cause := 1, lanes := e.lanes }) dispStopped) .nothing

/-- R344: every warp has issued its instruction, or has none to issue. -/
def execSingleStepStop (gi : Nat) (s : State) : Result :=
  match nth s.gangs gi with
  | none => notEnabled
  | some g => match g.step, nth s.launches g.launch with
    | some issued, some l =>
      let mine := (List.range s.warps.length).filter fun wi => match nth s.warps wi with
        | some w => w.gang == gi && !w.ended
        | none => false
      let finished (wi : Nat) : Bool := issued.contains wi || (match nth s.warps wi with
        | some w => !(s.refreshed w g l.part).frontier.any Split.issues
        | none => true)
      if !s.running gi || !mine.all finished then notEnabled
      else
        let s := s.modGang gi fun g => { g with phase := .stopping, step := none }
        .next (mine.foldl (fun s wi => match nth s.warps wi with
          | some w => s.postStep w g l
          | none => s) s)
    | _, _ => notEnabled

end Sys2Proof.Machine
end

