-- ==== Sys2Proof/Machine/Image.lean ====
section
/-! DEFINITION. The loader (R326 to R332, R336): what an image must satisfy, where it is placed, and LOAD. Offsets are counted in
bytes from the image's start. The checks are made in the order of their codes [29]. -/

namespace Sys2Proof.Machine

open Sys2Proof

/-- Codes of a refused image (R329). -/
inductive LoadCode
  | badhdr | gen | feature | section_ | kernel | code | eqmap | nospace | unreadable
deriving DecidableEq, Repr

def LoadCode.num : LoadCode → Nat
  | .badhdr => 1 | .gen => 2 | .feature => 3 | .section_ => 4 | .kernel => 5 | .code => 6 | .eqmap => 7 | .nospace => 8
  | .unreadable => 9

/-- FEATURES of the capability list (R356). -/
def featureBits : Nat := 0xFF

/-- A section-table entry (R327). -/
structure Section_ where
  type : Nat
  flags : Nat
  off : Nat
  size : Nat
  link : Nat
  name : Nat
deriving DecidableEq, Repr

def codeType : Nat := 1
def namesType : Nat := 5
def dataType : Nat := 3
def tagsType : Nat := 4

/-! The header (R326). -/

def imgLength (bs : List Byte) : Nat := Record.n bs 0x28 8
def imgSections (bs : List Byte) : Nat := Record.n bs 0x10 4
def imgKernels (bs : List Byte) : Nat := Record.n bs 0x14 4
def imgKernOff (bs : List Byte) : Nat := Record.n bs 0x20 8

/-- R326, and the two tables within the image. -/
def headerOk (bs : List Byte) : Bool :=
  let n := Record.n bs
  64 ≤ bs.length && n 0 4 == 0x4C525244 && n 4 2 == 1 && 1 ≤ n 6 2 && 1 ≤ imgSections bs && imgSections bs ≤ 1024
    && imgKernels bs ≤ 256 && n 0x18 8 % 64 == 0 && imgKernOff bs % 256 == 0 && allZero bs 0x30 16 && 64 ≤ imgLength bs
    && imgLength bs ≤ bs.length && n 0x18 8 + 32 * imgSections bs ≤ imgLength bs
    && imgKernOff bs + 256 * imgKernels bs ≤ imgLength bs

/-! Sections and names (R327). -/

def parseSection (bs : List Byte) (i : Nat) : Section_ :=
  let at_ := Record.n bs 0x18 8 + 32 * i
  let n (off len : Nat) : Nat := Record.n bs (at_ + off) len
  ⟨n 0 4, n 4 4, n 8 8, n 0x10 8, n 0x18 4, n 0x1C 4⟩

def parseSections (bs : List Byte) : List Section_ := (List.range (imgSections bs)).map (parseSection bs)

/-- A name at an offset of the NAMES section: at most 63 bytes before a zero byte of the section. -/
def nameAt (bs : List Byte) (secs : List Section_) (o : Nat) : Option (List Byte) :=
  match secs.find? fun x => x.type == namesType with
  | none => none
  | some x =>
    let room := ((bs.drop x.off).take x.size).drop o
    let name := (room.take 64).takeWhile (· != 0)
    if name.length < 64 && name.length < room.length then some name else none

/-- A section's own limits. -/
def sectionOk (bs : List Byte) (secs : List Section_) (i : Nat) (x : Section_) : Bool :=
  let isData := x.type == dataType
  let partner (t : Nat) : Bool := match nth secs x.link with
    | some y => y.type == t && y.link == i
    | none => false
  1 ≤ x.type && x.type ≤ 6 && x.flags < (if isData then 2 else 1) && x.off % (if isData then 256 else 64) == 0
    && x.off + x.size ≤ imgLength bs && (x.type != codeType || x.size % 64 == 0)
    && (if isData then partner tagsType else if x.type = tagsType then partner dataType else x.link == 0)
    && (if isData then (nameAt bs secs x.name).isSome else x.name == 0)
    && (x.type != tagsType || match nth secs x.link with
      | some y => x.size == (y.size + 255) / 256
      | none => false)

/-- Two sections have bytes in one 64 KiB page. -/
def samePage (x y : Section_) : Bool :=
  x.size != 0 && y.size != 0 && x.off / 65536 ≤ (y.off + y.size - 1) / 65536 && y.off / 65536 ≤ (x.off + x.size - 1) / 65536

/-- R327. -/
def sectionsOk (bs : List Byte) (secs : List Section_) : Bool :=
  ((List.range secs.length).all fun i => (nth secs i).any (sectionOk bs secs i))
    && secs.countP (fun x => x.type == namesType) == 1
    && ((List.range secs.length).all fun i => (List.range i).all fun j => match nth secs i, nth secs j with
      | some x, some y => !overlap x.off x.size y.off y.size
      | _, _ => true)
    && secs.all fun x => secs.all fun y =>
      !(x.type == codeType && y.type == dataType && y.flags == 0 && samePage x y)

/-! Kernel descriptors (R328). -/

/-- Where kernel k's descriptor lies, and a field of it. -/
def kernAt (bs : List Byte) (k : Nat) : Nat := imgKernOff bs + 256 * k
def kernField (bs : List Byte) (k off len : Nat) : Nat := Record.n bs (kernAt bs k + off) len

/-- Whether a kernel has a variant, and a field of its block. -/
def hasVariant (bs : List Byte) (k : Nat) (kind : CoreKind) : Bool := bit (kernField bs k 4 4) (if kind = .l then 0 else 1)
def varField (bs : List Byte) (k : Nat) (kind : CoreKind) (off len : Nat) : Nat :=
  kernField bs k ((if kind = .l then 0x20 else 0x40) + off) len

def varCode (bs : List Byte) (k : Nat) (kind : CoreKind) : Nat := varField bs k kind 0 8
def varLen (bs : List Byte) (k : Nat) (kind : CoreKind) : Nat := varField bs k kind 8 8
def varRegs (bs : List Byte) (k : Nat) (kind : CoreKind) : Nat := varField bs k kind 16 4
def varHentry (bs : List Byte) (k : Nat) (kind : CoreKind) : Nat := varField bs k kind 24 4

def ones64 : Nat := 2 ^ 64 - 1
def ones32 : Nat := 2 ^ 32 - 1

/-- The PC of an entry in a variant. -/
def entryPc (bs : List Byte) (k : Nat) (kind : CoreKind) (j : Nat) : Nat :=
  Record.n bs (kernField bs k 0x70 8 + 16 * j + (if kind = .l then 0 else 8)) 8

def bothKinds : List CoreKind := [.l, .d]

/-- A variant block. -/
def variantOk (bs : List Byte) (secs : List Section_) (k : Nat) (kind : CoreKind) : Bool :=
  if !hasVariant bs k kind then allZero bs (kernAt bs k + (if kind = .l then 0x20 else 0x40)) 32
  else
    let c := varCode bs k kind
    let len := varLen bs k kind
    let r := varRegs bs k kind
    len != 0 && len % 64 == 0 && c % 64 == 0
      && (secs.any fun x => x.type == codeType && x.off ≤ c && c + len ≤ x.off + x.size)
      && (match kind with
        | .l => 1 ≤ r && r ≤ 255
        | .d => 8 ≤ r && r ≤ 64 && r % 8 == 0)
      && varField bs k kind 0x14 4 == 0 && varField bs k kind 0x1C 4 == 0

/-- Kernel k's descriptor, its entry table and its handle declarations. -/
def kernelOk (bs : List Byte) (secs : List Section_) (k : Nat) : Bool :=
  let n := kernField bs k
  let widths := parseWidths (n 8 4)
  let within (at_ len : Nat) : Bool := at_ + len ≤ imgLength bs
  let name (j : Nat) : Option (List Byte) := nameAt bs secs (kernField bs j 0 4)
  (name k).isSome && ((List.range k).all fun j => name j != name k)
    && 1 ≤ n 4 4 && n 4 4 ≤ 3 && widthsOk (n 8 4) && geomOk (n 0xC 4) widths && resOk (n 0x10 4)
    && localOk (n 0x14 4) (bits (n 0xC 4) 18 16) && pctlOk (n 0x18 4) && n 0x1E 2 ≤ 32 && n 0x68 4 ≤ 4096
    && 1 ≤ n 0x6C 4 && n 0x6C 4 ≤ 64 && within (n 0x60 8) (32 * n 0x68 4) && within (n 0x70 8) (16 * n 0x6C 4)
    && within (n 0x78 8) (8 * n 0x1E 2) && allZero bs (kernAt bs k + 0x80) 128
    && (bothKinds.all fun kind => variantOk bs secs k kind && (List.range (n 0x6C 4)).all fun j =>
      if !hasVariant bs k kind then entryPc bs k kind j == ones64 else j != 0 || entryPc bs k kind 0 == varCode bs k kind)
    && (List.range (n 0x1E 2)).all fun j =>
      (nameAt bs secs (Record.n bs (n 0x78 8 + 8 * j) 4)).isSome && Record.n bs (n 0x78 8 + 8 * j + 4) 4 ≤ 3

/-! Code (R330). -/

def lineAt (bs : List Byte) (off : Nat) : List Byte := (bs.drop off).take 64

/-- A PC that is a slot of the variant's code. -/
def inCode (bs : List Byte) (k : Nat) (kind : CoreKind) (pc : Nat) : Bool :=
  varCode bs k kind ≤ pc && pc < varCode bs k kind + varLen bs k kind && pc % 64 ≤ 4

/-- A slot of the variant's code whose TGT bit is set. -/
def markedSlot (bs : List Byte) (k : Nat) (kind : CoreKind) (pc : Nat) : Bool :=
  inCode bs k kind pc && bit (lineWordOf (lineAt bs (pc / 64 * 64))) (pc % 64)

/-- R330 for a present variant. -/
def variantCodeOk (bs : List Byte) (k : Nat) (kind : CoreKind) : Bool :=
  let c := varCode bs k kind
  let h := varHentry bs k kind
  ((List.range (varLen bs k kind / 64)).all fun i =>
      lineParityOk (lineAt bs (c + 64 * i)) && bits (lineWordOf (lineAt bs (c + 64 * i))) 31 20 == 0)
    && ((List.range (kernField bs k 0x6C 4)).all fun j => markedSlot bs k kind (entryPc bs k kind j))
    && (if h = ones32 then kernField bs k 0x1C 2 == 0 else markedSlot bs k kind (c + h))

def codeOk (bs : List Byte) (k : Nat) : Bool := bothKinds.all fun kind => !hasVariant bs k kind || variantCodeOk bs k kind

/-! The equivalence map (R331, R332). -/

/-- Field of the j-th header of a kernel's map. -/
def eqField (bs : List Byte) (k j off len : Nat) : Nat := Record.n bs (kernField bs k 0x60 8 + 32 * j + off) len

def eqPcOf (bs : List Byte) (k j : Nat) (kind : CoreKind) : Nat := eqField bs k j (if kind = .l then 8 else 16) 8

/-- The EQP index of a slot's word; none where the word is no EQP. -/
def eqpOf (w : Nat) : Option Nat := if w / 2 ^ 86 = 0x3C0 then some (w % 2 ^ 32) else none

/-- The EQP indices of a variant's code, in order. -/
def codeEqps (bs : List Byte) (k : Nat) (kind : CoreKind) : List Nat :=
  (List.range (varLen bs k kind / 64)).flatMap fun i => (List.range 5).filterMap fun sl =>
    eqpOf (slotWord (lineAt bs (varCode bs k kind + 64 * i)) sl)

/-- No element stands twice. -/
def distinct : List Nat → Bool
  | [] => true
  | x :: xs => !xs.contains x && distinct xs

/-- A register descriptor's limits in a variant (R332). -/
def descOk (bs : List Byte) (k : Nat) (kind : CoreKind) (d : Nat) : Bool :=
  let n := bits d 7 0
  bits d 13 8 == 0 && match bits d 15 14 with
    | 0 => n < varRegs bs k kind
    | 1 => n % 2 == 0 && n + 1 < varRegs bs k kind
    | 2 => n ≤ 63
    | _ => n ≤ 15

/-- The registers that a descriptor names, each as a number of its own. -/
def namedRegs (d : Nat) : List Nat :=
  let n := bits d 7 0
  match bits d 15 14 with
  | 0 => [n]
  | 1 => [n, n + 1]
  | 2 => [0x1000 + n]
  | _ => [0x2000 + n]

/-- The j-th header. -/
def headerMapOk (bs : List Byte) (k j : Nat) : Bool :=
  let idx := eqField bs k j 0 4
  let np := eqField bs k j 4 4
  let pairs := eqField bs k j 24 8
  let pair (q : Nat) : Nat := Record.n bs (pairs + 4 * q) 4
  let two := hasVariant bs k .l && hasVariant bs k .d
  let side (f : Nat → Nat) : List Nat := (List.range np).flatMap fun q => namedRegs (f (pair q))
  idx ≤ 4095 && np ≤ 512 && (np == 0 || (two && pairs + 4 * np ≤ imgLength bs))
    && (bothKinds.all fun kind =>
      let pc := eqPcOf bs k j kind
      if hasVariant bs k kind then
        inCode bs k kind pc && eqpOf (slotWord (lineAt bs (pc / 64 * 64)) (pc % 64)) == some idx
      else pc == ones64)
    && ((List.range np).all fun q => bits (pair q) 15 14 == bits (pair q) 31 30 && descOk bs k .l (pair q % 65536)
      && descOk bs k .d (pair q / 65536))
    && distinct (side (· % 65536)) && distinct (side (· / 65536))

/-- R331, R332. -/
def mapOk (bs : List Byte) (k : Nat) : Bool :=
  let n := kernField bs k 0x68 4
  let idxs := (List.range n).map fun j => eqField bs k j 0 4
  rising idxs && ((List.range n).all (headerMapOk bs k))
    && bothKinds.all fun kind => !hasVariant bs k kind || (let e := codeEqps bs k kind; distinct e && e.all idxs.contains)

/-- The first check that an image fails (R329 step 1, R336). -/
def imageFails (dgen : Nat) (bs : List Byte) : Option LoadCode :=
  let secs := parseSections bs
  let ks := List.range (imgKernels bs)
  if !headerOk bs then some .badhdr
  else if dgen < Record.n bs 6 2 then some .gen
  else if Record.n bs 8 8 / 2 ^ 8 ≠ 0 then some .feature
  else if !sectionsOk bs secs then some .section_
  else if !ks.all (kernelOk bs secs) then some .kernel
  else if !ks.all (codeOk bs) then some .code
  else if !ks.all (mapOk bs) then some .eqmap
  else none

/-! Placing the image (R329 steps 2 to 5). -/

/-- Offsets of the address fields of kernel k. -/
def addressFields (bs : List Byte) (k : Nat) : List Nat :=
  let d := kernAt bs k
  let pcs := bothKinds.flatMap fun kind =>
    if !hasVariant bs k kind then []
    else
      (d + (if kind = .l then 0x20 else 0x40))
        :: ((List.range (kernField bs k 0x6C 4)).map fun j => kernField bs k 0x70 8 + 16 * j + (if kind = .l then 0 else 8))
        ++ (List.range (kernField bs k 0x68 4)).map fun j => kernField bs k 0x60 8 + 32 * j + (if kind = .l then 8 else 16)
  let maps := (List.range (kernField bs k 0x68 4)).filterMap fun j =>
    if eqField bs k j 24 8 = 0 then none else some (kernField bs k 0x60 8 + 32 * j + 24)
  [d + 0x60, d + 0x70, d + 0x78] ++ pcs ++ maps

/-- Add a base to the 8 bytes at an offset. -/
def addBase (v : Nat) (bs : List Byte) (off : Nat) : List Byte :=
  bs.take off ++ leBytes 8 ((Record.n bs off 8 + v) % 2 ^ 64) ++ bs.drop (off + 8)

/-- The image with every address field virtual. -/
def relocated (bs : List Byte) (v : Nat) : List Byte :=
  let fields := ((List.range (imgKernels bs)).flatMap (addressFields bs)).dedup
  fields.foldl (addBase v) (bs.take (imgLength bs))

/-- A loaded kernel, from the image before its relocation (R328). -/
def loadedKernel (bs : List Byte) (v k : Nat) : Kernel :=
  let var (kind : CoreKind) : Option Variant :=
    if !hasVariant bs k kind then none
    else some { code := BitVec.ofNat 64 (varCode bs k kind + v), len := varLen bs k kind, regs := varRegs bs k kind,
                hentry := if varHentry bs k kind = ones32 then none
                          else some (BitVec.ofNat 64 (varCode bs k kind + varHentry bs k kind + v)) }
  let pc (kind : CoreKind) (x : Nat) : Word64 := if hasVariant bs k kind then BitVec.ofNat 64 (x + v) else BitVec.ofNat 64 x
  { kdesc := BitVec.ofNat 64 (v + kernAt bs k), varL := var .l, varD := var .d, hmask := BitVec.ofNat 16 (kernField bs k 0x1C 2)
    eqmap := BitVec.ofNat 64 (kernField bs k 0x60 8 + v), neqp := kernField bs k 0x68 4
    eqps := (List.range (kernField bs k 0x68 4)).map fun j =>
      (eqField bs k j 0 4, pc .l (eqPcOf bs k j .l), pc .d (eqPcOf bs k j .d))
    entries := (List.range (kernField bs k 0x6C 4)).map fun j => (pc .l (entryPc bs k .l j), pc .d (entryPc bs k .d j)) }

/-- The tag of the sector at an offset: what a DATA section's TAGS section gives, else S (R327). -/
def sectorTagAt (bs : List Byte) (secs : List Section_) (off : Nat) : Bool :=
  match secs.find? fun x => x.type == dataType && x.off ≤ off && off < x.off + x.size with
  | none => false
  | some x => match nth secs x.link with
    | none => false
    | some t => bit (Record.n bs (t.off + (off - x.off) / 256) 1) ((off - x.off) / 32 % 8)

/-- The n highest free handle indices below a number. -/
def takeIndices (used : Nat → Bool) : Nat → Nat → Nat → Option (List Nat)
  | _, _, 0 => some []
  | 0, _, _ => none
  | _, 0, _ => none
  | fuel + 1, i + 1, n + 1 =>
    if used i then takeIndices used fuel i (n + 1) else (takeIndices used fuel i n).map (i :: ·)

/-- Room for an image in the partition's package memory, beside what the device itself keeps there: images, the loader's tables, the
context pools, and every partition's level-0 table [10]. -/
def State.imageRoom (s : State) (pi size : Nat) : Option Nat :=
  let p := s.part pi
  let used := (s.parts.flatMap fun (q : Part) => (q.images.map fun im => (im.pa, (im.len + 65535) / 65536 * 65536)) ++ q.tables
    ++ [(q.ctxbase.toNat, q.ctxsize.toNat), (q.root, 2 ^ 20)]).filter fun u => u.2 != 0
  (p.carves.filterMap fun (c : Word64) =>
    let lo := bits c.toNat 51 30 * 2 ^ 30
    freeRange used lo (min (lo + bits c.toNat 63 52 * 2 ^ 30) pkgEnd) 65536 size).head?

/-- A store by the loader: whole sectors from a physical address, each with its tag. -/
def State.loadBytes (s : State) (pa : Nat) (bs : List Byte) (tag : Nat → Bool) : State :=
  let bs := bs ++ List.replicate ((32 - bs.length % 32) % 32) 0
  s.store none ((List.range (bs.length / 32)).map fun i =>
    (⟨{ loc := .phys (pa + 32 * i) }, (bs.drop (32 * i)).take 32, tag (32 * i)⟩ : Write))

/-- Whether a section has bytes in a 64 KiB page of the image. -/
def Section_.inPage (x : Section_) (k : Nat) : Bool := x.size != 0 && x.off / 65536 ≤ k && k ≤ (x.off + x.size - 1) / 65536

/-- The page entry of a page of the image: EXEC where a CODE section has bytes in it, writable where a writable DATA section has, else
RO; V and TYPE page besides (R306, R329). -/
def pageEntry (secs : List Section_) (pa k : Nat) : Nat :=
  let code := secs.any fun x => x.type == codeType && x.inPage k
  let open_ := secs.any fun x => x.type == dataType && x.flags == 0 && x.inPage k
  pa + 65536 * k + 32 * code.toNat + 8 * (!open_).toNat + 3

/-- The handle of a data block (R329). -/
def dataHandle (bs : List Byte) (secs : List Section_) (v : Nat) (x : Section_) : Handle :=
  { base := BitVec.ofNat 64 (v + x.off), len := x.size, bitmap := none, ro := x.flags == 1, image := true
    name := (nameAt bs secs x.name).getD [] }

/-- Place an image that passes its checks: the state, V and the address of the table of KDESCs, of 8 bytes each, and handle indices,
of 4, that stands in a read-only page after the image (R329, R343) [29]. -/
def State.placeImage (s : State) (pi : Nat) (bs : List Byte) : Option (State × Nat × Nat) :=
  let secs := parseSections bs
  let size := (imgLength bs + 65535) / 65536 * 65536
  let datas := secs.filter fun x => x.type == dataType
  let p := s.part pi
  let used (i : Nat) : Bool := (FMap.get none p.handles i).isSome
  let room := tablesRoom (size / 65536 + 1)
  match s.imageRoom pi (size + 65536 + room), takeIndices used (p.handles.length + datas.length) (2 ^ 24) datas.length with
  | some pa, some idxs =>
    let v := Config.imageWindow + pa
    let kernels := (List.range (imgKernels bs)).map (loadedKernel bs v)
    let im : Image := { base := BitVec.ofNat 64 v, pa := pa, len := size + 65536, kernels := kernels, handles := idxs
                        sections := secs.map fun x => (x.off, x.size, x.type, x.flags == 1) }
    let table := kernels.flatMap (fun k => leBytes 8 k.kdesc.toNat) ++ idxs.flatMap (leBytes 4)
    let s := s.loadBytes pa (relocated bs v) (sectorTagAt bs secs)
    let s := s.loadBytes (pa + size) table fun _ => false
    let tables := pa + size + 65536
    let pages := (List.range (size / 65536 + 1)).map fun k => (v + 65536 * k, pageEntry secs pa k)
    let handles := (datas.zip idxs).foldl (fun hs x => FMap.set none hs x.2 (some (dataHandle bs secs v x.1))) p.handles
    (s.mapPages p pages tables).map fun s =>
      (s.modPart pi fun p => { p with images := p.images ++ [im], handles := handles, tables := p.tables ++ [(tables, room)] }, v, v + size)
  | _, _ => none

/-- The loader's answer to a LOAD of n bytes at an address (R329). -/
def State.loadImage (s : State) (pi va n : Nat) : Except LoadCode (State × Nat × Nat) :=
  if n < 64 then .error .badhdr
  else match s.readVa pi va n with
    | .error _ => .error .unreadable
    | .ok bs => match imageFails s.pkg.dgen bs with
      | some c => .error c
      | none => match s.placeImage pi bs with
        | none => .error .nospace
        | some x => .ok x

/-- R329, R343. -/
def execLoad (pi n : Nat) (s : State) : Result :=
  s.takeCommand pi n (· == 6) fun s e =>
    match s.loadImage pi (commandArg e 0) (commandArg e 1) with
    | .error c => ⟨s, resLoadfail, c.num, 0⟩
    | .ok (s, v, table) => ⟨s, resOkCode, v, table⟩

end Sys2Proof.Machine
end

