-- ==== Sys2Proof/Machine/Migration.lean ====
section
/-! DEFINITION. Equivalence points and migration (R43 to R45, R245 to R247, R333): EQP, MIGR, MIGQ. -/

namespace Sys2Proof.Machine

open Sys2Proof

/-- Copy what a descriptor names in the old variant to what its pair names in the new one: vector registers and predicates
in every lane, a pair whole (R331, R333). -/
def WCore.moveDesc (new old : WCore) (src dst : Nat) : WCore :=
  let n := bits src 7 0
  let m := bits dst 7 0
  let copyV (k : WCore) (n m : Nat) : WCore := (List.range 32).foldl (fun k i => k.setV i m (old.getV i n)) k
  match bits src 15 14 with
  | 0 => copyV new n m
  | 1 => copyV (copyV new n m) (n + 1) (m + 1)
  | 2 => new.setK m (old.getK n)
  | _ => (List.range 32).foldl (fun k i => k.setP i m (old.getP i n)) new

/-- The registers of the new variant: those named in the map, all others zero and S (R44, R333). -/
def WCore.migrated (k : WCore) (pairs : List (Nat × Nat)) (kind : CoreKind) : WCore :=
  pairs.foldl (fun new x => match kind with
    | .l => new.moveDesc k x.1 x.2
    | .d => new.moveDesc k x.2 x.1) { k with v := [], k := [], p := [] }

/-- The PC of an index's EQP in a variant (R331). -/
def Kernel.eqPc (k : Kernel) (kind : CoreKind) (idx : Nat) : Word64 :=
  match k.eqps.find? fun x => x.1 == idx with
  | some x => match kind with
    | .l => x.2.1
    | .d => x.2.2
  | none => 0

/-- The warp after it has moved to a core of the other kind (R44). -/
def Warp.migrate (w : Warp) (core : Nat) (k : WCore) (resume : Addr) : Warp :=
  let live := w.live
  { w with
    core := core, kind := otherKind w.kind, migp := false, sched := false, noslot := false, latch := []
    c := { k with frontier := [⟨live, resume, 0, .ready⟩], sel := live } }

/-- Whether the warp stands so that a migration may take effect (R43, R245). -/
def Ctx.converged (c : Ctx) : Bool :=
  c.split.lanes = c.w.live && c.w.live.list.all fun j => c.w.c.depth j == 0

/-- A migration at an EQP that it waits for, if a core has a slot (R44). `core` is the state with LEQIX written. -/
def State.migrateAt (s : State) (c : Ctx) (core : WCore) (idx dest : Nat) : State :=
  let other := otherKind c.w.kind
  let k := core.migrated ((s.eqPairs c.pi c.l.kern idx).getD []) c.w.kind
  let s := s.modWarp c.wi fun w => w.migrate dest k (nextSlot (c.l.kern.eqPc other idx))
  s.record c.li (traceEntry 3 c.g.lin c.w.index c.g.die c.g.cell (idx + 2 ^ 32 * FMap.get 0 core.eqSeen idx))

/-- R43 to R45, R245, R290. -/
def execEqp (f : ImmForm) (s : State) : Result :=
  issue (.eqp f) s fun s c =>
    let idx := f.imm.toNat
    let seen := FMap.get 0 c.w.c.eqSeen idx + 1
    let core := { c.w.c with leqix := f.imm, eqSeen := FMap.set 0 c.w.c.eqSeen idx seen }
    let stay := s.putCore c core
    let l := (nth s.launches c.li).getD c.l
    match l.kern.variant (otherKind c.w.kind) with
    | none => .done { s := stay }
    | some v =>
      let mine (e : TraceEntry) : Bool :=
        e.kind == 3 && e.gang == c.g.lin && e.warp == c.w.index && e.body.toNat == idx + 2 ^ 32 * seen
      let due := if l.lrec.det = 2 then takeEntry mine l.replay else none
      let asked := if l.lrec.det = 2 then due.isSome else c.w.migp
      let room := s.migrationCore c.g.die c.g.cell (otherKind c.w.kind) v.regs
      if !c.converged then .done { s := stay }
      else if !asked then
        if !c.w.migp then .done { s := stay }
        else if !c.w.ckpts.isEmpty || c.w.slow || c.w.asleep then .wait
        else .done { s := stay.modWarp c.wi fun w => { w with noslot := true } }
      else if !c.w.ckpts.isEmpty || c.w.slow || c.w.asleep then .wait
      else if l.lrec.det = 2 && (entriesBefore mine l.replay).any TraceEntry.places then
        .partial_ (s.waitOnTrace c.wi c.li)
      else match room with
        | some dest =>
          let s := s.modLaunch c.li fun l => { l with replay := (due.map (·.2)).getD l.replay }
          .done { s := s.migrateAt c core idx dest, flow := .placed }
        | none =>
          if l.lrec.det = 2 then .wait else .done { s := stay.modWarp c.wi fun w => { w with noslot := true } }

/-- R246. -/
def execMigr (f : RegForm) (s : State) : Result :=
  issue (.migr f) s fun s c =>
    if c.active = 0 then c.done s c.w.c []
    else
      let post (w : Warp) : Warp :=
        if bit f.sub.toNat 0 then { w with migp := false, sched := false, noslot := false } else { w with migp := true }
      .done { s := s.modWarp c.wi post }

/-- R247. -/
def execMigq (f : RegForm) (s : State) : Result :=
  issue (.migq f) s fun s c =>
    let word := 8 * kindCode c.w.kind + 4 * c.w.noslot.toNat + 2 * c.w.sched.toNat + c.w.migp.toNat
    let r := c.each c.w.c f.dst 32 fun _ => ⟨word, false, 0⟩
    c.done s r.1 []

end Sys2Proof.Machine
end

