-- ==== Sys2Proof/Machine/Sync.lean ====
section
/-! DEFINITION. Barriers (R213): BAR, GBAR. -/

namespace Sys2Proof.Machine

open Sys2Proof

/-- R213: the lanes of the split arrive. -/
def execBar (f : RegForm) (s : State) : Result :=
  issue (.bar f) s fun s _ => .done { s := s, flow := .block (.barrier f.scope) }

/-- R213: one barrier for the launch, wherever its counter lives (R131). -/
def execGbar (f : RegForm) (s : State) : Result :=
  issue (.gbar f) s fun s _ => .done { s := s, flow := .block (.barrier .pkg) }

end Sys2Proof.Machine
end

