-- ==== Sys2Proof/Machine/System.lean ====
section
/-! DEFINITION. Service calls, system registers and the privileged instructions (R255 to R261): SVC, SRD, SWR, TLBI, ERET,
IDLE. -/

namespace Sys2Proof.Machine

open Sys2Proof

/-- The number of a uniform register operand. -/
def uniformReg (o : Operand) : BitVec 6 :=
  match o with
  | .k r => r
  | _ => 0

/-- R255. -/
def execSvc (f : ImmForm) (s : State) : Result :=
  issue (.svc f) s fun s c =>
    if c.active = 0 then c.done s c.w.c []
    else
      let arg := BitVec.ofNat 64 (c.w.c.read f.a 32 64).1
      let request : SvcReq := ⟨c.g.die, f.imm, arg, c.gi, c.wi, c.split.lanes⟩
      let s := { s with requests := s.requests ++ [request] }
      .done { s := s.fwEvent c.g.die 5 c.g.lin, flow := .block (.svc (uniformReg f.dst) (c.forcedAny c.w.c) none) }

/-- The issuing warp as an agent of the system registers. -/
def Ctx.agent (c : Ctx) : Agent := ⟨c.pi, some c.g.die, some c.wi⟩

/-- A system access: its checks, then its block and offset (R257). -/
def sysAccess (s : State) (c : Ctx) (addr : Operand) (size : Nat) (go : (Nat → Option (Reg × Bool)) → Nat → Body) : Body :=
  let x := c.w.c.read addr 32 32
  if x.1 % size ≠ 0 then .fault (alignAt c x)
  else match s.block c.agent x.1 with
    | none => .fault { cls := .bus, cause := 2, lanes := c.active, addr := BitVec.ofNat 64 x.1, tags := x.2.toNat }
    | some b => go b (x.1 % 2 ^ 24)
where
  /-- ALIGN of a system address. -/
  alignAt (c : Ctx) (x : Nat × Bool) : FaultInfo :=
    { cls := .align, lanes := c.active, addr := BitVec.ofNat 64 x.1, tags := x.2.toNat }

/-- R257. -/
def execSrd (f : RegForm) (s : State) : Result :=
  issue (.srd f) s fun s c =>
    if c.active = 0 then c.done s c.w.c []
    else sysAccess s c f.a f.ty.bytes fun b off =>
      let v := s.readBlock c.agent b off f.ty.bytes
      let r := c.each c.w.c f.dst f.ty.width fun _ => ⟨v, false, 0⟩
      c.done s r.1 []

/-- R257. -/
def execSwr (f : RegForm) (s : State) : Result :=
  issue (.swr f) s fun s c =>
    if c.active = 0 then c.done s c.w.c []
    else sysAccess s c f.a f.ty.bytes fun b off =>
      .done { s := s.writeBlock c.agent b off f.ty.bytes (c.w.c.read f.b 32 f.ty.width).1 }

/-- R260. -/
def execTlbi (f : RegForm) (s : State) : Result :=
  issue (.tlbi f) s fun s c =>
    if c.active = 0 then c.done s c.w.c []
    else
      let va := if bits f.sub.toNat 1 0 = 0 then some (BitVec.ofNat 64 (c.w.c.read f.a 32 64).1) else none
      .done { s := s, flow := .block (.tlbi va) }

/-- R143, R259. -/
def execEret (f : RegForm) (s : State) : Result :=
  issue (.eret f) s fun s c =>
    match c.w.handler with
    | none => c.done s c.w.c []
    | some h =>
      let lanes := h.faulted &&& h.emask &&& c.w.live
      if s.marked c.pi h.epc then
        .done { s := s.modWarp c.wi fun w => w.leaveHandler h, flow := .returned }
      else match (if pcOk h.epc then s.lineUnread c.pi h.epc else none) with
        | some x => decideFailures [unreadTarget lanes h.epc false x]
        | none => .fault { cls := .target, lanes := lanes }

/-- R261. -/
def execIdle (f : RegForm) (s : State) : Result :=
  issue (.idle f) s fun s c =>
    if c.active = 0 then c.done s c.w.c []
    else
      let deadline := (c.w.c.read f.a 32 64).1
      let tag := c.forcedAny c.w.c
      if deadline ≤ s.pkg.clock.toNat then c.done s (c.w.c.write f.dst 32 64 0 tag) []
      else if !(FMap.get [] s.events c.g.die).isEmpty then c.done s (c.w.c.write f.dst 32 64 1 tag) []
      else .done { s := s, flow := .block (.idle (uniformReg f.dst) tag (BitVec.ofNat 64 deadline) false) }

end Sys2Proof.Machine
end

