-- ==== Sys2Proof/Machine/Dispatch.lean ====
section
/-! DEFINITION. The dispatch of an instruction to its meaning. -/

namespace Sys2Proof.Machine

open Sys2Proof

def exec (i : Instr) (s : State) : Host.Outcome State Fault Refusal :=
  match i with
  | .nop f => Sys2Proof.Machine.execNop f s
  | .bra f => Sys2Proof.Machine.execBra f s
  | .mbr f => Sys2Proof.Machine.execMbr f s
  | .brx f => Sys2Proof.Machine.execBrx f s
  | .call f => Sys2Proof.Machine.execCall f s
  | .callx f => Sys2Proof.Machine.execCallx f s
  | .ret f => Sys2Proof.Machine.execRet f s
  | .exit f => Sys2Proof.Machine.execExit f s
  | .yield f => Sys2Proof.Machine.execYield f s
  | .trap f => Sys2Proof.Machine.execTrap f s
  | .bkpt f => Sys2Proof.Machine.execBkpt f s
  | .trst f => Sys2Proof.Machine.execTrst f s
  | .iadd f => Sys2Proof.Machine.execIadd f s
  | .iaddImm f => Sys2Proof.Machine.execIaddImm f s
  | .isub f => Sys2Proof.Machine.execIsub f s
  | .isubImm f => Sys2Proof.Machine.execIsubImm f s
  | .imul f => Sys2Proof.Machine.execImul f s
  | .imulImm f => Sys2Proof.Machine.execImulImm f s
  | .imulh f => Sys2Proof.Machine.execImulh f s
  | .imulhImm f => Sys2Proof.Machine.execImulhImm f s
  | .imad f => Sys2Proof.Machine.execImad f s
  | .idiv f => Sys2Proof.Machine.execIdiv f s
  | .idivImm f => Sys2Proof.Machine.execIdivImm f s
  | .irem f => Sys2Proof.Machine.execIrem f s
  | .iremImm f => Sys2Proof.Machine.execIremImm f s
  | .iabs f => Sys2Proof.Machine.execIabs f s
  | .ineg f => Sys2Proof.Machine.execIneg f s
  | .imin f => Sys2Proof.Machine.execImin f s
  | .iminImm f => Sys2Proof.Machine.execIminImm f s
  | .imax f => Sys2Proof.Machine.execImax f s
  | .imaxImm f => Sys2Proof.Machine.execImaxImm f s
  | .shl f => Sys2Proof.Machine.execShl f s
  | .shlImm f => Sys2Proof.Machine.execShlImm f s
  | .shr f => Sys2Proof.Machine.execShr f s
  | .shrImm f => Sys2Proof.Machine.execShrImm f s
  | .sar f => Sys2Proof.Machine.execSar f s
  | .sarImm f => Sys2Proof.Machine.execSarImm f s
  | .rotl f => Sys2Proof.Machine.execRotl f s
  | .rotlImm f => Sys2Proof.Machine.execRotlImm f s
  | .andB f => Sys2Proof.Machine.execAndB f s
  | .andBImm f => Sys2Proof.Machine.execAndBImm f s
  | .orB f => Sys2Proof.Machine.execOrB f s
  | .orBImm f => Sys2Proof.Machine.execOrBImm f s
  | .xor f => Sys2Proof.Machine.execXor f s
  | .xorImm f => Sys2Proof.Machine.execXorImm f s
  | .notB f => Sys2Proof.Machine.execNotB f s
  | .logx f => Sys2Proof.Machine.execLogx f s
  | .popc f => Sys2Proof.Machine.execPopc f s
  | .clz f => Sys2Proof.Machine.execClz f s
  | .brev f => Sys2Proof.Machine.execBrev f s
  | .bfx f => Sys2Proof.Machine.execBfx f s
  | .bfi f => Sys2Proof.Machine.execBfi f s
  | .lea f => Sys2Proof.Machine.execLea f s
  | .leaImm f => Sys2Proof.Machine.execLeaImm f s
  | .mov f => Sys2Proof.Machine.execMov f s
  | .movi f => Sys2Proof.Machine.execMovi f s
  | .prmt f => Sys2Proof.Machine.execPrmt f s
  | .prmtImm f => Sys2Proof.Machine.execPrmtImm f s
  | .sel f => Sys2Proof.Machine.execSel f s
  | .icmp f => Sys2Proof.Machine.execIcmp f s
  | .icmpImm f => Sys2Proof.Machine.execIcmpImm f s
  | .krd f => Sys2Proof.Machine.execKrd f s
  | .plop f => Sys2Proof.Machine.execPlop f s
  | .p2v f => Sys2Proof.Machine.execP2v f s
  | .v2p f => Sys2Proof.Machine.execV2p f s
  | .gets f => Sys2Proof.Machine.execGets f s
  | .sets f => Sys2Proof.Machine.execSets f s
  | .setsImm f => Sys2Proof.Machine.execSetsImm f s
  | .fadd f => Sys2Proof.Machine.execFadd f s
  | .faddImm f => Sys2Proof.Machine.execFaddImm f s
  | .fsub f => Sys2Proof.Machine.execFsub f s
  | .fsubImm f => Sys2Proof.Machine.execFsubImm f s
  | .fmul f => Sys2Proof.Machine.execFmul f s
  | .fmulImm f => Sys2Proof.Machine.execFmulImm f s
  | .ffma f => Sys2Proof.Machine.execFfma f s
  | .fmin f => Sys2Proof.Machine.execFmin f s
  | .fminImm f => Sys2Proof.Machine.execFminImm f s
  | .fmax f => Sys2Proof.Machine.execFmax f s
  | .fmaxImm f => Sys2Proof.Machine.execFmaxImm f s
  | .fabs f => Sys2Proof.Machine.execFabs f s
  | .fneg f => Sys2Proof.Machine.execFneg f s
  | .fcmp f => Sys2Proof.Machine.execFcmp f s
  | .fcmpImm f => Sys2Proof.Machine.execFcmpImm f s
  | .fclass f => Sys2Proof.Machine.execFclass f s
  | .fdiv f => Sys2Proof.Machine.execFdiv f s
  | .fdivImm f => Sys2Proof.Machine.execFdivImm f s
  | .fsqrt f => Sys2Proof.Machine.execFsqrt f s
  | .frcpa f => Sys2Proof.Machine.execFrcpa f s
  | .frsqa f => Sys2Proof.Machine.execFrsqa f s
  | .fex2 f => Sys2Proof.Machine.execFex2 f s
  | .flg2 f => Sys2Proof.Machine.execFlg2 f s
  | .fsin f => Sys2Proof.Machine.execFsin f s
  | .fcos f => Sys2Proof.Machine.execFcos f s
  | .ftanh f => Sys2Proof.Machine.execFtanh f s
  | .fscale f => Sys2Proof.Machine.execFscale f s
  | .fscaleImm f => Sys2Proof.Machine.execFscaleImm f s
  | .frnd f => Sys2Proof.Machine.execFrnd f s
  | .cvt f => Sys2Proof.Machine.execCvt f s
  | .qnt f => Sys2Proof.Machine.execQnt f s
  | .dqnt f => Sys2Proof.Machine.execDqnt f s
  | .fdot f => Sys2Proof.Machine.execFdot f s
  | .rngkey f => Sys2Proof.Machine.execRngkey f s
  | .rngdraw f => Sys2Proof.Machine.execRngdraw f s
  | .rngskip f => Sys2Proof.Machine.execRngskip f s
  | .rngskipImm f => Sys2Proof.Machine.execRngskipImm f s
  | .tagq f => Sys2Proof.Machine.execTagq f s
  | .tagp f => Sys2Proof.Machine.execTagp f s
  | .dcorv f => Sys2Proof.Machine.execDcorv f s
  | .ld f => Sys2Proof.Machine.execLd f s
  | .st f => Sys2Proof.Machine.execSt f s
  | .atom f => Sys2Proof.Machine.execAtom f s
  | .red f => Sys2Proof.Machine.execRed f s
  | .fence f => Sys2Proof.Machine.execFence f s
  | .pft f => Sys2Proof.Machine.execPft f s
  | .cctl f => Sys2Proof.Machine.execCctl f s
  | .scatc f => Sys2Proof.Machine.execScatc f s
  | .shfl f => Sys2Proof.Machine.execShfl f s
  | .vote f => Sys2Proof.Machine.execVote f s
  | .wred f => Sys2Proof.Machine.execWred f s
  | .wscan f => Sys2Proof.Machine.execWscan f s
  | .matchL f => Sys2Proof.Machine.execMatchL f s
  | .bar f => Sys2Proof.Machine.execBar f s
  | .gbar f => Sys2Proof.Machine.execGbar f s
  | .cinit f => Sys2Proof.Machine.execCinit f s
  | .cwait f => Sys2Proof.Machine.execCwait f s
  | .ctest f => Sys2Proof.Machine.execCtest f s
  | .dqadd f => Sys2Proof.Machine.execDqadd f s
  | .dqtake f => Sys2Proof.Machine.execDqtake f s
  | .dqsteal f => Sys2Proof.Machine.execDqsteal f s
  | .dqcnt f => Sys2Proof.Machine.execDqcnt f s
  | .launch f => Sys2Proof.Machine.execLaunch f s
  | .oclm f => Sys2Proof.Machine.execOclm f s
  | .orls f => Sys2Proof.Machine.execOrls f s
  | .old f => Sys2Proof.Machine.execOld f s
  | .ost f => Sys2Proof.Machine.execOst f s
  | .aclm f => Sys2Proof.Machine.execAclm f s
  | .arls f => Sys2Proof.Machine.execArls f s
  | .aclr f => Sys2Proof.Machine.execAclr f s
  | .mma f => Sys2Proof.Machine.execMma f s
  | .mmas f => Sys2Proof.Machine.execMmas f s
  | .adrn f => Sys2Proof.Machine.execAdrn f s
  | .wupd f => Sys2Proof.Machine.execWupd f s
  | .cpy f => Sys2Proof.Machine.execCpy f s
  | .cpyr f => Sys2Proof.Machine.execCpyr f s
  | .isect f => Sys2Proof.Machine.execIsect f s
  | .dcorm f => Sys2Proof.Machine.execDcorm f s
  | .astat f => Sys2Proof.Machine.execAstat f s
  | .eqp f => Sys2Proof.Machine.execEqp f s
  | .migr f => Sys2Proof.Machine.execMigr f s
  | .migq f => Sys2Proof.Machine.execMigq f s
  | .route f => Sys2Proof.Machine.execRoute f s
  | .rtrel f => Sys2Proof.Machine.execRtrel f s
  | .rtver f => Sys2Proof.Machine.execRtver f s
  | .svc f => Sys2Proof.Machine.execSvc f s
  | .srd f => Sys2Proof.Machine.execSrd f s
  | .swr f => Sys2Proof.Machine.execSwr f s
  | .tlbi f => Sys2Proof.Machine.execTlbi f s
  | .eret f => Sys2Proof.Machine.execEret f s
  | .idle f => Sys2Proof.Machine.execIdle f s
  | .svcAnswer warp split answer => Sys2Proof.Machine.execSvcAnswer warp split answer s
  | .tlbiCompletion warp split => Sys2Proof.Machine.execTlbiCompletion warp split s
  | .idleWake warp split => Sys2Proof.Machine.execIdleWake warp split s
  | .checkpointCommit warp => Sys2Proof.Machine.execCheckpointCommit warp s
  | .rollback warp ckpt => Sys2Proof.Machine.execRollback warp ckpt s
  | .serialModeEnd warp => Sys2Proof.Machine.execSerialModeEnd warp s
  | .waitCountYield warp => Sys2Proof.Machine.execWaitCountYield warp s
  | .maskwait warp split => Sys2Proof.Machine.execMaskwait warp split s
  | .engineCompletion op => Sys2Proof.Machine.execEngineCompletion op s
  | .engineThreadFault op => Sys2Proof.Machine.execEngineThreadFault op s
  | .freplayReissue part value => Sys2Proof.Machine.execFreplayReissue part value s
  | .freplayCancel part value => Sys2Proof.Machine.execFreplayCancel part value s
  | .recomputeProducerEnd part launch => Sys2Proof.Machine.execRecomputeProducerEnd part launch s
  | .faultRecordWrite source => Sys2Proof.Machine.execFaultRecordWrite source s
  | .singleStepStop gang => Sys2Proof.Machine.execSingleStepStop gang s
  | .submit part ring => Sys2Proof.Machine.execSubmit part ring s
  | .cancel part ring => Sys2Proof.Machine.execCancel part ring s
  | .resume part ring => Sys2Proof.Machine.execResume part ring s
  | .hset part ring => Sys2Proof.Machine.execHset part ring s
  | .hclr part ring => Sys2Proof.Machine.execHclr part ring s
  | .load part ring => Sys2Proof.Machine.execLoad part ring s
  | .unload part ring => Sys2Proof.Machine.execUnload part ring s
  | .badcmd part ring => Sys2Proof.Machine.execBadcmd part ring s
  | .commandCompletion part ring => Sys2Proof.Machine.execCommandCompletion part ring s
  | .launchReady launch => Sys2Proof.Machine.execLaunchReady launch s
  | .waitObjectPoll launch => Sys2Proof.Machine.execWaitObjectPoll launch s
  | .dispatch part => Sys2Proof.Machine.execDispatch part s
  | .queueAgeing part queue => Sys2Proof.Machine.execQueueAgeing part queue s
  | .gangAgeing gang => Sys2Proof.Machine.execGangAgeing gang s
  | .gangPlacement gang die cell kind => Sys2Proof.Machine.execGangPlacement gang die cell kind s
  | .stageCopy gang => Sys2Proof.Machine.execStageCopy gang s
  | .quantumExpiry gang => Sys2Proof.Machine.execQuantumExpiry gang s
  | .preemption gang => Sys2Proof.Machine.execPreemption gang s
  | .saved gang => Sys2Proof.Machine.execSaved gang s
  | .resumption gang die cell kind => Sys2Proof.Machine.execResumption gang die cell kind s
  | .launchTimeout launch => Sys2Proof.Machine.execLaunchTimeout launch s
  | .launchEnded launch => Sys2Proof.Machine.execLaunchEnded launch s
  | .schedMigrationRequest warp => Sys2Proof.Machine.execSchedMigrationRequest warp s
  | .schedMigrationWithdraw warp => Sys2Proof.Machine.execSchedMigrationWithdraw warp s
  | .register part => Sys2Proof.Machine.execRegister part s
  | .deregister part => Sys2Proof.Machine.execDeregister part s
  | .setthr part => Sys2Proof.Machine.execSetthr part s
  | .refresh part => Sys2Proof.Machine.execRefresh part s
  | .badrec part => Sys2Proof.Machine.execBadrec part s
  | .idleSample part => Sys2Proof.Machine.execIdleSample part s
  | .etesianInterval part => Sys2Proof.Machine.execEtesianInterval part s
  | .copyWritten part eid rep => Sys2Proof.Machine.execCopyWritten part eid rep s
  | .copyVerified part eid rep => Sys2Proof.Machine.execCopyVerified part eid rep s
  | .copyfail part eid rep cause => Sys2Proof.Machine.execCopyfail part eid rep cause s
  | .copyTimeout part eid rep => Sys2Proof.Machine.execCopyTimeout part eid rep s
  | .publication part => Sys2Proof.Machine.execPublication part s
  | .livefail part eid rep cause => Sys2Proof.Machine.execLivefail part eid rep cause s
  | .queueClosure part eid rep => Sys2Proof.Machine.execQueueClosure part eid rep s
  | .freed part eid rep => Sys2Proof.Machine.execFreed part eid rep s
  | .regionMerge line => Sys2Proof.Machine.execRegionMerge line s
  | .uncorrectableError die place => Sys2Proof.Machine.execUncorrectableError die place s
  | .flitReceive flit => Sys2Proof.Machine.execFlitReceive flit s
  | .cxlLinkDown port => Sys2Proof.Machine.execCxlLinkDown port s
  | .hostWindowAccess part offset write size => Sys2Proof.Machine.execHostWindowAccess part offset write size s
  | .reset boot => Sys2Proof.Machine.execReset boot s
  | .decodeTableInstall image => Sys2Proof.Machine.execDecodeTableInstall image s
  | .attestationReport nonce => Sys2Proof.Machine.execAttestationReport nonce s
  | .registerWrite site size value => Sys2Proof.Machine.execRegisterWrite site size value s
  | .mmaCompletion op => Sys2Proof.Machine.execMmaCompletion op s

end Sys2Proof.Machine
end

