-- ==== Sys2Proof/Machine/Run.lean ====
section
/-! DEFINITION. One step of the device: the move that happens next, fetching a line and running its instruction for a
warp (R139 to R143, R156, R158), co-issue (R42), and placing an instruction word where the next step fetches it. -/

namespace Sys2Proof.Machine

open Sys2Proof

/-- CLOCK after a step: it never falls, so it stands at its last value rather than wrap (R69) [4]. -/
def clockAfter (now : Word64) (elapsed : Nat) : Word64 := BitVec.ofNat 64 (min (now.toNat + elapsed) (2 ^ 64 - 1))

/-- CLOCK and the count of steps advance (R69) [2] [4]. -/
def State.ticked (s : State) : State :=
  let s := s.modPkg fun k => { k with clock := clockAfter k.clock (Config.elapsed s.turn) }
  { s with turn := s.turn + 1 }

/-- The guard field of a word that decodes to no instruction; an MBR carries none (R145, R151, R158). -/
def rawGuard (w : Nat) : Option Guard :=
  if w / 2 ^ 86 ≠ 0x002 && bit w 85 then some ⟨bit w 84, BitVec.ofNat 4 (bits w 83 80)⟩ else none

/-- The context of an issue that no instruction has been read for, with a guard. -/
def bareContext (s : State) (x : Warp × Gang × Launch × Split) (g : Option Guard) : Ctx :=
  ⟨s.cur, x.1, x.2.1, x.2.2.1, x.2.2.2, ⟨g, 0, .none, .normal⟩, x.1.c.guarded x.2.2.2.lanes g, 0⟩

/-- The instruction that the warp's split would issue, as far as its line can be fetched and its word decodes. -/
def State.upcoming (s : State) (pi : Nat) (e : Split) : Option Instr :=
  match s.fetch pi e.pc with
  | .line bs => match decodeSlot bs (e.pc.toNat % 8) with
    | .ok i => some i
    | .error _ => none
  | _ => none

/-- The fault that a sleep has ended in, with the LEQIX of the issue that met the page: a cancelled replay or a RECOMPUTE that failed
(R310, R312, R316). -/
def Block.endsIn : Block → Option (FaultInfo × Word32)
  | .sleep pages cancelled failed =>
    let of (cls : FClass) (cause : Nat) (p : Option Sleep) : FaultInfo × Word32 :=
      match p with
      | some x => (PageHit.fault x cause, x.eqix)
      | none => ({ cls := cls, cause := cause }, 0xFFFFFFFF)
    match failed with
    | some c => some (of .recompute c (pages.find? fun x => x.reg.isSome))
    | none => if cancelled then some (of .translation 0 (pages.find? fun x => x.reg.isNone)) else none
  | _ => none

/-- A late fault is taken instead of the instruction; nothing is fetched for it. -/
def State.issueFetched (s : State) (x : Warp × Gang × Launch × Split) : Result :=
  let pi := x.2.2.1.part
  let e := x.2.2.2
  let c := bareContext s x none
  match x.1.pending with
  | f :: _ => s.takePending c f
  | [] => match e.block.endsIn with
    | some f => s.wakeToFault { c with w := { x.1 with c := x.1.c.wake e.lanes } } f.1 f.2
    | none => match s.fetch pi e.pc with
      | .badLine bs cause prop =>
        let c := bareContext s x (rawGuard (slotWord bs (e.pc.toNat % 8)))
        s.faultIssue c { cls := .line, cause := cause, lanes := if c.active = 0 then e.lanes else c.active, tags := 4 * prop.toNat }
      | .fault cls cause prop =>
        s.faultIssue c { cls := cls, cause := cause, lanes := e.lanes, addr := BitVec.ofNat 64 (lineBase e.pc),
                         tags := 4 * prop.toNat }
      | .sleep page => .next ((s.atFault c).sleepOn c.wi e [{ page := page, reg := none, lanes := e.lanes, addr := lineBase e.pc }])
      | .line bs => match decodeSlot bs (e.pc.toNat % 8) with
        | .ok i => exec i s
        | .error _ =>
          let c := bareContext s x (rawGuard (slotWord bs (e.pc.toNat % 8)))
          s.faultIssue c { cls := .illegal, lanes := if c.active = 0 then e.lanes else c.active }

/-- The split that co-issues with the selected one, if R42 lets one. -/
def State.partner (s : State) (x : Warp × Gang × Launch × Split) : Option Split :=
  if x.1.kind ≠ .d then none
  else match x.1.c.coSplit with
    | none => none
    | some e =>
      if !e.ready || x.2.2.2.lanes ≠ x.1.c.sel then none
      else match s.upcoming x.2.2.1.part x.2.2.2, s.upcoming x.2.2.1.part e with
        | some i, some j => if mayCoissue i && mayCoissue j then some e else none
        | _, _ => none

/-- Whether the split that was to issue has issued, and no more than that: its lanes stand at the next slot, with handler mode as it
was. No instruction that may co-issue transfers control. -/
def State.wentOn (t : State) (x : Warp × Gang × Launch × Split) : Bool :=
  match nth t.warps t.cur with
  | some w => w.handler.isSome == x.1.handler.isSome
      && w.c.frontier.any fun e => e.lanes &&& x.2.2.2.lanes ≠ 0 && decide (e.pc = nextSlot x.2.2.2.pc)
  | none => false

/-! The issue arbiter of a core (R51). -/

/-- The warps of a core that have a split ready to issue, in order. -/
def State.readyOn (s : State) (core : Nat) : List Nat :=
  (List.range s.warps.length).filter fun i => match nth s.warps i with
    | some w => s.coreOf w == core && ({ s with cur := i, co := none } : State).picked.isSome
    | none => false

/-- The warp that a core serves next: round-robin among those with a ready split. -/
def State.nextServed (s : State) (core : Nat) : Option Nat :=
  let ready := s.readyOn core
  match ready.find? fun i => FMap.get 0 s.arb core ≤ i with
  | some i => some i
  | none => ready.head?

/-- Whether it is a warp's turn on its core. -/
def State.onTurn (s : State) (wi : Nat) : Bool :=
  match nth s.warps wi with
  | some w => s.nextServed (s.coreOf w) == some wi
  | none => false

/-- The core has served a warp. -/
def State.served (s : State) (wi : Nat) : State :=
  match nth s.warps wi with
  | some w => { s with cur := wi, co := none, arb := FMap.set 0 s.arb (s.coreOf w) (wi + 1) }
  | none => { s with cur := wi, co := none }

/-- The state in which it is a warp's turn on its core, if it has a ready split. -/
def State.turnTo (s : State) (wi : Nat) : State :=
  match nth s.warps wi with
  | some w => { s with arb := FMap.set 0 s.arb (s.coreOf w) wi }
  | none => s

/-- A core issues for the warp whose turn it is; with `co`, also for the split that may co-issue, the selected split's issue first,
where both are ready to issue (R42, R51). -/
def State.runIssue (s : State) (wi : Nat) (co : Bool) : Result :=
  let turn := s.onTurn wi
  let s := s.served wi
  match (if turn then s.picked else none) with
  | none => .fault .noIssue
  | some x => match s.issueFetched x with
    | .next t =>
      match (if co && t.wentOn x then s.partner x else none) with
      | none => .next t
      | some e =>
        let t' := { t with co := some e.lanes }
        match t'.picked with
        | none => .next t
        | some y => match t'.issueFetched y with
          | .next u => .next { u with co := none }
          | _ => .next t
    | r => r

/-- A write of the host's own memory, or of a present peer's, from outside the device: within one granule, in the order of moves
(R132, R348) [43]. -/
def State.foreignWrite (s : State) (pa : Nat) (data : List Byte) (tag : Bool) : Result :=
  let outside := isHostPa pa || (peerPa ≤ pa && pa < 2 * peerPa && decide (s.pkg.norm pa = pa) && s.pkg.reaches pa)
  if outside && !data.isEmpty && pa % 16 + data.length ≤ 16 then .next (s.store none [⟨{ loc := .phys pa }, data, tag⟩])
  else .fault .notEnabled

def runMove (s : State) : Move → Result
  | .issue wi co => s.runIssue wi co
  | .event i => if i.hasWord then .fault .notEnabled else exec i s
  | .foreign pa data tag => s.foreignWrite pa data tag

def isNext : Result → Bool
  | .next _ => true
  | _ => false

/-- The move of this step: the first of the agenda, else one of the enabled candidates [3]. -/
def State.move (s : State) : Option (Move × State) :=
  match s.agenda with
  | m :: ms => some (m, { s with agenda := ms })
  | [] =>
    let on := s.candidates.filter fun m => isNext (runMove s m)
    (nth on (Config.pick s.turn % on.length)).map fun m => (m, s)

/-- One step of a state whose clock has advanced. Where no agent has a move, time passes (R69) [3]. -/
def State.stepFrom (s : State) : Result :=
  match s.move with
  | none => .next s
  | some (m, s) => runMove s m

/-- TLBs and walkers keep entries of walks that any agent has made, whichever they are (R308) [8]. -/
def State.walked (s : State) : State :=
  { s with tlb := (Config.walks s.turn).foldl (fun l x => s.fill l x.1 x.2) s.tlb }

/-- The same of a step's result. -/
def keepWalks : Result → Result
  | .next s => .next s.walked
  | r => r

/-! Placing an instruction word (R139, R141). -/

/-- A line with one slot replaced and its line word's parity made right. -/
def putSlot (line : List Byte) (slot w : Nat) : List Byte :=
  let body := line.take (12 * slot) ++ leBytes 12 w ++ (line.drop (12 * slot + 12)).take (48 - 12 * slot)
  let low := lineWordOf line % 2 ^ 14
  let spar := (List.range 5).foldl (fun n k => n + (parity (slotWord body k) 96).toNat * 2 ^ (14 + k)) 0
  body ++ leBytes 4 (low + spar + (parity low 14).toNat * 2 ^ 19)

/-- A line of NOPs with every slot marked. -/
def blankLine : List Byte := List.replicate 60 0 ++ leBytes 4 (31 + 2 ^ 19)

/-- Where the next instruction of a running warp is fetched: warp, physical address of its line, slot. -/
def State.fetchPlace (s : State) : Option (Nat × Nat × Nat) :=
  ((List.range s.warps.length).filterMap fun wi =>
    match { s with cur := wi, co := none }.picked with
    | none => none
    | some x => match s.fetch x.2.2.1.part x.2.2.2.pc, s.translate x.2.2.1.part (lineBase x.2.2.2.pc) with
      | .line _, .ok pa _ => some (wi, s.pkg.norm pa, x.2.2.2.pc.toNat % 8)
      | _, _ => none).head?

def placedEqps (w : Nat) : List (Nat × Word64 × Word64) :=
  match decodeTableWord 96 w with
  | some (.eqp f) => [(f.imm.toNat, 0x10000000000, 0x10000010000)]
  | _ => []

/-- A loaded kernel of two variants, budget 255 in L and 64 in D, for `withFetchWord`. -/
def placedKernel (w : Nat) : Kernel :=
  { kdesc := 0x10000020000, varL := some ⟨0x10000000000, 64, 255, none⟩, varD := some ⟨0x10000010000, 64, 64, none⟩,
    eqps := placedEqps w }

/-- A launch of one gang, cooperative, with every slot and tile and 4 KiB of local memory. -/
def placedLaunch (w : Nat) : Launch :=
  { seq := 1, part := 0, order := 1, queue := some 0, phase := .dispatched, began := true, kern := placedKernel w,
    lrec := { kdesc := 0x10000020000, coop := true, kind := 1, widths := [9, 2, 16, 16, 16, 5], grid := [1, 1, 1, 1],
              lanes := 32, groups := 1, slots := 32, tiles := 16, localBytes := 4096 } }

def placedGang : Gang :=
  { launch := 0, lin := 0, coords := [0, 0, 0, 0], phase := .resident, started := true, e := 0, order := 0, agedAt := 0,
    kind := .l, localAt := [0] }

def placedWarp : Warp :=
  { gang := 0, index := 0, group := 0, inGroup := 0, populated := 0xFFFFFFFF, core := 0, kind := .l,
    c := { frontier := [⟨0xFFFFFFFF, 0x10000000000, 0, .ready⟩], sel := 0xFFFFFFFF } }

def placedImage : Image :=
  { base := 0x10000000000, pa := 0x200000, len := 0x30000, sections := [(0, 0x20000, 1, true), (0x20000, 0x10000, 0, true)],
    kernels := [], handles := [] }

/-- A translation tree for the placed image: page tables at physical 1 MiB, the three pages at 2 MiB, the level-0 table at 0 (R305,
R306). -/
def placedTree (m : List Host.Cell) : List Host.Cell :=
  let put (m : List Host.Cell) (x : Nat × Nat) : List Host.Cell := FMap.setN 0 m x.1 (leBytes 8 x.2)
  [(0x10, 0x100001), (0x100000, 0x101001), (0x101000, 0x102001), (0x102000, 0x20002B), (0x102008, 0x21002B),
   (0x102010, 0x22000B)].foldl put m

/-- A running warp whose next instruction is the word: in place of the one it would fetch, else as a loader and the
scheduler would leave one. -/
def State.placeWord (s : State) (w : Nat) : State :=
  match s.fetchPlace with
  | some (wi, pa, slot) =>
    { s.turnTo wi with mem := FMap.setN 0 s.mem pa (putSlot (s.bytes pa 64) slot w), agenda := [.issue wi false] }
  | none =>
    let s := s.modPart 0 fun p =>
      { p with en := true, images := [placedImage], ptroot := 0, carves := setAt p.carves 0 (BitVec.ofNat 64 (1024 * 2 ^ 52)) }
    { s with mem := FMap.setN 0 (placedTree s.mem) 0x200000 (putSlot blankLine 0 w), tlb := [], arb := [], launches := [placedLaunch w], gangs := [placedGang],
             warps := [placedWarp], agenda := [.issue 0 false] }

end Sys2Proof.Machine
end

