-- ==== Sys2Proof/Machine/Step.lean ====
section
/-! DEFINITION. The step of the device, and the state in which its next step runs a given instruction word. -/

namespace Sys2Proof.Machine

open Sys2Proof

/-- One step: the clock advances, one move happens, and TLBs and walkers keep what they will of its walks. -/
def step (s : State) : Host.Outcome State Fault Refusal := keepWalks s.ticked.stepFrom

/-- The state in which the next step fetches and runs the word. Every instruction is one 96-bit slot. -/
def State.withFetchWord (s : State) (_nbits w : Nat) : State := s.placeWord (w % 2 ^ 96)

end Sys2Proof.Machine
end

