-- ==== Sys2Proof/Safety.lean ====
section
/-! DEFINITION. What a safe run is (the canonical form that every table of the state keeps), and the terms in which claims
speak of an issue: when the instruction itself takes effect, and what an instruction that writes registers only leaves as
it was. -/

namespace Sys2Proof.Machine

open Sys2Proof

/-- The sparse tables of storage are in canonical form: addresses strictly rising, no entry equal to the default. -/
def State.Canonical (s : State) : Prop :=
  Memory.wf s.mem = true ∧ FMap.wf false s.tags = true ∧ FMap.wf (0 : Byte) s.lmem = true ∧ FMap.wf false s.ltags = true

/-- The member mask of a collective (R209). -/
def membersOf : Instr → Option Lanes
  | .shfl f | .vote f | .wred f | .wscan f | .matchL f => some f.mask
  | _ => none

/-- The context of an issue: that of the warp in State.cur, and for a collective, once every named lane is absent or stands at
its PC, the union of the splits there (R209). -/
def State.contextFor (s : State) (i : Instr) : Option Ctx :=
  match membersOf i with
  | none => s.context i
  | some m => (s.context i).bind fun c => if c.w.gathered m c.pc then some c.union else none

/-- The instruction i issues at s, for the context c: the warp in State.cur has a split to issue, no fault of an earlier
operation comes first (R113, R236), the issue has nothing to wait for (R134, R135, R137), it passes the checks of R158 of
orders 2 to 5, and the store buffer is within its limit (R135). -/
structure Issues (i : Instr) (s : State) (c : Ctx) : Prop where
  context : s.contextFor i = some c
  noLate : c.w.pending = []
  mayIssue : mustWait i c = false
  passes : (s.settledFor c i).earlyFault i (c.settled i) = none
  room : c.w.fragments ≤ (runAhead c.w.kind).2.2

/-- The state in which the issue takes effect: the split selected, a checkpoint opened where R134 asks for one, taint
popped at a join. -/
def State.openedFor (s : State) (i : Instr) (c : Ctx) : State := (s.settledFor c i).atIssue (c.settled i)

/-- The issue as its effect sees it. -/
def Ctx.openedIn (c : Ctx) (i : Instr) (s : State) : Ctx :=
  match nth (s.openedFor i c).warps c.wi with
  | some w => { c.settled i with w := w }
  | none => c.settled i

/-- The PC at which a lane stands (R36). -/
def WCore.pcOf (k : WCore) (lane : Nat) : Option Addr := (k.frontier.find? fun e => e.lanes.has lane).map (·.pc)

/-- The bits of the register or pair of registers, uniform register or predicate that a value of a width fills. -/
def fullWidth (o : Operand) (width : Nat) : Nat :=
  match o with
  | .k _ => 64
  | .p _ _ => 1
  | _ => if width > 32 then 64 else 32

/-- The index at which a destination's value is computed: a uniform destination's once for the warp (R59: its sources are
uniform, and no lane index changes what they read), any other's in each lane. -/
def laneOrOnce (o : Operand) (lane : Nat) : Nat :=
  match o with
  | .k _ => 32
  | _ => lane

/-- Whether what an issue writes to a destination for a lane is P whatever its sources: its guard's tag (R98) and taint
under TAINT (R108), of the lane, or of any lane of ACTIVE for a uniform destination. -/
def Ctx.forcedFor (c : Ctx) (dst : Operand) (lane : Nat) : Bool :=
  match dst with
  | .k _ => c.forcedAny c.w.c
  | _ => c.forced c.w.c lane

/-- What an issue must leave as it was outside its warp: every other part of the state, every other warp, and every
gang but for the list of warps that a single step has run (R344). -/
structure OnlyWarp (s t : State) : Prop where
  rest : { t with warps := s.warps, gangs := s.gangs } = s
  bytes : ∀ a, t.bytes a 1 = s.bytes a 1
  warps : ∀ j, j ≠ s.cur → nth t.warps j = nth s.warps j
  gangs : ∀ j, (nth t.gangs j).map (fun g => { g with step := none }) = (nth s.gangs j).map fun g => { g with step := none }

/-- The frame of every issue of the warp that takes effect: of the warp, only the captured state, the operand latch and the
counts of speculation may change; of the captured state, only the registers that the instruction's word names as written, in
the lanes of ACTIVE, the sticky flags of those lanes and what belongs to control (the frontier table with its selection, the
windows, taint, RNGC, the RNG key and MSTAT). -/
structure IssueFrame (i : Instr) (c : Ctx) (s t : State) : Prop where
  warp : ∃ w0 w1, nth s.warps s.cur = some w0 ∧ nth t.warps s.cur = some w1 ∧
    { w1 with
      c := w0.c, latch := w0.latch, ckpts := w0.ckpts, slow := w0.slow, serLeft := w0.serLeft, onTrace := w0.onTrace } = w0
  other : (t.core s.cur).leqix = (s.core s.cur).leqix ∧ (t.core s.cur).eqSeen = (s.core s.cur).eqSeen
  v : ∀ lane r : Nat, lane < 32 → r < 256 → ¬(c.active.has lane = true ∧ .v (BitVec.ofNat 8 r) ∈ i.regsWritten) →
    (t.core s.cur).getV lane r = (s.core s.cur).getV lane r
  k : ∀ r : Nat, r < 64 → ¬(c.active ≠ 0 ∧ .k (BitVec.ofNat 6 r) ∈ i.regsWritten) →
    (t.core s.cur).getK r = (s.core s.cur).getK r
  p : ∀ lane r : Nat, lane < 32 → r < 16 →
    ¬(c.active.has lane = true ∧ ∃ inv, .p inv (BitVec.ofNat 4 r) ∈ i.regsWritten) →
    (t.core s.cur).getP lane r = (s.core s.cur).getP lane r
  flags : ∀ lane, c.active.has lane = false → FMap.get 0 (t.core s.cur).flags lane = FMap.get 0 (s.core s.cur).flags lane

/-- What an issue leaves that goes to the next slot: every lane of its split there, taint popped at a join, TOVF kept. -/
structure StraightOn (c : Ctx) (s t : State) : Prop where
  next : ∀ lane, c.split.lanes.has lane = true → (t.core s.cur).pcOf lane = some (nextSlot c.pc)
  taint : ∀ lane, FMap.get [] (t.core s.cur).taint lane =
    if bit c.line (5 + c.pc.toNat % 8) && c.split.lanes.has lane then (FMap.get [] (s.core s.cur).taint lane).tail
    else FMap.get [] (s.core s.cur).taint lane
  tovf : (t.core s.cur).tovf = (s.core s.cur).tovf

/-- RNGC counts the issue (R192); the key and MSTAT are kept. -/
structure Counted (s t : State) : Prop where
  rngc : (t.core s.cur).rngc = (s.core s.cur).rngc + 1
  rngk : (t.core s.cur).rngk = (s.core s.cur).rngk
  mstat : (t.core s.cur).mstat = (s.core s.cur).mstat

/-- The frame of an instruction that writes registers only and goes to the next slot. -/
structure RegisterFrame (i : Instr) (c : Ctx) (s t : State) : Prop extends
  OnlyWarp s t, IssueFrame i c s t, StraightOn c s t, Counted s t

end Sys2Proof.Machine
end

