-- ==== Sys2Proof/Certificates/Slice0/Obligations.lean ====
section
/-! DEFINITION. The statements for the provers, from the numbered rules of spec/, with the vocabulary in which they speak. -/

namespace Sys2Proof.Claims

open Sys2Proof Sys2Proof.Machine

/-! Vocabulary: integers of a type, and what it is for an instruction to compute one destination. -/

/-- The integer that a W-bit operand of a type is (R73). -/
def intOf (t : Ty) (x : Nat) : Int := if t.isSigned then (BitVec.ofNat t.width x).toInt else ((x % 2 ^ t.width : Nat) : Int)

/-- The integer that the 32-bit immediate is for an integer type (R149). -/
def immInt (t : Ty) (imm : Word32) : Int := if t.isSigned then imm.toInt else (imm.toNat : Int)

/-- Range(T) of R73. -/
def least (t : Ty) : Int := if t.isSigned then -(2 ^ (t.width - 1)) else 0
def greatest (t : Ty) : Int := if t.isSigned then 2 ^ (t.width - 1) - 1 else 2 ^ t.width - 1

/-- R168: the result that an exact integer e leaves in W bits, and the flag that it raises. -/
def narrowed (t : Ty) (sat : Bool) (e : Int) : Nat :=
  (BitVec.ofInt t.width (if least t ≤ e ∧ e ≤ greatest t then e else if sat then max (least t) (min (greatest t) e) else e)).toNat
def overflows (t : Ty) (e : Int) : Flags := if least t ≤ e ∧ e ≤ greatest t then 0 else fOV

/-- Instruction i computes the destination `dst` of a width: at every state where it issues, for every context of the
issue, provided that no flag it raises is one that TEN enables (R64), it completes; every lane of ACTIVE then reads the
whole destination as `val`, tagged P exactly where `tag` holds, the guard is P or taint makes it so (R96, R98, R108), and
has the flags raised that `flags` gives; and nothing else changes but as the frame of register instructions allows. `val`,
`tag` and `flags` are given the registers before the issue and the lane (for a uniform destination lane index 32, R59). -/
def Computes (i : Instr) (dst : Operand) (width : Nat) (val : WCore → Nat → Nat) (tag : WCore → Nat → Bool)
    (flags : WCore → Nat → Flags) : Prop :=
  ∀ (s : State) (c : Ctx), Issues i s c →
    (∀ lane, c.active.has lane = true → flags (s.core s.cur) (laneOrOnce dst lane) &&& c.w.ten = 0) →
    ∃ t, exec i s = .next t ∧ RegisterFrame i c s t ∧ ∀ lane, c.active.has lane = true →
      (t.core s.cur).read dst lane (fullWidth dst width)
        = (val (s.core s.cur) (laneOrOnce dst lane),
           tag (s.core s.cur) (laneOrOnce dst lane) || (c.openedIn i s).forcedFor dst lane)
      ∧ FMap.get 0 (t.core s.cur).flags lane
        = FMap.get 0 (s.core s.cur).flags lane ||| flags (s.core s.cur) (laneOrOnce dst lane)

/-- The value and the tag of an operand as a lane reads it. -/
def valOf (k : WCore) (o : Operand) (lane width : Nat) : Nat := (k.read o lane width).1
def tagIn (k : WCore) (o : Operand) (lane width : Nat) : Bool := (k.read o lane width).2

/-- An instruction that computes from register operands of the type's width, tag the OR of theirs (R99). -/
def ComputesFrom (i : Instr) (dst : Operand) (width : Nat) (srcs : List (Operand × Nat)) (val : List Nat → Nat)
    (flags : List Nat → Flags) : Prop :=
  Computes i dst width (fun k u => val (srcs.map fun x => valOf k x.1 u x.2)) (fun k u => srcs.any fun x => tagIn k x.1 u x.2)
    (fun k u => flags (srcs.map fun x => valOf k x.1 u x.2))

/-- Operand j of a list as an integer of a type. -/
def intAtOf (t : Ty) (xs : List Nat) (j : Nat) : Int := intOf t (natAt xs j)

/-- R168, R99: the integer arithmetic instructions, both forms, on every type, kind of operand and SUB. e is the exact
integer; IMULH's is the floor of the product over 2^W. -/
def IntegerArithmetic : Prop :=
  (∀ f : RegForm, ∀ x ∈ ([
      (.iadd f, [f.a, f.b], fun x y _ => x + y), (.isub f, [f.a, f.b], fun x y _ => x - y),
      (.imul f, [f.a, f.b], fun x y _ => x * y), (.imulh f, [f.a, f.b], fun x y _ => x * y / 2 ^ f.ty.width),
      (.imad f, [f.a, f.b, f.c], fun x y z => x * y + z), (.iabs f, [f.a], fun x _ _ => |x|),
      (.ineg f, [f.a], fun x _ _ => -x), (.imin f, [f.a, f.b], fun x y _ => min x y),
      (.imax f, [f.a, f.b], fun x y _ => max x y)] : List (Instr × List Operand × (Int → Int → Int → Int))),
    ComputesFrom x.1 f.dst f.ty.width (x.2.1.map fun o => (o, f.ty.width))
      (fun xs => narrowed f.ty (f.sub.getLsbD 0) (x.2.2 (intAtOf f.ty xs 0) (intAtOf f.ty xs 1) (intAtOf f.ty xs 2)))
      (fun xs => overflows f.ty (x.2.2 (intAtOf f.ty xs 0) (intAtOf f.ty xs 1) (intAtOf f.ty xs 2))))
  ∧ ∀ f : ImmForm, ∀ x ∈ ([
      (.iaddImm f, fun x y => x + y), (.isubImm f, fun x y => x - y), (.imulImm f, fun x y => x * y),
      (.imulhImm f, fun x y => x * y / 2 ^ f.ty.width), (.iminImm f, fun x y => min x y),
      (.imaxImm f, fun x y => max x y)] : List (Instr × (Int → Int → Int))),
    ComputesFrom x.1 f.dst f.ty.width [(f.a, f.ty.width)]
      (fun xs => narrowed f.ty (f.sub.getLsbD 0) (x.2 (intAtOf f.ty xs 0) (immInt f.ty f.imm)))
      (fun xs => overflows f.ty (x.2 (intAtOf f.ty xs 0) (immInt f.ty f.imm)))

/-- The quotient and the remainder of R95's table, with the flag. -/
def quotient (t : Ty) (x y : Int) : Int :=
  if y = 0 then if t.isSigned then if 0 ≤ x then 2 ^ (t.width - 1) - 1 else -(2 ^ (t.width - 1)) else 2 ^ t.width - 1
  else if t.isSigned ∧ x = -(2 ^ (t.width - 1)) ∧ y = -1 then -(2 ^ (t.width - 1))
  else x.tdiv y
def remainder (t : Ty) (x y : Int) : Int :=
  if y = 0 then x else if t.isSigned ∧ x = -(2 ^ (t.width - 1)) ∧ y = -1 then 0 else x - x.tdiv y * y
def divisionFlag (t : Ty) (x y : Int) : Flags :=
  if y = 0 then fDZ else if t.isSigned ∧ x = -(2 ^ (t.width - 1)) ∧ y = -1 then fOV else 0

/-- R95, R99: IDIV and IREM, both forms. -/
def IntegerDivision : Prop :=
  (∀ f : RegForm, ∀ x ∈ ([(.idiv f, quotient), (.irem f, remainder)] : List (Instr × (Ty → Int → Int → Int))),
    ComputesFrom x.1 f.dst f.ty.width [(f.a, f.ty.width), (f.b, f.ty.width)]
      (fun xs => (BitVec.ofInt f.ty.width (x.2 f.ty (intAtOf f.ty xs 0) (intAtOf f.ty xs 1))).toNat)
      (fun xs => divisionFlag f.ty (intAtOf f.ty xs 0) (intAtOf f.ty xs 1)))
  ∧ ∀ f : ImmForm, ∀ x ∈ ([(.idivImm f, quotient), (.iremImm f, remainder)] : List (Instr × (Ty → Int → Int → Int))),
    ComputesFrom x.1 f.dst f.ty.width [(f.a, f.ty.width)]
      (fun xs => (BitVec.ofInt f.ty.width (x.2 f.ty (intAtOf f.ty xs 0) (immInt f.ty f.imm))).toNat)
      (fun xs => divisionFlag f.ty (intAtOf f.ty xs 0) (immInt f.ty f.imm))

end Sys2Proof.Claims

open Sys2Proof Sys2Proof.Machine Sys2Proof.Claims in
/-- R168, R99: the integer arithmetic instructions, both forms, on every type, kind of operand and SUB. e is the exact integer;
IMULH's is the floor of the product over 2^W. R95, R99: IDIV and IREM, both forms. That IREM of the least number by −1 sets OV is
the model's reading [16]. -/
def Obligations.IntegerArithmeticAndDivision : Prop := IntegerArithmetic ∧ IntegerDivision

namespace Sys2Proof.Claims

open Sys2Proof Sys2Proof.Machine

/-- A W-bit operand of a list as a bit vector. -/
def bv (w : Nat) (xs : List Nat) (j : Nat) : BitVec w := BitVec.ofNat w (natAt xs j)

/-- The W-bit immediate of a logic instruction (R149). -/
def immBv (t : Ty) (imm : Word32) : BitVec t.width := BitVec.ofInt t.width (immInt t imm)

end Sys2Proof.Claims

open Sys2Proof Sys2Proof.Machine Sys2Proof.Claims in
/-- R169, R99: the logic and bit instructions, both forms. A shift amount is the 32-bit value of b or the immediate. XOR's register
form completes wherever it issues, having no flag to raise. -/
def Obligations.LogicAndBits : Prop :=
  (∀ f : RegForm, ∀ s c, Issues (.xor f) s c → ∃ t, exec (.xor f) s = .next t ∧ RegisterFrame (.xor f) c s t
    ∧ ∀ lane, c.active.has lane = true → (t.core s.cur).read f.dst lane (fullWidth f.dst f.ty.width)
      = ((bv f.ty.width [valOf (s.core s.cur) f.a (laneOrOnce f.dst lane) f.ty.width] 0
            ^^^ bv f.ty.width [valOf (s.core s.cur) f.b (laneOrOnce f.dst lane) f.ty.width] 0).toNat,
         tagIn (s.core s.cur) f.a (laneOrOnce f.dst lane) f.ty.width || tagIn (s.core s.cur) f.b (laneOrOnce f.dst lane) f.ty.width
            || (c.openedIn (.xor f) s).forcedFor f.dst lane)) ∧
  (∀ f : RegForm, ∀ x ∈ ([
      (.andB f, fun xs => bv f.ty.width xs 0 &&& bv f.ty.width xs 1), (.orB f, fun xs => bv f.ty.width xs 0 ||| bv f.ty.width xs 1),
      (.xor f, fun xs => bv f.ty.width xs 0 ^^^ bv f.ty.width xs 1)] : List (Instr × (List Nat → BitVec f.ty.width))),
    ComputesFrom x.1 f.dst f.ty.width [(f.a, f.ty.width), (f.b, f.ty.width)] (fun xs => (x.2 xs).toNat) (fun _ => 0))
  ∧ (∀ f : ImmForm, ∀ x ∈ ([
      (.andBImm f, fun xs => bv f.ty.width xs 0 &&& immBv f.ty f.imm), (.orBImm f, fun xs => bv f.ty.width xs 0 ||| immBv f.ty f.imm),
      (.xorImm f, fun xs => bv f.ty.width xs 0 ^^^ immBv f.ty f.imm),
      (.shlImm f, fun xs => bv f.ty.width xs 0 <<< f.imm.toNat), (.shrImm f, fun xs => bv f.ty.width xs 0 >>> f.imm.toNat),
      (.sarImm f, fun xs => (bv f.ty.width xs 0).sshiftRight f.imm.toNat),
      (.rotlImm f, fun xs => (bv f.ty.width xs 0).rotateLeft f.imm.toNat)] : List (Instr × (List Nat → BitVec f.ty.width))),
    ComputesFrom x.1 f.dst f.ty.width [(f.a, f.ty.width)] (fun xs => (x.2 xs).toNat) (fun _ => 0))
  ∧ (∀ f : RegForm, ∀ x ∈ ([
      (.shl f, fun xs => bv f.ty.width xs 0 <<< natAt xs 1), (.shr f, fun xs => bv f.ty.width xs 0 >>> natAt xs 1),
      (.sar f, fun xs => (bv f.ty.width xs 0).sshiftRight (natAt xs 1)),
      (.rotl f, fun xs => (bv f.ty.width xs 0).rotateLeft (natAt xs 1))] : List (Instr × (List Nat → BitVec f.ty.width))),
    ComputesFrom x.1 f.dst f.ty.width [(f.a, f.ty.width), (f.b, 32)] (fun xs => (x.2 xs).toNat) (fun _ => 0))
  ∧ (∀ f : RegForm, ComputesFrom (.notB f) f.dst f.ty.width [(f.a, f.ty.width)] (fun xs => (~~~(bv f.ty.width xs 0)).toNat) fun _ => 0)
  ∧ (∀ f : RegForm, ComputesFrom (.brev f) f.dst f.ty.width [(f.a, f.ty.width)] (fun xs => (bv f.ty.width xs 0).reverse.toNat) fun _ => 0)
  ∧ (∀ f : RegForm, ComputesFrom (.popc f) f.dst 32 [(f.a, f.ty.width)]
      (fun xs => (List.range f.ty.width).countP fun j => (natAt xs 0).testBit j) fun _ => 0)
  ∧ (∀ f : RegForm, ComputesFrom (.clz f) f.dst 32 [(f.a, f.ty.width)]
      (fun xs => if natAt xs 0 = 0 then f.ty.width else f.ty.width - 1 - Nat.log2 (natAt xs 0)) fun _ => 0)
  ∧ ∀ f : LogxForm, ComputesFrom (.logx f) f.dst f.ty.width [(f.a, f.ty.width), (f.b, f.ty.width), (f.c, f.ty.width)]
      (fun xs => ofBits f.ty.width fun j =>
        (if (natAt xs 2).testBit j then f.g else f.f).getLsbD (2 * ((natAt xs 1).testBit j).toNat + ((natAt xs 0).testBit j).toNat))
      fun _ => 0

namespace Sys2Proof.Claims

open Sys2Proof Sys2Proof.Machine

/-- The relation that SUB codes (R172). -/
def relation (code : Nat) (x y : Int) : Bool :=
  match code with
  | 0 => x = y | 1 => x ≠ y | 2 => x < y | 3 => x ≤ y | 4 => x > y | _ => x ≥ y

/-- The field that BFX and BFI act on: its length, 0 where there is none (R170). -/
def fieldLen (w pos len : Nat) : Nat := if len = 0 ∨ w ≤ pos then 0 else min len (w - pos)

end Sys2Proof.Claims

open Sys2Proof Sys2Proof.Machine Sys2Proof.Claims in
/-- R170 to R173, R149: bit fields, addresses, moves, byte permutation, integer comparison and indexed uniform reads. PRMT's byte
k is the pool's byte that nibble k names, or eight copies of its top bit. What MOVI makes of a NaN in an F64 immediate is the
model's reading [16]. -/
def Obligations.FieldsMovesAndCompares : Prop :=
  (∀ f : RegForm, ComputesFrom (.bfx f) f.dst f.ty.width [(f.a, f.ty.width), (f.b, 32), (f.c, 32)]
      (fun xs =>
        let n := fieldLen f.ty.width (natAt xs 1) (natAt xs 2)
        let field := BitVec.ofNat n (natAt xs 0 / 2 ^ natAt xs 1)
        (if f.ty.isSigned then field.signExtend f.ty.width else field.zeroExtend f.ty.width).toNat) fun _ => 0)
  ∧ (∀ f : RegForm, ComputesFrom (.bfi f) f.dst f.ty.width [(f.a, f.ty.width), (f.b, f.ty.width), (f.c, 32), (f.d, 32)]
      (fun xs => ofBits f.ty.width fun j =>
        if natAt xs 2 ≤ j ∧ j < natAt xs 2 + fieldLen f.ty.width (natAt xs 2) (natAt xs 3) then (natAt xs 1).testBit (j - natAt xs 2)
        else (natAt xs 0).testBit j) fun _ => 0)
  ∧ (∀ f : RegForm, ComputesFrom (.lea f) f.dst f.ty.width [(f.a, f.ty.width), (f.b, 32)]
      (fun xs => (natAt xs 0 + 2 ^ f.sub.toNat * (if f.ty = .s64 then (bv 32 xs 1).signExtend 64 else (bv 32 xs 1).zeroExtend 64).toNat)
        % 2 ^ f.ty.width) fun _ => 0)
  ∧ (∀ f : ImmForm, ComputesFrom (.leaImm f) f.dst f.ty.width [(f.a, f.ty.width)]
      (fun xs => (natAt xs 0 + 2 ^ f.sub.toNat * (if f.ty = .s64 then f.imm.signExtend 64 else f.imm.zeroExtend 64).toNat)
        % 2 ^ f.ty.width) fun _ => 0)
  ∧ (∀ f : RegForm, ComputesFrom (.mov f) f.dst f.ty.width [(f.a, f.ty.width)] (fun xs => natAt xs 0) fun _ => 0)
  ∧ (∀ f : ImmForm, ComputesFrom (.movi f) f.dst f.ty.width []
      (fun _ => if f.ty.isInt then (immBv f.ty f.imm).toNat else if f.ty = .f32 then f.imm.toNat else immOf .f64 f.imm) fun _ => 0)
  ∧ (∀ f : RegForm, ComputesFrom (.prmt f) f.dst 32 [(f.a, 32), (f.b, 32), (f.c, 32)]
      (fun xs => ofBits 32 fun j =>
        let nib := natAt xs 1 / 2 ^ (4 * (j / 8)) % 16
        (natAt xs 0 + 2 ^ 32 * natAt xs 2).testBit (8 * (nib % 8) + if 8 ≤ nib then 7 else j % 8)) fun _ => 0)
  ∧ (∀ f : ImmForm, ComputesFrom (.prmtImm f) f.dst 32 [(f.a, 32)]
      (fun xs => ofBits 32 fun j =>
        let nib := f.imm.toNat / 2 ^ (4 * (j / 8)) % 16
        (natAt xs 0).testBit (8 * (nib % 8) + if 8 ≤ nib then 7 else j % 8)) fun _ => 0)
  ∧ (∀ f : RegForm, Computes (.sel f) f.dst f.ty.width
      (fun k u => if valOf k f.c u 1 = 1 then valOf k f.a u f.ty.width else valOf k f.b u f.ty.width)
      (fun k u => tagIn k f.c u 1 || if valOf k f.c u 1 = 1 then tagIn k f.a u f.ty.width else tagIn k f.b u f.ty.width) fun _ _ => 0)
  ∧ (∀ f : RegForm, ComputesFrom (.icmp f) f.dst 1 [(f.a, f.ty.width), (f.b, f.ty.width)]
      (fun xs => (relation f.sub.toNat (intAtOf f.ty xs 0) (intAtOf f.ty xs 1)).toNat) fun _ => 0)
  ∧ (∀ f : ImmForm, ComputesFrom (.icmpImm f) f.dst 1 [(f.a, f.ty.width)]
      (fun xs => (relation f.sub.toNat (intAtOf f.ty xs 0) (immInt f.ty f.imm)).toNat) fun _ => 0)
  ∧ ∀ (f : RegForm) (b : BitVec 6), f.a = .k b → Computes (.krd f) f.dst f.ty.width
      (fun k u => if b.toNat + valOf k f.b u 32 ≤ 63 then (k.getK (b.toNat + valOf k f.b u 32)).bits.toNat % 2 ^ f.ty.width else 0)
      (fun k u => tagIn k f.b u 32 || (b.toNat + valOf k f.b u 32 ≤ 63 && (k.getK (b.toNat + valOf k f.b u 32)).tag))
      (fun k u => if b.toNat + valOf k f.b u 32 ≤ 63 then 0 else fOV)

namespace Sys2Proof.Claims

open Sys2Proof Sys2Proof.Machine

/-- An issue that has its own effect and goes on: RNGC counts it (R192), its lanes stand at the next slot, and nothing
outside its warp has changed. -/
structure Advances (c : Ctx) (s t : State) : Prop extends OnlyWarp s t where
  rngc : (t.core s.cur).rngc = (s.core s.cur).rngc + 1
  next : ∀ lane, c.split.lanes.has lane = true → (t.core s.cur).pcOf lane = some (nextSlot c.pc)

/-- The registers of the warp at issue are as they were. -/
def SameRegs (s t : State) : Prop :=
  (t.core s.cur).v = (s.core s.cur).v ∧ (t.core s.cur).k = (s.core s.cur).k ∧ (t.core s.cur).p = (s.core s.cur).p

end Sys2Proof.Claims

open Sys2Proof Sys2Proof.Machine Sys2Proof.Claims in
/-- R174, R96, R98, R99: the predicate instructions. `.unpack` gives all sixteen predicates of a lane, its guard's among
them, and acts in exactly the lanes where the guard held at issue. -/
def Obligations.Predicates : Prop :=
  (∀ f : RegForm, ∀ x ∈ ([(0, fun a b => a && b), (1, fun a b => a || b), (2, fun a b => a != b)] : List (BitVec 7 × (Bool → Bool → Bool))),
    f.sub = x.1 → ComputesFrom (.plop f) f.dst 1 [(f.a, 1), (f.b, 1)]
      (fun xs => (x.2 (natAt xs 0 = 1) (natAt xs 1 = 1)).toNat) fun _ => 0)
  ∧ (∀ f : RegForm, f.sub = 3 → ComputesFrom (.plop f) f.dst 1 [(f.a, 1)] (fun xs => natAt xs 0) fun _ => 0)
  ∧ (∀ f : RegForm, f.sub = 0 → ComputesFrom (.p2v f) f.dst 32 [(f.a, 1)] (fun xs => natAt xs 0) fun _ => 0)
  ∧ (∀ f : RegForm, f.sub = 1 → ComputesFrom (.p2v f) f.dst 32 ((List.range 16).map fun j => (.p false (BitVec.ofNat 4 j), 1))
      (fun xs => ofBits 16 fun j => natAt xs j = 1) fun _ => 0)
  ∧ (∀ f : RegForm, f.sub = 0 → ComputesFrom (.v2p f) f.dst 1 [(f.a, 32)] (fun xs => if natAt xs 0 = 0 then 0 else 1) fun _ => 0)
  ∧ ∀ f : RegForm, f.sub = 1 → ∀ s c, Issues (.v2p f) s c →
      ∃ t, exec (.v2p f) s = .next t ∧ RegisterFrame (.v2p f) c s t ∧ ∀ lane, c.active.has lane = true →
        FMap.get 0 (t.core s.cur).flags lane = FMap.get 0 (s.core s.cur).flags lane ∧
        ∀ j, j < 16 → (t.core s.cur).getP lane j
          = ⟨(valOf (s.core s.cur) f.a lane 32).testBit j,
             tagIn (s.core s.cur) f.a lane 32 || (c.openedIn (.v2p f) s).forced (c.openedIn (.v2p f) s).w.c lane⟩

namespace Sys2Proof.Claims

open Sys2Proof Sys2Proof.Machine

/-- What each special reads as in a lane (R34, R62, R63, R67, R68), from the state, the warp as the effect sees it (taint
popped at a join), its gang and its launch. -/
def specialOf (s : State) (c : Ctx) (lane : Nat) : Special → Nat
  | .laneid => lane
  | .warpid => c.w.inGroup
  | .wid => widOf c.w c.g c.l lane
  | .wid0 => 32 * c.w.inGroup + lane
  | .wid1 => c.w.group
  | .wid2 => natAt c.g.coords 0
  | .wid3 => natAt c.g.coords 1
  | .wid4 => natAt c.g.coords 2
  | .wid5 => natAt c.g.coords 3
  | .cellid => c.g.cell
  | .coreid => c.w.core
  | .corekind => if c.w.kind = .l then 0 else 1
  | .dieid => c.g.die
  | .clock => s.pkg.clock.toNat
  | .pctl => c.l.lrec.pctl.toNat
  | .lstat => (FMap.get 0 c.w.c.flags lane).toNat + 2 ^ 8 * (FMap.get [] c.w.c.taint lane).length + 2 ^ 11 * (c.w.c.tovf.has lane).toNat
  | .wstat => c.w.rbc.toNat + 2 ^ 8 * c.w.ser.toNat + 2 ^ 9 * c.w.ckpts.length + 2 ^ 11 * c.w.migp.toNat + 2 ^ 12 * c.w.sched.toNat
      + 2 ^ 13 * c.w.noslot.toNat + 2 ^ 16 * c.w.ten.toNat
  | .mstat => c.w.c.mstat.toNat
  | .rngc => c.w.c.rngc.toNat
  | .rngklo => c.w.c.rngk.toNat % 2 ^ 64
  | .rngkhi => c.w.c.rngk.toNat / 2 ^ 64
  | .leqix => c.w.c.leqix.toNat
  | .gsize => c.l.lrec.lanes
  | .ganggrp => c.l.lrec.groups

/-- R67, R69, R175: GETS reads the special as it stands at its issue; the value is S but for taint and, as the model reads R67, a P
guard [14]. A special wider than 32 bits fills a pair. -/
def GetsReadsSpecials : Prop :=
  ∀ (f : RegForm) (x : Special), f.a = .sp x → ∀ s c, Issues (.gets f) s c →
    ∃ t, exec (.gets f) s = .next t ∧ RegisterFrame (.gets f) c s t ∧ ∀ lane, c.active.has lane = true →
      FMap.get 0 (t.core s.cur).flags lane = FMap.get 0 (s.core s.cur).flags lane ∧
      (t.core s.cur).read f.dst lane (fullWidth f.dst (if x.wide then 64 else 32))
        = (specialOf s (c.openedIn (.gets f) s) (laneOrOnce f.dst lane) x % 2 ^ (if x.wide then 64 else 32),
           (c.openedIn (.gets f) s).forcedFor f.dst lane)

/-- The value that SETS writes for a lane, in either form (R175). -/
def setsValue (s : State) (i : Instr) (x : Special) (lane : Nat) : Nat :=
  match i with
  | .sets f => valOf (s.core s.cur) f.a lane (if x = .mstat then 64 else 32)
  | .setsImm f => f.imm.toNat
  | _ => 0

/-- R62, R63, R65, R70, R175: SETS. LSTAT's flags are cleared where the value has ones, in each lane of ACTIVE; WSTAT takes
TEN and RBC, MSTAT all its bits, from the lanes of ACTIVE, which agree; with no lane in ACTIVE nothing is written. -/
def SetsWritesStatus : Prop :=
  ∀ (i : Instr) (x : Special), ((∃ f : RegForm, i = .sets f ∧ f.dst = .sp x) ∨ ∃ f : ImmForm, i = .setsImm f ∧ f.dst = .sp x) →
    ∀ s c, Issues i s c → ∃ t, exec i s = .next t ∧ Advances c s t ∧ SameRegs s t
      ∧ (x = .lstat → (t.core s.cur).mstat = (s.core s.cur).mstat ∧ ∀ lane, FMap.get 0 (t.core s.cur).flags lane
          = if c.active.has lane then FMap.get 0 (s.core s.cur).flags lane &&& ~~~(BitVec.ofNat 8 (setsValue s i x lane))
            else FMap.get 0 (s.core s.cur).flags lane)
      ∧ (x = .wstat → (t.core s.cur).mstat = (s.core s.cur).mstat ∧ (t.core s.cur).flags = (s.core s.cur).flags ∧
          ∃ w w', nth s.warps s.cur = some w ∧ nth t.warps s.cur = some w' ∧ w'.ser = w.ser ∧ w'.migp = w.migp ∧ w'.sched = w.sched
            ∧ w'.noslot = w.noslot ∧ w'.handler = w.handler ∧ (c.active = 0 → w'.rbc = w.rbc ∧ w'.ten = w.ten)
            ∧ ∀ lane, c.active.has lane = true →
                w'.rbc = BitVec.ofNat 8 (setsValue s i x lane) ∧ w'.ten = BitVec.ofNat 8 (setsValue s i x lane / 2 ^ 16))
      ∧ (x = .mstat → (t.core s.cur).flags = (s.core s.cur).flags ∧ (c.active = 0 → (t.core s.cur).mstat = (s.core s.cur).mstat)
          ∧ ∀ lane, c.active.has lane = true → (t.core s.cur).mstat = BitVec.ofNat 64 (setsValue s i x lane))

end Sys2Proof.Claims

open Sys2Proof Sys2Proof.Machine Sys2Proof.Claims in
/-- R67, R69, R175: GETS reads the special as it stands at its issue; the value is S but for taint and, as the model reads R67, a P
guard [14]. A special wider than 32 bits fills a pair. R62, R63, R65, R70, R175: SETS. LSTAT's flags are cleared where the value has ones, in each
lane of ACTIVE; WSTAT takes TEN and RBC, MSTAT all its bits, from the lanes of ACTIVE, which agree; with no lane in ACTIVE
nothing is written. -/
def Obligations.GetsAndSets : Prop := GetsReadsSpecials ∧ SetsWritesStatus

namespace Sys2Proof.Claims

open Sys2Proof Sys2Proof.Machine

/-! Control. -/

/-- R164, R39: NOP changes nothing but what every issue changes, and YIELD only marks its split as yielding where ACTIVE holds
a lane. -/
def NopAndYield : Prop :=
  (∀ f s c, Issues (.nop f) s c → ∃ t, exec (.nop f) s = .next t ∧ RegisterFrame (.nop f) c s t ∧ SameRegs s t
    ∧ ∀ lane, FMap.get 0 (t.core s.cur).flags lane = FMap.get 0 (s.core s.cur).flags lane)
  ∧ ∀ f s c, Issues (.yield f) s c → ∃ t, exec (.yield f) s = .next t ∧ RegisterFrame (.yield f) c s t ∧ SameRegs s t
    ∧ (∀ lane, FMap.get 0 (t.core s.cur).flags lane = FMap.get 0 (s.core s.cur).flags lane)
    ∧ (c.active ≠ 0 → (t.core s.cur).yielded = true) ∧ (c.active = 0 → (t.core s.cur).yielded = c.w.c.yielded)

/-- R39, second case: a warp whose selected split has executed YIELD issues next for the unblocked entry with the next higher PC,
wrapping to the lowest, where none has waited 256 issues; with no other unblocked entry, for the selected one. An access that a replay has
released comes before either [27]. -/
def YieldPassesOn : Prop :=
  ∀ (s : State) w g l, s.issuer s.cur = some (w, g, l) → s.co = none →
    let k := s.refreshed w g l.part
    k.maskExpired = false → k.yielded = true → (∀ e ∈ k.frontier, e.block.replayed = false) →
    k.frontier.Pairwise (fun x y => x.pc.toNat ≤ y.pc.toNat) →
    ∀ e ∈ k.frontier, e.lanes = k.sel → e.issues = true → (∀ x ∈ k.frontier, x.lanes = k.sel → x = e) →
    let others (x : Split) : Prop := x ∈ k.frontier ∧ x.lanes ≠ k.sel ∧ x.issues = true
    (∀ x, others x → x.wait < 256) →
    let picks (x : Split) : Prop := s.picked = some ({ w with c := { k with sel := x.lanes, yielded := false } }, g, l, x)
    ((∀ x, ¬others x) → picks e)
    ∧ ((∃ x, others x) → ∃ x, others x ∧ picks x
        ∧ ((∃ y, others y ∧ e.pc.toNat < y.pc.toNat) →
            e.pc.toNat < x.pc.toNat ∧ ∀ y, others y → e.pc.toNat < y.pc.toNat → x.pc.toNat ≤ y.pc.toNat)
        ∧ ((∀ y, others y → y.pc.toNat ≤ e.pc.toNat) → ∀ y, others y → x.pc.toNat ≤ y.pc.toNat))

/-- Where a transfer sends a lane of ACTIVE (R151, R160, R162), from the registers before it; none where MBR falls through. -/
def destOf (i : Instr) (k : WCore) (pc : Addr) (lane : Nat) : Option Addr :=
  let code (line : Int) (slot : Nat) : Addr := BitVec.ofInt 64 (64 * (pc.toNat / 64 + line) + slot)
  match i with
  | .bra f | .call f => some (code f.line.toInt f.slot.toNat)
  | .mbr f => ((f.first :: f.rest).find? fun p => (k.getP lane p.pred.toNat).val).map fun p => code p.line.toInt p.slot.toNat
  | .brx f | .callx f | .ret f => some (BitVec.ofNat 64 (valOf k f.a lane 64))
  | _ => none

/-- Whether a lane's decision rests on a P value (R106). -/
def restsOnP (i : Instr) (c : Ctx) (k : WCore) (lane : Nat) : Bool :=
  match i with
  | .bra _ => c.guardTag k lane
  | .brx f | .callx f => c.guardTag k lane || tagIn k f.a lane 64
  | .mbr f =>
    let ps := f.first :: f.rest
    (ps.take (ps.findIdx (fun p => (k.getP lane p.pred.toNat).val) + 1)).any fun p => (k.getP lane p.pred.toNat).tag
  | _ => false

/-- The taint stacks as an issue finds them, popped at a join (R107). -/
def poppedTaint (s : State) (c : Ctx) (lane : Nat) : List Addr :=
  let st := FMap.get [] (s.core s.cur).taint lane
  if bit c.line (5 + c.pc.toNat % 8) && c.split.lanes.has lane then st.tail else st

/-- Whether an instruction transfers control by R160. -/
def transfers : Instr → Bool
  | .bra _ | .mbr _ | .brx _ | .call _ | .callx _ | .ret _ => true
  | _ => false

end Sys2Proof.Claims

open Sys2Proof Sys2Proof.Machine Sys2Proof.Claims in
/-- R106, R160 to R162: a transfer whose every destination is a marked slot of the variant's code moves each lane of ACTIVE to
its destination and the others to the next slot; it writes the link in CALL and CALLX, and nothing else; under TAINT it pushes
its PC where its decision rests on a P value. That the link is P under a P guard, and under the taint that stood before this push, is
the model's reading [14]. -/
def Obligations.TransfersOfControl : Prop :=
  ∀ i, transfers i = true → ∀ s c, Issues i s c →
    (∀ lane d, c.active.has lane = true → destOf i (s.core s.cur) c.pc lane = some d → s.targetOk c.pi c.variant d = true) →
    ∃ t, exec i s = .next t ∧ OnlyWarp s t ∧ IssueFrame i c s t ∧ Counted s t
      ∧ (∀ lane, FMap.get 0 (t.core s.cur).flags lane = FMap.get 0 (s.core s.cur).flags lane)
      ∧ (∀ lane, c.split.lanes.has lane = true → (t.core s.cur).pcOf lane
          = some (if c.active.has lane then (destOf i (s.core s.cur) c.pc lane).getD (nextSlot c.pc) else nextSlot c.pc))
      ∧ (∀ lane, (∃ f, i = .call f) ∨ (∃ f, i = .callx f) → c.active.has lane = true → (t.core s.cur).read (.v 0) lane 64
          = ((nextSlot c.pc).toNat, (c.openedIn i s).forced (c.openedIn i s).w.c lane))
      ∧ ∀ lane, lane < 32 →
          let st := poppedTaint s c lane
          let push := c.policy = 2 ∧ c.active.has lane = true ∧ restsOnP i c (s.core s.cur) lane = true ∧ st.head? ≠ some c.pc
          FMap.get [] (t.core s.cur).taint lane = (if push ∧ st.length < 4 then c.pc :: st else st)
          ∧ (t.core s.cur).tovf.has lane = ((s.core s.cur).tovf.has lane || decide (push ∧ 4 ≤ st.length))

namespace Sys2Proof.Claims

open Sys2Proof Sys2Proof.Machine

/-- The fault record of R315 for a fault of the issue, and its disposition. -/
def recordOf (c : Ctx) (f : FaultInfo) (disp : Nat) : FRec :=
  { cls := f.cls, disp := disp, variant := if c.w.kind = .l then 0 else 1, cause := f.cause, lanes := f.lanes, fpc := c.pc,
    altpc := c.l.kern.altPc c.w.kind c.w.c.leqix, eqix := c.w.c.leqix, info := f.info, addr := f.addr, tags := f.tags,
    gang := c.g.lin, lseq := c.l.seq, warp := c.w.index, die := c.g.die, cell := c.g.cell, core := c.w.core }

/-- Whether a fault is taken to a handler (R314): the mask's bit of its class is 1, the warp is not in handler mode, the
class is neither RECOMPUTE nor BKPT, and the variant has a handler entry. -/
def handles (c : Ctx) (f : FaultInfo) (entry : Word64) : Prop :=
  c.l.kern.hmask.getLsbD f.cls.code = true ∧ f.cls ≠ .recompute ∧ f.cls ≠ .bkpt ∧ c.w.handler = none
    ∧ ∃ v, c.variant = some v ∧ v.hentry = some entry

/-- What no fault changes (R158, R317): registers, predicates, flags, taint, RNG state, MSTAT; memory and tags. -/
structure FaultFrame (s t : State) : Prop where
  core : { t.core s.cur with
    frontier := (s.core s.cur).frontier, sel := (s.core s.cur).sel, windows := (s.core s.cur).windows,
    yielded := (s.core s.cur).yielded } = s.core s.cur
  mem : t.mem = s.mem ∧ t.tags = s.tags ∧ t.lmem = s.lmem ∧ t.ltags = s.ltags
  others : ∀ j, j ≠ s.cur → nth t.warps j = nth s.warps j

/-- R314, R315, R317, R318: t is s after the warp at issue has taken the fault f, with no checkpoint open: in handler mode,
its lanes at the handler entry and its record kept there; or else with its launch to end and the record to be written. A BKPT outside
handler mode is no such fault; in handler mode it is FATAL as every other is [39]. -/
def Takes (s : State) (c : Ctx) (f : FaultInfo) (t : State) : Prop :=
  FaultFrame s t
  ∧ (∀ entry, handles c f entry → ∃ w h, nth t.warps s.cur = some w ∧ w.handler = some h
      ∧ h.epc = (if f.cls = .trap then nextSlot c.pc else c.pc) ∧ h.emask = c.split.lanes ∧ h.frec = recordOf c f 2
      ∧ h.windows = c.w.c.windows ∧ h.sel = c.w.c.sel
      ∧ (∀ lane, (h.frontier.find? fun e => e.lanes.has lane).map (·.pc) = c.w.c.pcOf lane)
      ∧ w.c.frontier = [⟨c.split.lanes, entry, 0, .ready⟩] ∧ w.c.windows = []
      ∧ t.launches = s.launches ∧ t.parts = s.parts)
  ∧ ((∀ entry, ¬handles c f entry) → (f.cls = .bkpt → c.w.handler ≠ none) →
      (nth t.launches c.li).map (·.dying) = some true
      ∧ (∀ p, nth s.parts c.pi = some p → (t.part c.pi).pendingRecs = p.pendingRecs ++ [⟨recordOf c f 3, .endLaunch c.li 2⟩]))

/-- The split at issue stands in the frontier table, and no other entry shares a lane with it. -/
def Apart1 (c : Ctx) : Prop :=
  c.split ∈ c.w.c.frontier ∧ ∀ e ∈ c.w.c.frontier, e.lanes &&& c.split.lanes ≠ 0 → e = c.split

/-- R309, R312, R315: t is s after the split at issue has gone to sleep on some pages, each not present or of a RECOMPUTE entry with an
index: its lanes stay at its PC, its warp's registers and all of memory as they were; a record is posted for each page: of RECOMPUTE, or of
REPLAY where none is outstanding. -/
structure FallsAsleep (s : State) (c : Ctx) (pages : Nat → Option Nat → Prop) (t : State) : Prop extends FaultFrame s t where
  sleeps : ∃ hits, (∀ lane, c.split.lanes.has lane = true →
      ((t.core s.cur).frontier.find? fun e => e.lanes.has lane).map (fun e => (e.pc, e.block)) = some (c.pc, .sleep hits false none))
    ∧ (∀ p g, pages p g → ∃ h ∈ hits, h.page = p) ∧ ∀ h ∈ hits, pages h.page h.reg ∧ h.eqix = c.w.c.leqix
  records : (nth s.parts c.pi).isSome = true → ∀ p g, pages p g → (g = none → s.sleepsOn s.cur c.w p = false) →
    ∃ r ∈ (t.part c.pi).pendingRecs, r.after = .nothing ∧ r.frec.cause = 0
      ∧ r.frec.cls = (if g = none then .translation else .recompute) ∧ r.frec.disp = (if g = none then 0 else 1)
      ∧ r.frec.fpc = c.pc ∧ r.frec.addr.toNat / 65536 = p ∧ r.frec.lseq = c.l.seq ∧ r.frec.gang = c.g.lin ∧ r.frec.warp = c.w.index

/-- R165: TRAP takes its fault, and BKPT stops its gang with its lanes at the next slot, or in handler mode is FATAL [39], where
ACTIVE holds a lane; otherwise neither has an effect: the lanes go to the next slot and RNGC stays [39]. -/
def TrapAndBreakpoint : Prop :=
  (∀ f s c, Issues (.trap f) s c → c.active ≠ 0 → (c.openedIn (.trap f) s).w.ckpts = [] →
    ∃ t, exec (.trap f) s = .next t ∧ Takes s c { cls := .trap, lanes := c.active, info := f.imm } t)
  ∧ (∀ f s c, Issues (.bkpt f) s c → c.active ≠ 0 → (c.openedIn (.bkpt f) s).w.ckpts = [] → c.w.handler ≠ none →
    ∃ t, exec (.bkpt f) s = .next t ∧ Takes s c { cls := .bkpt, lanes := c.active } t)
  ∧ (∀ f s c, Issues (.bkpt f) s c → c.active ≠ 0 → (c.openedIn (.bkpt f) s).w.ckpts = [] → c.w.handler = none →
    Apart1 c → ∃ t, exec (.bkpt f) s = .next t ∧ FaultFrame s t
      ∧ (∀ lane, c.split.lanes.has lane = true →
          (t.core s.cur).pcOf lane = some (if c.active.has lane then nextSlot c.pc else c.pc))
      ∧ (nth t.gangs c.gi).map (·.phase) = some .stopping
      ∧ (∀ p, nth s.parts c.pi = some p → (t.part c.pi).pendingRecs
          = p.pendingRecs ++ [⟨recordOf c { cls := .bkpt, lanes := c.active } 4, .nothing⟩]))
  ∧ (∀ i, ((∃ f, i = .trap f) ∨ ∃ f, i = .bkpt f) → ∀ s c, Issues i s c → c.active = 0 →
    ∃ t, exec i s = .next t ∧ OnlyWarp s t ∧ IssueFrame i c s t ∧ StraightOn c s t ∧ SameRegs s t
      ∧ (t.core s.cur).rngc = (s.core s.cur).rngc ∧ (t.core s.cur).rngk = (s.core s.cur).rngk
      ∧ (t.core s.cur).mstat = (s.core s.cur).mstat)

/-- R109, R166: TRST empties the stacks and clears TOVF when every live lane stands in its split and the guard holds in each;
else it has no effect. -/
def TrstClearsTaint : Prop :=
  ∀ f s c, Issues (.trst f) s c → ∃ t, exec (.trst f) s = .next t ∧ OnlyWarp s t ∧ IssueFrame (.trst f) c s t ∧ Counted s t
    ∧ SameRegs s t ∧ (∀ lane, FMap.get 0 (t.core s.cur).flags lane = FMap.get 0 (s.core s.cur).flags lane)
    ∧ (∀ lane, c.split.lanes.has lane = true → (t.core s.cur).pcOf lane = some (nextSlot c.pc))
    ∧ (if c.active = c.w.live then (∀ lane, c.w.live.has lane = true →
          FMap.get [] (t.core s.cur).taint lane = [] ∧ (t.core s.cur).tovf.has lane = false)
       else ∀ lane, FMap.get [] (t.core s.cur).taint lane = poppedTaint s c lane ∧ (t.core s.cur).tovf = (s.core s.cur).tovf)

/-- R163: EXIT ends the lanes of ACTIVE; the other lanes of the split go to the next slot. No register and no byte of memory
changes. -/
def ExitEndsLanes : Prop :=
  ∀ f s c, Issues (.exit f) s c → ∃ t, exec (.exit f) s = .next t ∧ SameRegs s t ∧ Counted s t
    ∧ (t.mem = s.mem ∧ t.tags = s.tags ∧ t.lmem = s.lmem ∧ t.ltags = s.ltags)
    ∧ (∀ j, j ≠ s.cur → (t.core j).v = (s.core j).v ∧ (t.core j).k = (s.core j).k ∧ (t.core j).p = (s.core j).p)
    ∧ ∀ lane, c.split.lanes.has lane = true →
        (t.core s.cur).pcOf lane = if c.active.has lane then none else some (nextSlot c.pc)

/-- R54, R163, R274: the EXIT of a warp's last lanes ends the warp; where every other warp of the gang has ended and no operation of the
gang is running, the gang retires and gives up its slots, tiles and vault copies; and with the last gang its launch ends. -/
def LastExitRetires : Prop :=
  ∀ f s c, Issues (.exit f) s c → c.active = c.split.lanes → c.w.live = c.split.lanes → c.w.handler = none →
    (c.openedIn (.exit f) s).w.ckpts = [] →
    ∃ t, exec (.exit f) s = .next t ∧ (nth t.warps s.cur).map (·.ended) = some true
      ∧ (c.g.started = true → (∀ j w, j ≠ s.cur → nth s.warps j = some w → w.gang = c.gi → w.ended = true) →
          (∀ o ∈ s.ops, o.gang = c.gi → o.phase = .done) → (∀ m ∈ s.mops, m.gang ≠ c.gi) →
          (∃ g, nth t.gangs c.gi = some g ∧ g.phase = .retired ∧ g.slots = [] ∧ g.tiles = [] ∧ g.vaults = [])
          ∧ ((∀ j g, j ≠ c.gi → nth s.gangs j = some g → g.launch = c.li → g.phase = .retired) →
              (nth t.launches c.li).map (fun l => (l.phase, l.code)) = some (.ending, 0)))

end Sys2Proof.Claims

open Sys2Proof Sys2Proof.Machine Sys2Proof.Claims in
/-- R164, R39: NOP changes nothing but what every issue changes, and YIELD only marks its split as yielding where ACTIVE
holds a lane. The mark passes the warp's next issue to the unblocked entry with the next higher PC, wrapping to the lowest, where none has
waited 256 issues; that a released access comes first is the model's reading [27]. R54: the last EXIT of a gang retires it, and with the
last gang its launch ends. R109, R166: TRST empties the stacks and clears TOVF when every live lane stands in its split and the guard
holds in each; else it has no effect. R163: EXIT ends the lanes of ACTIVE; the other lanes of the split go to the next slot.
No register and no byte of memory changes. -/
def Obligations.NopYieldTrstAndExit : Prop := NopAndYield ∧ YieldPassesOn ∧ TrstClearsTaint ∧ ExitEndsLanes ∧ LastExitRetires

open Sys2Proof Sys2Proof.Machine Sys2Proof.Claims in
/-- R57, R158, R243, R153, R315: what an issue checks before its instruction's own rules, in this order, and that the first that fails
is the fault that it takes; TAGS says whether an address or target operand was P in a lane of the record. Which operands decide under
TRAP, and what TAGS says of them, is the model's reading [24], and so are the lanes of ILLEGAL [15]. -/
def Obligations.ChecksComeInOrder : Prop :=
  ∀ i s c, s.contextFor i = some c → c.w.pending = [] → mustWait i c = false → (c.openedIn i s).w.ckpts = [] →
    let lanes := if c.active = 0 then c.split.lanes else c.active
    let illegal := i.check.isSome = true ∨ illegalHere i (c.settled i) = true
    let priv := privHere i (c.settled i) = true
    let ahead := (c.w.c.windowHits c.active ((s.settledFor c i).lookRegs i (c.settled i)))
    let tags (m : Lanes) : Nat := (m.list.any fun j => addressTag i (c.settled i) j).toNat
    (illegal → ∃ t, exec i s = .next t ∧ Takes s c { cls := .illegal, lanes := lanes, tags := tags lanes } t)
    ∧ (¬illegal → priv → ∃ t, exec i s = .next t ∧ Takes s c { cls := .priv, lanes := lanes, tags := tags lanes } t)
    ∧ (¬illegal → ¬priv → ahead ≠ 0 → ∃ t, exec i s = .next t ∧ Takes s c { cls := .lookahead, lanes := ahead, tags := tags ahead } t)
    ∧ (¬illegal → ¬priv → ahead = 0 → ∀ f, taintFault i (c.settled i) = some f → ∃ t, exec i s = .next t ∧ Takes s c f t)
    ∧ (¬illegal → ¬priv → ahead = 0 → taintFault i (c.settled i) = none → c.w.fragments ≤ (runAhead c.w.kind).2.2 → Issues i s c)

namespace Sys2Proof.Claims

open Sys2Proof Sys2Proof.Machine

/-- R143: a transfer with a destination that is unmarked, breaks R140 or lies outside the variant's code takes TARGET, which
names the lanes that would have gone to such a destination [15]. Where there is none, and the mark of a destination cannot be read because
its line's page is not present, the split sleeps on such pages, as a fetch would (R309) [15]. -/
def BadTargetsFault : Prop :=
  ∀ i, transfers i = true → ∀ s c, Issues i s c → (c.openedIn i s).w.ckpts = [] →
    let goes (lane : Nat) (d : Addr) : Prop := lane < 32 ∧ c.active.has lane = true ∧ destOf i (s.core s.cur) c.pc lane = some d
    let bad (lane : Nat) : Bool := c.active.has lane && (destOf i (s.core s.cur) c.pc lane).any fun d =>
      outOfCode c.variant d || (s.lineUnread c.pi d).isNone && !s.marked c.pi d
    ((∃ lane, lane < 32 ∧ bad lane = true) →
      ∃ t f, exec i s = .next t ∧ Takes s c f t ∧ f.cls = .target ∧ f.cause = 0 ∧ ∀ lane, lane < 32 → f.lanes.has lane = bad lane)
    ∧ ((∀ lane, lane < 32 → bad lane = false) → c.w.handler = none → Apart1 c →
        (∀ lane d, goes lane d → ∀ x, s.lineUnread c.pi d = some x → ∃ va, x = .sleep va none) →
        (∃ lane d, goes lane d ∧ s.lineUnread c.pi d ≠ none) →
        ∃ t, exec i s = .next t ∧ FallsAsleep s c (fun p g => g = none ∧
          ∃ lane d va, goes lane d ∧ s.lineUnread c.pi d = some (.sleep va none) ∧ p = va / 65536) t)

/-- R59, R64: instruction i, whose result raises the flags given for a lane (for a uniform destination, once for the warp), traps where TEN
enables one of them: it takes TRAP with CAUSE 1, the lanes with such a flag [15] and the flags that they would have set; it writes nothing
and raises no flag. EPC is the next slot as for every TRAP [39]. -/
def TrapsOn (i : Instr) (dst : Operand) (flags : WCore → Nat → Flags) : Prop :=
  ∀ s c, Issues i s c → (c.openedIn i s).w.ckpts = [] →
    let raised (lane : Nat) : Flags := flags (s.core s.cur) (laneOrOnce dst lane)
    let trapped (lane : Nat) : Bool := c.active.has lane && (raised lane &&& c.w.ten != 0)
    (∃ lane, lane < 32 ∧ trapped lane = true) →
    ∃ t x, exec i s = .next t ∧ Takes s c x t ∧ x.cls = .trap ∧ x.cause = 1
      ∧ (∀ lane, lane < 32 → x.lanes.has lane = trapped lane)
      ∧ ∀ j, j < 32 → x.info.getLsbD j = (j < 8 && (List.range 32).any fun lane => trapped lane && (raised lane).getLsbD j)

/-- R64, R95, R168: the enabled flags of integer arithmetic and of division, both forms and every destination. -/
def IntegerFlagsTrap : Prop :=
  (∀ f : RegForm, ∀ x ∈ ([
      (.iadd f, fun x y => overflows f.ty (x + y)), (.isub f, fun x y => overflows f.ty (x - y)),
      (.imul f, fun x y => overflows f.ty (x * y)), (.idiv f, divisionFlag f.ty), (.irem f, divisionFlag f.ty)]
        : List (Instr × (Int → Int → Flags))),
    TrapsOn x.1 f.dst fun k u => x.2 (intOf f.ty (valOf k f.a u f.ty.width)) (intOf f.ty (valOf k f.b u f.ty.width)))
  ∧ ∀ f : ImmForm, ∀ x ∈ ([
      (.iaddImm f, fun x y => overflows f.ty (x + y)), (.isubImm f, fun x y => overflows f.ty (x - y)),
      (.imulImm f, fun x y => overflows f.ty (x * y)), (.idivImm f, divisionFlag f.ty), (.iremImm f, divisionFlag f.ty)]
        : List (Instr × (Int → Int → Flags))),
    TrapsOn x.1 f.dst fun k u => x.2 (intOf f.ty (valOf k f.a u f.ty.width)) (immInt f.ty f.imm)

end Sys2Proof.Claims

open Sys2Proof Sys2Proof.Machine Sys2Proof.Claims in
/-- R165: TRAP takes its fault, and BKPT stops its gang with its lanes at the next slot, or in handler mode is FATAL, where ACTIVE
holds a lane; otherwise neither has an effect, and RNGC stays. R143: a transfer with a destination that is unmarked,
breaks R140 or lies outside the variant's code takes TARGET, which names the lanes that would have gone to such a destination. R309: where
the mark of a destination cannot be read because its page is not present, the split sleeps. R59, R64, R95, R168: integer arithmetic and
division, in both forms and with every destination, trap where they would raise a flag that TEN enables: the issue writes nothing, raises no
flag and takes TRAP with CAUSE 1, the lanes with such a flag and the flags that they would have set. The lanes of TARGET and of a flag
trap, and the sleep of a transfer, are the model's reading [15], and so are OV of an IREM of the least number by −1 [16], and BKPT in
handler mode, the next slot for an empty ACTIVE and EPC for CAUSE 1 [39]. -/
def Obligations.TrapsAndTargetFaults : Prop := TrapAndBreakpoint ∧ BadTargetsFault ∧ IntegerFlagsTrap

namespace Sys2Proof.Claims

open Sys2Proof Sys2Proof.Machine

/-! Floating point, conversion, random numbers and tags. -/

/-- The rational number that a finite value is. -/
def rational : FVal → ℚ
  | .fin s m e => (if s then -1 else 1) * (m * 2 ^ e)
  | _ => 0

/-- R85, R86: n is the integer that a mode rounds v to; SR compares b bits of the draw with those of the fraction of |v|. -/
def RoundsTo (rnd : Rnd) (b draw : Nat) (v : ℚ) (n : ℤ) : Prop :=
  match rnd with
  | .rn => |v - n| ≤ 1 / 2 ∧ (|v - n| = 1 / 2 → n % 2 = 0)
  | .rz => n = if 0 ≤ v then ⌊v⌋ else ⌈v⌉
  | .ru => n = ⌈v⌉
  | .rd => n = ⌊v⌋
  | .sr => n = (if v < 0 then -1 else 1) * (⌊|v|⌋ + if (2 : ℤ) ^ b ≤ ⌊(|v| - ⌊|v|⌋) * 2 ^ b⌋ + (draw % 2 ^ b : Nat) then 1 else 0)

/-- The code of a sign and a magnitude's code. -/
def signed (t : Ty) (neg : Bool) (code : Nat) : Nat := (if neg then 2 ^ (t.width - 1) else 0) + code

/-- The 32-bit draw of a result element in SR (R87, R177), 0 in another mode. -/
def drawOf (k : WCore) (rnd : Rnd) (lane element : Nat) : Nat := if rnd = .sr then drawAt k.rngk k.rngc lane element else 0

/-- The encoding of a float immediate (R149): the F32 value, widened or rounded to the type. -/
def immEnc (t : Ty) (imm : Word32) : Nat :=
  if t = .f32 then imm.toNat else (roundTo t .rn 0 (FVal.decode Ty.f32.fmt imm.toNat)).1

/-- A float result is P whatever its sources where its type is narrow or its mode SR (R96). -/
def alwaysP (t : Ty) (rnd : Rnd) : Bool := decide (t ∈ [Ty.e4m3, .e5m2, .bf16, .f16]) || decide (rnd = .sr)

/-- An instruction whose result is one rounding of an exact value of its operands (R75, R179), with flags of its own. -/
def RoundsOnce (i : Instr) (t : Ty) (rnd : Rnd) (dst : Operand) (srcs : List (Operand × Nat)) (imm : List Nat)
    (exact : List Nat → FVal) (own : List Nat → Flags) : Prop :=
  let enc (k : WCore) (u : Nat) : List Nat := (srcs.map fun x => valOf k x.1 u x.2) ++ imm
  Computes i dst t.width (fun k u => (roundTo t rnd (drawOf k rnd u 0) (exact (enc k u))).1)
    (fun k u => alwaysP t rnd || srcs.any fun x => tagIn k x.1 u x.2)
    (fun k u => (roundTo t rnd (drawOf k rnd u 0) (exact (enc k u))).2 ||| own (enc k u))

/-- Operand j as a value of a float type. -/
def floatOf (t : Ty) (xs : List Nat) (j : Nat) : FVal := FVal.decode t.fmt (natAt xs j)

/-- R75, R179: x + y, x − y, x·y, x·y + z and x/y exactly, and √x. -/
def sumOf (t : Ty) (rnd : Rnd) (xs : List Nat) : FVal := FVal.sum [floatOf t xs 0, floatOf t xs 1] rnd
def differenceOf (t : Ty) (rnd : Rnd) (xs : List Nat) : FVal := FVal.sum [floatOf t xs 0, (floatOf t xs 1).neg] rnd
def productOf (t : Ty) (_ : Rnd) (xs : List Nat) : FVal := (floatOf t xs 0).mul (floatOf t xs 1)
def quotientOf (t : Ty) (_ : Rnd) (xs : List Nat) : FVal := (floatOf t xs 0).div (floatOf t xs 1)

/-- What FRND makes of the value of an encoding (R77, R85, R86, R179). -/
def RoundsToIntegers : Prop :=
  ∀ t ∈ [Ty.f64, .f32, .f16, .bf16, .e4m3, .e5m2], ∀ (rnd : Rnd) (draw x : Nat),
    let v := FVal.decode t.fmt x
    let r := frndOf t rnd draw v
    (v.isFin = true → ∃ n : ℤ, RoundsTo rnd t.srBits draw (rational v) n ∧ (FVal.decode t.fmt r.1).isFin = true
      ∧ rational (FVal.decode t.fmt r.1) = n ∧ (FVal.decode t.fmt r.1).sign = v.sign
      ∧ r.2 = if (n : ℚ) = rational v then 0 else fNX)
    ∧ (v.isNan = true → r = (t.fmt.nan, if v.signals then fNV else 0))
    ∧ ∀ neg, v = .inf neg → r = (signed t neg t.fmt.inf, 0)

/-- DZF: a finite nonzero value divided by zero (R62). -/
def zeroDivisor (t : Ty) (xs : List Nat) : Flags :=
  if (floatOf t xs 1).isZero = true ∧ (floatOf t xs 0).isFin = true ∧ (floatOf t xs 0).isZero = false then fDZF else 0

end Sys2Proof.Claims

open Sys2Proof Sys2Proof.Machine Sys2Proof.Claims in
/-- R149, R177, R179: the float arithmetic instructions, both forms, each one rounding of the exact value. R77, R179: FRND gives
the integer that its mode rounds a finite value to, with NX where that differs; a NaN becomes the canonical one and an infinity
stays. What a NaN in an immediate becomes is the model's reading [16]. -/
def Obligations.FloatArithmetic : Prop :=
  (∀ f : RegForm, ∀ x ∈ ([
      (.fadd f, sumOf, fun _ _ => 0), (.fsub f, differenceOf, fun _ _ => 0), (.fmul f, productOf, fun _ _ => 0),
      (.fdiv f, quotientOf, zeroDivisor)] : List (Instr × (Ty → Rnd → List Nat → FVal) × (Ty → List Nat → Flags))),
    RoundsOnce x.1 f.ty f.rnd f.dst [(f.a, f.ty.width), (f.b, f.ty.width)] [] (x.2.1 f.ty f.rnd) (x.2.2 f.ty))
  ∧ (∀ f : ImmForm, ∀ x ∈ ([
      (.faddImm f, sumOf, fun _ _ => 0), (.fsubImm f, differenceOf, fun _ _ => 0), (.fmulImm f, productOf, fun _ _ => 0),
      (.fdivImm f, quotientOf, zeroDivisor)] : List (Instr × (Ty → Rnd → List Nat → FVal) × (Ty → List Nat → Flags))),
    RoundsOnce x.1 f.ty f.rnd f.dst [(f.a, f.ty.width)] [immEnc f.ty f.imm] (x.2.1 f.ty f.rnd) (x.2.2 f.ty))
  ∧ (∀ f : RegForm, RoundsOnce (.ffma f) f.ty f.rnd f.dst [(f.a, f.ty.width), (f.b, f.ty.width), (f.c, f.ty.width)] []
      (fun xs => FVal.sum [(floatOf f.ty xs 0).mul (floatOf f.ty xs 1), floatOf f.ty xs 2] f.rnd) fun _ => 0)
  ∧ (∀ f : RegForm, RoundsOnce (.fsqrt f) f.ty f.rnd f.dst [(f.a, f.ty.width)] [] (fun xs => (floatOf f.ty xs 0).sqrt) fun _ => 0)
  ∧ (∀ f : RegForm, RoundsOnce (.fscale f) f.ty f.rnd f.dst [(f.a, f.ty.width), (f.b, 32)] []
      (fun xs => (floatOf f.ty xs 0).scale (intOf .s32 (natAt xs 1))) fun _ => 0)
  ∧ (∀ f : ImmForm, RoundsOnce (.fscaleImm f) f.ty f.rnd f.dst [(f.a, f.ty.width)] [f.imm.toNat]
      (fun xs => (floatOf f.ty xs 0).scale f.imm.toInt) fun _ => 0)
  ∧ RoundsToIntegers
  ∧ ∀ f : RegForm, Computes (.frnd f) f.dst f.ty.width
      (fun k u => (frndOf f.ty f.rnd (drawOf k f.rnd u 0) (FVal.decode f.ty.fmt (valOf k f.a u f.ty.width))).1)
      (fun k u => alwaysP f.ty f.rnd || tagIn k f.a u f.ty.width)
      (fun k u => (frndOf f.ty f.rnd (drawOf k f.rnd u 0) (FVal.decode f.ty.fmt (valOf k f.a u f.ty.width))).2)

namespace Sys2Proof.Claims

open Sys2Proof Sys2Proof.Machine

/-- A computation from two encodings, P for a narrow type (R99). -/
def FloatPair (i : Instr) (t : Ty) (dst : Operand) (width : Nat) (srcs : List (Operand × Nat)) (imm : List Nat) (p : Bool)
    (val : List Nat → Nat × Flags) : Prop :=
  let enc (k : WCore) (u : Nat) : List Nat := (srcs.map fun x => valOf k x.1 u x.2) ++ imm
  Computes i dst width (fun k u => (val (enc k u)).1) (fun k u => (p && alwaysP t .rn) || srcs.any fun x => tagIn k x.1 u x.2)
    (fun k u => (val (enc k u)).2)

/-- R88, R89, R180: the minimum or maximum; `.tot` by the keys of R89, equal keys giving a; otherwise a NaN gives way to a
number, two NaNs give the canonical one, −0 is below +0, and a signalling NaN sets NV. -/
def extremum (t : Ty) (isMax tot : Bool) (xs : List Nat) : Nat × Flags :=
  let a := natAt xs 0
  let b := natAt xs 1
  let x := floatOf t xs 0
  let y := floatOf t xs 1
  let key (v : Nat) : Nat := if v.testBit (t.width - 1) then 2 ^ t.width - 1 - v else v + 2 ^ (t.width - 1)
  if tot then (if key a = key b then a else if key a < key b then (if isMax then b else a) else if isMax then a else b, 0)
  else
    let nv : Flags := if x.signals = true ∨ y.signals = true then fNV else 0
    if x.isNan = true ∧ y.isNan = true then (t.fmt.nan, nv)
    else if x.isNan = true then (b, nv)
    else if y.isNan = true then (a, nv)
    else if x.lt y = true ∨ (x.cmp y = 0 ∧ x.sign = true ∧ y.sign = false) then (if isMax then b else a, nv)
    else (if isMax then a else b, nv)

/-- R88, R89, R181: SUB[2:0] the relation (6 unordered), SUB[3] `.tot`. -/
def comparison (t : Ty) (sub : Nat) (xs : List Nat) : Nat × Flags :=
  let a := natAt xs 0
  let b := natAt xs 1
  let x := floatOf t xs 0
  let y := floatOf t xs 1
  let key (v : Nat) : Int := if v.testBit (t.width - 1) then 2 ^ t.width - 1 - v else v + 2 ^ (t.width - 1)
  let nan := x.isNan || y.isNan
  let signals := x.signals || y.signals
  if sub.testBit 3 then ((relation (sub % 8) (key a) (key b)).toNat, 0)
  else if sub % 8 = 6 then (nan.toNat, if signals then fNV else 0)
  else if nan then ((sub % 8 == 1).toNat, if signals || (2 ≤ sub % 8 && sub % 8 ≤ 5) then fNV else 0)
  else ((relation (sub % 8) (x.cmp y) 0).toNat, 0)

/-- The class of an encoding (R182): 0 signalling NaN … 9 +∞, by its exponent and fraction fields. -/
def fieldClass (t : Ty) (x : Nat) : Nat :=
  let ef := t.fmt.eb
  let ff := t.fmt.fb
  let neg := x.testBit (ef + ff)
  let ex := x / 2 ^ ff % 2 ^ ef
  let fr := x % 2 ^ ff
  if ex = 2 ^ ef - 1 ∧ t ≠ .e4m3 ∧ fr = 0 then (if neg then 2 else 9)
  else if ex = 2 ^ ef - 1 ∧ t ≠ .e4m3 then (if fr.testBit (ff - 1) then 1 else 0)
  else if ex = 2 ^ ef - 1 ∧ t = .e4m3 ∧ fr = 7 then 1
  else if ex = 0 then if fr = 0 then (if neg then 5 else 6) else if neg then 4 else 7
  else if neg then 3 else 8

end Sys2Proof.Claims

open Sys2Proof Sys2Proof.Machine Sys2Proof.Claims in
/-- R180 to R182: FMIN, FMAX, FABS, FNEG, FCMP and FCLASS. What a NaN in an immediate becomes is the model's reading [16]. -/
def Obligations.FloatSelection : Prop :=
  (∀ f : RegForm, ∀ x ∈ ([(.fmin f, false), (.fmax f, true)] : List (Instr × Bool)),
    FloatPair x.1 f.ty f.dst f.ty.width [(f.a, f.ty.width), (f.b, f.ty.width)] [] true (extremum f.ty x.2 (f.sub.getLsbD 0)))
  ∧ (∀ f : ImmForm, ∀ x ∈ ([(.fminImm f, false), (.fmaxImm f, true)] : List (Instr × Bool)),
    FloatPair x.1 f.ty f.dst f.ty.width [(f.a, f.ty.width)] [immEnc f.ty f.imm] true (extremum f.ty x.2 (f.sub.getLsbD 0)))
  ∧ (∀ f : RegForm, FloatPair (.fabs f) f.ty f.dst f.ty.width [(f.a, f.ty.width)] [] true
      fun xs => ((bv f.ty.width xs 0 &&& BitVec.ofNat f.ty.width (2 ^ (f.ty.width - 1) - 1)).toNat, 0))
  ∧ (∀ f : RegForm, FloatPair (.fneg f) f.ty f.dst f.ty.width [(f.a, f.ty.width)] [] true
      fun xs => ((bv f.ty.width xs 0 ^^^ BitVec.ofNat f.ty.width (2 ^ (f.ty.width - 1))).toNat, 0))
  ∧ (∀ f : RegForm, FloatPair (.fcmp f) f.ty f.dst 1 [(f.a, f.ty.width), (f.b, f.ty.width)] [] false
      (comparison f.ty f.sub.toNat))
  ∧ (∀ f : ImmForm, FloatPair (.fcmpImm f) f.ty f.dst 1 [(f.a, f.ty.width)] [immEnc f.ty f.imm] false
      (comparison f.ty f.sub.toNat))
  ∧ ∀ f : RegForm, FloatPair (.fclass f) f.ty f.dst 1 [(f.a, f.ty.width), (f.b, 32)] [] false
      fun xs => (((natAt xs 1).testBit (fieldClass f.ty (natAt xs 0))).toNat, 0)

namespace Sys2Proof.Claims

open Sys2Proof Sys2Proof.Machine

/-- R183: FDOT's exact sum of c and the products of the packed elements, rounded once into F32. -/
def dotOf (t : Ty) (rnd : Rnd) (xs : List Nat) : FVal :=
  let element (j e : Nat) : FVal := FVal.decode t.fmt (natAt xs j / 2 ^ (t.width * e) % 2 ^ t.width)
  FVal.sum (((List.range (32 / t.width)).map fun e => (element 0 e).mul (element 1 e)) ++ [floatOf .f32 xs 2]) rnd

/-- R185: the special inputs of the approximations, each with its result and flag. -/
def SpecialInputs : Prop :=
  ∀ t ∈ [Ty.f64, .f32, .f16, .bf16],
    let nan := t.fmt.nan
    let inf (neg : Bool) : Nat := signed t neg t.fmt.inf
    let zero (neg : Bool) : Nat := signed t neg 0
    (∀ f nv, approx f t (.nan nv) = (nan, if nv then fNV else 0))
    ∧ (∀ neg e, approx .rcp t (.fin neg 0 e) = (inf neg, fDZF)) ∧ (∀ neg, approx .rcp t (.inf neg) = (zero neg, 0))
    ∧ (∀ neg e, approx .rsq t (.fin neg 0 e) = (inf neg, fDZF)) ∧ (∀ m e, m ≠ 0 → approx .rsq t (.fin true m e) = (nan, fNV))
    ∧ approx .rsq t (.inf true) = (nan, fNV) ∧ approx .rsq t (.inf false) = (zero false, 0)
    ∧ approx .ex2 t (.inf true) = (zero false, 0) ∧ approx .ex2 t (.inf false) = (inf false, 0)
    ∧ (∀ neg e, approx .lg2 t (.fin neg 0 e) = (inf true, fDZF)) ∧ (∀ m e, m ≠ 0 → approx .lg2 t (.fin true m e) = (nan, fNV))
    ∧ approx .lg2 t (.inf true) = (nan, fNV) ∧ approx .lg2 t (.inf false) = (inf false, 0)
    ∧ (∀ m e, rational (.fin false m e) = 1 → approx .lg2 t (.fin false m e) = (zero false, 0))
    ∧ (∀ neg m e, (∃ n : ℤ, rational (.fin neg m e) = n) → approx .sin t (.fin neg m e) = (zero neg, 0))
    ∧ (∀ neg, approx .sin t (.inf neg) = (nan, fNV))
    ∧ (∀ neg m e, (∃ n : ℤ, rational (.fin neg m e) = n + 1 / 2) → approx .cos t (.fin neg m e) = (zero false, 0))
    ∧ (∀ neg, approx .cos t (.inf neg) = (nan, fNV))
    ∧ (∀ neg e, approx .tanh t (.fin neg 0 e) = (zero neg, 0))
    ∧ ∀ neg, approx .tanh t (.inf neg) = (signed t neg (t.fmt.bias * 2 ^ t.fmt.fb), 0)

/-- R184: FRCPA and FRSQA round the exact value to the nearest n·2^q of sixteen bits, and that to the type, without NX. -/
def ReciprocalsAreNear : Prop :=
  ∀ t ∈ [Ty.f64, .f32, .f16, .bf16], ∀ (m : Nat) (e : Int), m ≠ 0 →
    (∀ neg, ∃ (n : Nat) (q : Int), 2 ^ 15 ≤ n ∧ n ≤ 2 ^ 16 ∧ |n * (2 : ℚ) ^ q * (m * 2 ^ e) - 1| ≤ 2 ^ (q - 1) * (m * 2 ^ e)
      ∧ let r := roundTo t .rn 0 (.fin neg n q)
        approx .rcp t (.fin neg m e) = (r.1, r.2 &&& ~~~fNX))
    ∧ ∃ (n : Nat) (q : Int), 2 ^ 15 ≤ n ∧ n ≤ 2 ^ 16 ∧ ((n - 1 / 2) * (2 : ℚ) ^ q) ^ 2 * (m * 2 ^ e) ≤ 1
      ∧ 1 ≤ ((n + 1 / 2) * (2 : ℚ) ^ q) ^ 2 * (m * 2 ^ e)
      ∧ let r := roundTo t .rn 0 (.fin false n q)
        approx .rsq t (.fin false m e) = (r.1, r.2 &&& ~~~fNX)

/-- R184: where the exact value is an integer, a power of two, or ±1, the result is that value rounded to the type: FEX2 of an integer, FLG2
of a power of two, FSIN of a half-integer and FCOS of an integer. -/
def ApproximationsExact : Prop :=
  ∀ t ∈ [Ty.f64, .f32, .f16, .bf16], ∀ (neg : Bool) (m : Nat) (e n : Int),
    let x := rational (.fin neg m e)
    let as_ (v : FVal) : Nat × Flags := ((roundTo t .rn 0 v).1, (roundTo t .rn 0 v).2 &&& ~~~fNX)
    (x = n → approx .ex2 t (.fin neg m e) = as_ (.fin false 1 n))
    ∧ (x = 2 ^ n → |n| < 2 ^ 16 → approx .lg2 t (.fin neg m e) = as_ (FVal.ofInt n))
    ∧ (x = n + 1 / 2 → approx .sin t (.fin neg m e) = as_ (.fin (n % 2 == 1) 1 0))
    ∧ (x = n → approx .cos t (.fin neg m e) = as_ (.fin (n % 2 == 1) 1 0))

/-- R184: FSIN and FTANH are odd, FCOS is even, and FSIN and FCOS have the period of two half-turns. -/
def ApproximationsSymmetric : Prop :=
  ∀ t ∈ [Ty.f64, .f32, .f16, .bf16], ∀ (m : Nat) (e : Int),
    (∀ f ∈ [Approx.sin, .tanh], ∀ neg, approx f t (.fin (!neg) m e)
      = ((approx f t (.fin neg m e)).1 ^^^ 2 ^ (t.width - 1), (approx f t (.fin neg m e)).2))
    ∧ (∀ neg, approx .cos t (.fin (!neg) m e) = approx .cos t (.fin neg m e))
    ∧ ∀ f ∈ [Approx.sin, .cos], ∀ (n : Nat) (d : Int), rational (.fin false n d) = rational (.fin false m e) + 2 →
        approx f t (.fin false n d) = approx f t (.fin false m e)

/-- R184: results at ordinary inputs of F32, the exact values rounded by hand to sixteen significant bits: of 0.5, −1.25, 3.7 and −0.1 for
FEX2, of 3, 10, 0.7 and 1.0001 for FLG2, of 0.25, 0.1, −1.3 and 100.75 for FSIN, of 0.25, 0.1, −1.3 and 100.3 for FCOS, and of 0.5, −2, 0.01
and 5 for FTANH. -/
def ApproximationsKnown : Prop :=
  ∀ x ∈ ([(.ex2, 0x3F000000, 0x3FB50500), (.ex2, 0xBFA00000, 0x3ED74500), (.ex2, 0x406CCCCD, 0x414FF000), (.ex2, 0xBDCCCCCD, 0x3F6EDB00),
      (.lg2, 0x40400000, 0x3FCAE000), (.lg2, 0x41200000, 0x40549A00), (.lg2, 0x3F333333, 0xBF03BB00), (.lg2, 0x3F800347, 0x39174C00),
      (.sin, 0x3E800000, 0x3F350500), (.sin, 0x3DCCCCCD, 0x3E9E3700), (.sin, 0xBFA66666, 0x3F4F1C00), (.sin, 0x42C98000, 0x3F350500),
      (.cos, 0x3E800000, 0x3F350500), (.cos, 0x3DCCCCCD, 0x3F737800), (.cos, 0xBFA66666, 0xBF167900), (.cos, 0x42C8999A, 0x3F167900),
      (.tanh, 0x3F000000, 0x3EEC9B00), (.tanh, 0xC0000000, 0xBF76CB00), (.tanh, 0x3C23D70A, 0x3C23D600), (.tanh, 0x40A00000, 0x3F7FFA00)]
      : List (Approx × Nat × Nat)),
    approx x.1 .f32 (FVal.decode Ty.f32.fmt x.2.1) = (x.2.2, 0)

end Sys2Proof.Claims

open Sys2Proof Sys2Proof.Machine Sys2Proof.Claims in
/-- R183 to R185: FDOT, and the approximations, whose results are P: their special inputs, and of FRCPA and FRSQA the exact value
rounded to sixteen significant bits, then to the type; of FEX2, FLG2, FSIN, FCOS and FTANH the inputs with an exact value, the symmetries
and results at ordinary inputs. The sign of an exact zero under RD, and NV beside a NaN where infinities
of both signs stand in the sum, are the model's reading [16]. -/
def Obligations.DotAndApproximations : Prop :=
  (∀ f : RegForm, RoundsOnce (.fdot f) .f32 f.rnd f.dst [(f.a, 32), (f.b, 32), (f.c, 32)] [] (dotOf f.ty f.rnd) fun _ => 0)
  ∧ SpecialInputs ∧ ReciprocalsAreNear ∧ ApproximationsExact ∧ ApproximationsSymmetric ∧ ApproximationsKnown
  ∧ ∀ f : RegForm, ∀ x ∈ ([(.frcpa f, .rcp), (.frsqa f, .rsq), (.fex2 f, .ex2), (.flg2 f, .lg2), (.fsin f, .sin), (.fcos f, .cos),
      (.ftanh f, .tanh)] : List (Instr × Approx)),
    Computes x.1 f.dst f.ty.width (fun k u => (approx x.2 f.ty (FVal.decode f.ty.fmt (valOf k f.a u f.ty.width))).1) (fun _ _ => true)
      (fun k u => (approx x.2 f.ty (FVal.decode f.ty.fmt (valOf k f.a u f.ty.width))).2)

namespace Sys2Proof.Claims

open Sys2Proof Sys2Proof.Machine

/-- A saturating field of MSTAT (R65). -/
def mstatField (m : Word64) (low width : Nat) : Nat := m.toNat / 2 ^ low % 2 ^ width

/-- R65: ZCNT has risen by n, and the block counter of `block`, if there is one, by one. -/
def Counts (a b : Word64) (n : Nat) (block : Option Nat) : Prop :=
  mstatField b 0 32 = min (mstatField a 0 32 + n) (2 ^ 32 - 1)
  ∧ ∀ j, j < 4 → mstatField b (32 + 8 * j) 8
      = if block = some j then min (mstatField a (32 + 8 * j) 8 + 1) 255 else mstatField a (32 + 8 * j) 8

/-- A lane's CVT (R77, R78, R187): result, flags, and whether a nonzero finite value became zero in a narrow float type. -/
def cvtOf (f : RegForm) (src : Ty) (k : WCore) (u : Nat) : Nat × Flags × Bool :=
  let x := valOf k f.a u src.width
  let d := f.ty
  let draw := drawOf k f.rnd u 0
  if src.isFloat then
    let v := FVal.decode src.fmt x
    if d.isFloat then
      let r := roundTo d f.rnd draw v
      let lost : Bool := decide (d ∈ [Ty.e4m3, .e5m2, .bf16, .f16]) && v.isFin && !v.isZero && (r.1 % 2 ^ (d.width - 1) == 0)
      (r.1, if lost then r.2 ||| fUZ else r.2, lost)
    else ((toIntSat d f.rnd draw v).1, (toIntSat d f.rnd draw v).2, false)
  else if d.isFloat then
    let r := roundTo d f.rnd draw (FVal.ofInt (intOf src x))
    (r.1, r.2, false)
  else (narrowed d (f.sub.getLsbD 4) (intOf src x), if f.sub.getLsbD 4 then overflows d (intOf src x) else 0, false)

/-- R78: a float of some value becomes an integer of a type. -/
def FloatsBecomeIntegers : Prop :=
  ∀ (d : Ty) (rnd : Rnd) (draw : Nat), d.isInt = true →
    let code (n : ℤ) : Nat := (BitVec.ofInt d.width n).toNat
    (∀ nv, toIntSat d rnd draw (.nan nv) = (0, fNV))
    ∧ (∀ neg, toIntSat d rnd draw (.inf neg) = (code (if neg then least d else greatest d), fNV))
    ∧ ∀ neg m e, ∃ n : ℤ, RoundsTo rnd 32 draw (rational (.fin neg m e)) n
      ∧ toIntSat d rnd draw (.fin neg m e)
        = if n < least d then (code (least d), fNV) else if greatest d < n then (code (greatest d), fNV)
          else (code n, if (n : ℚ) = rational (.fin neg m e) then 0 else fNX)

/-- The lanes in which a destination is computed, or the one index of a uniform destination. -/
def unitsOf (dst : Operand) (active : Lanes) : List Nat :=
  match dst with
  | .k _ => if active = 0 then [] else [32]
  | _ => (List.range 32).filter active.has

end Sys2Proof.Claims

open Sys2Proof Sys2Proof.Machine Sys2Proof.Claims in
/-- R187: CVT from the type that SUB[3:0] codes. ZCNT rises by the lanes of ACTIVE (or 1 for a uniform destination) in which
a nonzero finite value became zero. R78: a float becomes the integer that the mode rounds it to, one out of range the nearest end, a NaN
0, with NV, and an inexact one sets NX. -/
def Obligations.Conversion : Prop :=
  FloatsBecomeIntegers
  ∧ ∀ (f : RegForm) (src : Ty), Ty.ofCode (f.sub.toNat % 16) = some src → ∀ s c, Issues (.cvt f) s c →
    (∀ lane, c.active.has lane = true → (cvtOf f src (s.core s.cur) (laneOrOnce f.dst lane)).2.1 &&& c.w.ten = 0) →
    ∃ t, exec (.cvt f) s = .next t ∧ OnlyWarp s t ∧ IssueFrame (.cvt f) c s t ∧ StraightOn c s t
      ∧ (t.core s.cur).rngc = (s.core s.cur).rngc + 1 ∧ (t.core s.cur).rngk = (s.core s.cur).rngk
      ∧ (∀ lane, c.active.has lane = true →
          (t.core s.cur).read f.dst lane (fullWidth f.dst f.ty.width)
            = ((cvtOf f src (s.core s.cur) (laneOrOnce f.dst lane)).1,
               alwaysP f.ty f.rnd || tagIn (s.core s.cur) f.a (laneOrOnce f.dst lane) src.width || (c.openedIn (.cvt f) s).forcedFor f.dst lane)
          ∧ FMap.get 0 (t.core s.cur).flags lane
            = FMap.get 0 (s.core s.cur).flags lane ||| (cvtOf f src (s.core s.cur) (laneOrOnce f.dst lane)).2.1)
      ∧ Counts (s.core s.cur).mstat (t.core s.cur).mstat
          ((unitsOf f.dst c.active).filter fun u => (cvtOf f src (s.core s.cur) u).2.2).length none

namespace Sys2Proof.Claims

open Sys2Proof Sys2Proof.Machine

/-- Element j of the block that a lane supplies to QNT (R189): +0 outside ACTIVE. -/
def elementOf (f : RegForm) (c : Ctx) (k : WCore) (src : Ty) (lane j : Nat) : FVal :=
  if c.active.has lane then FVal.decode src.fmt (valOf k ((nth [f.a, f.b, f.c, f.d] j).getD f.a) lane src.width) else .fin false 0 0

/-- The block of one QNT, its type and exponent (R81, R82). -/
def blockOf (f : RegForm) (c : Ctx) (k : WCore) (src : Ty) : Nat × Nat :=
  qntType (f.sub.toNat % 8) ((List.range 128).map fun n => elementOf f c k src (n / 4) (n % 4))

/-- The code of an element, its flags and whether a nonzero element was coded zero. -/
def codeOf (f : RegForm) (c : Ctx) (k : WCore) (src : Ty) (lane j : Nat) : Nat × Flags × Bool :=
  b4Encode (blockOf f c k src).1 (blockOf f c k src).2 f.rnd (drawOf k f.rnd lane j) (elementOf f c k src lane j)

/-- M_T of R81, for a sign. -/
def largestElement (t : Nat) (neg : Bool) : ℚ :=
  match t with
  | 0 => if neg then 8 else 7
  | 1 => 6
  | 2 => 64
  | _ => 12

/-- |x|·2^(32−e). -/
def scaled (e : Nat) (x : FVal) : ℚ := |rational x| * 2 ^ (32 - (e : Int))

/-- R81, R83: an element saturates under a type at an exponent. -/
def Saturates (t e : Nat) (x : FVal) : Prop :=
  match x with
  | .nan _ => False
  | .inf _ => True
  | .fin neg _ _ => largestElement t neg < scaled e x

/-- R82: a nonzero element that RN rounds to a zero element value: at most half the least nonzero element. -/
def Vanishes (t e : Nat) (x : FVal) : Prop := x.isFin = true ∧ 0 < scaled e x ∧ scaled e x ≤ if t = 1 then 1 / 4 else 1 / 2

/-- R81 to R83: the exponent of a type, and the type of auto mode: of those with the fewest vanishing elements the first. -/
def BlockTypes : Prop :=
  (∀ t < 4, ∀ xs : List FVal,
    let e := (qntType (4 + t) xs).2
    (qntType (4 + t) xs).1 = t ∧ e ≤ 63 ∧ (∀ e' < e, ∃ x ∈ xs, Saturates t e' x) ∧ (e < 63 → ∀ x ∈ xs, ¬Saturates t e x))
  ∧ ∀ mode < 4, ∀ xs : List FVal, ∃ lost : Nat → Nat,
    let r := qntType mode xs
    (∀ t < 4, ∃ p : FVal → Bool, (∀ x, p x = true ↔ Vanishes t (qntType (4 + t) xs).2 x) ∧ lost t = xs.countP p)
    ∧ r.1 < 4 ∧ r.2 = (qntType (4 + r.1) xs).2 ∧ ∀ t < 4, lost r.1 ≤ lost t ∧ (t < r.1 → lost r.1 < lost t)

/-- R81, R83, R85: the code of an element under a type and an exponent: a grid point next to the scaled element, as the mode asks; a
saturating one the largest; a zero and a NaN code 0. -/
def ElementCodes : Prop :=
  ∀ t < 4, ∀ e < 64, ∀ (rnd : Rnd) (draw : Nat),
    let value (code : Nat) : ℚ := rational (b4Elem t code)
    (∀ nv, b4Encode t e rnd draw (.nan nv) = (0, fNV, false))
    ∧ (∀ x : FVal, Saturates t e x → let r := b4Encode t e rnd draw x
        r.1 < 16 ∧ value r.1 = (if x.sign then -1 else 1) * largestElement t x.sign ∧ r.2 = (fOF ||| fNX, false))
    ∧ ∀ neg m (ex : Int), ¬Saturates t e (.fin neg m ex) → rnd ≠ .sr →
        let v := rational (.fin neg m ex) * 2 ^ (32 - (e : Int))
        let r := b4Encode t e rnd draw (.fin neg m ex)
        let y := value r.1
        r.1 < 16 ∧ (y = 0 → r.1 = 0) ∧ (r.2.2 = true ↔ v ≠ 0 ∧ y = 0)
        ∧ r.2.1 = (if y = v then 0 else fNX) ||| (if v ≠ 0 ∧ y = 0 then fUZ else 0)
        ∧ ∀ code < 16, let w := value code
          match rnd with
          | .rn => |v - y| ≤ |v - w| ∧ (|v - y| = |v - w| → w ≠ y → r.1 % 2 = 0)
          | .rz => |y| ≤ |v| ∧ 0 ≤ y * v ∧ (|w| ≤ |v| → 0 ≤ w * v → |w| ≤ |y|)
          | .ru => v ≤ y ∧ (v ≤ w → y ≤ w)
          | .rd => y ≤ v ∧ (w ≤ v → w ≤ y)
          | .sr => True

/-- R81 to R83, R189: QNT's block, its codes with the scale byte, P, and its counters. -/
def Quantisation : Prop :=
  ∀ (f : RegForm) (src : Ty), Ty.ofCode (f.sub.toNat / 8 % 16) = some src → ∀ s c, Issues (.qnt f) s c →
    let k := s.core s.cur
    let flags (lane : Nat) : Flags := (List.range 4).foldl (fun a j => a ||| (codeOf f c k src lane j).2.1) 0
    (∀ lane, c.active.has lane = true → flags lane &&& c.w.ten = 0) →
    ∃ t, exec (.qnt f) s = .next t ∧ OnlyWarp s t ∧ IssueFrame (.qnt f) c s t ∧ StraightOn c s t
      ∧ (t.core s.cur).rngc = k.rngc + 1 ∧ (t.core s.cur).rngk = k.rngk
      ∧ (∀ lane, c.active.has lane = true →
          (t.core s.cur).read f.dst lane 32
            = ((codeOf f c k src lane 0).1 + 16 * (codeOf f c k src lane 1).1 + 256 * (codeOf f c k src lane 2).1
                + 4096 * (codeOf f c k src lane 3).1 + 65536 * (64 * (blockOf f c k src).1 + (blockOf f c k src).2), true)
          ∧ FMap.get 0 (t.core s.cur).flags lane = FMap.get 0 k.flags lane ||| flags lane)
      ∧ Counts k.mstat (t.core s.cur).mstat
          (((List.range 128).filter fun n => c.active.has (n / 4) && (codeOf f c k src (n / 4) (n % 4)).2.2).length)
          (some (blockOf f c k src).1)

/-- R80, R190: DQNT decodes nibble SUB[1:0] of a under the scale byte of a, or of b with `.sep`, into F32. -/
def Dequantisation : Prop :=
  ∀ f : RegForm, ComputesFrom (.dqnt f) f.dst 32 ((f.a, 32) :: if f.sub.getLsbD 2 then [(f.b, 32)] else [])
    (fun xs =>
      let scale := if f.sub.getLsbD 2 then natAt xs 1 % 256 else natAt xs 0 / 65536 % 256
      let code := natAt xs 0 / 2 ^ (4 * (f.sub.toNat % 4)) % 16
      (roundTo .f32 .rn 0 ((b4Elem (scale / 64) code).scale ((scale % 64 : Nat) - 32))).1) fun _ => 0

end Sys2Proof.Claims

open Sys2Proof Sys2Proof.Machine Sys2Proof.Claims in
/-- R81 to R83, R189: QNT's block, its codes with the scale byte, P, and its counters; the exponent of a type is the least at
which nothing saturates, auto mode takes the type that loses the fewest elements, and a code is the grid point that the mode asks
for. R80, R190: DQNT decodes nibble SUB[1:0] of a under the scale byte of a, or of b with `.sep`, into F32. What QNT does with no
lane in ACTIVE is the model's reading [16]. -/
def Obligations.QuantisedBlocks : Prop := Quantisation ∧ Dequantisation ∧ BlockTypes ∧ ElementCodes

open Sys2Proof Sys2Proof.Machine Sys2Proof.Claims in
/-- R191 to R193: the random-number instructions. RNGDRAW draws at its identifier; RNGKEY sets the key and the counter, and
RNGSKIP advances the counter, where ACTIVE holds a lane, and otherwise act as an ordinary issue. That RNGDRAW's result is P under a P
guard is the model's reading [14]. -/
def Obligations.RandomNumbers : Prop :=
  (∀ f : RegForm, f.sub.toNat % 4 = 0 → Computes (.rngdraw f) f.dst 32
      (fun k u => drawAt k.rngk k.rngc u (0x80000000 + f.sub.toNat / 4)) (fun _ _ => false) fun _ _ => 0)
  ∧ (∀ f : RegForm, f.sub.toNat % 4 = 1 → Computes (.rngdraw f) f.dst 64
      (fun k u => drawAt k.rngk k.rngc u (0x80000000 + f.sub.toNat / 4)
        + 2 ^ 32 * drawAt k.rngk k.rngc u (0xC0000000 + f.sub.toNat / 4)) (fun _ _ => false) fun _ _ => 0)
  ∧ (∀ f : RegForm, f.sub.toNat % 4 = 2 → Computes (.rngdraw f) f.dst 32
      (fun k u => (roundTo .f32 .rn 0 (.fin false (drawAt k.rngk k.rngc u (0x80000000 + f.sub.toNat / 4) / 256) (-24))).1)
      (fun _ _ => false) fun _ _ => 0)
  ∧ ∀ i : Instr, ((∃ f, i = .rngkey f) ∨ (∃ f, i = .rngskip f) ∨ ∃ f, i = .rngskipImm f) → ∀ s c, Issues i s c →
    ∃ t, exec i s = .next t ∧ OnlyWarp s t ∧ IssueFrame i c s t ∧ StraightOn c s t ∧ SameRegs s t
      ∧ (∀ lane, FMap.get 0 (t.core s.cur).flags lane = FMap.get 0 (s.core s.cur).flags lane)
      ∧ (t.core s.cur).mstat = (s.core s.cur).mstat ∧ (c.active = 0 → Counted s t)
      ∧ (c.active ≠ 0 → ∀ f, i = .rngkey f →
          (t.core s.cur).rngk = BitVec.ofNat 128 (valOf (s.core s.cur) f.a 0 64 + 2 ^ 64 * valOf (s.core s.cur) f.b 0 64)
          ∧ (t.core s.cur).rngc = if f.sub = 1 then BitVec.ofNat 64 (valOf (s.core s.cur) f.c 0 64) else 0)
      ∧ (c.active ≠ 0 → ∀ f, i = .rngskip f → (t.core s.cur).rngk = (s.core s.cur).rngk
          ∧ (t.core s.cur).rngc = (s.core s.cur).rngc + 1 + BitVec.ofNat 64 (valOf (s.core s.cur) f.a 0 64))
      ∧ (c.active ≠ 0 → ∀ f, i = .rngskipImm f → (t.core s.cur).rngk = (s.core s.cur).rngk
          ∧ (t.core s.cur).rngc = (s.core s.cur).rngc + 1 + f.imm.zeroExtend 64)

namespace Sys2Proof.Claims

open Sys2Proof Sys2Proof.Machine

/-- One certification of R198: x and its flags where the residual passes, otherwise the correction. -/
def certified (t : Ty) (form : Nat) (tol : Nat) (settled : Bool) (x a b m : Nat) : Nat × Bool × Flags :=
  let d (v : Nat) : FVal := FVal.decode t.fmt v
  let one : FVal := .fin false 1 0
  let product := if form = 1 then ((d a).mul (d x)).mul (d x) else (d a).mul (d x)
  let from_ := if form = 2 then d b else one
  let res := d (roundTo t .rn 0 (FVal.sum [from_, product.neg] .rn)).1
  let bnd := d (roundTo t .rd 0 (FVal.sum [product.abs, from_.abs] .rd)).1
  let signals := (d x).signals || (d a).signals || (form == 2 && ((d b).signals || (d m).signals))
  let nv : Flags := if signals then fNV else 0
  if settled ∧ res.isFin = true ∧ bnd.isFin = true ∧ res.abs.le (bnd.scale (-(tol : Int))) = true then (x, true, nv)
  else
    let g := if form = 0 then d x else if form = 1 then (d x).scale (-1) else d m
    let r := roundTo t .rn 0 (FVal.sum [d x, g.mul res] .rn)
    (r.1, false, r.2 ||| nv)

end Sys2Proof.Claims

open Sys2Proof Sys2Proof.Machine Sys2Proof.Claims in
/-- R115, R198: DCORV. `settled` asks that a and, for LIN, b be S; a lane that passes keeps x and makes it S, and pd holds
there, unless taint makes what it writes P; that a P guard makes x and pd P too is the model's reading [14]. -/
def Obligations.LaneCertification : Prop :=
  ∀ (f : DcorvForm) s c, Issues (.dcorv f) s c →
    let k := s.core s.cur
    let n := f.ty.width
    let lin := f.form.toNat = 2
    let r (lane : Nat) : Nat × Bool × Flags := certified f.ty f.form.toNat f.t.toNat
      (!tagIn k f.a lane n && !(decide lin && tagIn k f.b lane n)) (valOf k f.dst lane n) (valOf k f.a lane n)
      (if lin then valOf k f.b lane n else 0) (if lin then valOf k f.c lane n else 0)
    (∀ lane, c.active.has lane = true → (r lane).2.2 &&& c.w.ten = 0) →
    ∃ t, exec (.dcorv f) s = .next t ∧ RegisterFrame (.dcorv f) c s t ∧ ∀ lane, c.active.has lane = true →
      let c' := c.openedIn (.dcorv f) s
      let tainted := c.policy = 2 ∧ c'.w.c.tainted lane = true
      (t.core s.cur).read f.dst lane n = ((r lane).1, !(r lane).2.1 || c'.forced c'.w.c lane)
      ∧ (t.core s.cur).read f.d lane 1 = (((r lane).2.1 && !decide tainted).toNat, c'.forced c'.w.c lane)
      ∧ FMap.get 0 (t.core s.cur).flags lane = FMap.get 0 k.flags lane ||| (r lane).2.2

open Sys2Proof Sys2Proof.Machine Sys2Proof.Claims in
/-- R195, R196, R97: TAGQ reads a tag as an S value, and TAGP copies a value and makes it P. SUB 1 names a pair; a uniform
destination takes all 64 bits, as the model reads R196 [16]. That TAGQ's result is P under a P guard is the model's reading [14]. -/
def Obligations.TagInstructions : Prop :=
  (∀ f : RegForm, Computes (.tagq f) f.dst 32 (fun k u => (tagIn k f.a u (if f.sub = 1 then 64 else 32)).toNat) (fun _ _ => false)
    fun _ _ => 0)
  ∧ ∀ f : RegForm,
    let width := match f.dst with | .k _ => 64 | .p _ _ => 1 | _ => if f.sub = 1 then 64 else 32
    Computes (.tagp f) f.dst width (fun k u => valOf k f.a u width) (fun _ _ => true) fun _ _ => 0

namespace Sys2Proof.Claims

open Sys2Proof Sys2Proof.Machine

/-- The float formats (R74). -/
def formats : List Ty := [.f64, .f32, .f16, .bf16, .e4m3, .e5m2]

/-- The magnitude that a code means. -/
def magnitude (t : Ty) (code : Nat) : ℚ := |rational (FVal.decode t.fmt code)|

/-- R85: RN, RZ, RU and RD round a value within a format's range to the finite encoding that the mode asks for, RN to the nearest and at a
tie to the even encoding; NX says exactly that the result differs from the value. -/
def RoundsInRange : Prop :=
  ∀ t ∈ formats, ∀ (rnd : Rnd) (draw : Nat) (neg : Bool) (m : Nat) (e : Int), rnd ≠ .sr →
    let v := rational (.fin neg m e)
    |v| ≤ magnitude t t.fmt.maxCode →
    let r := roundTo t rnd draw (.fin neg m e)
    let x := rational (FVal.decode t.fmt r.1)
    (FVal.decode t.fmt r.1).isFin = true ∧ r.1 < 2 ^ t.width ∧ (r.2 &&& fNX ≠ 0 ↔ x ≠ v)
    ∧ ∀ y < 2 ^ t.width, (FVal.decode t.fmt y).isFin = true →
        let w := rational (FVal.decode t.fmt y)
        match rnd with
        | .rn => |v - x| ≤ |v - w| ∧ (|v - x| = |v - w| → x ≠ w → r.1 % 2 = 0)
        | .rz => |x| ≤ |v| ∧ 0 ≤ x * v ∧ (|w| ≤ |v| → |w| ≤ |x|)
        | .ru => v ≤ x ∧ (v ≤ w → x ≤ w)
        | .rd => x ≤ v ∧ (w ≤ v → w ≤ x)
        | .sr => True

/-- Whether a mode takes a value of a sign away from zero. -/
def goesAway (rnd : Rnd) (neg : Bool) : Bool := decide (rnd = .ru) && !neg || decide (rnd = .rd) && neg

/-- R75, R77, R86: a magnitude beyond the largest finite one. Where the mode, with an exponent without bounds, would round it to that one,
it does so, with NX; else OF and NX are set, and the result is infinity in RN, in SR and away from zero, the largest finite one otherwise,
and always in E4M3. -/
def RoundsBeyondRange : Prop :=
  ∀ t ∈ formats, ∀ (rnd : Rnd) (draw : Nat) (neg : Bool) (m : Nat) (e : Int),
    let v := |rational (.fin neg m e)|
    let big := magnitude t t.fmt.maxCode
    let gap := big - magnitude t (t.fmt.maxCode - 1)
    let near : Bool := decide (rnd = .rn) || decide (rnd = .sr)
    let beyond : Prop := if near then big + gap / 2 < v ∨ (v = big + gap / 2 ∧ t ≠ .e4m3) else goesAway rnd neg = true ∨ big + gap ≤ v
    big < v →
    (¬beyond → roundTo t rnd draw (.fin neg m e) = (signed t neg t.fmt.maxCode, fNX))
    ∧ (beyond → roundTo t rnd draw (.fin neg m e)
        = (signed t neg (if t ≠ .e4m3 ∧ (near || goesAway rnd neg) = true then t.fmt.inf else t.fmt.maxCode), fOF ||| fNX))

/-- R75: the flags of a result within range: UF where the value, rounded with an exponent without bounds, lies below the least normal
number and the result is inexact. -/
def RaisesUnderflow : Prop :=
  ∀ t ∈ formats, ∀ (rnd : Rnd) (draw : Nat) (neg : Bool) (m : Nat) (e : Int), rnd ≠ .sr →
    let v := rational (.fin neg m e)
    let least := magnitude t 1
    let normal := magnitude t (2 ^ t.fmt.fb)
    let tiny : Prop := match rnd with
      | .rn => |v| < normal - least / 4
      | _ => if goesAway rnd neg = true then |v| ≤ normal - least / 2 else |v| < normal
    let r := roundTo t rnd draw (.fin neg m e)
    |v| ≤ magnitude t t.fmt.maxCode →
    (r.2 &&& fUF ≠ 0 ↔ rational (FVal.decode t.fmt r.1) ≠ v ∧ tiny) ∧ r.2 &&& ~~~(fNX ||| fUF) = 0

/-- R85, R86: SR takes an inexact value within range to the upper of its two neighbours where the fraction's top b bits and the draw's low b
bits together reach 2^b, and to the lower one otherwise. -/
def RoundsByDraw : Prop :=
  ∀ t ∈ formats, ∀ (draw : Nat) (neg : Bool) (m : Nat) (e : Int),
    let v := |rational (.fin neg m e)|
    let b := if t = .f64 ∨ t = .f32 then 32 else 16
    let r := roundTo t .sr draw (.fin neg m e)
    v ≤ magnitude t t.fmt.maxCode →
    ∃ lo ≤ t.fmt.maxCode, magnitude t lo ≤ v ∧ (lo < t.fmt.maxCode → v < magnitude t (lo + 1))
      ∧ let frac := (v - magnitude t lo) / (magnitude t (lo + 1) - magnitude t lo)
        (v = magnitude t lo → r = (signed t neg lo, 0))
        ∧ (v ≠ magnitude t lo → r.2 &&& fNX ≠ 0
            ∧ r.1 = signed t neg (if (2 : ℤ) ^ b ≤ ⌊frac * 2 ^ b⌋ + (draw % 2 ^ b : Nat) then lo + 1 else lo))

/-- The canonical NaN (R74). -/
def canonicalNan : Ty → Nat
  | .f64 => 0x7FF8000000000000
  | .f32 => 0x7FC00000
  | .f16 => 0x7E00
  | .bf16 => 0x7FC0
  | .e5m2 => 0x7E
  | _ => 0x7F

/-- R76, R77: a NaN becomes the canonical one, with NV where an operand signalled or the operation was invalid; an infinity stays, and in
E4M3 becomes a NaN with NV. -/
def RoundsSpecials : Prop :=
  ∀ t ∈ formats, ∀ (rnd : Rnd) (draw : Nat),
    (∀ nv, roundTo t rnd draw (.nan nv) = (canonicalNan t, if nv then fNV else 0))
    ∧ ∀ neg, roundTo t rnd draw (.inf neg) = if t = .e4m3 then (0x7F, fNV) else (signed t neg t.fmt.inf, 0)

/-- R75, R76: what the exact operations give for finite values, infinities and zeros: `.nan true` is an invalid operation, which sets NV, and
the quotient of a finite value and a zero is the infinity at which DZF is set. -/
def ExactOperations : Prop :=
  (∀ x y : FVal, x.isFin = true → y.isFin = true → ∀ rnd,
    rational (x.mul y) = rational x * rational y ∧ rational (FVal.sum [x, y] rnd) = rational x + rational y)
  ∧ ∀ (a b : Bool) (m : Nat) (e d : Int) (rnd : Rnd), m ≠ 0 →
    (FVal.fin a m e).div (.fin b 0 d) = .inf (a != b) ∧ (FVal.fin a 0 e).div (.fin b 0 d) = .nan true
    ∧ (FVal.inf a).div (.inf b) = .nan true ∧ (FVal.inf a).div (.fin b m e) = .inf (a != b)
    ∧ ((FVal.fin a m e).div (.inf b)).isZero = true ∧ ((FVal.fin a m e).div (.inf b)).sign = (a != b)
    ∧ (FVal.inf a).mul (.fin b 0 e) = .nan true ∧ (FVal.fin a 0 e).mul (.inf b) = .nan true
    ∧ (FVal.inf a).mul (.inf b) = .inf (a != b) ∧ (FVal.inf a).mul (.fin b m e) = .inf (a != b)
    ∧ FVal.sum [.inf a, .inf !a] rnd = .nan true ∧ FVal.sum [.inf a, .inf a] rnd = .inf a
    ∧ FVal.sum [.inf a, .fin b m e] rnd = .inf a
    ∧ (FVal.fin true m e).sqrt = .nan true ∧ (FVal.inf true).sqrt = .nan true ∧ (FVal.inf false).sqrt = .inf false
    ∧ ((FVal.fin a 0 e).sqrt).isZero = true ∧ ((FVal.fin a 0 e).sqrt).sign = a

end Sys2Proof.Claims

open Sys2Proof Sys2Proof.Machine Sys2Proof.Claims in
/-- R75, R85: RN, RZ, RU and RD round a value within a format's range to the finite encoding that the mode asks for, RN to the
nearest and at a tie to the even encoding; NX says exactly that the result differs from the value, and UF that it is tiny too. R77, R86: a
magnitude beyond the range goes to the largest finite one or to infinity, as the mode asks, E4M3 saturating, with OF; SR chooses by the
draw. R76: NaNs, infinities, and the exact operations on them and on zeros. -/
def Obligations.RoundingIsCorrect : Prop :=
  RoundsInRange ∧ RoundsBeyondRange ∧ RaisesUnderflow ∧ RoundsByDraw ∧ RoundsSpecials ∧ ExactOperations

namespace Sys2Proof.Claims

open Sys2Proof Sys2Proof.Machine

/-! Memory. Bytes and sector tags as functions of where they lie: in physical memory or in local memory, whose cells follow
one another. -/

abbrev Cells := Nat ⊕ Nat → Byte
abbrev Sectors := Nat ⊕ Nat → Bool

def cellsOf (s : State) : Cells
  | .inl a => FMap.get 0 s.mem a
  | .inr a => FMap.get 0 s.lmem a

def sectorsOf (s : State) : Sectors
  | .inl n => FMap.get false s.tags n
  | .inr n => FMap.get false s.ltags n

/-- Where byte j of a place lies, and its sector. -/
def keyOf (q : Place) (j : Nat) : Nat ⊕ Nat :=
  match q.loc with
  | .phys pa => .inl (pa + j)
  | .local cell o => .inr (cell * cellBytes + o + j)

def sectorOf (q : Place) : Nat ⊕ Nat :=
  match q.loc with
  | .phys pa => .inl (pa / 32)
  | .local cell o => .inr ((cell * cellBytes + o) / 32)

def bytesIn (m : Cells) (q : Place) (n : Nat) : List Byte := (List.range n).map fun j => m (keyOf q j)

def putIn (m : Cells) (q : Place) (bs : List Byte) : Cells := fun x =>
  match (List.range bs.length).find? fun j => keyOf q j = x with
  | some j => bs.getD j 0
  | none => m x

/-- Host memory without a shadow bitmap has no tags (R102). -/
def untagged (q : Place) : Bool :=
  match q.loc with
  | .phys pa => isHostPa pa
  | .local _ _ => false

/-- n bytes of a place that is no MMIO space, no host memory with a shadow bitmap and holds no uncorrectable error, within
one sector, and in local memory within its cell. -/
def Plain (s : State) (q : Place) (n : Nat) : Prop :=
  q.dev = false ∧ q.shadow = none ∧ s.poisoned q = false ∧ match q.loc with
    | .phys pa => pa % 32 + n ≤ 32
    | .local _ o => o % 32 + n ≤ 32 ∧ o + n ≤ cellBytes

def uniform : Operand → Bool
  | .k _ => true
  | _ => false

/-- The accesses of an issue: one for each lane of ACTIVE, or one for the warp, numbered 32 (R201, R204). -/
def unitsWhen (once : Bool) (active : Lanes) : List Nat :=
  if active = 0 then [] else if once then [32] else (List.range 32).filter active.has

/-- The address of an access (R150). -/
def addressOf (k : WCore) (f : MemForm) (u : Nat) : Int :=
  if f.space.narrowBase then valOf k f.base u 32 + f.off.toInt else (valOf k f.base u 64 + f.off.toInt) % 2 ^ 64

def baseTag (k : WCore) (f : MemForm) (u : Nat) : Bool := tagIn k f.base u (if f.space.narrowBase then 32 else 64)

/-- Bytes and registers of one access of LD and ST (R200). -/
def accessBytes (f : MemForm) : Nat := f.ty.width / 8 * 2 ^ (f.sub.toNat / 16)
def accessRegs (f : MemForm) : Nat := (if f.ty.width = 64 then 2 else 1) * 2 ^ (f.sub.toNat / 16)

/-- How a loaded value fills its registers (R200). -/
def filled (t : Ty) (x : Nat) : Nat := if t = .s8 ∨ t = .s16 then (BitVec.ofInt 32 (intOf t x)).toNat else x

/-- Whether a load may consume what lies at a place; one of MMIO space waits for commit (R127, R202). -/
def Usable (s : State) (w : Warp) (l : Located) : Prop :=
  match l with
  | .param _ => True
  | .place q => s.poisoned q = false ∧ (q.dev = true → w.ckpts = [])

/-- The line that an access reads, outside MMIO space and local memory. -/
def lineRead : Located → Option Nat
  | .place ⟨.phys pa, _, _, false, _⟩ => some (pa / 128)
  | _ => none

/-- The lines that the reads of an issue take out of the L1 of its core, whose counts they bring to zero (R124), for the warps of that
core. -/
def readAway (s : State) (c : Ctx) (units : List Nat) (l : Nat → Located) (w : Warp) (x : Nat) : Bool :=
  s.coreOf w == c.coreKey && units.any (fun u => lineRead (l u) == some x)
    && s.marks.any fun m => m.core == c.coreKey && m.line == x && m.count.any fun n => decide (n ≤ 1)

/-- What an issue leaves that loads: outside its warp only line marks change, and a line that leaves a
warp's L1 is a conflict for its checkpoints that have read it (R136). -/
structure LoadFrame (i : Instr) (c : Ctx) (s t : State) (gone : Warp → Nat → Bool) : Prop
    extends IssueFrame i c s t, StraightOn c s t, Counted s t where
  rest : { t with warps := s.warps, gangs := s.gangs, marks := s.marks } = s
  gangs : ∀ j, (nth t.gangs j).map (fun g => { g with step := none }) = (nth s.gangs j).map fun g => { g with step := none }
  warps : ∀ j, j ≠ s.cur → nth t.warps j = (nth s.warps j).map fun w =>
    { w with ckpts := w.ckpts.map fun k => { k with conflict := k.conflict || k.marks.any (gone w) } }
  sticky : ∀ lane, FMap.get 0 (t.core s.cur).flags lane = FMap.get 0 (s.core s.cur).flags lane

/-- A sector's tag after the writes of one issue to it (R101): P with a P write; S where S writes cover it whole. -/
def sectorAfter (old : Bool) (ws : List (Place × List Byte × Bool)) : Bool :=
  if ws.any fun w => w.2.2 then true
  else if (List.range 32).all fun j => ws.any fun w => decide (w.1.inSector ≤ j ∧ j < w.1.inSector + w.2.1.length) then false
  else old

/-- A warp's store buffer, oldest issue first (R134). -/
def bufferOf (w : Warp) : List (List (Place × List Byte × Bool)) :=
  (w.ckpts.flatMap (·.stores)).map fun st => st.map fun b => ({ loc := b.loc }, b.data, b.tag)

/-- Each buffered store lies within one sector, and none is to host memory with a shadow bitmap. -/
def Buffers (w : Warp) : Prop :=
  ∀ k ∈ w.ckpts, ∀ st ∈ k.stores, ∀ b ∈ st, b.shadow = none ∧ b.data ≠ [] ∧ match b.loc with
    | .phys pa => pa % 32 + b.data.length ≤ 32
    | .local _ o => o % 32 + b.data.length ≤ 32 ∧ o + b.data.length ≤ cellBytes

/-- Memory as a warp's loads see it (R134): the youngest buffered store to a byte wins, and a sector's tag follows R101 store by
store. -/
def seenCells (s : State) (w : Warp) : Cells := (bufferOf w).flatten.foldl (fun m x => putIn m x.1 x.2.1) (cellsOf s)
def seenSectors (s : State) (w : Warp) : Sectors :=
  (bufferOf w).foldl (fun g ws x => sectorAfter (g x) (ws.filter fun y => sectorOf y.1 = x && !untagged y.1)) (sectorsOf s)

/-- The bytes and the tag that a load receives (R101 to R103, R120, R307): the parameter block's, S, with zeros above it; a free value of MMIO
space; otherwise those of memory as the warp sees it, the tag of its sector, or its shadow bit. A page with PROP adds P. -/
def loadedOf (s : State) (c : Ctx) (u : Nat) (l : Located) (n : Nat) : List Byte × Bool :=
  match l with
  | .param off => ((List.range n).map fun j => c.g.params.getD (off + j) 0, false)
  | .place q => match q.loc, q.dev with
    | .phys pa, true => (leBytes n (Config.mmioRead s.turn (pa + 2 ^ 52 * u)).toNat, q.prop)
    | _, _ => (bytesIn (seenCells s c.w) q n, q.prop || (match untagged q, q.shadow with
        | true, some b => (seenCells s c.w (.inl (b / 8))).getLsbD (b % 8)
        | true, none => false
        | false, _ => seenSectors s c.w (sectorOf q)))

end Sys2Proof.Claims

open Sys2Proof Sys2Proof.Machine Sys2Proof.Claims in
/-- R96, R99, R101 to R103, R134, R200, R201: LD. Each lane of ACTIVE, or the warp once for a uniform destination, receives the
bytes at its address as the warp sees them: memory's with no checkpoint open, and under one the youngest buffered store to each
byte. Every register written takes the OR of the sector's tag and the base's, and is P where the type is narrow. That LD of a
narrow type makes its register P is the model's reading [36]. -/
def Obligations.Loads : Prop :=
  ∀ (f : MemForm) s c (l : Nat → Located), Issues (.ld f) s c →
    let n := accessBytes f
    let k := s.core s.cur
    let c' := c.openedIn (.ld f) s
    (∀ u ∈ unitsWhen (uniform f.dst) c.active,
      s.locate (c.access f.space n n false false) (addressOf k f u) = .ok (l u) ∧ Usable s c'.w (l u)) →
    ∃ t, exec (.ld f) s = .next t ∧ LoadFrame (.ld f) c s t (readAway s c (unitsWhen (uniform f.dst) c.active) l)
      ∧ ∀ lane, c.active.has lane = true →
      let u := laneOrOnce f.dst lane
      let r := loadUnit s (s.seenBy c.w) c u (l u) n
      (Buffers c.w → r = loadedOf s c u (l u) n)
      ∧ let x := filled f.ty (leNat r.1)
      let tag := r.2 || baseTag k f u || f.ty.narrow || c'.forcedUnit u
      (∀ b, f.dst = .v b → (t.core s.cur).readVs lane b.toNat (accessRegs f) = (x, tag))
      ∧ ∀ b, f.dst = .k b → (t.core s.cur).getK b.toNat = ⟨BitVec.ofNat 64 x, tag⟩

open Sys2Proof Sys2Proof.Machine Sys2Proof.Claims in
/-- R129, R214: CTEST writes 1 where the object's value is at least b, and 0 elsewhere; CWAIT issues when that holds in every
lane of ACTIVE, and until then its lanes stay at its PC and no register changes. -/
def Obligations.CompletionObjects : Prop :=
  (∀ (f : MemForm) s c (l : Nat → Located), Issues (.ctest f) s c →
    let k := s.core s.cur
    let c' := c.openedIn (.ctest f) s
    (∀ u ∈ unitsWhen (uniform f.dst) c.active,
      s.locate (c.access f.space 8 8 false false) (addressOf k f u) = .ok (l u) ∧ Usable s c'.w (l u)) →
    ∃ t, exec (.ctest f) s = .next t ∧ LoadFrame (.ctest f) c s t (readAway s c (unitsWhen (uniform f.dst) c.active) l)
      ∧ ∀ lane, c.active.has lane = true →
      let u := laneOrOnce f.dst lane
      let r := loadUnit s (s.seenBy c.w) c u (l u) 8
      (Buffers c.w → r = loadedOf s c u (l u) 8)
      ∧ (t.core s.cur).read f.dst lane (fullWidth f.dst 32) = (if valOf k f.b u 64 ≤ leNat r.1 then 1 else 0,
        r.2 || baseTag k f u || tagIn k f.b u 64 || c'.forcedUnit u))
  ∧ ∀ (f : MemForm) s c (l : Nat → Located), Issues (.cwait f) s c →
    let k := s.core s.cur
    let units := unitsWhen (uniform f.base && uniform f.b) c.active
    (∀ u ∈ units, s.locate (c.access f.space 8 8 false false) (addressOf k f u) = .ok (l u)
      ∧ Usable s (c.openedIn (.cwait f) s).w (l u)) →
    let holds := ∀ u ∈ units, valOf k f.b u 64 ≤ leNat (loadUnit s (s.seenBy c.w) c u (l u) 8).1
    (Buffers c.w → ∀ u ∈ units, loadUnit s (s.seenBy c.w) c u (l u) 8 = loadedOf s c u (l u) 8)
    ∧ (holds → ∃ t, exec (.cwait f) s = .next t ∧ LoadFrame (.cwait f) c s t (readAway s c units l) ∧ SameRegs s t)
    ∧ (¬holds → ∃ t, exec (.cwait f) s = .next t ∧ OnlyWarp s t ∧ SameRegs s t
        ∧ (t.core s.cur).rngc = k.rngc ∧ (∀ lane, FMap.get 0 (t.core s.cur).flags lane = FMap.get 0 k.flags lane)
        ∧ ∀ lane, c.split.lanes.has lane = true → ∃ e ∈ (t.core s.cur).frontier, e.lanes.has lane = true ∧ e.pc = c.pc ∧ e.ready = false)

namespace Sys2Proof.Claims

open Sys2Proof Sys2Proof.Machine

/-- What a store or an atomic performs outside its warp: bytes and tags, line marks and directory
regions, and a conflict in each checkpoint of another warp that has read a place that it writes (R122, R136). -/
structure StoreFrame (s t : State) (places : List Place) : Prop where
  rest : { t with
    warps := s.warps, gangs := s.gangs, mem := s.mem, tags := s.tags, lmem := s.lmem, ltags := s.ltags, marks := s.marks,
    regions := s.regions } = s
  gangs : ∀ j, (nth t.gangs j).map (fun g => { g with step := none }) = (nth s.gangs j).map fun g => { g with step := none }
  warps : ∀ j, j ≠ s.cur → nth t.warps j = (nth s.warps j).map fun w =>
    { w with ckpts := w.ckpts.map fun k => { k with conflict := k.conflict || places.any k.touches } }

/-- What a unit of ST or CINIT stores, with the datum's tag: P where the type is narrow (R96). -/
def datumOf (i : Instr) (f : MemForm) (k : WCore) (u : Nat) : Nat × Bool :=
  match i with
  | .st _ =>
    let x := match f.b with
      | .v r => k.readVs u r.toNat (accessRegs f)
      | o => k.read o u 64
    (x.1, x.2 || f.ty.narrow)
  | _ => k.read f.b u 64

/-- The line of a location, for the fragments of the store buffer (R135). -/
def lineOf : Loc → Loc
  | .phys pa => .phys (pa / 128)
  | .local cell o => .local cell (o / 128)

end Sys2Proof.Claims

open Sys2Proof Sys2Proof.Machine Sys2Proof.Claims in
/-- R101, R134, R201, R214: ST and CINIT. With no checkpoint open the bytes at each unit's address take its datum, in ascending
order, the sectors' tags follow R101, and every other byte and tag of memory is as it was; under a checkpoint memory keeps every
byte and tag, and the youngest checkpoint's store buffer takes the writes. That ST of a narrow type stores P is the model's
reading [36]. -/
def Obligations.Stores : Prop :=
  ∀ (i : Instr) (f : MemForm), (i = .st f ∨ i = .cinit f) → ∀ s c (q : Nat → Place), Issues i s c →
    let n := if i = .st f then accessBytes f else 8
    let k := s.core s.cur
    let c' := c.openedIn i s
    let units := unitsWhen (uniform f.base && uniform f.b) c.active
    (∀ u ∈ units, s.locate (c.access f.space n n true false) (addressOf k f u) = .ok (.place (q u)) ∧ Plain s (q u) n) →
    let ws : List (Place × List Byte × Bool) :=
      units.map fun u => (q u, leBytes n (datumOf i f k u).1, (datumOf i f k u).2 || c'.forcedUnit u)
    let common (t : State) : Prop := IssueFrame i c s t ∧ StraightOn c s t ∧ Counted s t ∧ SameRegs s t
      ∧ ∀ lane, FMap.get 0 (t.core s.cur).flags lane = FMap.get 0 k.flags lane
    (c'.w.ckpts = [] → ∃ t, exec i s = .next t ∧ common t ∧ StoreFrame s t (ws.map (·.1))
      ∧ cellsOf t = ws.foldl (fun m w => putIn m w.1 w.2.1) (cellsOf s)
      ∧ ∀ x, sectorsOf t x = sectorAfter (sectorsOf s x) (ws.filter fun w => sectorOf w.1 = x && !untagged w.1))
    ∧ ∀ y, c'.w.ckpts.getLast? = some y →
        c.w.fragments + (ws.map fun w => lineOf w.1.loc).dedup.length ≤ (runAhead c.w.kind).2.2 →
        ∃ t, exec i s = .next t ∧ common t ∧ OnlyWarp s { t with marks := s.marks }
          ∧ ∃ w z, nth t.warps s.cur = some w ∧ w.ckpts.getLast? = some z
            ∧ z.stores = y.stores ++ [ws.map fun x => ⟨x.1.loc, x.1.shadow, x.2.1, x.2.2⟩]

namespace Sys2Proof.Claims

open Sys2Proof Sys2Proof.Machine

/-- R203: the new value of an atomic, from the old one, y and, for `.cas`, z, with the flags of a float operation. -/
def applied (t : Ty) (op old y z : Nat) : Nat × Flags :=
  let wrapped (e : Int) : Nat := (BitVec.ofInt t.width e).toNat
  match op with
  | 0 => if t.isFloat then roundTo t .rn 0 (FVal.sum [FVal.decode t.fmt old, FVal.decode t.fmt y] .rn)
         else (wrapped (intOf t old + intOf t y), 0)
  | 1 => if t.isFloat then extremum t false false [old, y] else (wrapped (min (intOf t old) (intOf t y)), 0)
  | 2 => if t.isFloat then extremum t true false [old, y] else (wrapped (max (intOf t old) (intOf t y)), 0)
  | 3 => (old &&& y, 0)
  | 4 => (old ||| y, 0)
  | 5 => (old ^^^ y, 0)
  | 6 => (y, 0)
  | _ => (if old = z then y else old, 0)

/-- The atomics of an issue one after another, each at the place of its unit: memory and tags after them, and what each
unit reads: the old value, the prior tag, the flags. -/
def inOrder (t : Ty) (op : Nat) (arg : Nat → Nat × Nat × Bool) (q : Nat → Place) :
    List Nat → Cells → Sectors → Cells × Sectors × List (Nat × Nat × Bool × Flags)
  | [], m, g => (m, g, [])
  | u :: us, m, g =>
    let old := leNat (bytesIn m (q u) (t.width / 8))
    let r := applied t op old (arg u).1 (arg u).2.1
    let prior := !untagged (q u) && g (sectorOf (q u))
    let g' : Sectors := fun x => if x = sectorOf (q u) ∧ untagged (q u) = false then g x || (arg u).2.2 else g x
    let rest := inOrder t op arg q us (putIn m (q u) (leBytes (t.width / 8) r.1)) g'
    (rest.1, rest.2.1, (u, old, prior || (q u).prop, r.2) :: rest.2.2)

/-- R101, R203, R204: ATOM and RED, one atomic for each lane of ACTIVE in ascending order, or one for the warp when every
register operand is uniform. ATOM writes the old value; the flags of float operations are set and never trap. -/
def AtomicOperations : Prop :=
  ∀ (i : Instr) (f : MemForm), (i = .atom f ∨ i = .red f) → ∀ s c (q : Nat → Place), Issues i s c →
    let n := f.ty.width / 8
    let op := f.sub.toNat
    let k := s.core s.cur
    let c' := c.openedIn i s
    let once := uniform f.base && uniform f.b && (op != 7 || uniform f.c) && (i == .red f || uniform f.dst)
    let units := unitsWhen once c.active
    (∀ u ∈ units, s.locate (c.access f.space n n true true) (addressOf k f u) = .ok (.place (q u)) ∧ Plain s (q u) n) →
    let arg (u : Nat) : Nat × Nat × Bool := (valOf k f.b u f.ty.width, if op = 7 then valOf k f.c u f.ty.width else 0,
      tagIn k f.b u f.ty.width || (op == 7 && tagIn k f.c u f.ty.width) || c'.forcedUnit u)
    let r := inOrder f.ty op arg q units (cellsOf s) (sectorsOf s)
    ∃ t, exec i s = .next t ∧ IssueFrame i c s t ∧ StraightOn c s t ∧ Counted s t ∧ StoreFrame s t (units.map q)
      ∧ cellsOf t = r.1 ∧ sectorsOf t = r.2.1
      ∧ (i = .red f → SameRegs s t)
      ∧ ∀ lane, c.active.has lane = true → ∀ u old tag flags, u = (if once then 32 else lane) → (u, old, tag, flags) ∈ r.2.2 →
          FMap.get 0 (t.core s.cur).flags lane = FMap.get 0 k.flags lane ||| flags
          ∧ (i = .atom f → (t.core s.cur).read f.dst lane (fullWidth f.dst f.ty.width)
              = (old, tag || baseTag k f u || c'.forcedUnit u))

/-- R90, R101, R205: SCATC. The lanes of one address are combined over the canonical tree into one atomic; the atomics stand
in the order of each set's lowest lane, which takes their flags; `.rank` counts the lanes of a set below each. -/
def ScatterCombines : Prop :=
  ∀ (f : MemForm) s c (q : Nat → Place), Issues (.scatc f) s c →
    let n := f.ty.width / 8
    let op := f.sub.toNat % 16
    let k := s.core s.cur
    let c' := c.openedIn (.scatc f) s
    let lanes := (List.range 32).filter c.active.has
    (∀ j ∈ lanes, s.locate (c.access f.space n n true true) (addressOf k f j) = .ok (.place (q j)) ∧ Plain s (q j) n) →
    let same (j : Nat) : List Nat := lanes.filter fun i => addressOf k f i = addressOf k f j
    let heads := lanes.filter fun j => (same j).head? = some j
    let combined (j : Nat) : Option Nat × Flags := reduce (fun x y => applied f.ty op x y 0)
      ((List.range 32).map fun i => if i ∈ same j then some (valOf k f.b i f.ty.width) else none)
    let arg (j : Nat) : Nat × Nat × Bool := ((combined j).1.getD 0, 0,
      (same j).any fun i => tagIn k f.b i f.ty.width || baseTag k f i || c'.forced c'.w.c i)
    let r := inOrder f.ty op arg q heads (cellsOf s) (sectorsOf s)
    ∃ t, exec (.scatc f) s = .next t ∧ IssueFrame (.scatc f) c s t ∧ StraightOn c s t ∧ Counted s t
      ∧ StoreFrame s t (heads.map q) ∧ cellsOf t = r.1 ∧ sectorsOf t = r.2.1
      ∧ (f.sub.getLsbD 4 = false → SameRegs s t)
      ∧ (∀ lane, c.active.has lane = true → lane ∉ heads → FMap.get 0 (t.core s.cur).flags lane = FMap.get 0 k.flags lane)
      ∧ (∀ u old tag flags, (u, old, tag, flags) ∈ r.2.2 →
          FMap.get 0 (t.core s.cur).flags u = FMap.get 0 k.flags u ||| ((combined u).2 ||| flags))
      ∧ (f.sub.getLsbD 4 = true → ∀ lane, c.active.has lane = true → (t.core s.cur).read f.dst lane 32
          = (((same lane).filter (· < lane)).length, c'.forced c'.w.c lane))

end Sys2Proof.Claims

open Sys2Proof Sys2Proof.Machine Sys2Proof.Claims in
/-- R101, R203, R204: ATOM and RED, one atomic for each lane of ACTIVE in ascending order, or one for the warp when every
register operand is uniform. ATOM writes the old value; the flags of float operations are set and never trap. R90, R101,
R205: SCATC. The lanes of one address are combined over the canonical tree into one atomic; the atomics stand in the order
of each set's lowest lane, which takes their flags; `.rank` counts the lanes of a set below each. That the count is P under a P guard is
the model's reading [14]. -/
def Obligations.AtomicsAndScatters : Prop := AtomicOperations ∧ ScatterCombines

open Sys2Proof Sys2Proof.Machine Sys2Proof.Claims in
/-- R130, R206 to R208: FENCE, once every earlier access has performed, PFT, whatever its address meets, and CCTL, whose
accesses a 1-byte load could make, change no register and no byte of memory. A CCTL that drops lines with no checkpoint open takes them out of
the L1s of its cell. -/
def Obligations.HintsAndFences : Prop :=
  (∀ f s c, Issues (.fence f) s c → ∃ t, exec (.fence f) s = .next t ∧ RegisterFrame (.fence f) c s t ∧ SameRegs s t
      ∧ c.w.ckpts = [] ∧ c.w.asleep = false)
  ∧ (∀ f s c, Issues (.pft f) s c → ∃ t, exec (.pft f) s = .next t ∧ LoadFrame (.pft f) c s t (fun _ _ => false) ∧ SameRegs s t)
  ∧ ∀ f s c (l : Nat → Located), Issues (.cctl f) s c →
      (∀ u ∈ unitsWhen (uniform f.base) c.active, s.locate
        (c.access (if f.space = .c then .g else f.space) 1 1 false false) (addressOf (s.core s.cur) f u) = .ok (l u)) →
      ∃ t, exec (.cctl f) s = .next t ∧ SameRegs s t ∧ LoadFrame (.cctl f) c s t fun w x =>
        (c.openedIn (.cctl f) s).w.ckpts.isEmpty && f.sub.toNat % 4 == 1 && s.coreOf w / 4 == c.coreKey / 4
          && (unitsWhen (uniform f.base) c.active).any fun u => lineRead (l u) == some x

namespace Sys2Proof.Claims

open Sys2Proof Sys2Proof.Machine

/-- The bytes and the alignment of an access, whether the accesses are one for the warp, and what kind they are. -/
def accessOf (i : Instr) : Option (MemForm × Nat × Bool × Bool × Bool) :=
  match i with
  | .ld f => some (f, accessBytes f, uniform f.dst, false, false)
  | .st f => some (f, accessBytes f, uniform f.base && uniform f.b, true, false)
  | .ctest f => some (f, 8, uniform f.dst, false, false)
  | .cwait f => some (f, 8, uniform f.base && uniform f.b, false, false)
  | .cinit f => some (f, 8, uniform f.base && uniform f.b, true, false)
  | .atom f => some (f, f.ty.width / 8,
      uniform f.base && uniform f.b && (f.sub.toNat != 7 || uniform f.c) && uniform f.dst, true, true)
  | .red f => some (f, f.ty.width / 8, uniform f.base && uniform f.b && (f.sub.toNat != 7 || uniform f.c), true, true)
  | .scatc f => some (f, f.ty.width / 8, false, true, true)
  | _ => none

/-- R121, R202: ALIGN comes before every other check. -/
def Misaligned : Prop :=
  ∀ i f n once write atomic, accessOf i = some (f, n, once, write, atomic) → ∀ s c, Issues i s c → (c.openedIn i s).w.ckpts = [] →
    let k := s.core s.cur
    let bad (u : Nat) : Bool := addressOf k f u % n != 0
    ∀ u0, (unitsWhen once c.active).find? bad = some u0 →
    ∃ t x, exec i s = .next t ∧ Takes s c x t ∧ x.cls = .align ∧ x.cause = 0 ∧ x.addr = BitVec.ofInt 64 (addressOf k f u0)
      ∧ ∀ lane, lane < 32 → x.lanes.has lane = (c.active.has lane && bad (if once then 32 else lane))

/-- The buffers of the launch's handles, where each starts and its length, that the launch may only read (R119). -/
def readOnlyBuffers (s : State) (c : Ctx) : List (Nat × Nat) :=
  (c.l.lrec.handles.filter fun h => !h.rw).filterMap fun h =>
    (FMap.get none (s.part c.pi).handles h.index).map fun e => (e.base.toNat, e.len)

/-- What an outcome of translation makes an access meet, with its place in the order of R202 and the address that it is met at. -/
def translationStop (x : Xlat) (va : Nat) (write : Bool) : Option (Nat × Stop) :=
  match x with
  | .ok _ e => if write && pteRo e then some (20, .fault .readonly 0 (pteProp e)) else none
  | .fault .bus cause prop => some (50 + cause, .fault .bus cause prop)
  | .fault cls cause prop => some (10 + cause, .fault cls cause prop)
  | .recompute g => some (30, .sleep va (some g))
  | .absent => some (40, .sleep va none)

/-- The first check of R202 that an access fails at an address, with its place in the order: alignment; the bounds of `.l` and `.p` and
the vault window (R117, R118, R120); READONLY (R119, R120); translation (R304, R307, R312); what MMIO space takes (R127, R133) [15]; storage
that the device does not reach (R133, R339, R348); the shadow bit's byte, for storage that has one (R102) [43]; and for the consumer of the
data an uncorrectable error. -/
def failing (s : State) (c : Ctx) (f : MemForm) (n : Nat) (write atomic consumes : Bool) (addr : Int) : Option (Nat × Stop) :=
  let p := s.part c.pi
  let va := addr.toNat
  let a := { c.access f.space n n write atomic with addr := va }
  let rotten : Option (Nat × Stop) := match s.locate a addr with
    | .ok (.place q) => if consumes && s.poisoned q then some (60, .fault .bus 0 q.prop) else none
    | _ => none
  if addr % (n : Int) ≠ 0 then some (0, .fault .align 0 false)
  else if addr < 0 then some (1, .fault .translation 2 false)
  else if f.space = .l then if c.l.lrec.localBytes < va + n then some (1, .fault .translation 2 false) else rotten
  else if f.space = .p then if 1024 < va + n then some (1, .fault .translation 2 false) else none
  else if (f.space = .v ∧ ¬(p.vaultBase.toNat ≤ va ∧ va + n ≤ p.vaultBase.toNat + vaultLen)) ∨ s.vaultGap p va = true then
    some (1, .fault .translation 2 false)
  else if (f.space = .c ∧ ∀ r ∈ readOnlyBuffers s c, ¬(r.1 ≤ va ∧ va + n ≤ r.1 + r.2))
      ∨ (write = true ∧ ∃ r ∈ readOnlyBuffers s c, va < r.1 + r.2 ∧ r.1 < va + n) then
    some (2, .fault .readonly 0 false)
  else
    let x := s.translate c.pi va
    (translationStop x va write).or (match x with
      | .ok pa e =>
        if pteDev e then
          if 8 < n then some (45, .fault .align 0 (pteProp e)) else if atomic then some (53, .fault .bus 3 (pteProp e))
          else if !s.pkg.reaches pa || s.pkg.linkFails s.turn pa then some (51, .fault .bus 1 (pteProp e)) else none
        else if !s.pkg.reaches pa || s.pkg.linkFails s.turn pa then some (51, .fault .bus 1 (pteProp e))
        else match (if isHostPa (s.pkg.norm pa) then s.shadow a else .ok none) with
          | .error y => some y
          | .ok _ => rotten
      | _ => none)

/-- Whether an access consumes the data that it reads: a store does not (R202). -/
def consumesData : Instr → Bool
  | .st _ | .cinit _ => false
  | _ => true

/-- R202, R315: the failing check that comes first in the order, over the lanes of ACTIVE, decides. Where it is a fault, the issue takes that
fault for all the lanes that fail that check, with the lowest one's address, and performs in no lane. -/
def FailingAccessFaults : Prop :=
  ∀ i f n once write atomic, accessOf i = some (f, n, once, write, atomic) → ∀ s c, Issues i s c → (c.openedIn i s).w.ckpts = [] →
    let units := unitsWhen once c.active
    let fails (u : Nat) : Option (Nat × Stop) := failing s c f n write atomic (consumesData i) (addressOf (s.core s.cur) f u)
    ∀ u0 r cls cause prop, u0 ∈ units → fails u0 = some (r, .fault cls cause prop) →
    (∀ u ∈ units, ∀ y, fails u = some y → r ≤ y.1 ∧ (u < u0 → r < y.1)) →
    ∃ t x, exec i s = .next t ∧ Takes s c x t ∧ x.cls = cls ∧ x.cause = cause
      ∧ x.addr = BitVec.ofInt 64 (addressOf (s.core s.cur) f u0)
      ∧ ∀ lane, lane < 32 → x.lanes.has lane = (c.active.has lane && (fails (if once then 32 else lane)).any (·.1 == r))

/-- R202, R309, R312: where the first in the order is a RECOMPUTE entry, whose producers all run, or a page that is not present, the split
sleeps on every page of that outcome that its lanes meet, and no lane performs. -/
def FailingAccessSleeps : Prop :=
  ∀ i f n once write atomic, accessOf i = some (f, n, once, write, atomic) → ∀ s c, Issues i s c → (c.openedIn i s).w.ckpts = [] →
    c.w.handler = none → Apart1 c →
    let units := unitsWhen once c.active
    let fails (u : Nat) : Option (Nat × Stop) := failing s c f n write atomic (consumesData i) (addressOf (s.core s.cur) f u)
    let meets (r : Nat) (p : Nat) (g : Option Nat) : Prop := ∃ u ∈ units, ∃ va, fails u = some (r, .sleep va g) ∧ p = va / 65536
    ∀ r, (∃ p g, meets r p g) → (∀ u ∈ units, ∀ y, fails u = some y → r ≤ y.1) →
    (∀ p g, meets r p (some g) → (s.registration c.pi g).isSome = true ∧ ∃ x ∈ (s.part c.pi).producers, x.reg = g) →
    ∃ t, exec i s = .next t ∧ FallsAsleep s c (meets r) t

end Sys2Proof.Claims

open Sys2Proof Sys2Proof.Machine Sys2Proof.Claims in
/-- R121, R202: an access that is not aligned to its size takes ALIGN before any other check of R202, for all the lanes whose
addresses are not, with the lowest one's address; the issue performs in no lane. R202, R309, R312: of the other checks too the first in
R202's order that a lane fails decides: it is the fault that the issue takes, or the split goes to sleep on the pages that its lanes meet.
Where ALIGN of an access to MMIO space and the BUS faults stand in that order is the model's choice [15], and so is that an access meets
what its shadow bit's byte meets [43]. -/
def Obligations.MisalignmentFaults : Prop := Misaligned ∧ FailingAccessFaults ∧ FailingAccessSleeps

namespace Sys2Proof.Claims

open Sys2Proof Sys2Proof.Machine

/-! Collectives, barriers, deques and the device launch. -/

/-- A collective that writes one value in each lane of ACTIVE (R209), its status predicate true where a named lane was absent. -/
def Collects (i : Instr) (f : ColForm) (width : Nat) (status : Bool) (val : Ctx → WCore → Nat → Nat) (tag : Ctx → WCore → Nat → Bool)
    (flags : Ctx → WCore → Nat → Flags) : Prop :=
  ∀ s c, Issues i s c → (∀ lane, c.active.has lane = true → flags c (s.core s.cur) lane &&& c.w.ten = 0) →
    ∃ t, exec i s = .next t ∧ RegisterFrame i c s t ∧ ∀ lane, c.active.has lane = true →
      let c' := c.openedIn i s
      ((∀ inv inv' r, f.dst = .p inv r → f.b ≠ .p inv' r) → (t.core s.cur).read f.dst lane (fullWidth f.dst width)
        = (val c (s.core s.cur) lane, tag c (s.core s.cur) lane || c'.forced c'.w.c lane))
      ∧ FMap.get 0 (t.core s.cur).flags lane = FMap.get 0 (s.core s.cur).flags lane ||| flags c (s.core s.cur) lane
      ∧ (status = true → ∀ inv r, f.b = .p inv r →
          (t.core s.cur).getP lane r.toNat = ⟨decide (f.mask &&& ~~~c.w.live ≠ 0), c'.forced c'.w.c lane⟩)

/-- The contributing lanes: named and in ACTIVE (R209). -/
def contributors (f : ColForm) (c : Ctx) : List Nat := (List.range 32).filter fun j => f.mask.has j && c.active.has j

/-- The lane that SHFL's selector names for lane i (R212). -/
def sourceLane (mode i s : Nat) : Option Nat :=
  match mode with
  | 0 => if s ≤ 31 then some s else none
  | 1 =>
    let j := (i : Int) + intOf .s32 s
    if 0 ≤ j ∧ j ≤ 31 then some j.toNat else none
  | 2 => if s < 2 ^ 15 then some (((i &&& s % 32) ||| s / 32 % 32) ^^^ s / 1024 % 32) else none
  | _ =>
    let w := 2 ^ (s / 32 % 8)
    if s < 2 ^ 8 ∧ s / 32 % 8 ≤ 5 then some (i - i % w + (i % w + s % 32) % w) else none

/-- The lane whose value SHFL gives lane i: its source where that contributes, else i (R211). -/
def shflFrom (f : ColForm) (c : Ctx) (k : WCore) (i : Nat) : Nat :=
  match sourceLane f.op.toNat i (valOf k f.b i 32) with
  | some j => if j ∈ contributors f c then j else i
  | none => i

end Sys2Proof.Claims

open Sys2Proof Sys2Proof.Machine Sys2Proof.Claims in
/-- R99, R209, R211, R212: SHFL, VOTE and MATCH. That the status predicate is P under a P guard is the model's reading [14], and so is the
tag of MATCH's mask [39]. Where VOTE's destination is the predicate of its status, the status stands: that it is written last is the model's
choice too [17]. -/
def Obligations.Exchanges : Prop :=
  (∀ f : ColForm, Collects (.shfl f) f f.ty.width false (fun c k i => valOf k f.a (shflFrom f c k i) f.ty.width)
      (fun c k i => tagIn k f.a (shflFrom f c k i) f.ty.width || tagIn k f.b i 32) fun _ _ _ => 0)
  ∧ (∀ f : ColForm, Collects (.vote f) f 32 true
      (fun c k _ =>
        let holds (j : Nat) : Bool := valOf k f.a j 1 == 1
        match f.op.toNat with
        | 0 => ((contributors f c).all holds).toNat
        | 1 => ((contributors f c).any holds).toNat
        | 2 => ((contributors f c).all holds || (contributors f c).all fun j => !holds j).toNat
        | _ => ofBits 32 fun j => decide (j ∈ contributors f c) && holds j)
      (fun c k _ => (contributors f c).any fun j => tagIn k f.a j 1) fun _ _ _ => 0)
  ∧ ∀ f : ColForm, Collects (.matchL f) f 32 true
      (fun c k i =>
        let v (j : Nat) : Nat := valOf k f.a j f.ty.width
        if f.op = 0 then ofBits 32 fun j => decide (j ∈ contributors f c) && v j == v i
        else if ∀ j ∈ contributors f c, ∀ j' ∈ contributors f c, v j = v j' then ofBits 32 fun j => decide (j ∈ contributors f c) else 0)
      (fun c k _ => (contributors f c).any fun j => tagIn k f.a j f.ty.width) fun _ _ _ => 0

namespace Sys2Proof.Claims

open Sys2Proof Sys2Proof.Machine

/-- One node of a reduction (R90, R211): integer sums wrap, floats round once in the instruction's mode. -/
def nodeOf (f : ColForm) (x y : Nat) : Nat × Flags :=
  let t := f.ty
  let wrapped (e : Int) : Nat := (BitVec.ofInt t.width e).toNat
  match f.op.toNat with
  | 0 => if t.isFloat then roundTo t f.rnd 0 (FVal.sum [FVal.decode t.fmt x, FVal.decode t.fmt y] f.rnd)
         else (wrapped (intOf t x + intOf t y), 0)
  | 1 => if t.isFloat then extremum t false false [x, y] else (wrapped (min (intOf t x) (intOf t y)), 0)
  | 2 => if t.isFloat then extremum t true false [x, y] else (wrapped (max (intOf t x) (intOf t y)), 0)
  | 3 => (x &&& y, 0)
  | 4 => (x ||| y, 0)
  | _ => (x ^^^ y, 0)

/-- What a reduction of no element gives (R90, R212): +0 or the canonical NaN for floats, the identity for integers. -/
def emptyOf (f : ColForm) : Nat :=
  if f.ty.isFloat then if f.op.toNat = 0 then 0 else f.ty.fmt.nan
  else match f.op.toNat with
    | 1 => (BitVec.ofInt f.ty.width (greatest f.ty)).toNat
    | 2 => (BitVec.ofInt f.ty.width (least f.ty)).toNat
    | 3 => 2 ^ f.ty.width - 1
    | _ => 0

/-- The canonical tree over the contributors among the first n lanes, the others ABSENT. -/
def treeOf (f : ColForm) (c : Ctx) (k : WCore) (n : Nat) : Nat × Flags :=
  let r := reduce (nodeOf f) ((List.range n).map fun j =>
    if j ∈ contributors f c then some (valOf k f.a j f.ty.width) else none)
  (r.1.getD (emptyOf f), r.2)

/-- R90, R99, R209, R211, R212: WRED over all lanes and WSCAN over the lanes up to each; a narrow result is P. -/
def WarpReductions : Prop :=
  ∀ f : ColForm, ∀ x ∈ ([(.wred f, fun _ => 32), (.wscan f, fun i => i + 1)] : List (Instr × (Nat → Nat))),
    Collects x.1 f f.ty.width true (fun c k i => (treeOf f c k (x.2 i)).1)
      (fun c k i => alwaysP f.ty .rn || (contributors f c).any fun j => j < x.2 i && tagIn k f.a j f.ty.width)
      fun c k i => (treeOf f c k (x.2 i)).2

/-- No lane of a table of entries stands at two PCs. -/
def OnePc (l : List Split) : Prop := ∀ x ∈ l, ∀ y ∈ l, x.lanes &&& y.lanes ≠ 0 → x.pc = y.pc

/-- R209: a collective whose named lanes do not all stand at its PC blocks every ready split there and issues nothing. -/
def CollectivesGather : Prop :=
  ∀ i m, membersOf i = some m → ∀ s c, s.context i = some c → c.w.pending = [] → c.w.gathered m c.pc = false →
    OnePc (s.core s.cur).frontier →
    ∃ t, exec i s = .next t ∧ OnlyWarp s t ∧ SameRegs s t ∧ (t.core s.cur).rngc = (s.core s.cur).rngc
      ∧ (∀ e ∈ (t.core s.cur).frontier, e.pc = c.pc → e.ready = false)
      ∧ ∀ lane, (t.core s.cur).pcOf lane = (s.core s.cur).pcOf lane

end Sys2Proof.Claims

open Sys2Proof Sys2Proof.Machine Sys2Proof.Claims in
/-- R90, R99, R209, R211, R212: WRED over all lanes and WSCAN over the lanes up to each; a narrow result is P. R209: a
collective whose named lanes do not all stand at its PC blocks every ready split there and issues nothing. That the status predicate is P
under a P guard is the model's reading [14], and so is it that a waiting collective has not issued [17]. -/
def Obligations.CollectiveReductions : Prop := WarpReductions ∧ CollectivesGather

namespace Sys2Proof.Claims

open Sys2Proof Sys2Proof.Machine

/-- The lanes of a warp that stand at a barrier of a scope. -/
def waitsAt (w : Warp) (sc : Scope) (lane : Nat) : Bool := w.entries.any fun e => e.lanes.has lane && decide (e.block = .barrier sc)

/-- The issuing warp without the split that issues. -/
def besides (c : Ctx) : Warp :=
  { c.w with c := { c.w.c with frontier := c.w.c.frontier.filter fun e => e.lanes &&& c.split.lanes = 0 } }

/-- Once the split has arrived at a barrier of the scope `mine`, every lane that a barrier of a scope `sc` waits for among some warps
has arrived there: the issuing warp's, if it is one of them, and the other warps'. Lanes whose EXIT a rollback may take back count. -/
def Complete (s : State) (c : Ctx) (mine sc : Scope) (among : Nat → Warp → Prop) : Prop :=
  (among c.wi c.w → ∀ lane, c.split.lanes.has lane = true ∨ (besides c).live.has lane = true →
    (sc = mine ∧ c.split.lanes.has lane = true) ∨ waitsAt (besides c) sc lane = true)
  ∧ ∀ j w, j ≠ c.wi → nth s.warps j = some w → among j w → ∀ lane, w.awaited.has lane = true → waitsAt w sc lane = true

/-- R213: whether the barrier of a scope at which lanes of a warp may wait departs: the warp's, its group's, its gang's, or the launch's,
each of whose gangs has started or retired; all of the gang or the launch that issues. -/
def Departs (s : State) (c : Ctx) (mine : Scope) (j : Nat) (w : Warp) (sc : Scope) : Prop :=
  let ofLaunch (w : Warp) : Prop := ∃ g, nth s.gangs w.gang = some g ∧ g.launch = c.li
  match sc with
  | .warp => w.gang = c.gi ∧ Complete s c mine sc fun i _ => i = j
  | .group => w.gang = c.gi ∧ Complete s c mine sc fun _ x => x.gang = c.gi ∧ x.group = w.group
  | .gang => w.gang = c.gi ∧ Complete s c mine sc fun _ x => x.gang = c.gi
  | .pkg => ofLaunch w ∧ (Complete s c mine sc fun _ x => ofLaunch x)
      ∧ ∀ j g, nth s.gangs j = some g → g.launch = c.li → g.started = true ∨ g.phase = .retired
  | _ => False

/-- The entries of a table hold lanes, no two of them the same. -/
def Unshared (l : List Split) : Prop := (∀ e ∈ l, e.lanes ≠ 0) ∧ l.Pairwise fun x y => x.lanes &&& y.lanes = 0

/-- Every lane of one set is in another. -/
def Within (a b : Lanes) : Prop := a &&& ~~~b = 0

/-- R38: what a table of entries and its selection are once some of them have been unblocked, `now` saying what an entry is then. At a
marked slot where one has been unblocked all that are unblocked there have merged; the others are as `now` has them; the selected split is
still selected, with what it has merged with. -/
def Unblocked (marked : Addr → Bool) (now : Split → Split → Prop) (l : List Split) (sel : Lanes) (l' : List Split) (sel' : Lanes) : Prop :=
  let meets (pc : Addr) : Prop := marked pc = true ∧ ∃ e ∈ l, ∃ x, now e x ∧ e.free = false ∧ x.free = true ∧ x.pc = pc
  Unshared l →
    (∀ e ∈ l, ∀ x, now e x → (x.free = true ∧ meets x.pc → ∃ e' ∈ l', e'.free = true ∧ e'.pc = x.pc ∧ Within x.lanes e'.lanes)
      ∧ (¬(x.free = true ∧ meets x.pc) → x ∈ l'))
    ∧ (∀ e' ∈ l', (e'.free = true ∧ meets e'.pc → ∀ lane, e'.lanes.has lane = true → ∃ e ∈ l, e.lanes.has lane = true
          ∧ ∃ x, now e x ∧ x.free = true ∧ x.pc = e'.pc)
      ∧ (¬(e'.free = true ∧ meets e'.pc) → ∃ e ∈ l, now e e'))
    ∧ (∀ x ∈ l', ∀ y ∈ l', x.free = true → y.free = true → x.pc = y.pc → meets x.pc → x = y)
    ∧ ((∃ e ∈ l, e.lanes = sel) → Within sel sel' ∧ ∃ e' ∈ l', e'.lanes = sel')

/-- What a table of entries is once the barriers of some scopes have departed (R213): the entries that waited there are ready at the next
slot. -/
def Departed (dep : Scope → Prop) (marked : Addr → Bool) : List Split → Lanes → List Split → Lanes → Prop :=
  let goes (e : Split) : Prop := ∃ sc, e.block = .barrier sc ∧ dep sc
  Unblocked marked fun e x => (goes e ∧ x = { e with pc := nextSlot e.pc, block := .ready }) ∨ (¬goes e ∧ x = e)

/-- The same of a suspended table, if there is one. -/
def HandlerDeparted (dep : Scope → Prop) (marked : Addr → Bool) (h h' : Option Handler) : Prop :=
  match h, h' with
  | none, none => True
  | some x, some y => { y with frontier := x.frontier, sel := x.sel } = x ∧ Departed dep marked x.frontier x.sel y.frontier y.sel
  | _, _ => False

/-- What an arrival does to another warp: its tables of entries, those that its checkpoints have captured among them, and nothing
else. -/
def WarpDeparted (dep : Scope → Prop) (marked : Addr → Bool) (w w' : Warp) : Prop :=
  { w' with c := { w'.c with frontier := w.c.frontier, sel := w.c.sel }, ckpts := w.ckpts, handler := w.handler } = w
  ∧ Departed dep marked w.c.frontier w.c.sel w'.c.frontier w'.c.sel ∧ HandlerDeparted dep marked w.handler w'.handler
  ∧ (∀ n, (nth w'.ckpts n).isSome = (nth w.ckpts n).isSome)
  ∧ (∀ n k k', nth w.ckpts n = some k → nth w'.ckpts n = some k' →
      { k' with saved := { k'.saved with frontier := k.saved.frontier, sel := k.saved.sel } } = k
        ∧ Departed dep marked k.saved.frontier k.saved.sel k'.saved.frontier k'.saved.sel)
  ∧ ((∀ sc, ¬dep sc) → w' = w)

end Sys2Proof.Claims

open Sys2Proof Sys2Proof.Machine Sys2Proof.Claims in
/-- R213: BAR and GBAR. The split's lanes arrive and wait; when every lane that a barrier waits for has arrived, all that wait there, of
every warp of its scope, go on at the next slot, where they merge as R38 has it. No register, flag or byte of memory changes, of any warp.
GBAR's scope is the launch, each of whose gangs has started or retired. That a departure, and a merge with it, reaches the tables that
checkpoints have captured and one that a handler has suspended is the model's choice [17]. -/
def Obligations.Barriers : Prop :=
  ∀ (i : Instr) (mine : Scope), ((∃ f, i = .bar f ∧ f.scope = mine) ∨ (∃ f, i = .gbar f ∧ mine = .pkg)) → ∀ s c, Issues i s c →
    let dep (j : Nat) (w : Warp) : Scope → Prop := Departs s c mine j w
    ∃ t, exec i s = .next t ∧ { t with warps := s.warps, gangs := s.gangs } = s
      ∧ (∀ j, (nth t.gangs j).map (fun g => { g with step := none }) = (nth s.gangs j).map fun g => { g with step := none })
      ∧ SameRegs s t ∧ Counted s t ∧ (t.core s.cur).tovf = (s.core s.cur).tovf
      ∧ (∀ lane, FMap.get 0 (t.core s.cur).flags lane = FMap.get 0 (s.core s.cur).flags lane
        ∧ FMap.get [] (t.core s.cur).taint lane =
          if bit c.line (5 + c.pc.toNat % 8) && c.split.lanes.has lane then (FMap.get [] (s.core s.cur).taint lane).tail
          else FMap.get [] (s.core s.cur).taint lane)
      ∧ (∀ j w, j ≠ s.cur → nth s.warps j = some w → ∃ w', nth t.warps j = some w' ∧ WarpDeparted (dep j w) (s.marked c.pi) w w')
      ∧ ∃ w0 w1, nth s.warps s.cur = some w0 ∧ nth t.warps s.cur = some w1
        ∧ { w1 with
            c := w0.c, latch := w0.latch, ckpts := w0.ckpts, slow := w0.slow, serLeft := w0.serLeft, onTrace := w0.onTrace,
            handler := w0.handler } = w0
        ∧ HandlerDeparted (dep c.wi c.w) (s.marked c.pi) w0.handler w1.handler
        ∧ (∀ lane, c.split.lanes.has lane = true →
            (dep c.wi c.w mine → w1.c.pcOf lane = some (nextSlot c.pc))
            ∧ (¬dep c.wi c.w mine → w1.c.pcOf lane = some c.pc ∧ waitsAt w1 mine lane = true))
        ∧ (Unshared c.w.c.frontier → c.split ∈ c.w.c.frontier →
          let goes (e : Split) : Prop := ∃ sc, e.block = .barrier sc ∧ dep c.wi c.w sc
          (∀ e ∈ c.w.c.frontier, e ≠ c.split → ∃ e' ∈ w1.c.frontier, Within e.lanes e'.lanes
            ∧ (goes e → e'.pc = nextSlot e.pc ∧ e'.free = true)
            ∧ (¬goes e → e'.pc = e.pc ∧ e'.free = e.free ∧ (e.free = false → e'.lanes = e.lanes)))
          ∧ ∀ x ∈ w1.c.frontier, ∀ y ∈ w1.c.frontier, x.free = true → y.free = true → x.pc = y.pc → s.marked c.pi x.pc = true →
            ((dep c.wi c.w mine ∧ nextSlot c.pc = x.pc) ∨ ∃ e ∈ c.w.c.frontier, e ≠ c.split ∧ goes e ∧ nextSlot e.pc = x.pc) → x = y)

namespace Sys2Proof.Claims

open Sys2Proof Sys2Proof.Machine

/-- R46, R216: one operation on a deque, its entries bottom first: what it leaves, what it returns and whether it succeeds. A
deque bound to another launch is full for DQADD and empty for the others; one that becomes empty is released. -/
def dequeStep (i : Instr) (li gi : Nat) (entry : KReg) (d : Deque) : Deque × KReg × Bool :=
  let freed (d : Deque) : Deque := if d.entries = [] then {} else d
  if d.launch.any (· != li) then (d, {}, false)
  else match i with
    | .dqadd _ => if d.entries.length < 256 then
        ({ entries := entry :: d.entries, gang := if d.entries = [] then some gi else d.gang, launch := some li }, {}, true)
      else (d, {}, false)
    | .dqtake _ => match d.entries with
      | [] => (d, {}, false)
      | e :: es => (freed { d with entries := es }, e, true)
    | _ => match d.entries.getLast? with
      | none => (d, {}, false)
      | some e => (freed { d with entries := d.entries.dropLast }, e, true)

/-- The operations of an issue one after another, each on the deque of its core, where it names one. -/
def dequeSteps (i : Instr) (li gi : Nat) (entry : Nat → KReg) (core : Nat → Option Nat) :
    List Nat → (Nat → Deque) → (Nat → Deque) × List (Nat × KReg × Bool)
  | [], m => (m, [])
  | u :: us, m =>
    match core u with
    | none =>
      let r := dequeSteps i li gi entry core us m
      (r.1, (u, {}, false) :: r.2)
    | some n =>
      let x := dequeStep i li gi (entry u) (m n)
      let r := dequeSteps i li gi entry core us fun j => if j = n then x.1 else m j
      (r.1, (u, x.2.1, x.2.2) :: r.2)

/-- An entry of the sillage trace that a warp's instruction makes (R289). -/
def traceOf (c : Ctx) (kind body : Nat) : TraceEntry :=
  ⟨BitVec.ofNat 64 (kind + 2 ^ 8 * c.g.lin + 2 ^ 40 * c.w.index + 2 ^ 48 * c.g.die + 2 ^ 51 * c.g.cell), BitVec.ofNat 64 body⟩

/-- The lane that stands for a unit of an issue: for the warp's, its lowest lane of ACTIVE [12]. -/
def laneFor (c : Ctx) (u : Nat) : Nat := if u = 32 then ((List.range 32).find? c.active.has).getD 0 else u

/-- The state after a launch has recorded some entries, if it records (R288). -/
def recorded (s : State) (li : Nat) (es : List TraceEntry) : State := es.foldl (fun s e => s.record li e) s

/-- The entries of some deque operations, each with the deque's core and its place among all of the launch's there since dispatch; `at0`
counts those before (R289). -/
def dequeEntries (c : Ctx) (code : Nat) (core : Nat → Option Nat) : List (Nat × KReg × Bool) → (Nat → Nat) → List TraceEntry
  | [], _ => []
  | x :: xs, at0 => match core x.1 with
    | none => dequeEntries c code core xs at0
    | some n => traceOf c 2 (n % 96 + 2 ^ 7 * code + 2 ^ 9 * x.2.2.toNat + 2 ^ 10 * laneFor c x.1 + 2 ^ 32 * (at0 n + 1))
        :: dequeEntries c code core xs fun j => if j = n then at0 n + 1 else at0 j

/-- R288: what a launch that records does with an entry: 16 bytes after the header and the entries before it, and NENTRY; or, where it
would pass TRACELEN, recording stops. -/
def RecordingWrites : Prop :=
  ∀ (s : State) li l (e : TraceEntry), nth s.launches li = some l →
    (l.lrec.det ≠ 1 ∨ l.overflow = true → s.record li e = s)
    ∧ (l.lrec.det = 1 → l.overflow = false → l.lrec.traceLen < 32 + 16 * (l.traced + 1) →
        (∀ j, j ≠ li → nth (s.record li e).launches j = nth s.launches j)
        ∧ nth (s.record li e).launches li = some { l with overflow := true } ∧ { s.record li e with launches := s.launches } = s)
    ∧ ∀ s1 s2, l.lrec.det = 1 → l.overflow = false → 32 + 16 * (l.traced + 1) ≤ l.lrec.traceLen →
        s.writeVa l.part (l.lrec.trace.toNat + 32 + 16 * l.traced) (leBytes 8 e.head.toNat ++ leBytes 8 e.body.toNat) = some s1 →
        s1.writeVa l.part (l.lrec.trace.toNat + 8) (leBytes 8 (l.traced + 1)) = some s2 →
        { s.record li e with launches := s.launches } = { s2 with launches := s.launches }
        ∧ nth (s.record li e).launches li = (nth s2.launches li).map (fun l => { l with traced := l.traced + 1 })
        ∧ ∀ j, j ≠ li → nth (s.record li e).launches j = nth s2.launches j

/-- R46, R215, R216, R288, R289: the deque operations of a launch that does not replay a trace, in ascending order of lanes or once for the
warp. DQTAKE and DQSTEAL return the entry with its tag, pd tells success, and no deque but those named changes. One that records writes an
entry for each operation on a deque; nothing else changes. -/
def DequeOperations : Prop :=
  ∀ (i : Instr) (f : RegForm), (i = .dqadd f ∨ i = .dqtake f ∨ i = .dqsteal f) → ∀ s c, Issues i s c → c.l.lrec.det ≠ 2 →
    c.w.dqDone &&& c.active = 0 →
    let k := s.core s.cur
    let c' := c.openedIn i s
    let once := match i with
      | .dqadd _ => uniform f.a
      | .dqtake _ => uniform f.dst
      | _ => uniform f.dst && uniform f.a
    let victim (u : Nat) : Nat := valOf k f.a u 32
    let core (u : Nat) : Option Nat :=
      if i = .dqsteal f then if victim u ≤ 95 then some (96 * c.g.die + victim u) else none
      else if 4 * c.g.cell + c.w.core ≤ 95 then some (96 * c.g.die + (4 * c.g.cell + c.w.core)) else none
    let entry (u : Nat) : KReg := ⟨BitVec.ofNat 64 (valOf k f.a u 64), tagIn k f.a u 64 || c'.forcedUnit u⟩
    let r := dequeSteps i c.li c.gi entry core (unitsWhen once c.active) fun n => FMap.get {} s.deques n
    let code := match i with
      | .dqadd _ => 0
      | .dqtake _ => 1
      | _ => 2
    let noted := recorded s c.li (dequeEntries c code core r.2 fun n => FMap.get 0 c.l.dqOrd n)
    ∃ t, exec i s = .next t ∧ IssueFrame i c s t ∧ StraightOn c s t ∧ Counted s t
      ∧ OnlyWarp noted { t with deques := noted.deques, launches := noted.launches }
      ∧ (∀ j, (nth t.launches j).map (fun l => { l with dqOrd := [] }) = (nth noted.launches j).map fun l => { l with dqOrd := [] })
      ∧ (∀ l n, nth t.launches c.li = some l → FMap.get 0 l.dqOrd n = FMap.get 0 c.l.dqOrd n + r.2.countP fun x => core x.1 == some n)
      ∧ (∀ n, FMap.get {} t.deques n = r.1 n)
      ∧ ∀ lane, c.active.has lane = true → FMap.get 0 (t.core s.cur).flags lane = FMap.get 0 k.flags lane
          ∧ ∀ u e ok, u = (if once then 32 else lane) → (u, e, ok) ∈ r.2 →
            (i ≠ .dqadd f → (t.core s.cur).read f.dst lane 64 = (e.bits.toNat, e.tag || c'.forcedUnit u))
            ∧ ∀ inv b, f.d = .p inv b → (t.core s.cur).getP lane b.toNat = ⟨ok, c'.forced c'.w.c lane⟩

/-- R216: DQCNT counts the entries of its own core's deque, or with VIC of the named core's, 0 where another launch holds it. -/
def DequeCount : Prop :=
  ∀ (f : RegForm) s c, Issues (.dqcnt f) s c →
    ∃ t, exec (.dqcnt f) s = .next t ∧ RegisterFrame (.dqcnt f) c s t ∧ ∀ lane, c.active.has lane = true →
      let u := laneOrOnce f.dst lane
      let core := if f.sub.getLsbD 0 then valOf (s.core s.cur) f.a u 32 else 4 * c.g.cell + c.w.core
      let d : Deque := if core ≤ 95 then FMap.get {} s.deques (96 * c.g.die + core) else {}
      FMap.get 0 (t.core s.cur).flags lane = FMap.get 0 (s.core s.cur).flags lane
      ∧ (t.core s.cur).read f.dst lane (fullWidth f.dst 32) = (if d.launch.any (· != c.li) then 0 else d.entries.length % 2 ^ 32,
          (f.sub.getLsbD 0 && tagIn (s.core s.cur) f.a u 32) || (c.openedIn (.dqcnt f) s).forcedFor f.dst lane)

end Sys2Proof.Claims

open Sys2Proof Sys2Proof.Machine Sys2Proof.Claims in
/-- R46, R215, R216: the deque operations of a launch that does not replay a trace, in ascending order of lanes or once for
the warp. DQTAKE and DQSTEAL return the entry with its tag, pd tells success, and no deque but those named changes. R216:
DQCNT counts the entries of its own core's deque, or with VIC of the named core's, 0 where another launch holds it. R288, R289: a launch that
records writes an entry for each operation on a deque. That pd and the result of
an empty deque are P under a P guard is the model's reading [14], and so is the lane that stands for the warp's one operation [12]. -/
def Obligations.Deques : Prop := DequeOperations ∧ DequeCount ∧ RecordingWrites

open Sys2Proof Sys2Proof.Machine Sys2Proof.Claims in
/-- R217, R272: LAUNCH. With ACTIVE empty it has no effect; a record address off a 256-byte boundary takes ALIGN; a record that
is refused gives 0 and changes nothing else; an accepted one is queued, newest, with the sequence number that dst receives. That dst is P under a P guard is the model's reading [14];
which records are accepted is said of submission. -/
def Obligations.DeviceLaunch : Prop :=
  ∀ (f : RegForm) s c, Issues (.launch f) s c →
    let a := valOf (s.core s.cur) f.a 32 64
    let q := valOf (s.core s.cur) f.b 32 64
    let c' := c.openedIn (.launch f) s
    (c.active = 0 → ∃ t, exec (.launch f) s = .next t ∧ RegisterFrame (.launch f) c s t ∧ SameRegs s t)
    ∧ (c.active ≠ 0 → a % 256 ≠ 0 → ∃ t x, exec (.launch f) s = .next t ∧ Takes s c x t ∧ x.cls = .align ∧ x.lanes = c.active
        ∧ x.addr = BitVec.ofNat 64 a)
    ∧ (c.active ≠ 0 → a % 256 = 0 → s.readLaunch c.pi a (some q) = none →
        ∃ t, exec (.launch f) s = .next t ∧ RegisterFrame (.launch f) c s t
          ∧ ∀ b, f.dst = .k b → (t.core s.cur).getK b.toNat = ⟨0, c'.forcedAny c'.w.c⟩)
    ∧ ∀ r kern, c.active ≠ 0 → a % 256 = 0 → s.readLaunch c.pi a (some q) = some (r, kern) →
        ∃ t l, exec (.launch f) s = .next t ∧ IssueFrame (.launch f) c s t ∧ StraightOn c s t ∧ Counted s t
          ∧ OnlyWarp s { t with launches := s.launches, parts := s.parts, nextOrder := s.nextOrder }
          ∧ t.launches = s.launches ++ [l] ∧ l.lrec = r ∧ l.kern = kern ∧ l.queue = some q ∧ l.phase = .queued ∧ l.part = c.pi
          ∧ l.seq = (s.part c.pi).nextSeq
          ∧ (∀ p, nth s.parts c.pi = some p → (t.part c.pi).nextSeq = p.nextSeq + 1)
          ∧ ∀ b, f.dst = .k b → (t.core s.cur).getK b.toNat = ⟨BitVec.ofNat 64 (s.part c.pi).nextSeq, c'.forcedAny c'.w.c⟩

namespace Sys2Proof.Claims

open Sys2Proof Sys2Proof.Machine

/-! Slots, tiles, the matrix unit and engine operations. -/

/-- The value of a uniform operand (R218); 0 for an operand that is not used. -/
def uniformOf (k : WCore) (o : Operand) : Nat := match o with | .k _ => valOf k o 32 64 | _ => 0
def uniformTag (k : WCore) (o : Operand) : Bool := match o with | .k _ => tagIn k o 32 64 | _ => false

def slotIn (s : State) (gi n : Nat) : Option OSlot := (nth s.gangs gi).bind fun g => FMap.get none g.slots n
def tileIn (s : State) (gi n : Nat) : Option Tile := (nth s.gangs gi).bind fun g => FMap.get none g.tiles n

/-- What a tile instruction leaves as it was: all but its warp, its gang's slots and tiles, and the operations in flight; no
sticky flag of a lane. -/
structure TileFrame (i : Instr) (c : Ctx) (s t : State) : Prop extends IssueFrame i c s t, StraightOn c s t, Counted s t where
  rest : { t with warps := s.warps, gangs := s.gangs, ops := s.ops, mops := s.mops, nextOp := s.nextOp } = s
  others : ∀ j, j ≠ s.cur → nth t.warps j = nth s.warps j
  gangs : ∀ j, (nth t.gangs j).map (fun g => { g with step := none, slots := [], tiles := [] })
    = (nth s.gangs j).map fun g => { g with step := none, slots := [], tiles := [] }
  sticky : ∀ lane, FMap.get 0 (t.core s.cur).flags lane = FMap.get 0 (s.core s.cur).flags lane
  away : ∀ j n, j ≠ c.gi → slotIn t j n = slotIn s j n ∧ tileIn t j n = tileIn s j n

/-- A slot with every byte zero and every sector S; a tile with every element zero, every row S and no status flag. -/
def clearSlot (x : OSlot) : Prop := (∀ b, FMap.get 0 x.data b = 0) ∧ ∀ n, FMap.get false x.tags n = false
def clearTile (x : Tile) (mode : TileMode) : Prop :=
  x.mode = mode ∧ (∀ b, FMap.get 0 x.acc b = 0) ∧ (∀ n, FMap.get false x.tags n = false) ∧ x.status = 0

/-- R220, R221: OCLM and ACLM claim an unclaimed slot or tile and clear it, or return 0 and change nothing; a number that the
gang does not own takes SLOT with the number. -/
def SlotAndTileClaims : Prop :=
  (∀ f s c, Issues (.oclm f) s c → c.active ≠ 0 →
    let n := uniformOf (s.core s.cur) f.a
    let c' := c.openedIn (.oclm f) s
    (n < c.l.lrec.slots → ∃ t, exec (.oclm f) s = .next t ∧ TileFrame (.oclm f) c s t
        ∧ (∀ m, tileIn t c.gi m = tileIn s c.gi m) ∧ (∀ m, m ≠ n → slotIn t c.gi m = slotIn s c.gi m)
        ∧ (slotIn s c.gi n = none → ∃ x, slotIn t c.gi n = some x ∧ clearSlot x)
        ∧ (slotIn s c.gi n ≠ none → slotIn t c.gi n = slotIn s c.gi n)
        ∧ ∀ b, f.dst = .k b → (t.core s.cur).getK b.toNat = ⟨if slotIn s c.gi n = none then 1 else 0, c'.forcedAny c'.w.c⟩)
    ∧ (c.l.lrec.slots ≤ n → ∃ t, exec (.oclm f) s = .next t
        ∧ Takes s c { cls := .slot, lanes := c.active, addr := BitVec.ofNat 64 n } t))
  ∧ (∀ f s c, Issues (.aclm f) s c → c.active ≠ 0 →
    let n := uniformOf (s.core s.cur) f.a
    let c' := c.openedIn (.aclm f) s
    (n < c.l.lrec.tiles → ∃ t, exec (.aclm f) s = .next t ∧ TileFrame (.aclm f) c s t
        ∧ (∀ m, slotIn t c.gi m = slotIn s c.gi m) ∧ (∀ m, m ≠ n → tileIn t c.gi m = tileIn s c.gi m)
        ∧ (tileIn s c.gi n = none → ∃ x, tileIn t c.gi n = some x ∧ clearTile x .f32)
        ∧ (tileIn s c.gi n ≠ none → tileIn t c.gi n = tileIn s c.gi n)
        ∧ ∀ b, f.dst = .k b → (t.core s.cur).getK b.toNat = ⟨if tileIn s c.gi n = none then 1 else 0, c'.forcedAny c'.w.c⟩)
    ∧ (c.l.lrec.tiles ≤ n → ∃ t, exec (.aclm f) s = .next t
        ∧ Takes s c { cls := .slot, lanes := c.active, addr := BitVec.ofNat 64 n } t))

/-- R220, R221, R231: once no operation of the gang names the slot or the tile, ORLS and ARLS unclaim it, ACLR clears a claimed
tile in the mode of its type, and ASTAT reads a tile's status word, 0 for an unclaimed one, which `.clr` then clears. -/
def ReleaseClearAndStatus : Prop :=
  (∀ f s c, Issues (.orls f) s c → c.active ≠ 0 →
    let n := uniformOf (s.core s.cur) f.a
    n < c.l.lrec.slots → s.slotBusy c.gi n = false →
    ∃ t, exec (.orls f) s = .next t ∧ TileFrame (.orls f) c s t ∧ SameRegs s t ∧ slotIn t c.gi n = none
      ∧ (∀ m, tileIn t c.gi m = tileIn s c.gi m) ∧ ∀ m, m ≠ n → slotIn t c.gi m = slotIn s c.gi m)
  ∧ (∀ f s c, Issues (.arls f) s c → c.active ≠ 0 →
    let n := uniformOf (s.core s.cur) f.a
    n < c.l.lrec.tiles → s.tileBusy c.gi n = false →
    ∃ t, exec (.arls f) s = .next t ∧ TileFrame (.arls f) c s t ∧ SameRegs s t ∧ tileIn t c.gi n = none
      ∧ (∀ m, slotIn t c.gi m = slotIn s c.gi m) ∧ ∀ m, m ≠ n → tileIn t c.gi m = tileIn s c.gi m)
  ∧ (∀ f s c, Issues (.aclr f) s c → c.active ≠ 0 →
    let n := uniformOf (s.core s.cur) f.a
    n < c.l.lrec.tiles → tileIn s c.gi n ≠ none → s.tileBusy c.gi n = false →
    ∃ t, exec (.aclr f) s = .next t ∧ TileFrame (.aclr f) c s t ∧ SameRegs s t
      ∧ (∃ x, tileIn t c.gi n = some x ∧ clearTile x (if f.ty = .f64 then .f64 else if f.ty = .s32 then .s32 else .f32))
      ∧ (∀ m, slotIn t c.gi m = slotIn s c.gi m) ∧ ∀ m, m ≠ n → tileIn t c.gi m = tileIn s c.gi m)
  ∧ ∀ f s c, Issues (.astat f) s c → c.active ≠ 0 →
    let n := uniformOf (s.core s.cur) f.a
    let c' := c.openedIn (.astat f) s
    n < c.l.lrec.tiles → s.tileBusy c.gi n = false →
    ∃ t, exec (.astat f) s = .next t ∧ TileFrame (.astat f) c s t
      ∧ (∀ m, slotIn t c.gi m = slotIn s c.gi m) ∧ (∀ m, m ≠ n → tileIn t c.gi m = tileIn s c.gi m)
      ∧ tileIn t c.gi n = (tileIn s c.gi n).map (fun x => if f.sub.getLsbD 0 then { x with status := 0 } else x)
      ∧ ∀ b, f.dst = .k b → (t.core s.cur).getK b.toNat = ⟨match tileIn s c.gi n with
          | none => 0
          | some x => BitVec.ofNat 64 (512 + 128 * (match x.mode with | .f32 => 0 | .s32 => 1 | .f64 => 2) + x.status.toNat),
        c'.forcedAny c'.w.c⟩

end Sys2Proof.Claims

open Sys2Proof Sys2Proof.Machine Sys2Proof.Claims in
/-- R220, R221: OCLM and ACLM claim an unclaimed slot or tile and clear it, or return 0 and change nothing; a number that
the gang does not own takes SLOT with the number. R220, R221, R231: once no operation of the gang names the slot or the
tile, ORLS and ARLS unclaim it, ACLR clears a claimed tile in the mode of its type, and ASTAT reads a tile's status word, 0
for an unclaimed one, which `.clr` then clears. That the results of a claim and ASTAT's are P under a P guard is the model's reading [14]. -/
def Obligations.ClaimsAndReleases : Prop := SlotAndTileClaims ∧ ReleaseClearAndStatus

namespace Sys2Proof.Claims

open Sys2Proof Sys2Proof.Machine

/-- Element k of a slot row under an operand type (R79, R80, R222); an integer is its exact value. -/
def slotElement (o : OSlot) (t : Ty) (row k : Nat) : FVal :=
  let byte (off n : Nat) : Nat := leNat ((List.range n).map fun j => FMap.get 0 o.data (128 * row + off + j))
  if t = .b4 then
    let scale := byte 64 1
    (b4Elem (scale / 64) (byte (k / 2) 1 / 16 ^ (k % 2) % 16)).scale ((scale % 64 : Nat) - 32)
  else if t.isInt then FVal.ofInt (intOf t (byte (k * (t.width / 8)) (t.width / 8)))
  else FVal.decode t.fmt (byte (k * (t.width / 8)) (t.width / 8))

/-- The A operand's row m of quarter q (R227); for MMAS, the stored values spread by the metadata's masks (R230). -/
def aElement (x : Mma) (g : Gang) (q m k : Nat) : FVal :=
  let o := (FMap.get none g.slots (x.a % 32)).getD {}
  let row := x.a / 32 % 256 + q * x.m + m
  match x.meta_ with
  | none => slotElement o x.t row k
  | some d =>
    let ms := (FMap.get none g.slots (d % 32)).getD {}
    let mask := (FMap.get 0 ms.data (128 * (d / 32 % 256 + q * x.m + m) + k / 8)).toNat
    let before := (List.range (k % 8)).countP fun p => mask.testBit p
    if mask.testBit (k % 8) ∧ before < x.sparse then slotElement o x.t row (x.sparse * (k / 8) + before) else .fin false 0 0

/-- The B operand from the north or the west edge (R229). -/
def bElement (x : Mma) (g : Gang) (k n : Nat) : FVal :=
  let o := (FMap.get none g.slots (x.b % 32)).getD {}
  if x.b.testBit 5 then slotElement o x.t (x.b / 64 % 256 + k) n else slotElement o x.t (x.b / 64 % 256 + n) k

/-- Whether a sector that holds one of the first n elements of a slot row is P; a B4 row's scale byte stands in its third (R80, R100,
R222). -/
def rowP (o : OSlot) (t : Ty) (row n : Nat) : Bool :=
  ((List.range n).any fun k => FMap.get false o.tags (4 * row + (if t = .b4 then k / 2 else k * (t.width / 8)) / 32))
  || (t = .b4 && FMap.get false o.tags (4 * row + 2))

/-- Whether a sector read for row m of quarter q is P: of the A operand, and for MMAS of the metadata row that spreads it. -/
def aRowP (x : Mma) (g : Gang) (q m : Nat) : Bool :=
  let o := (FMap.get none g.slots (x.a % 32)).getD {}
  let row := x.a / 32 % 256 + q * x.m + m
  match x.meta_ with
  | none => rowP o x.t row x.k
  | some d => rowP o x.t row (x.k / 8 * x.sparse)
      || rowP ((FMap.get none g.slots (d % 32)).getD {}) .n8 (d / 32 % 256 + q * x.m + m) (x.k / 8)

/-- Whether a sector read of the B operand is P. -/
def bP (x : Mma) (g : Gang) : Bool :=
  let o := (FMap.get none g.slots (x.b % 32)).getD {}
  if x.b.testBit 5 then (List.range x.k).any fun k => rowP o x.t (x.b / 64 % 256 + k) x.n
  else (List.range x.n).any fun n => rowP o x.t (x.b / 64 % 256 + n) x.k

/-- The bits of a tile's status that sticky flags raise (R231). -/
def statusOf (f : Flags) : BitVec 6 := BitVec.ofNat 6 ((f.getLsbD 2).toNat + 2 * (f.getLsbD 4).toNat + 4 * (f.getLsbD 5).toNat
  + 8 * (f.getLsbD 6).toNat + 16 * (f.getLsbD 7).toNat)

/-- One accumulation (R91 to R93), with the tile flags of R231. -/
def accumulated (t : Ty) (prior : Nat) (products : List FVal) : Nat × BitVec 6 :=
  let acc : Ty := if t = .f64 then .f64 else .f32
  if t.isInt then
    let v := (products.map (FVal.units 0)).sum + intOf .s32 prior
    ((BitVec.ofInt 32 v).toNat, if least .s32 ≤ v ∧ v ≤ greatest .s32 then 0 else 32)
  else if t = .f32 ∨ t = .f64 then
    let node (x y : FVal) : FVal × Flags :=
      let r := roundTo acc .rn 0 (FVal.sum [x, y] .rn)
      (FVal.decode acc.fmt r.1, r.2)
    let sum := reduce node (products.map some)
    let r := roundTo acc .rn 0 (FVal.sum [FVal.decode acc.fmt prior, sum.1.getD (.fin false 0 0)] .rn)
    (r.1, statusOf (sum.2 ||| r.2))
  else
    let r := roundTo .f32 .rn 0 (FVal.sum (FVal.decode Ty.f32.fmt prior :: products) .rn)
    (r.1, statusOf r.2)

/-- Whether the ranges of a quarter lie in claimed slots and in a claimed tile of the mode of the operands (R220, R226 to R230). -/
def QuarterFits (x : Mma) (g : Gang) (l : Launch) (q : Nat) : Prop :=
  let slot (d : Nat) : Prop := d % 32 < l.lrec.slots ∧ FMap.get none g.slots (d % 32) ≠ none
  x.d < 2 ^ 13 ∧ x.d % 16 < l.lrec.tiles
  ∧ (∃ t, FMap.get none g.tiles (x.d % 16) = some t ∧ t.mode = mmaMode x.t
      ∧ 32 * (x.d / 2 ^ 11) + x.n ≤ if t.mode = .f64 then 64 else 128)
  ∧ x.d / 16 % 128 + q * x.m + x.m ≤ 128
  ∧ x.a < 2 ^ 13 ∧ slot x.a ∧ x.a / 32 + q * x.m + x.m ≤ 256
  ∧ x.b < 2 ^ 14 ∧ slot x.b
  ∧ (if x.b.testBit 5 then x.meta_ = none ∧ x.b / 64 + x.k ≤ 256 ∧ x.n * x.t.width ≤ 1024 ∧ x.t ≠ .b4 else x.b / 64 + x.n ≤ 256)
  ∧ ∀ m, x.meta_ = some m → m < 2 ^ 13 ∧ slot m ∧ m / 32 + q * x.m + x.m ≤ 256

/-- The quarters of a warp that hold a lane of ACTIVE. -/
def quarters (active : Lanes) : List Nat := (List.range 4).filter fun q => (List.range 8).any fun j => active.has (8 * q + j)

end Sys2Proof.Claims

open Sys2Proof Sys2Proof.Machine Sys2Proof.Claims in
/-- R90 to R94, R220, R226 to R231: MMA and MMAS. Each executing quarter accumulates every element of its rows and columns, ORs
the tags of what it reads and of its descriptors into those rows' tags, and its flags into the tile's; nothing else of any tile,
and no slot, changes. A quarter whose ranges do not fit takes SLOT for the lanes of all such quarters. The lanes of SLOT and the
descriptor that it carries are the model's reading [15], and so is the row that a P metadata sector marks [16]. That the
operation takes effect at its issue is the model's choice [20]. -/
def Obligations.MatrixMultiply : Prop :=
  ∀ (i : Instr) (f : RegForm) (sparse : Bool), (i, sparse) = (.mma f, false) ∨ (i, sparse) = (.mmas f, true) → ∀ s c, Issues i s c →
    let k := s.core s.cur
    let c' := c.openedIn i s
    let sub := f.sub.toNat
    let x : Mma := { t := f.ty, m := 8 * 2 ^ (sub / 8 % 4), n := 32 * 2 ^ (sub / 2 % 4)
                     k := if f.ty = .b4 then 128 else 512 / f.ty.width * 2 ^ (sub % 2)
                     d := uniformOf k f.dst, a := uniformOf k f.a, b := uniformOf k f.b
                     meta_ := if sparse then some (uniformOf k f.c) else none, sparse := 2 * (sub / 32) }
    let qs := quarters c.active
    let col := 32 * (x.d / 2 ^ 11 % 4)
    let row (q m : Nat) : Nat := x.d / 16 % 128 + q * x.m + m
    ((∀ q ∈ qs, QuarterFits x c.g c.l q) → s.drainPending c.gi (x.d % 16) = false → qs ≠ [] →
      ∃ t o o', exec i s = .next t ∧ TileFrame i c s t ∧ SameRegs s t ∧ (∀ n, slotIn t c.gi n = slotIn s c.gi n)
        ∧ (∀ n, n ≠ x.d % 16 → tileIn t c.gi n = tileIn s c.gi n)
        ∧ tileIn s c.gi (x.d % 16) = some o ∧ tileIn t c.gi (x.d % 16) = some o' ∧ o'.mode = o.mode
        ∧ (∀ q ∈ qs, ∀ m < x.m, ∀ n < x.n, FMap.get 0 o'.acc (128 * row q m + col + n)
            = BitVec.ofNat 64 (accumulated x.t (FMap.get 0 o.acc (128 * row q m + col + n)).toNat
                ((List.range x.k).map fun j => (aElement x c.g q m j).mul (bElement x c.g j n))).1)
        ∧ (∀ key, (∀ q ∈ qs, ∀ m < x.m, ∀ n < x.n, key ≠ 128 * row q m + col + n) → FMap.get 0 o'.acc key = FMap.get 0 o.acc key)
        ∧ (∀ j, o'.status.getLsbD j = (o.status.getLsbD j || qs.any fun q => (List.range x.m).any fun m => (List.range x.n).any fun n =>
            (accumulated x.t (FMap.get 0 o.acc (128 * row q m + col + n)).toNat
              ((List.range x.k).map fun j => (aElement x c.g q m j).mul (bElement x c.g j n))).2.getLsbD j))
        ∧ (∀ r, (∀ q ∈ qs, ∀ m < x.m, r ≠ row q m) → FMap.get false o'.tags r = FMap.get false o.tags r)
        ∧ (∀ q ∈ qs, ∀ m < x.m, FMap.get false o'.tags (row q m) = (FMap.get false o.tags (row q m)
            || (uniformTag k f.dst || uniformTag k f.a || uniformTag k f.b || (sparse && uniformTag k f.c))
            || ((List.range 8).any fun j => c.active.has (8 * q + j) && c'.forced c'.w.c (8 * q + j))
            || aRowP x c.g q m || bP x c.g))
        ∧ t.nextOp = s.nextOp + qs.length
        ∧ t.mops = s.mops ++ (List.range qs.length).map fun j =>
            ⟨s.nextOp + j, c.gi, [x.a % 32, x.b % 32] ++ x.meta_.toList.map (· % 32), some (x.d % 16)⟩)
    ∧ ((∃ q ∈ qs, ¬QuarterFits x c.g c.l q) → ∃ t y, exec i s = .next t ∧ Takes s c y t ∧ y.cls = .slot
        ∧ ∀ lane, lane < 32 → (y.lanes.has lane = true ↔ c.active.has lane = true ∧ ¬QuarterFits x c.g c.l (lane / 8)))

namespace Sys2Proof.Claims

open Sys2Proof Sys2Proof.Machine

/-- The operands that an engine operation checks at issue (R129, R218, R220, R223, R232, R233, R235, R237 to R240). -/
def EngineReady (i : Instr) (f : RegForm) (s : State) (c : Ctx) : Prop :=
  let k := s.core s.cur
  let v (o : Operand) : Nat := uniformOf k o
  let slotDesc : Prop := v f.dst < 2 ^ 22 ∧ v f.dst / 2 ^ 13 ≠ 0 ∧ v f.dst / 32 % 256 + v f.dst / 2 ^ 13 ≤ 256
    ∧ v f.dst % 32 < c.l.lrec.slots ∧ slotIn s c.gi (v f.dst % 32) ≠ none
  let drainDesc : Prop := v f.dst < 2 ^ 19 ∧ v f.dst / 2 ^ 11 ≠ 0 ∧ v f.dst / 16 % 128 + v f.dst / 2 ^ 11 ≤ 128
    ∧ v f.dst % 16 < c.l.lrec.tiles ∧ tileIn s c.gi (v f.dst % 16) ≠ none ∧ s.drainPending c.gi (v f.dst % 16) = false
  let completion : Prop := v f.c % 8 = 0 ∧ (f.sub.getLsbD 6 = false →
    s.touchesRo { c.access .g 8 8 true false with addr := v f.c } = false
    ∧ ∀ pa e, s.translate c.pi (v f.c) = .ok pa e → e.testBit 3 = false)
  completion ∧ match i with
    | .old _ => slotDesc ∧ match f.sub.toNat % 4 with
      | 0 => v f.a % 16 = 0 ∧ v f.b % 16 = 0
      | 1 => v f.a % (f.ty.width / 8) = 0 ∧ v f.b % (f.ty.width / 8) = 0
      | 2 => v f.a % 16 = 0 ∧ v f.dst / 2 ^ 13 % 8 = 0 ∧ v f.d < 2 ^ 32
      | _ => v f.a % (f.ty.width / 8) = 0
    | .ost _ => slotDesc ∧ v f.a % 16 = 0 ∧ v f.b % 16 = 0
    | .adrn _ => drainDesc ∧ v f.a % 16 = 0 ∧ v f.b % 64 = 0
    | .wupd _ => drainDesc ∧ v f.a % 16 = 0 ∧ v f.b / 2 ^ 32 % 16 = 0
        ∧ (f.ty = .f64 → (tileIn s c.gi (v f.dst % 16)).map (·.mode) = some .f64)
    | .cpy _ => v f.a % 16 = 0 ∧ v f.b % 16 = 0 ∧ v f.d % 16 = 0 ∧ v f.d < 2 ^ 48
    | .cpyr _ => v f.a % 16 = 0 ∧ v f.b % 16 = 0 ∧ v f.d / 2 ^ 12 % 2 ^ 20 = 0
    | .isect _ => v f.b % 64 = 0
    | _ => v f.b % 64 = 0 ∧ v f.c % 32 = 0

/-- The instructions that issue an engine operation. -/
def engineWord : Instr → Option RegForm
  | .old f | .ost f | .adrn f | .wupd f | .cpy f | .cpyr f | .isect f | .dcorm f => some f
  | _ => none

end Sys2Proof.Claims

open Sys2Proof Sys2Proof.Machine Sys2Proof.Claims in
/-- R127, R128, R218, R232: an engine operation whose operands pass its checks, with fewer than eight queued, issues: one new
operation holds the operands, their tag, the RNG state and the issue's PC; it runs, or waits for the warp's open checkpoints to
commit; no register and no byte of memory changes. A drain holds its rows as they stand. With ACTIVE empty nothing issues. That a
drain takes its rows at acceptance is the model's choice [20]. -/
def Obligations.EngineOperationsIssue : Prop :=
  ∀ i f, engineWord i = some f → ∀ s c, Issues i s c →
    let k := s.core s.cur
    let c' := c.openedIn i s
    (c.active = 0 → ∃ t, exec i s = .next t ∧ RegisterFrame i c s t ∧ SameRegs s t)
    ∧ (c.active ≠ 0 → EngineReady i f s c → s.queuedOps c.wi < 8 →
      ∃ t o, exec i s = .next t ∧ TileFrame i c s t ∧ SameRegs s t ∧ t.ops = s.ops ++ [o] ∧ t.mops = s.mops ∧ t.nextOp = s.nextOp
        ∧ o.instr = i ∧ o.gang = c.gi ∧ o.warp = c.wi ∧ o.launch = c.li ∧ o.group = c.w.group ∧ o.kind = c.w.kind ∧ o.pc = c.pc
        ∧ o.dst.toNat = uniformOf k f.dst ∧ o.a.toNat = uniformOf k f.a ∧ o.b.toNat = uniformOf k f.b ∧ o.c.toNat = uniformOf k f.c
        ∧ o.d.toNat = uniformOf k f.d
        ∧ o.tag = (([f.dst, f.a, f.b, f.c, f.d].any (uniformTag k ·)) || c'.forcedAny c'.w.c)
        ∧ o.rngk = k.rngk ∧ o.rngc = k.rngc ∧ o.units = 0
        ∧ o.phase = (if c'.w.ckpts = [] then .running else .queued c'.w.ckpts.length)
        ∧ (∀ n, slotIn t c.gi n = slotIn s c.gi n)
        ∧ (∀ n, ((∃ g, i = .adrn g) ∨ ∃ g, i = .wupd g) ∧ n = uniformOf k f.dst % 16 ∨ tileIn t c.gi n = tileIn s c.gi n)
        ∧ (((∃ g, i = .adrn g) ∨ ∃ g, i = .wupd g) → ∀ x, tileIn s c.gi (uniformOf k f.dst % 16) = some x →
            let row0 := uniformOf k f.dst / 16 % 128
            let count := uniformOf k f.dst / 2 ^ 11
            o.rows = (List.range count).map (fun r => ((List.range (if x.mode = .f64 then 64 else 128)).map fun j =>
              FMap.get 0 x.acc (128 * (row0 + r) + j), FMap.get false x.tags (row0 + r)))
            ∧ ∃ x', tileIn t c.gi (uniformOf k f.dst % 16) = some x' ∧ x'.mode = x.mode ∧ x'.status = x.status
              ∧ (∀ key, ¬(row0 ≤ key / 128 ∧ key / 128 < row0 + count) →
                  FMap.get 0 x'.acc key = FMap.get 0 x.acc key ∧ FMap.get false x'.tags (key / 128) = FMap.get false x.tags (key / 128))
              ∧ (i = .wupd f → ∀ key, row0 ≤ key / 128 → key / 128 < row0 + count →
                  FMap.get 0 x'.acc key = (if f.sub.getLsbD 0 then 0 else FMap.get 0 x.acc key)
                  ∧ FMap.get false x'.tags (key / 128) = (!f.sub.getLsbD 0 && FMap.get false x.tags (key / 128)))))

namespace Sys2Proof.Claims

open Sys2Proof Sys2Proof.Machine

/-! System: services, system registers, handler mode, equivalence points, routing. -/

/-- No byte and no tag of memory has changed. -/
def SameMemory (s t : State) : Prop := t.mem = s.mem ∧ t.tags = s.tags ∧ t.lmem = s.lmem ∧ t.ltags = s.ltags

def SameFlags (s t : State) : Prop := ∀ lane, FMap.get 0 (t.core s.cur).flags lane = FMap.get 0 (s.core s.cur).flags lane

/-- An issue after which its split waits at its PC for an answer or an event (R363). -/
structure BlocksOn (c : Ctx) (b : Block) (s t : State) : Prop extends Counted s t where
  regs : SameRegs s t
  flags : SameFlags s t
  memory : SameMemory s t
  entry : ∃ e ∈ (t.core s.cur).frontier, e.lanes = c.split.lanes ∧ e.pc = c.pc ∧ e.block = b

end Sys2Proof.Claims

open Sys2Proof Sys2Proof.Machine Sys2Proof.Claims in
/-- R255, R260, R261: SVC sends its request, tells the die's firmware and waits; TLBI waits for the removal; IDLE waits unless
its deadline has come (0) or an event stands in the die's queue (1). With ACTIVE empty none has an effect. That IDLE looks at the
die's event queue is the model's reading [19], and so is that the answers are P under a P guard [14]. -/
def Obligations.ServicesAndWaits : Prop :=
  (∀ i s c, ((∃ f, i = .svc f) ∨ (∃ f, i = .tlbi f) ∨ ∃ f, i = .idle f) → Issues i s c → c.active = 0 →
    ∃ t, exec i s = .next t ∧ RegisterFrame i c s t ∧ SameRegs s t)
  ∧ (∀ (f : ImmForm) s c, Issues (.svc f) s c → c.active ≠ 0 →
    let c' := c.openedIn (.svc f) s
    ∃ t r, exec (.svc f) s = .next t ∧ BlocksOn c (.svc r (c'.forcedAny c'.w.c) none) s t ∧ f.dst = .k r
      ∧ t.requests = s.requests ++ [⟨c.g.die, f.imm, BitVec.ofNat 64 (valOf (s.core s.cur) f.a 32 64), c.gi, c.wi, c.split.lanes⟩]
      ∧ FMap.get [] t.events c.g.die = FMap.get [] s.events c.g.die ++ [BitVec.ofNat 64 (5 + 256 * c.g.lin)]
      ∧ { t with warps := s.warps, gangs := s.gangs, requests := s.requests, events := s.events } = s)
  ∧ (∀ (f : RegForm) s c, Issues (.tlbi f) s c → c.active ≠ 0 →
    ∃ t, exec (.tlbi f) s = .next t ∧ OnlyWarp s t
      ∧ BlocksOn c (.tlbi (if f.sub = 0 then some (BitVec.ofNat 64 (valOf (s.core s.cur) f.a 32 64)) else none)) s t)
  ∧ ∀ (f : RegForm) s c, Issues (.idle f) s c → c.active ≠ 0 →
    let c' := c.openedIn (.idle f) s
    let deadline := valOf (s.core s.cur) f.a 32 64
    let gives (x : Word64) : Prop := ∃ t, exec (.idle f) s = .next t ∧ RegisterFrame (.idle f) c s t ∧ SameFlags s t
      ∧ ∃ r, f.dst = .k r ∧ (t.core s.cur).getK r.toNat = ⟨x, c'.forcedAny c'.w.c⟩
    (deadline ≤ s.pkg.clock.toNat → gives 0)
    ∧ (s.pkg.clock.toNat < deadline → FMap.get [] s.events c.g.die ≠ [] → gives 1)
    ∧ (s.pkg.clock.toNat < deadline → FMap.get [] s.events c.g.die = [] → ∃ t r, exec (.idle f) s = .next t ∧ OnlyWarp s t
        ∧ f.dst = .k r ∧ BlocksOn c (.idle r (c'.forcedAny c'.w.c) (BitVec.ofNat 64 deadline) false) s t)

namespace Sys2Proof.Claims

open Sys2Proof Sys2Proof.Machine

/-- R256, R317: whether a block of system addresses is mapped for the issuing warp. -/
def Mapped (s : State) (c : Ctx) (block : Nat) : Prop :=
  let present (d : Nat) : Prop := (s.part c.pi).dies.getLsbD d = true ∧ s.pkg.dies.getLsbD d = true
  if c.w.handler = none then block = 0 ∨ (1 ≤ block ∧ block ≤ 8 ∧ present (block - 1)) ∨ block = 0x10 ∨ block = 0x11 ∨ block = 0x12
  else block = 0x20

/-- The block and offset of a register (R123, R256, R277, R291, R317, R319, R341); the management function's are in none. -/
def registerAt : Reg → Option (Nat × Nat)
  | .consctl d => if d < 8 then some (1 + d, 0x40) else none
  | .qcfg q => if q < 64 then some (0x10, 0x1000 + 16 * q) else none
  | .qstat q => if q < 64 then some (0x10, 0x1008 + 16 * q) else none
  | .ectl => some (0x11, 0x00) | .eintv => some (0x11, 0x04) | .estat => some (0x11, 0x08) | .ecmdaddr => some (0x11, 0x10)
  | .ecmd => some (0x11, 0x18) | .eevbase => some (0x11, 0x20) | .eevsize => some (0x11, 0x28) | .eevhead => some (0x11, 0x2C)
  | .eevtail => some (0x11, 0x30)
  | .epool d => if d < 8 then some (0x11, 0x100 + 8 * d) else none
  | .eload e => if e < 4096 then some (0x11, 0x10000 + 8 * e) else none
  | .ptroot => some (0x12, 0x80) | .prbase => some (0x12, 0x88) | .prcount => some (0x12, 0x90) | .frbase => some (0x12, 0xA0)
  | .frsize => some (0x12, 0xA8) | .frhead => some (0x12, 0xAC) | .frtail => some (0x12, 0xB0) | .freplay => some (0x12, 0xB8)
  | .ctxbase => some (0x12, 0xC0) | .ctxsize => some (0x12, 0xC8)
  | .rbase n => ring n 0x00 | .rsize n => ring n 0x08 | .rhead n => ring n 0x0C | .rtail n => ring n 0x10 | .rerr n => ring n 0x14
  | .cbase n => ring n 0x18 | .csize n => ring n 0x20 | .ctail n => ring n 0x24 | .chead n => ring n 0x28
  | .epc => some (0x20, 0x00) | .emask => some (0x20, 0x08)
  | .frec k => if k < 16 then some (0x20, 0x40 + 4 * k) else none
  | .caps _ | .bustat | .capptr | .partn _ | .carve _ _ => none
where
  ring (n off : Nat) : Option (Nat × Nat) := if n < 16 then some (0x12, 0x1000 + 64 * n + off) else none

end Sys2Proof.Claims

open Sys2Proof Sys2Proof.Machine Sys2Proof.Claims in
/-- R256, R257: SRD and SWR. A misaligned address takes ALIGN, an unmapped block BUS; a read gives what the register holds, in
every lane of ACTIVE, where a whole register of the block stands its value, and the registers stand where the spec's tables say; a
write leaves what writing the register leaves. With ACTIVE empty neither has an effect. That ALIGN and BUS carry the system address is
the model's reading [15], that a half of a register and an offset without one can be read too is [34], and so is that a result is P
under a P guard [14]. -/
def Obligations.SystemAccesses : Prop :=
  (∀ (s : State) (a : Agent) r block off b, registerAt r = some (block, off) → 7 ≤ s.pkg.stage → s.block a (block * 2 ^ 24 + off) = some b →
    b off = some (r, false))
  ∧ ∀ (i : Instr) (f : RegForm), (i = .srd f ∨ i = .swr f) → ∀ s c, Issues i s c →
    let k := s.core s.cur
    let c' := c.openedIn i s
    let a := valOf k f.a 32 32
    let n := f.ty.width / 8
    (c.active = 0 → ∃ t, exec i s = .next t ∧ RegisterFrame i c s t ∧ SameRegs s t)
    ∧ (c.active ≠ 0 → a % n ≠ 0 → ∃ t x, exec i s = .next t ∧ Takes s c x t ∧ x.cls = .align ∧ x.lanes = c.active
        ∧ x.addr = BitVec.ofNat 64 a)
    ∧ (c.active ≠ 0 → a % n = 0 → ¬Mapped s c (a / 2 ^ 24) → ∃ t x, exec i s = .next t ∧ Takes s c x t ∧ x.cls = .bus
        ∧ x.lanes = c.active ∧ x.addr = BitVec.ofNat 64 a)
    ∧ (c.active ≠ 0 → a % n = 0 → Mapped s c (a / 2 ^ 24) → ∃ b, s.block c.agent a = some b
        ∧ (i = .srd f → ∃ t, exec i s = .next t ∧ RegisterFrame i c s t ∧ SameFlags s t ∧ ∀ lane, c.active.has lane = true →
            (t.core s.cur).read f.dst lane (fullWidth f.dst f.ty.width)
              = (s.readBlock c.agent b (a % 2 ^ 24) n % 2 ^ f.ty.width, c'.forcedFor f.dst lane))
        ∧ (∀ r, b (a % 2 ^ 24) = some (r, false) → n = (if r.wide then 8 else 4) →
            s.readBlock c.agent b (a % 2 ^ 24) n % 2 ^ f.ty.width = s.regValue c.agent r % 2 ^ f.ty.width)
        ∧ (i = .swr f → ∃ t, exec i s = .next t ∧ SameRegs s t ∧ SameFlags s t ∧ SameMemory s t ∧ Counted s t ∧ StraightOn c s t
            ∧ let u := s.writeBlock c.agent b (a % 2 ^ 24) n (valOf k f.b 32 f.ty.width)
              t.parts = u.parts ∧ t.pkg = u.pkg ∧ t.ops = u.ops ∧ t.events = u.events
              ∧ (nth t.warps s.cur).map (·.handler) = (nth u.warps s.cur).map (·.handler)))

open Sys2Proof Sys2Proof.Machine Sys2Proof.Claims in
/-- R258, R259: ERET. The saved frontier table returns, the live lanes of the faulted entry that EMASK names standing at EPC; the
windows return, and no register changes. An EPC that breaks R140 or is unmarked takes TARGET for the lanes that would have gone
there; where its line cannot be read, those lanes take what an access to it meets, FATAL as every fault in handler mode. That the windows
return is the model's reading of R259 [39], and so are the lanes of TARGET and the fault of an unread line [15]. -/
def Obligations.HandlerReturn : Prop :=
  ∀ (f : RegForm) s c h, Issues (.eret f) s c → c.w.handler = some h →
    (s.marked c.pi h.epc = true →
      ∃ t w, exec (.eret f) s = .next t ∧ OnlyWarp s t ∧ SameRegs s t ∧ SameFlags s t ∧ Counted s t
        ∧ nth t.warps s.cur = some w ∧ w.handler = none ∧ w.c.windows = h.windows
        ∧ ∀ lane pc, (∃ e ∈ w.c.frontier, e.lanes.has lane = true ∧ e.pc = pc) ↔
            ∃ e ∈ h.frontier, e.lanes.has lane = true
              ∧ if e.lanes &&& h.faulted = 0 then pc = e.pc
                else c.w.live.has lane = true ∧ pc = if h.emask.getLsbD lane then h.epc else e.pc)
    ∧ (s.marked c.pi h.epc = false → (pcOk h.epc = true → s.lineUnread c.pi h.epc = none) →
        ∃ t, exec (.eret f) s = .next t ∧ Takes s c { cls := .target, lanes := h.faulted &&& h.emask &&& c.w.live } t)
    ∧ ∀ x, pcOk h.epc = true → s.lineUnread c.pi h.epc = some x →
        ∃ t y, exec (.eret f) s = .next t ∧ Takes s c y t ∧ y.lanes = h.faulted &&& h.emask &&& c.w.live
          ∧ y.addr.toNat = h.epc.toNat / 64 * 64
          ∧ match x with
            | .sleep _ none => y.cls = .translation ∧ y.cause = 0
            | .sleep _ (some _) => y.cls = .recompute ∧ y.cause = 0
            | .fault cls cause _ => y.cls = cls ∧ y.cause = cause

namespace Sys2Proof.Claims

open Sys2Proof Sys2Proof.Machine

/-- Where a register map's pairs take a new register of a class from: the last pair that names it (R331). -/
def sourceIn (cls m : Nat) (pairs : List (Nat × Nat)) : Option Nat :=
  pairs.reverse.findSome? fun x =>
    if x.1 / 2 ^ 14 % 4 = cls ∧ x.2 % 256 = m then some (x.1 % 256)
    else if cls = 0 ∧ x.1 / 2 ^ 14 % 4 = 1 then
      if m = x.2 % 256 + 1 then some (x.1 % 256 + 1) else if m = x.2 % 256 then some (x.1 % 256) else none
    else none

/-- What an EQP leaves that takes no migration: LEQIX, and NOSLOT where one was asked for and found no slot. -/
def StaysAt (idx : Word32) (c : Ctx) (noslot : Bool) (s t : State) : Prop :=
  OnlyWarp s t ∧ SameRegs s t ∧ SameFlags s t ∧ Counted s t ∧ StraightOn c s t ∧ (t.core s.cur).leqix = idx
    ∧ ∃ w, nth t.warps s.cur = some w ∧ w.kind = c.w.kind ∧ w.core = c.w.core ∧ w.migp = c.w.migp ∧ w.sched = c.w.sched
      ∧ w.noslot = noslot

end Sys2Proof.Claims

open Sys2Proof Sys2Proof.Machine Sys2Proof.Claims in
/-- R44, R45, R245 to R247: EQP writes LEQIX; where a migration is asked for, every live lane stands in the split with an empty
taint stack and nothing of the warp is outstanding, it moves the warp to a core of the other kind of its cell, with the mapped
registers and the others zero and S, or shows that none has a slot. MIGR posts or withdraws a request, and MIGQ reads it. The
launch replays no trace; one that records writes an entry for a migration (R288, R289). That what MIGQ writes is P under a P guard is the
model's reading [14]. -/
def Obligations.EquivalencePoints : Prop :=
  (∀ (f : ImmForm) s c, Issues (.eqp f) s c → c.l.lrec.det ≠ 2 →
    let other := otherKind c.w.kind
    let ready := c.w.migp = true ∧ c.split.lanes = c.w.live ∧ ∀ lane, c.w.live.has lane = true → poppedTaint s c lane = []
    (c.l.kern.variant other = none ∨ ¬ready → ∃ t, exec (.eqp f) s = .next t ∧ StaysAt f.imm c c.w.noslot s t)
    ∧ ∀ v, c.l.kern.variant other = some v → ready → (c.openedIn (.eqp f) s).w.ckpts = [] → c.w.slow = false → c.w.asleep = false →
        (s.migrationCore c.g.die c.g.cell other v.regs = none → ∃ t, exec (.eqp f) s = .next t ∧ StaysAt f.imm c true s t)
        ∧ ∀ dest, s.migrationCore c.g.die c.g.cell other v.regs = some dest →
          let pairs := ((s.eqPairs c.pi c.l.kern f.imm.toNat).getD []).map fun x => if c.w.kind = .l then x else (x.2, x.1)
          let noted := recorded s c.li [traceOf c 3 (f.imm.toNat + 2 ^ 32 * (FMap.get 0 c.w.c.eqSeen f.imm.toNat + 1))]
          ∃ t w, exec (.eqp f) s = .next t ∧ nth t.warps s.cur = some w ∧ { t with warps := noted.warps, gangs := noted.gangs } = noted
            ∧ (∀ j, j ≠ s.cur → nth t.warps j = nth noted.warps j)
            ∧ w.kind = other ∧ w.core = dest ∧ w.migp = false ∧ w.sched = false ∧ w.noslot = false ∧ w.c.leqix = f.imm
            ∧ w.c.frontier = [⟨c.w.live, nextSlot (c.l.kern.eqPc other f.imm.toNat), 0, .ready⟩]
            ∧ SameFlags s t ∧ Counted s t
            ∧ (∀ lane m, lane < 32 → m < 256 → w.c.getV lane m = match sourceIn 0 m pairs with
                | some n => (s.core s.cur).getV lane n
                | none => {})
            ∧ (∀ m, m < 64 → w.c.getK m = match sourceIn 2 m pairs with
                | some n => (s.core s.cur).getK n
                | none => {})
            ∧ ∀ lane m, lane < 32 → m < 16 → w.c.getP lane m = match sourceIn 3 m pairs with
                | some n => (s.core s.cur).getP lane n
                | none => {})
  ∧ (∀ (f : RegForm) s c, Issues (.migr f) s c → ∃ t w, exec (.migr f) s = .next t ∧ OnlyWarp s t ∧ SameRegs s t ∧ SameFlags s t
      ∧ Counted s t ∧ StraightOn c s t ∧ nth t.warps s.cur = some w
      ∧ (w.migp, w.sched, w.noslot) = if c.active = 0 then (c.w.migp, c.w.sched, c.w.noslot)
          else if f.sub.getLsbD 0 then (false, false, false) else (true, c.w.sched, c.w.noslot))
  ∧ ∀ (f : RegForm) s c, Issues (.migq f) s c → ∃ t, exec (.migq f) s = .next t ∧ RegisterFrame (.migq f) c s t ∧ SameFlags s t
      ∧ ∀ lane, c.active.has lane = true → (t.core s.cur).read f.dst lane (fullWidth f.dst 32)
        = ((if c.w.kind = .l then 0 else 8) + 4 * c.w.noslot.toNat + 2 * c.w.sched.toNat + c.w.migp.toNat,
           (c.openedIn (.migq f) s).forcedFor f.dst lane)

namespace Sys2Proof.Claims

open Sys2Proof Sys2Proof.Machine

/-- R250: the grants of an issue one after another, each by the table as the one before has left its counts. -/
def routes (det : Bool) (ask : Nat → Nat × Nat) : List Nat → Etesian → Etesian × List (Nat × Option (Nat × Copy))
  | [], t => (t, [])
  | u :: us, t =>
    let got := t.choose det (ask u).1 (ask u).2
    let t' := match got with
      | some x => t.granted x.1.eid x.2.rep
      | none => t
    let r := routes det ask us t'
    (r.1, (u, got.map fun x => (x.1.eid, x.2)) :: r.2)

/-- R295: a copy's outstanding count divided by its share of the routes of the last completed interval. -/
def weight (x : Expert) (k : Copy) : ℚ :=
  k.outstanding / (match k.lastRoutes with
    | some r => if r = 0 ∨ x.lastRoutes = 0 then 1 else r / x.lastRoutes
    | none => 1)

/-- R252: the releases of an issue one after another: the grants left, those released, and each unit's answer. -/
def releases (word : Nat → Nat) : List Nat → List Grant → List Grant × List Grant × List (Nat × Bool)
  | [], l => (l, [], [])
  | u :: us, l =>
    let w := word u
    let fits (g : Grant) : Bool := w / 2 ^ 24 = 0 && g.ver == w % 2 ^ 16 && g.die == w / 2 ^ 16 % 8 && g.rep == w / 2 ^ 19 % 32
    match (l.filter fits).find? fun g => (l.filter fits).all fun h => g.eid ≤ h.eid with
    | some g =>
      let r := releases word us (l.erase g)
      (r.1, g :: r.2.1, (u, true) :: r.2.2)
    | none =>
      let r := releases word us l
      (r.1, r.2.1, (u, false) :: r.2.2)

end Sys2Proof.Claims

open Sys2Proof Sys2Proof.Machine Sys2Proof.Claims in
/-- R248 to R253, R288, R289, R294, R295: ROUTE of a launch that replays no trace grants each lane of ACTIVE, or the warp once, the copy
that Choose picks, in deterministic mode where the launch records, which it does with an entry for each; it counts the grant and writes its
route word, expert, base and pd. RTREL releases grants of the launch; RTVER reads
VER. In normal mode Choose picks, among the copies of the current version that are not quarantined, the one with the least
outstanding count for its share of routes, of equal ones that of the lowest REP; in deterministic mode the one that the token's
block names in ascending REP. It picks one of a registered expert wherever there is one. That pd and what RTVER writes are P
under a P guard is the model's reading [14], and so is the lane that stands for the warp's one ROUTE in the trace [12]. -/
def Obligations.RoutingInstructions : Prop :=
  (∀ (f : RegForm) s c, Issues (.route f) s c → c.l.lrec.det ≠ 2 → c.pi < s.parts.length →
    let k := s.core s.cur
    let c' := c.openedIn (.route f) s
    let et := (s.part c.pi).et
    let r := routes (c.l.lrec.det == 1) (fun u => (valOf k f.a u 32, valOf k f.b u 32)) (unitsWhen (uniform f.dst) c.active) et
    let ordinal := FMap.get 0 c.l.rtOrd (64 * c.g.lin + c.w.index) + 1
    let noted := recorded s c.li (r.2.map fun x => traceOf c 4 (et.ver + 2 ^ 16 * laneFor c x.1 + 2 ^ 32 * ordinal))
    c.l.lrec.det ≤ 2 → ∃ t, exec (.route f) s = .next t ∧ IssueFrame (.route f) c s t ∧ StraightOn c s t ∧ Counted s t ∧ SameFlags s t
      ∧ OnlyWarp noted { t with parts := noted.parts, launches := noted.launches }
      ∧ (∀ j, (nth t.launches j).map (fun l => { l with grants := [], rtOrd := [] })
          = (nth noted.launches j).map fun l => { l with grants := [], rtOrd := [] })
      ∧ (t.part c.pi).et = r.1
      ∧ (nth t.launches c.li).map (·.grants) = (nth s.launches c.li).map (fun l => l.grants ++ r.2.filterMap fun x =>
          x.2.map fun y => (⟨et.ver, y.2.die, y.2.rep, y.1⟩ : Grant))
      ∧ ∀ lane, c.active.has lane = true → ∀ u got, u = laneOrOnce f.dst lane → (u, got) ∈ r.2 →
          let tag := tagIn k f.a u 32 || tagIn k f.b u 32 || c'.forcedFor f.dst lane
          let word := match got with
            | some y => et.ver % 2 ^ 16 + 2 ^ 16 * y.2.die + 2 ^ 19 * y.2.rep + 2 ^ 32 * y.1
            | none => 0
          let base := match got with
            | some y => y.2.base.toNat
            | none => 0
          (∀ b, f.dst = .v b → (t.core s.cur).readVs lane b.toNat 4 = ((word + 2 ^ 64 * base) % 2 ^ 128, tag))
          ∧ (∀ b, f.dst = .k b → (t.core s.cur).getK b.toNat = ⟨BitVec.ofNat 64 word, tag⟩
              ∧ (t.core s.cur).getK (b.toNat + 1) = ⟨BitVec.ofNat 64 ((word + 2 ^ 64 * base) / 2 ^ 64), tag⟩)
          ∧ ∀ inv b, f.d = .p inv b → (t.core s.cur).getP lane b.toNat = ⟨got.isSome, c'.forced c'.w.c lane⟩)
  ∧ (∀ (f : RegForm) s c, Issues (.rtrel f) s c →
    let k := s.core s.cur
    let c' := c.openedIn (.rtrel f) s
    let r := releases (fun u => valOf k f.a u 32) (unitsWhen (uniform f.a) c.active) c.l.grants
    ∃ t, exec (.rtrel f) s = .next t ∧ IssueFrame (.rtrel f) c s t ∧ StraightOn c s t ∧ Counted s t ∧ SameFlags s t
      ∧ OnlyWarp s { t with parts := s.parts, launches := s.launches }
      ∧ (nth t.launches c.li).map (·.grants) = some r.1
      ∧ (∀ eid rep x y, (s.copyOf c.pi eid rep) = some x → (t.copyOf c.pi eid rep) = some y →
          y.2.outstanding = x.2.outstanding - r.2.1.countP fun g => g.eid = eid && g.rep = rep)
      ∧ ∀ lane, c.active.has lane = true → ∀ u ok inv b, u = (if uniform f.a then 32 else lane) → (u, ok) ∈ r.2.2 →
          f.d = .p inv b → (t.core s.cur).getP lane b.toNat = ⟨ok, c'.forced c'.w.c lane⟩)
  ∧ (∀ (f : RegForm) s c, Issues (.rtver f) s c → ∃ t, exec (.rtver f) s = .next t ∧ RegisterFrame (.rtver f) c s t ∧ SameFlags s t
      ∧ ∀ lane, c.active.has lane = true → (t.core s.cur).read f.dst lane (fullWidth f.dst 32)
        = ((s.part c.pi).et.ver % 2 ^ 16, (c.openedIn (.rtver f) s).forcedFor f.dst lane))
  ∧ (∀ (t : Etesian) eid token x k, t.choose false eid token = some (x, k) →
      eid ≤ 4095 ∧ x ∈ t.experts ∧ x.eid = eid ∧ x.registered = true ∧ k ∈ x.copies ∧ k.phase = .live ∧ k.published = true
      ∧ k.quarantined = false
      ∧ ∀ j ∈ x.copies, j.phase = .live → j.published = true → j.quarantined = false →
          weight x k ≤ weight x j ∧ (weight x k = weight x j → k.rep ≤ j.rep))
  ∧ (∀ (t : Etesian) det eid token x k, eid ≤ 4095 → x ∈ t.experts → x.eid = eid → x.registered = true →
      (∀ y ∈ t.experts, y.eid = eid → y = x) → k ∈ x.copies → k.phase = .live → k.published = true → k.quarantined = false →
      k.rep < 32 → (t.choose det eid token).isSome = true)
  ∧ (∀ (t : Etesian) eid rep, let t' := t.granted eid rep
      (∀ e, FMap.get 0 t'.loads e = FMap.get 0 t.loads e + if e = eid then 1 else 0)
      ∧ { t' with loads := t.loads, experts := t.experts } = t
      ∧ t'.experts = t.experts.map fun x => if x.eid ≠ eid then x else { x with
          routes := x.routes + 1
          copies := x.copies.map fun k => if k.rep ≠ rep then k else
            { k with routes := k.routes + 1, outstanding := k.outstanding + 1 } })
  ∧ ∀ (t : Etesian) eid token x k, t.choose true eid token = some (x, k) → (x.copies.map (·.rep)).Nodup → (∀ j ∈ x.copies, j.rep < 32) →
      let live := x.copies.filter fun j => decide (j.phase = .live) && j.published && !j.quarantined
      k ∈ live ∧ (live.filter fun j => j.rep < k.rep).length = token / 128 % live.length

namespace Sys2Proof.Claims

open Sys2Proof Sys2Proof.Machine

/-! Control registers from outside, waits that end, checkpoints. -/

/-- The registers that keep what is written to them, and the bits that they have (R10, R291, R301, R319, R341). -/
def plainBits : Reg → Option Nat
  | .ectl => some 0x07FFFF01
  | .ecmdaddr | .eevbase | .ptroot | .prbase | .frbase | .ctxbase | .ctxsize => some (2 ^ 64 - 1)
  | .eevsize => some 31
  | .frsize => some 15
  | .eevhead | .frhead | .chead _ => some (2 ^ 32 - 1)
  | _ => none

/-- The registers that no write changes (R10, R258, R277, R294, R301, R318, R341, R351, R356). -/
def readOnly : Reg → Bool
  | .qstat _ | .eevtail | .eload _ | .frtail | .rhead _ | .ctail _ | .caps _ | .bustat | .capptr | .frec _ => true
  | _ => false

/-- R277: MAXQ and MINQ after a write that carries m and n. -/
def quanta (m0 n0 m n : Nat) : Nat × Nat :=
  if m ≠ 0 ∧ n ≠ 0 then (if n ≤ m then (m, n) else (m0, n0))
  else if m ≠ 0 then (if n0 ≤ m then m else m0, n0)
  else if n ≠ 0 then (m0, if n ≤ m0 then n else n0)
  else (m0, n0)

end Sys2Proof.Claims

open Sys2Proof Sys2Proof.Machine Sys2Proof.Claims in
/-- R10, R123, R277, R291, R293, R310, R319, R341, R350, R351: what a write of a whole register from outside the device leaves, register by
register; a write of half of a wide one leaves its other half as it reads. One at an unmapped block changes nothing, and before READY
neither does one at a ring register, PARTn or CARVEn_j. A ring's doorbell either takes the new entries or raises RERR. That a
doorbell reads the entries at once, so that they stand as they were then, is the model's reading [28], and so is what a ring that
is off does [34]. -/
def Obligations.RegisterWrites : Prop :=
  (∀ s p die (addr : Word32) size value b r, s.block ⟨p, die, none⟩ addr.toNat = some b → b (addr.toNat % 2 ^ 24) = some (r, false) →
    size = (if r.wide then 8 else 4) → addr.toNat % size = 0 → p < s.parts.length →
    let a : Agent := ⟨p, die, none⟩
    let v := value.toNat % 2 ^ (8 * size)
    let old := s.regValue a r
    ∃ t, exec (.registerWrite (.sys p die addr) size value) s = .next t
      ∧ (∀ m, plainBits r = some m → t.regValue a r = v &&& m ∧ ∀ r', r' ≠ r → t.regValue a r' = s.regValue a r')
      ∧ (readOnly r = true → t = s)
      ∧ (∀ q, r = .qcfg q → t.regValue a r
          = (let x := quanta (old / 2 ^ 48) (old / 2 ^ 32 % 2 ^ 16) (v / 2 ^ 48) (v / 2 ^ 32 % 2 ^ 16)
             2 ^ 48 * x.1 + 2 ^ 32 * x.2 + 2 ^ 16 * (if v / 2 ^ 16 % 2 ^ 16 = 0 then old / 2 ^ 16 % 2 ^ 16 else v / 2 ^ 16 % 2 ^ 16) + v % 32))
      ∧ (r = .eintv → t.regValue a r = 2 ^ 16 * (if v / 2 ^ 16 = 0 then old / 2 ^ 16 else v / 2 ^ 16)
          + (if v % 2 ^ 16 = 0 then old % 2 ^ 16 else v % 2 ^ 16))
      ∧ (r = .estat → (t.part p).et = { (s.part p).et with lost := v / 2 ^ 8 % 2 ^ 8 })
      ∧ (r = .ecmd →
          (v % 2 ^ 4 = 0 → (t.part p).et = (s.part p).et)
          ∧ (v % 2 ^ 4 ≠ 0 → (s.part p).et.busy = true → (t.part p).et = { (s.part p).et with result := 4 })
          ∧ (v % 2 ^ 4 ≠ 0 → (s.part p).et.busy = false →
              ∃ x, (t.part p).et = { (s.part p).et with busy := true, op := v % 2 ^ 4, result := x }))
      ∧ (∀ d, r = .epool d → t.regValue a r = if 96 < v / 2 ^ 8 % 2 ^ 8 + v / 2 ^ 16 % 2 ^ 8 then old
          else 2 ^ 8 * (v / 2 ^ 8 % 2 ^ 8) + 2 ^ 16 * (v / 2 ^ 16 % 2 ^ 8))
      ∧ (r = .freplay → t.regValue a r = 0
          ∧ exec (if value.getLsbD 0 then .freplayCancel p value else .freplayReissue p value) s = .next t)
      ∧ (r = .prcount → t.regValue a r = if 4096 < v then old else v)
      ∧ (∀ d, r = .consctl d → t.regValue a r = v / 2 ^ 12 % 2 ^ 18 * 2 ^ 12 + (if v % 16 = 0 then old % 16 else v % 16))
      ∧ (∀ n, r = .rbase n ∨ r = .cbase n → t.regValue a r = if (s.ring p n).head = (s.ring p n).tail then v else old)
      ∧ (∀ n, r = .rsize n ∨ r = .csize n → t.regValue a r = if (s.ring p n).head = (s.ring p n).tail then v % 16 else old)
      ∧ (∀ n, r = .rerr n → t.regValue a r = if v % 2 = 1 then 0 else old)
      ∧ (∀ n, r = .rtail n →
          let k := (s.ring p n).size.toNat % 16
          let ahead := (BitVec.ofNat 32 v - (s.ring p n).tail).toNat
          let past := (BitVec.ofNat 32 v - (s.ring p n).head).toNat
          if 4 ≤ k ∧ k ≤ 12 ∧ ahead ≤ past ∧ past ≤ 2 ^ k then
            t.regValue a r = v ∧ t.regValue a (.rerr n) = s.regValue a (.rerr n)
            ∧ ∃ es : List (List Byte), (t.ring p n).entries = (s.ring p n).entries ++ es ∧ es.length = ahead
              ∧ ∀ m < ahead, es.getD m [] = match s.readVa p ((s.ring p n).base.toNat
                    + 64 * (((s.ring p n).tail.toNat + m) % 2 ^ k)) 64 with
                | .ok bs => bs
                | .error _ => []
          else t.regValue a r = old ∧ t.regValue a (.rerr n) = 1))
  ∧ (∀ s p die (addr : Word32) size value, size = 4 ∨ size = 8 → addr.toNat % size = 0 → s.block ⟨p, die, none⟩ addr.toNat = none →
      exec (.registerWrite (.sys p die addr) size value) s = .next s)
  ∧ (∀ (s : State) n (off : Nat) size value, size = 4 ∨ size = 8 → off % size = 0 → 0x1000 ≤ off → off < 0x1400 →
      s.pkg.stage = 7 → (s.part n).en = true →
      exec (.registerWrite (.vf n off) size value) s
        = exec (.registerWrite (.sys n none (BitVec.ofNat 32 (0x12000000 + off))) size value) s)
  ∧ (∀ s p die (addr : Word32) (value : Word64) b r high, s.block ⟨p, die, none⟩ addr.toNat = some b → addr.toNat % 4 = 0 →
      b (addr.toNat % 2 ^ 24) = some (r, high) → r.wide = true → p < s.parts.length →
      let a : Agent := ⟨p, die, none⟩
      let old := s.regValue a r
      let v := value.toNat % 2 ^ 32
      let whole := if high then old % 2 ^ 32 + 2 ^ 32 * v else old / 2 ^ 32 * 2 ^ 32 + v
      let off := addr.toNat - if high then 4 else 0
      off % 8 = 0 → b (off % 2 ^ 24) = some (r, false) → addr.toNat / 2 ^ 24 = off / 2 ^ 24 → whole < 2 ^ 64 →
      exec (.registerWrite (.sys p die addr) 4 value) s
        = exec (.registerWrite (.sys p die (BitVec.ofNat 32 off)) 8 (BitVec.ofNat 64 whole)) s)
  ∧ (∀ (s : State) n off size value, size = 4 ∨ size = 8 → off % size = 0 → s.pkg.stage < 7 →
      exec (.registerWrite (.vf n off) size value) s = .next s
      ∧ (0x100 ≤ off → off < 0x300 → exec (.registerWrite (.pf0 off) size value) s = .next s)
      ∧ (0x12001000 ≤ off → off < 0x12001400 → exec (.registerWrite (.sys n none (BitVec.ofNat 32 off)) size value) s = .next s))
  ∧ (∀ (s : State) n j (value : Word64), n < 8 → j < 7 → s.parts.length = 8 → (s.part n).carves.length = 7 →
      let c : Word64 := BitVec.ofNat 64 (value.toNat / 2 ^ 30 * 2 ^ 30)
      let holds (x : Word64) (gib : Nat) : Prop := x.toNat / 2 ^ 30 % 2 ^ 22 ≤ gib ∧ gib < x.toNat / 2 ^ 30 % 2 ^ 22 + x.toNat / 2 ^ 52
      let may := 7 ≤ s.pkg.stage ∧ (∀ l ∈ s.launches, l.phase = .ended)
        ∧ ∀ m < 8, m ≠ n → ∀ x ∈ (s.part m).carves, ∀ gib, ¬(holds c gib ∧ holds x gib)
      ∃ t, exec (.registerWrite (.pf0 (0x108 + 64 * n + 8 * j)) 8 value) s = .next t
        ∧ (¬may → t = s) ∧ (may → t.part n = { s.part n with carves := (s.part n).carves.set j c } ∧ ∀ m, m ≠ n → t.part m = s.part m))
  ∧ ∀ (s : State) n (value : Word64), n < 8 → s.parts.length = 8 →
      let dies := value.truncate 8 &&& s.pkg.dies
      let may := 7 ≤ s.pkg.stage ∧ (∀ l ∈ s.launches, l.phase = .ended)
        ∧ (value.getLsbD 8 = true → ∀ m < 8, m ≠ n → (s.part m).en = true → (s.part m).dies &&& dies = 0)
      ∃ t, exec (.registerWrite (.pf0 (0x100 + 64 * n)) 8 value) s = .next t
        ∧ (¬may → t = s) ∧ (may → (t.part n).en = value.getLsbD 8 ∧ (t.part n).dies = dies ∧ ∀ m, m ≠ n → t.part m = s.part m)

namespace Sys2Proof.Claims

open Sys2Proof Sys2Proof.Machine

/-- The blocked entries with these lanes go on at the next slot, where they merge as R38 has it, and no other entry changes (R363). -/
def Unblocks (wi : Nat) (marked : Addr → Bool) (lanes : Lanes) (s t : State) : Prop :=
  Unblocked marked (fun y x => x = if y.lanes = lanes ∧ y.ready = false then { y with pc := nextSlot y.pc, block := .ready } else y)
    (s.core wi).frontier (s.core wi).sel (t.core wi).frontier (t.core wi).sel

/-- A wait of a warp ends: of it only its frontiers change, and a uniform register where there is an answer; another warp becomes what
`f` says. -/
structure WaitEnds (wi : Nat) (f : Warp → Warp) (s t : State) : Prop where
  rest : { t with warps := s.warps, requests := s.requests, tlb := s.tlb } = s
  others : ∀ j, j ≠ wi → nth t.warps j = (nth s.warps j).map f
  regs : (t.core wi).v = (s.core wi).v ∧ (t.core wi).p = (s.core wi).p ∧ (t.core wi).flags = (s.core wi).flags
    ∧ (t.core wi).rngc = (s.core wi).rngc

end Sys2Proof.Claims

open Sys2Proof Sys2Proof.Machine Sys2Proof.Claims in
/-- R38, R39, R210, R255, R260, R261: the ends of waits. A service's answer, all ones for a code that the firmware does not offer,
goes to SVC's register, kept for the resumption of a gang off the cells; a removal of translations is complete, and a checkpoint that has
used one which the tables no longer give is in conflict, as the model has it [26]; IDLE wakes with 1
by an event and with 0 by its deadline; a split that has waited 256 turns is selected in place of one that has not; a collective
that has waited too long takes MASKWAIT. The answer of a service that is not offered, and the results of IDLE, are the model's
readings [19]. -/
def Obligations.WaitsEnd : Prop :=
  (∀ s wi w lanes answer pc wait dst tag r, nth s.warps wi = some w → w.entryOf lanes = some ⟨lanes, pc, wait, .svc dst tag none⟩ →
    (s.requests.find? fun r => r.warp == wi && r.lanes == lanes) = some r →
    let x := if r.code ∈ s.pkg.services then answer else 0xFFFFFFFFFFFFFFFF
    ∃ t, exec (.svcAnswer wi lanes answer) s = .next t ∧ WaitEnds wi id s t ∧ t.tlb = s.tlb ∧ t.requests = s.requests.erase r
      ∧ (s.running w.gang = true → Unblocks wi (s.marked (s.partOf w.gang)) lanes s t ∧ (t.core wi).getK dst.toNat = ⟨x, tag⟩
          ∧ ∀ m < 64, m ≠ dst.toNat → (t.core wi).getK m = (s.core wi).getK m)
      ∧ (s.running w.gang = false → (t.core wi).k = (s.core wi).k
          ∧ ∀ y, y ∈ (t.core wi).frontier ↔ ∃ e ∈ (s.core wi).frontier,
              y = if e.lanes = lanes then { e with block := .svc dst tag (some x) } else e))
  ∧ (∀ s wi w lanes pc wait va, nth s.warps wi = some w → w.entryOf lanes = some ⟨lanes, pc, wait, .tlbi va⟩ →
    let pi := s.partOf w.gang
    let removed (va' : Nat) : Bool := match va with
      | none => true
      | some a => a.toNat / 65536 == va' / 65536
          || s.tlb.any fun e => pteType e.pte != 0 && e.covers pi a.toNat && e.covers pi va'
    let stale (x : Nat × Nat) : Bool := removed (65536 * x.1) && match s.walk (s.part pi) (65536 * x.1) with
      | .ok pa _ => s.pkg.norm pa / 65536 != x.2
      | _ => true
    ∃ t, exec (.tlbiCompletion wi lanes) s = .next t ∧ t.requests = s.requests ∧ Unblocks wi (t.marked pi) lanes s t
      ∧ WaitEnds wi (fun x => if s.partOf x.gang ≠ pi then x else { x with
          ckpts := x.ckpts.map fun k => { k with conflict := k.conflict || k.pages.any stale } }) s t
      ∧ (t.core wi).k = (s.core wi).k
      ∧ ∀ e, e ∈ t.tlb ↔ e ∈ s.tlb ∧ (match va with
          | some a => e.covers pi a.toNat
          | none => e.part == pi) = false)
  ∧ (∀ s wi w lanes pc wait dst tag deadline woken, nth s.warps wi = some w →
    w.entryOf lanes = some ⟨lanes, pc, wait, .idle dst tag deadline woken⟩ → s.running w.gang = true →
    (woken = true ∨ deadline.toNat ≤ s.pkg.clock.toNat) →
    ∃ t, exec (.idleWake wi lanes) s = .next t ∧ WaitEnds wi id s t ∧ t.requests = s.requests ∧ t.tlb = s.tlb
      ∧ Unblocks wi (s.marked (s.partOf w.gang)) lanes s t
      ∧ (t.core wi).getK dst.toNat = ⟨if woken then 1 else 0, tag⟩
      ∧ ∀ m < 64, m ≠ dst.toNat → (t.core wi).getK m = (s.core wi).getK m)
  ∧ (∀ s wi w g l, s.issuer wi = some (w, g, l) →
    let table := (s.refreshed w g l.part).frontier
    (∃ e ∈ table, e.issues = true ∧ 256 ≤ e.wait) → (∀ e ∈ table, e.lanes = (s.refreshed w g l.part).sel → e.wait < 256) →
    ∃ t x, exec (.waitCountYield wi) s = .next t ∧ WaitEnds wi id s t ∧ t.requests = s.requests ∧ t.tlb = s.tlb
      ∧ (t.core wi).k = (s.core wi).k ∧ (t.core wi).frontier = table ∧ (t.core wi).sel = x.lanes ∧ x ∈ table ∧ x.issues = true
      ∧ ∀ y ∈ table, y.issues = true → y.wait ≤ x.wait)
  ∧ ∀ s wi w g l lanes pc wait m since, s.issuer wi = some (w, g, l) → w.ckpts = [] →
    let table := (s.refreshed w g l.part).frontier
    (table.find? fun e => e.lanes = lanes) = some ⟨lanes, pc, wait, .collective m since⟩ →
    (65536 ≤ since ∨ ∀ e ∈ table, ∃ m' n, e.block = .collective m' n) →
    ∃ t, exec (.maskwait wi lanes) s = .next t
      ∧ Takes { s with cur := wi } ⟨wi, w, g, l, ⟨lanes, pc, wait, .collective m since⟩, hdrOf (.maskwait wi lanes), 0, 0⟩
          { cls := .maskwait, lanes := lanes } t

namespace Sys2Proof.Claims

open Sys2Proof Sys2Proof.Machine

/-- Buffered stores one after another on the bytes of memory. -/
def drained (m : Cells) (stores : List (List Buffered)) : Cells :=
  stores.flatten.foldl (fun m b => putIn m b.write.place b.data) m

end Sys2Proof.Claims

open Sys2Proof Sys2Proof.Machine Sys2Proof.Claims in
/-- R71, R127, R128, R134, R137, R138: a checkpoint that no conflict has hit commits once its warp has no access outstanding: its
stores reach memory in order, and operations queued under it run; a conflict rolls the warp back to the checkpoint: the captured
state returns, the stores and operations under it are dropped, RBC counts it, and too many in a row of one that rolls back turn on serial
mode, by the threshold with which it was opened. Serial
mode ends once its accesses are spent. How rollbacks in a row are counted is the model's reading [26]. -/
def Obligations.CheckpointsEnd : Prop :=
  (∀ s wi w g k ks, nth s.warps wi = some w → nth s.gangs w.gang = some g → w.ckpts = k :: ks → s.running w.gang = true →
    k.conflict = false → w.asleep = false → (∀ b ∈ k.stores.flatten, b.shadow = none) →
    ∃ t w', exec (.checkpointCommit wi) s = .next t ∧ nth t.warps wi = some w' ∧ w'.ckpts.length = ks.length
      ∧ w'.c.v = w.c.v ∧ w'.c.k = w.c.k ∧ w'.c.p = w.c.p
      ∧ cellsOf t = drained (cellsOf s) k.stores
      ∧ t.ops = s.ops.map fun o => if o.warp = wi then (match o.phase with
          | .queued n => { o with phase := if n ≤ 1 then .running else .queued (n - 1) }
          | _ => o) else o)
  ∧ (∀ s wi w n k, nth s.warps wi = some w → nth w.ckpts n = some k → s.running w.gang = true →
    (k.conflict = true ∨ k.marks ≠ [] ∨ k.localMarks ≠ []) →
    ∃ t w', exec (.rollback wi n) s = .next t ∧ nth t.warps wi = some w' ∧ (∀ j, j ≠ wi → nth t.warps j = nth s.warps j)
      ∧ { t with warps := s.warps, ops := s.ops } = s ∧ w'.c = k.saved ∧ w'.ckpts = w.ckpts.take n
      ∧ w'.rbc.toNat = min 255 (w.rbc.toNat + 1)
      ∧ t.ops = s.ops.filter (fun o => !(o.warp == wi && (match o.phase with
          | .queued j => decide (n < j)
          | _ => false)))
      ∧ (let past (i : Nat) (y : Ckpt) : Prop := n ≤ i ∧ nth w.ckpts i = some y ∧ y.cons % 16 < (nth w.rbRow i).getD 0 + 1
        (w'.ser = true ↔ w.ser = true ∨ ∃ i y, past i y)
        ∧ ∀ i y, w.ser = false → past i y → (∀ j z, past j z → i ≤ j) → w'.serLeft = max (y.cons / 2 ^ 12 % 2 ^ 12) 1))
  ∧ ∀ s wi w, nth s.warps wi = some w → w.ser = true → w.serLeft = 0 →
    ∃ t w', exec (.serialModeEnd wi) s = .next t ∧ nth t.warps wi = some w' ∧ w' = { w with ser := false, rbRow := [] }
      ∧ { t with warps := s.warps } = s ∧ ∀ j, j ≠ wi → nth t.warps j = nth s.warps j

namespace Sys2Proof.Claims

open Sys2Proof Sys2Proof.Machine

/-! Engines. -/

/-- What keeps a gang from retiring: a warp of it that has not ended. -/
def Lives (s : State) (gi : Nat) : Prop := ∃ w ∈ s.warps, w.gang = gi ∧ w.ended = false

/-- A state that differs in memory only, in the sectors of some places as far as global memory goes, and in what writes to memory mark. -/
def NearIn (W : List Place) (s u : State) : Prop :=
  { u with
    mem := s.mem, tags := s.tags, lmem := s.lmem, ltags := s.ltags, warps := s.warps, regions := s.regions, marks := s.marks } = s
  ∧ ∀ pa, (∀ q ∈ W, sectorOf q ≠ .inl (pa / 32)) → FMap.get 0 u.mem pa = FMap.get 0 s.mem pa

/-- The same of one that differs in what slots and tiles hold, too. -/
def NearTile (W : List Place) (s u : State) : Prop :=
  NearIn W s { u with gangs := s.gangs } ∧ ∀ j, (nth u.gangs j).map (fun g => { g with slots := [], tiles := [] })
    = (nth s.gangs j).map fun g => { g with slots := [], tiles := [] }

/-- The access that raises an operation's completion object (R129). -/
def completionAccess (s : State) (o : EOp) (f : RegForm) : Access :=
  { s.threadAccess o (recSpace f) (spaceBase (recSpace f) o.c) 8 true with align := 8, atomic := true }

/-- An operation has performed its writes and raised its completion object by one: bytes and tags of memory, R101 counting all
its writes as one access, and the operation gone. -/
def Performs (s t : State) (op : Nat) (o : EOp) (q : Place) (ws : List (Place × List Byte × Bool)) : Prop :=
  let m := ws.foldl (fun m w => putIn m w.1 w.2.1) (cellsOf s)
  let g (x : Nat ⊕ Nat) : Bool := sectorAfter (sectorsOf s x) (ws.filter fun w => sectorOf w.1 = x && !untagged w.1)
  cellsOf t = putIn m q (leBytes 8 ((leNat (bytesIn m q 8) + 1) % 2 ^ 64))
  ∧ (∀ x, sectorsOf t x = if x = sectorOf q ∧ untagged q = false then g x || o.tag else g x)
  ∧ t.ops = s.ops.eraseIdx op
  ∧ ∀ j, (t.core j).v = (s.core j).v ∧ (t.core j).k = (s.core j).k ∧ (t.core j).p = (s.core j).p

/-- The bits set below p in the bitmap of an OLD `.bmp`, whose bytes a function gives. -/
def setBelow (bitmap : Nat → Byte) (p : Nat) : Nat := (List.range p).countP fun j => (bitmap (j / 8)).getLsbD (j % 8)

/-- Where byte j of row r of an OLD comes from (R224): address and bytes of an access and the place in it; none for a zero. -/
def oldSource (f : RegForm) (o : EOp) (bitmap : Nat → Byte) (r j : Nat) : Option (Nat × Nat × Nat) :=
  let base := spaceBase f.space o.a
  let e := max (f.ty.width / 8) 1
  let p := r * (128 / e) + j / e
  match f.sub.toNat % 4 with
  | 0 => some (base + r * o.b.toNat + j / 16 * 16, 16, j % 16)
  | 1 => some (base + j / e * o.b.toNat + r * e, e, j % e)
  | 2 => if o.d.getLsbD (r / 8) then
      some (base + 1024 * ((List.range (r / 8)).countP fun i => o.d.getLsbD i) + 128 * (r % 8) + j / 16 * 16, 16, j % 16)
    else none
  | _ => if (bitmap (p / 8)).getLsbD (p % 8) then some (base + e * setBelow bitmap p, e, j % e) else none

/-- R101, R129, R220, R224, R237, R241: OLD, OST and CPY. -/
def CopiesPerform : Prop :=
  (∀ s op o f q x (bytes : Nat → Nat → List Byte) (tag : Nat → Nat → Bool) (map : Nat → Byte × Bool),
    s.thread op = some o → o.instr = .old f → o.units = 0 → o.finished = false → o.record = [] → Lives s o.gang →
    slotIn s o.gang (o.dst.toNat % 32) = some x →
    s.threadPlace (completionAccess s o f) true = .ok q → Plain s q 8 →
    let rows := o.dst.toNat / 2 ^ 13 % 2 ^ 9
    let row0 := o.dst.toNat / 32 % 256
    let src := oldSource f o fun i => (map i).1
    (∀ r < rows, ∀ j < 128, ∀ addr n off, src r j = some (addr, n, off) → s.threadRead o f.space addr n = .ok (bytes addr n, tag addr n)) →
    (f.sub.toNat % 4 = 3 → ∀ i, 8 * i < rows * (128 / max (f.ty.width / 8) 1) → s.threadRead o f.space (spaceBase f.space o.d + i) 1 = .ok ([(map i).1], (map i).2)) →
    ∃ t y, exec (.engineCompletion op) s = .next t ∧ Performs s t op o q [] ∧ slotIn t o.gang (o.dst.toNat % 32) = some y
      ∧ (∀ n, n ≠ o.dst.toNat % 32 → slotIn t o.gang n = slotIn s o.gang n)
      ∧ (∀ r < rows, ∀ j < 128, FMap.get 0 y.data (128 * (row0 + r) + j) = match src r j with
          | some (addr, n, off) => (bytes addr n).getD off 0
          | none => 0)
      ∧ (∀ r < rows, ∀ k < 4, FMap.get false y.tags (4 * (row0 + r) + k) = (o.tag || (List.range 32).any fun j =>
          (match src r (32 * k + j) with
            | some (addr, n, _) => tag addr n
            | none => false) || (f.sub.toNat % 4 = 3 && (map ((r * (128 / max (f.ty.width / 8) 1) + (32 * k + j) / max (f.ty.width / 8) 1) / 8)).2)))
      ∧ (∀ key, ¬(row0 ≤ key / 128 ∧ key / 128 < row0 + rows) → FMap.get 0 y.data key = FMap.get 0 x.data key)
      ∧ ∀ key, ¬(row0 ≤ key / 4 ∧ key / 4 < row0 + rows) → FMap.get false y.tags key = FMap.get false x.tags key)
  ∧ (∀ s op o f q x (dst : Nat → Nat → Place), s.thread op = some o → o.instr = .ost f → o.units = 0 → o.finished = false → o.sectors = [] → Lives s o.gang →
    slotIn s o.gang (o.dst.toNat % 32) = some x → o.a.toNat % 16 = 0 → o.b.toNat % 16 = 0 →
    let rows := o.dst.toNat / 2 ^ 13 % 2 ^ 9
    let row (r : Nat) : Nat := o.dst.toNat / 32 % 256 + r
    (∀ u, NearIn (q :: (List.range rows).flatMap fun r => (List.range 8).map (dst r)) s u → u.threadPlace (completionAccess s o f) true = .ok q
      ∧ ∀ r < rows, ∀ i < 8, u.threadPlace (s.threadAccess o f.space (wrapAddr (spaceBase f.space o.a + r * o.b.toNat + 16 * i)) 16 true) false
          = .ok (dst r i)) →
    Plain s q 8 → (∀ r < rows, ∀ i < 8, Plain s (dst r i) 16) →
    let ws := (List.range rows).flatMap fun r => (List.range 8).map fun i =>
      (dst r i, (List.range 16).map fun j => FMap.get 0 x.data (128 * row r + 16 * i + j), o.tag || FMap.get false x.tags (4 * row r + i / 2))
    ∃ t, exec (.engineCompletion op) s = .next t ∧ Performs s t op o q ws ∧ ∀ n, slotIn t o.gang n = slotIn s o.gang n)
  ∧ (∀ s op o f q (src dst : Nat → Place), s.thread op = some o → o.instr = .cpy f → o.units = 0 → o.finished = false → o.sectors = [] → o.a.toNat % 16 = 0 →
    o.b.toNat % 16 = 0 → o.d.toNat % 16 = 0 → o.d.toNat < 2 ^ 48 →
    let from_ : Space := if f.sub.getLsbD 0 then .l else .g
    let n := o.d.toNat / 16
    (∀ u, NearIn (q :: (List.range n).map dst) s u → u.threadPlace (completionAccess s o f) true = .ok q
      ∧ ∀ i < n, u.threadPlace (s.threadAccess o from_ (wrapAddr (spaceBase from_ o.b + 16 * i)) 16 false) true = .ok (src i)
        ∧ u.threadPlace (s.threadAccess o f.space (wrapAddr (spaceBase f.space o.a + 16 * i)) 16 true) false = .ok (dst i)) →
    Plain s q 8 → (∀ i < n, Plain s (src i) 16 ∧ Plain s (dst i) 16 ∧ ∀ j < n, sectorOf (src i) ≠ sectorOf (dst j)) →
    let ws := (List.range n).map fun i => (dst i, bytesIn (cellsOf s) (src i) 16,
      (!untagged (src i) && sectorsOf s (sectorOf (src i))) || (src i).prop || o.tag)
    ∃ t, exec (.engineCompletion op) s = .next t ∧ Performs s t op o q ws)

/-- An operation whose thread runs and starts afresh, of a gang that does not retire with it. -/
structure Fresh (s : State) (op : Nat) (o : EOp) : Prop where
  thread : s.thread op = some o
  units : o.units = 0
  finished : o.finished = false
  sectors : o.sectors = []
  lives : Lives s o.gang

/-- An access of an operation's thread within a granule lies at a place, whatever slots and tiles hold, and memory in the sectors of the
places that the operation writes: it does not change its own translations. -/
def LiesAt (W : List Place) (s : State) (o : EOp) (sp : Space) (addr n : Nat) (write : Bool) (p : Place) : Prop :=
  addr % 16 + n ≤ 16 ∧ 0 < n ∧ Plain s p n
  ∧ ∀ u, NearTile W s u → u.threadPlace (s.threadAccess o sp (wrapAddr addr) n write) (!write) = .ok p

/-- So does the operation's completion object (R129). -/
def CompletesAt (W : List Place) (s : State) (o : EOp) (f : RegForm) (q : Place) : Prop :=
  Plain s q 8 ∧ ∀ u, NearTile W s u → u.threadPlace (completionAccess s o f) true = .ok q

/-- The little-endian value at a place, and its tag. -/
def valueAt (s : State) (p : Place) (n : Nat) : Nat := leNat (bytesIn (cellsOf s) p n)
def settledAt (s : State) (p : Place) : Bool := (!untagged p && sectorsOf s (sectorOf p)) || p.prop

/-- The record or descriptor of an operation as it has been read, or as the thread reads it now (R233, R239, R240). -/
def RecordIs (s : State) (o : EOp) (sp : Space) (R : List (Byte × Bool)) : Prop :=
  R.length = 64 ∧ (o.record = R ∨ o.record = [] ∧ s.readRecord o sp (spaceBase sp o.b) 64 = .ok R)

/-- A little-endian field of a record. -/
def recField (R : List (Byte × Bool)) (off n : Nat) : Nat := leNat (((R.map (·.1)).drop off).take n)

/-- A value rounded once into an output type, with the flags that R231 counts: an integer by R78, a float by R77. -/
def outOf (t : Ty) (rnd : Rnd) (draw : Nat) (v : FVal) : Nat × Flags :=
  if t.isInt then toIntSat t rnd draw v
  else
    let r := roundTo t rnd draw v
    (r.1, if t ∈ [Ty.e4m3, .e5m2, .bf16, .f16] ∧ v.isFin = true ∧ v.isZero = false ∧ r.1 % 2 ^ (t.width - 1) = 0 then r.2 ||| fUZ else r.2)

/-- The draw of element n of an operation, under SR (R234, R235, R238). -/
def drawOf' (o : EOp) (rnd : Rnd) (n : Nat) : Nat := if rnd = .sr then drawAt o.rngk o.rngc 32 n else 0

/-- The value of an accumulator element (R231). -/
def accValue (mode : TileMode) (x : Word64) : FVal :=
  match mode with
  | .f32 => FVal.decode Ty.f32.fmt x.toNat
  | .s32 => FVal.ofInt (intOf .s32 x.toNat)
  | .f64 => FVal.decode Ty.f64.fmt x.toNat

/-- The drained rows of an operation that its descriptor counts, whole. -/
def Drained (o : EOp) (mode : TileMode) (rows : Nat) : Prop :=
  rows ≠ 0 ∧ o.rows.length = rows ∧ ∀ row ∈ o.rows, row.1.length = if mode = .f64 then 64 else 128

/-- The drained tile has taken the flags of some values into its status, and nothing else of the gang's slots and tiles has changed. -/
def TileFlagged (s t : State) (gi n : Nat) (x : Tile) (flags : Flags) : Prop :=
  tileIn t gi n = some { x with status := x.status ||| statusOf flags }
  ∧ (∀ m, m ≠ n → tileIn t gi m = tileIn s gi m) ∧ ∀ m, slotIn t gi m = slotIn s gi m

/-- R234: the epilogue's stages on the exact value of an element; none on a NaN. -/
def epilogue (ty : Ty) (rnd : Rnd) (act : Nat) (draw : Nat) (v : FVal) (exponent : Int) (bias : Option FVal) : Nat × Flags :=
  if v.isNan then (if ty.isInt then (0, fNV) else (ty.fmt.nan, 0))
  else
    let v := v.scale exponent
    let v := match bias with
      | some b => v.add b rnd
      | none => v
    let v := if v.isNan then v else match act with
      | 1 => if v.sign then .fin false 0 0 else v
      | 2 => if v.lt (.fin false 0 0) then v.scale (-3) else v
      | 3 => if v.lt (.fin true 1 0) then .fin true 1 0 else if (FVal.fin false 1 0).lt v then .fin false 1 0 else v
      | _ => v
    outOf ty rnd draw v

/-- R100, R101, R129, R233, R234: ADRN. Each drained element goes through the epilogue that the record names and to its place; its flags go
to the tile. No array that it reads shares a sector with what it writes. -/
def AdrnPerforms : Prop :=
  ∀ s op o f q x R ty rnd (rs cs bs : Nat → Place) (dst : Nat → Nat → Place), Fresh s op o → o.instr = .adrn f →
    RecordIs s o f.space R →
    let n := o.dst.toNat % 16
    let rows := o.dst.toNat / 2 ^ 11 % 2 ^ 8
    let row0 := o.dst.toNat / 2 ^ 4 % 2 ^ 7
    tileIn s o.gang n = some x → Drained o x.mode rows →
    let w := if x.mode = .f64 then 64 else 128
    let acc : Ty := if x.mode = .f64 then .f64 else .f32
    let rscale := recField R 0 8
    let cscale := recField R 8 8
    let bias := recField R 0x10 8
    let stride := recField R 0x18 4
    let ctrl := recField R 0x1C 4
    let act := ctrl / 2 ^ 6 % 8
    let z := ty.width / 8
    let W := q :: (List.range rows).flatMap fun r => (List.range w).map (dst r)
    CompletesAt W s o f q → Ty.ofCode (ctrl / 2 ^ 12 % 16) = some ty → Rnd.ofCode (ctrl / 2 ^ 9 % 8) = some rnd → act ≤ 3 → ctrl < 2 ^ 16 → ctrl % 2 ^ 5 = 0 →
    ty ∈ (if x.mode = .f64 then [Ty.f64, .f32] else [Ty.f32, .f16, .bf16, .e4m3, .e5m2, .s8, .n8, .s16, .n16, .s32]) →
    (∀ j < 32, recField R (32 + j) 1 = 0) → stride % 16 = 0 → bias % (acc.width / 8) = 0 → o.a.toNat % 16 = 0 →
    (ctrl.testBit 5 = true → o.record = R) →
    (rscale ≠ 0 → ∀ r < rows, LiesAt W s o f.space (rscale + r) 1 false (rs r)) →
    (cscale ≠ 0 → ∀ j < w, LiesAt W s o f.space (cscale + j) 1 false (cs j)) →
    (bias ≠ 0 → ∀ j < w, LiesAt W s o f.space (bias + acc.width / 8 * j) (acc.width / 8) false (bs j)) →
    (∀ r < rows, ∀ j < w, LiesAt W s o f.space (spaceBase f.space o.a + r * stride + j * z) z true (dst r j)
      ∧ (∀ i < rows, sectorOf (rs i) ≠ sectorOf (dst r j))
      ∧ ∀ i < w, sectorOf (cs i) ≠ sectorOf (dst r j) ∧ sectorOf (bs i) ≠ sectorOf (dst r j)) →
    let row (r : Nat) : List Word64 × Bool := o.rows.getD r ([], false)
    let exponent (r j : Nat) : Int := (if rscale = 0 then 0 else intOf .s8 (valueAt s (rs r) 1))
      + if cscale = 0 then 0 else intOf .s8 (valueAt s (cs j) 1)
    let out (r j : Nat) : Nat × Flags := epilogue ty rnd act (drawOf' o rnd (128 * (row0 + r) + j)) (accValue x.mode ((row r).1.getD j 0))
      (exponent r j) (if bias = 0 then none else some (FVal.decode acc.fmt (valueAt s (bs j) (acc.width / 8))))
    let tag (r j : Nat) : Bool := o.tag || alwaysP ty rnd || R.any (·.2) || (row r).2 || (rscale != 0 && settledAt s (rs r))
      || (cscale != 0 && settledAt s (cs j)) || (bias != 0 && settledAt s (bs j))
    let all : List (Nat × Nat) := (List.range rows).flatMap fun r => (List.range w).map fun j => (r, j)
    ∃ t, exec (.engineCompletion op) s = .next t
      ∧ Performs s t op o q (all.map fun y => (dst y.1 y.2, leBytes z (out y.1 y.2).1, tag y.1 y.2))
      ∧ TileFlagged s t o.gang n x (all.foldl (fun m y => m ||| (out y.1 y.2).2) 0)

/-- R100, R101, R129, R231, R235: WUPD. Each weight takes its element times the coefficient in one rounding. Its granules share no
byte. -/
def WupdPerforms : Prop :=
  ∀ s op o f q x (at_ : Nat → Nat → Place), Fresh s op o → o.instr = .wupd f → f.ty ∈ [Ty.f64, .f32, .f16, .bf16] →
    let n := o.dst.toNat % 16
    let rows := o.dst.toNat / 2 ^ 11 % 2 ^ 8
    let row0 := o.dst.toNat / 2 ^ 4 % 2 ^ 7
    tileIn s o.gang n = some x → Drained o x.mode rows → o.a.toNat % 16 = 0 → o.b.toNat / 2 ^ 32 % 16 = 0 →
    let z := f.ty.width / 8
    let w := if x.mode = .f64 then 64 else 128
    let addr (r g : Nat) : Nat := spaceBase f.space o.a + r * (o.b.toNat / 2 ^ 32) + 16 * g
    let W := q :: (List.range rows).flatMap fun r => (List.range (w * z / 16)).map (at_ r)
    CompletesAt W s o f q →
    (∀ r < rows, ∀ g < w * z / 16, LiesAt W s o f.space (addr r g) 16 false (at_ r g) ∧ LiesAt W s o f.space (addr r g) 16 true (at_ r g)
      ∧ ∀ r' < rows, ∀ g' < w * z / 16, (r, g) ≠ (r', g') → ∀ j < 16, ∀ j' < 16, keyOf (at_ r g) j ≠ keyOf (at_ r' g') j') →
    let row (r : Nat) : List Word64 × Bool := o.rows.getD r ([], false)
    let alpha := FVal.decode Ty.f32.fmt (o.b.toNat % 2 ^ 32)
    let out (r j : Nat) : Nat × Flags :=
      let old := FVal.decode f.ty.fmt (leNat (((bytesIn (cellsOf s) (at_ r (j * z / 16)) 16).drop (j * z % 16)).take z))
      outOf f.ty f.rnd (drawOf' o f.rnd (128 * (row0 + r) + j)) (old.add (alpha.mul (accValue x.mode ((row r).1.getD j 0))) f.rnd)
    let granule (r g : Nat) : Place × List Byte × Bool :=
      (at_ r g, (List.range (16 / z)).flatMap fun i => leBytes z (out r (g * (16 / z) + i)).1,
       o.tag || alwaysP f.ty f.rnd || (row r).2 || settledAt s (at_ r g))
    ∃ t, exec (.engineCompletion op) s = .next t
      ∧ Performs s t op o q ((List.range rows).flatMap fun r => (List.range (w * z / 16)).map fun g => granule r g)
      ∧ TileFlagged s t o.gang n x (((List.range rows).flatMap fun r => (List.range w).map fun j => (r, j)).foldl
          (fun m y => m ||| (out y.1 y.2).2) 0)

/-- R90, R100, R101, R129, R238: CPYR. Each element is the canonical tree's reduction of its sources, rounded once. No source shares a
sector with the destination. -/
def CpyrPerforms : Prop :=
  ∀ s op o f q (src : Nat → Nat → Place) (dst : Nat → Place), Fresh s op o → o.instr = .cpyr f →
    f.ty ∈ [Ty.f64, .f32, .bf16, .f16, .s32, .s64] → o.a.toNat % 16 = 0 → o.b.toNat % 16 = 0 →
    let from_ : Space := if f.sub.getLsbD 0 then .l else .g
    let z := f.ty.width / 8
    let n := o.d.toNat % 2 ^ 12 + 1
    let count := o.d.toNat / 2 ^ 32
    let stride := (count * z + 15) / 16 * 16
    let op' := f.sub.toNat / 2 % 4
    let W := q :: (List.range count).map dst
    CompletesAt W s o f q → op' ≤ 2 →
    (∀ e < count, LiesAt W s o f.space (spaceBase f.space o.a + e * z) z true (dst e)
      ∧ ∀ k < n, LiesAt W s o from_ (spaceBase from_ o.b + k * stride + e * z) z false (src k e)
        ∧ ∀ e' < count, sectorOf (src k e) ≠ sectorOf (dst e')) →
    let acc : Ty := if f.ty.isInt then f.ty else if f.ty = .f64 then .f64 else .f32
    let wide (x : Nat) : Nat := if f.ty.isInt then x else (roundTo acc .rn 0 (FVal.decode f.ty.fmt x)).1
    let merged (e : Nat) : Nat := ((reduce (fun x y => applied acc op' x y 0)
      ((List.range n).map fun k => some (wide (valueAt s (src k e) z)))).1).getD 0
    let out (e : Nat) : Nat :=
      if f.ty.isInt then merged e else (roundTo f.ty f.rnd (drawOf' o f.rnd e) (FVal.decode acc.fmt (merged e))).1
    ∃ t, exec (.engineCompletion op) s = .next t ∧ Performs s t op o q ((List.range count).map fun e =>
      (dst e, leBytes z (out e), o.tag || alwaysP f.ty f.rnd || (List.range n).any fun k => settledAt s (src k e)))

/-- R239: the pairs of positions that the merge of two streams compares, in order, from (i, j). -/
def compared (X Y : Nat → Nat) (nx ny : Nat) : Nat → Nat → Nat → List (Nat × Nat)
  | 0, _, _ => []
  | left + 1, i, j =>
    if i < nx ∧ j < ny then
      (i, j) :: (if X i < Y j then compared X Y nx ny left (i + 1) j
        else if Y j < X i then compared X Y nx ny left i (j + 1)
        else compared X Y nx ny left (i + 1) (j + 1))
    else []

/-- R101, R129, R239: ISECT. The matches go out in order as far as there is room, and NOUT counts them all. The streams share no sector
with what it writes. -/
def IsectPerforms : Prop :=
  ∀ s op o f q R (px py pout : Nat → Place) (pn : Place), Fresh s op o → o.instr = .isect f → o.i = 0 → o.j = 0 → o.k = 0 →
    o.streamTag = false → RecordIs s o .g R → o.b.toNat % 64 = 0 →
    let z := if (recField R 0x24 4).testBit 0 then 8 else 4
    let nx := recField R 0x10 4
    let ny := recField R 0x14 4
    recField R 0x24 4 < 2 → recField R 0x28 8 = 0 → recField R 0x38 8 = 0 → recField R 0 8 % z = 0 → recField R 8 8 % z = 0 →
    recField R 0x18 8 % 8 = 0 →
    let X (i : Nat) : Nat := valueAt s (px i) z
    let Y (j : Nat) : Nat := valueAt s (py j) z
    let steps := compared X Y nx ny (nx + ny) 0 0
    let pairs := steps.filter fun y => X y.1 == Y y.2
    let kept := min (recField R 0x20 4) pairs.length
    let W := q :: pn :: (List.range kept).map pout
    CompletesAt W s o f q →
    (∀ i < nx, LiesAt W s o .g (recField R 0 8 + z * i) z false (px i)) → (∀ j < ny, LiesAt W s o .g (recField R 8 8 + z * j) z false (py j)) →
    (∀ k < kept, LiesAt W s o .g (recField R 0x18 8 + 8 * k) 8 true (pout k)
      ∧ (∀ i < nx, sectorOf (px i) ≠ sectorOf (pout k)) ∧ ∀ j < ny, sectorOf (py j) ≠ sectorOf (pout k)) →
    LiesAt W s o .g (o.b.toNat + 0x30) 8 true pn →
    let tag (y : Nat × Nat) : Bool := settledAt s (px y.1) || settledAt s (py y.2)
    ∃ t, exec (.engineCompletion op) s = .next t ∧ Performs s t op o q
      (((List.range kept).map fun k => (pout k, leBytes 4 (pairs.getD k (0, 0)).1 ++ leBytes 4 (pairs.getD k (0, 0)).2,
          tag (pairs.getD k (0, 0)) || o.tag))
        ++ [(pn, leBytes 8 pairs.length, steps.any tag || o.tag)])

/-- R113: Reduce128 over some exact values, and a row's residual and bound as F64 codes. -/
def reduced128 (xs : List FVal) : FVal :=
  ((reduce (fun x y => ((x.add y .rn).roundSig 128, (0 : Flags))) (xs.map some)).1).getD (.fin false 0 0)
def residual (products : List FVal) (b : FVal) : Nat := (roundTo .f64 .rn 0 (reduced128 (products.map FVal.neg ++ [b]))).1
def bound (products : List FVal) (b : FVal) : Nat := (roundTo .f64 .rd 0 (reduced128 (products.map FVal.abs ++ [b.abs]))).1

/-- R113: how a DCORM call comes out: whether x is corrected, or settled; STATUS, PV and STALLS; PNORM. -/
structure Outcome where
  corrects : Bool
  settles : Bool
  status : Nat
  pv : Nat
  stalls : Nat
  pnorm : Nat

def outcome (unsettled : Bool) (tol ratio budget pv stalls pnorm : Nat) (r bd : List Nat) : Outcome :=
  let d (x : Nat) : FVal := FVal.decode Ty.f64.fmt x
  let nu := if r.all fun x => (d x).isFin then (r.map (· % 2 ^ 63)).foldl max 0 else Ty.f64.fmt.inf
  let small (x : Nat × Nat) : Bool :=
    !(d x.1).isNan && !(d x.2).isNan && (d x.1).abs.le ((d x.2).scale (-(tol : Int)))
  let st := min (stalls + 1) 15
  if unsettled then ⟨true, false, 5, pv, stalls, pnorm⟩
  else if (r.zip bd).all small then ⟨false, true, 1, 1, 0, nu⟩
  else if pv = 1 ∧ (d pnorm).isNan = false ∧ ((FVal.fin false ratio (-8)).mul (d pnorm)).lt (d nu) = true then
    if budget ≤ st then ⟨false, false, 4, pv, st, pnorm⟩ else ⟨true, false, 3, pv, st, nu⟩
  else ⟨true, false, 2, 1, 0, nu⟩

/-- Whether a DCOR fault has been added to those that the operation's warp has yet to take, and no other; it waits for an issue of the warp,
though every split be blocked (R113). -/
def DcorPends (s t : State) (o : EOp) (raised : Prop) : Prop :=
  ∀ w, nth s.warps o.warp = some w → w.gang = o.gang → w.ended = false → w.live ≠ 0 →
    w.c.frontier.any Split.issues = true ∨ w.pending = [] →
    ∃ w', nth t.warps o.warp = some w'
      ∧ (raised → w'.pending = w.pending ++ [⟨{ cls := .dcor, addr := o.c, tags := o.paddr.toNat }, o.pc, o.eqix, o.altpc, o.kind⟩])
      ∧ (¬raised → w'.pending = w.pending)

/-- R96, R101, R112 to R114, R129, R240: DCORM. A call that finds the record REFUSED raises COUNT, and DCOR where FEN is 1. Any other
decides on the residuals of Ax = b whether x settles, is corrected with M or stays, and writes DSTAT and PNORM before COUNT rises. M shares
no sector with x. -/
def DcormPerforms : Prop :=
  ∀ s op o f q l R st pn (pst ppn : Place) (px pb : Nat → Place) (pa pm : Nat → Nat → Place) (ps : Nat → Place), Fresh s op o →
    o.instr = .dcorm f → o.rows = [] → o.record = [] → o.i = 0 → o.dcor = false → nth s.launches o.launch = some l →
    o.b.toNat % 64 = 0 → o.c.toNat % 32 = 0 → R.length = 64 → s.readRecord o .g o.b.toNat 64 = .ok R →
    let c := spaceBase (recSpace f) o.c
    let n := recField R 0x20 4
    let lda := recField R 0x24 4
    let ldm := recField R 0x28 4
    let b4 := decide (f.ty = .b4)
    let z := max (f.ty.width / 8) 1
    let padded := (n + 3) / 4 * 4
    let W := q :: pst :: ppn :: (List.range padded).map px
    CompletesAt W s o f q → 1 ≤ n → n ≤ 16384 → n ≤ lda → n ≤ ldm → (b4 = true → ldm % 128 = 0) → (b4 = false → recField R 0x30 8 = 0) →
    recField R 0x2C 4 < 2 ^ 6 → recField R 0x38 8 = 0 → recField R 0 8 % 8 = 0 → recField R 8 8 % 8 = 0 → recField R 0x10 8 % 32 = 0 →
    recField R 0x18 8 % z = 0 →
    LiesAt W s o (recSpace f) (c + 8) 4 false pst → LiesAt W s o (recSpace f) (c + 8) 8 true pst →
    LiesAt W s o (recSpace f) (c + 16) 8 false ppn → LiesAt W s o (recSpace f) (c + 16) 16 true ppn →
    st = valueAt s pst 4 → pn = valueAt s ppn 8 →
    let fen := st / 2 ^ 11 % 2
    (st % 16 = 4 → ∃ t, exec (.engineCompletion op) s = .next t ∧ Performs s t op o q [] ∧ DcorPends s t o (fen = 1))
    ∧ (st % 16 ≠ 4 →
      (∀ j < padded, LiesAt W s o .g (recField R 0x10 8 + 8 * j) 8 false (px j) ∧ LiesAt W s o .g (recField R 0x10 8 + 8 * j) 8 true (px j)) →
      (∀ i < n, LiesAt W s o .g (recField R 8 8 + 8 * i) 8 false (pb i)
        ∧ ∀ j < n, LiesAt W s o .g (recField R 0 8 + 8 * (i * lda + j)) 8 false (pa i j)) →
      let d (p : Place) : FVal := FVal.decode Ty.f64.fmt (valueAt s p 8)
      let products (i : Nat) : List FVal := (List.range n).map fun j => (d (pa i j)).mul (d (px j))
      let r (i : Nat) : Nat := residual (products i) (d (pb i))
      let bd (i : Nat) : Nat := bound (products i) (d (pb i))
      let unsettled := (List.range n).any fun i => settledAt s (pb i) || (List.range n).any fun j => settledAt s (pa i j)
      let pctl := l.lrec.pctl.toNat
      let v := outcome unsettled (recField R 0x2C 4) (pctl / 2 ^ 2 % 2 ^ 8) (pctl / 2 ^ 10 % 2 ^ 4) (st / 2 ^ 10 % 2) (st / 2 ^ 4 % 2 ^ 4) pn
        ((List.range n).map r) ((List.range n).map bd)
      let e (i j : Nat) : Nat := i * ldm + j
      (v.corrects = true → ∀ i < n, ∀ j < n,
        LiesAt W s o .g (recField R 0x18 8 + if b4 then e i j / 2 else z * e i j) (if b4 then 1 else z) false (pm i j)
        ∧ (b4 = true → LiesAt W s o .g (recField R 0x30 8 + e i j / 128) 1 false (ps (e i j / 128)))
        ∧ ∀ k < padded, sectorOf (pm i j) ≠ sectorOf (px k) ∧ sectorOf (ps (e i j / 128)) ≠ sectorOf (px k)) →
      let m (i j : Nat) : FVal :=
        if b4 then
          let scale := valueAt s (ps (e i j / 128)) 1
          (b4Elem (scale / 64) (valueAt s (pm i j) 1 / 16 ^ (e i j % 2) % 16)).scale ((scale % 64 : Nat) - 32)
        else if f.ty.isInt then FVal.ofInt (intOf f.ty (valueAt s (pm i j) z)) else FVal.decode f.ty.fmt (valueAt s (pm i j) z)
      let node (x y : FVal) : FVal × Flags := (FVal.decode Ty.f64.fmt (roundTo .f64 .rn 0 (x.add y .rn)).1, 0)
      let corrected (i : Nat) : Nat := (roundTo .f64 .rn 0 ((d (px i)).add (((reduce node ((List.range n).map fun j =>
        some ((m i j).mul (FVal.decode Ty.f64.fmt (r j))))).1).getD (.fin false 0 0)) .rn)).1
      let x' : List (Place × List Byte × Bool) :=
        if v.corrects then (List.range n).map fun i => (px i, leBytes 8 (corrected i), true)
        else if v.settles then (List.range n).map fun i => (px i, leBytes 8 (valueAt s (px i) 8), o.tag) else []
      let pads := if v.corrects || v.settles then
        (List.range (padded - n)).map fun j => (px (n + j), leBytes 8 0, v.corrects || o.tag) else []
      let tag := o.tag || unsettled || ((List.range padded).any fun j => settledAt s (px j)) || R.any (·.2) || settledAt s pst || settledAt s ppn
      ∃ t, exec (.engineCompletion op) s = .next t
        ∧ Performs s t op o q (x' ++ pads ++ [(pst, leBytes 8 (v.status + 16 * v.stalls + 1024 * v.pv + 2048 * fen), tag),
            (ppn, leBytes 8 v.pnorm ++ leBytes 8 0, tag)])
        ∧ DcorPends s t o (v.status = 4 ∧ fen = 1))

end Sys2Proof.Claims

open Sys2Proof Sys2Proof.Machine Sys2Proof.Claims in
/-- R101, R129, R220, R224, R237, R241: the threads of OLD, OST and CPY that start afresh and meet no fault. OLD fills its rows,
byte by byte and sector tag by sector tag, from where its form says; OST and CPY write their granules in ascending order, where
what they write changes none of their own translations and CPY's source and destination share no sector. R100, R231, R233 to
R235, R238, R239: so do ADRN, whose drained elements go through the epilogue of its record, WUPD, which updates weights in place,
CPYR, which reduces its sources over the canonical tree, and ISECT, which writes the matches of two streams and counts them; the
flags of ADRN and WUPD go to the tile. R96, R112 to R114, R240: DCORM decides on the residuals of Ax = b whether x settles, is
corrected with M or stays, writes DSTAT and PNORM before COUNT rises, and raises DCOR for a refused record where FEN is 1. That
addresses wrap is the model's reading [18], and the order of an operation's accesses is its choice [20]. -/
def Obligations.EnginesPerform : Prop :=
  CopiesPerform ∧ AdrnPerforms ∧ WupdPerforms ∧ CpyrPerforms ∧ IsectPerforms ∧ DcormPerforms

open Sys2Proof Sys2Proof.Machine Sys2Proof.Claims in
/-- R231, R236, R309, R310, R325: a thread that meets a fault ends, its earlier accesses standing, and the fault waits for its
warp with the PC of the operation's issue; so does one whose page a replay has cancelled; one that meets a page that is not
present waits for it, with a record, the units before standing. The waits on an accepted matrix operation end in order. Which
accesses have performed at a fault or a wait is the model's choice [20], and when the fault is taken its reading [13]. -/
def Obligations.EngineFaultsAndWaits : Prop :=
  (∀ s op o w cls cause addr prop, s.thread op = some o → nth s.warps o.warp = some w → w.gang = o.gang → w.ended = false →
    w.live ≠ 0 → w.c.frontier.any Split.issues = true → (Thread.finish { s := s, o := o }).halt = some (.fault cls cause addr prop) →
    ∃ t w', exec (.engineThreadFault op) s = .next t ∧ SameMemory (Thread.finish { s := s, o := o }).s t
      ∧ t.ops = s.ops.eraseIdx op ∧ nth t.warps o.warp = some w' ∧ w'.c.v = w.c.v ∧ w'.c.k = w.c.k ∧ w'.c.p = w.c.p
      ∧ w'.pending = w.pending ++ [⟨{ cls := cls, cause := cause, addr := BitVec.ofNat 64 addr, tags := o.paddr.toNat + 4 * prop.toNat },
          o.pc, o.eqix, o.altpc, o.kind⟩])
  ∧ (∀ s op o w, nth s.ops op = some o → s.running o.gang = true → o.cancelled = true → o.failed = none →
    nth s.warps o.warp = some w → w.gang = o.gang → w.ended = false → w.live ≠ 0 → w.c.frontier.any Split.issues = true →
    ∃ t w' f, exec (.engineThreadFault op) s = .next t ∧ SameMemory s t ∧ t.ops = s.ops.eraseIdx op
      ∧ nth t.warps o.warp = some w' ∧ w'.c = w.c ∧ w'.pending = w.pending ++ [f] ∧ f.info.cls = .translation ∧ f.info.cause = 0
      ∧ f.pc = o.pc ∧ ∀ p, o.phase = .asleep p → f.info.addr = BitVec.ofNat 64 p.addr)
  ∧ (∀ s op o w g l page addr, s.thread op = some o → nth s.warps o.warp = some w → nth s.gangs o.gang = some g →
    nth s.launches o.launch = some l → l.part < s.parts.length →
    (Thread.finish { s := s, o := o }).halt = some (.sleep page none addr) →
    ∃ t, exec (.engineThreadFault op) s = .next t ∧ SameMemory (Thread.finish { s := s, o := o }).s t
      ∧ (nth t.ops op).map (·.phase) = some (.asleep { page := page, reg := none, addr := addr })
      ∧ (w.sleepsOn page = false → (∀ p ∈ s.ops, p.warp = o.warp → ∀ y, p.phase = .asleep y → y.page ≠ page) →
          ∃ r, (t.part l.part).pendingRecs = (s.part l.part).pendingRecs ++ [⟨r, .nothing⟩] ∧ r.cls = .translation ∧ r.disp = 0
            ∧ r.addr = BitVec.ofNat 64 addr ∧ r.fpc = o.pc))
  ∧ ∀ (s : State) op m, (s.mops.find? fun m => m.id == op) = some m → (∀ x ∈ s.mops, x.gang = m.gang → op ≤ x.id) → Lives s m.gang →
    exec (.mmaCompletion op) s = .next { s with mops := s.mops.filter fun x => x.id != op }

namespace Sys2Proof.Claims

open Sys2Proof Sys2Proof.Machine

/-! Replays, recompute producers, the fault ring, single steps. -/

/-- Whether a FREPLAY value acts, and on which page (R310). -/
def replays (value : Word64) (page : Nat) : Bool :=
  value.getLsbD 1 || page == value.toNat / 2 ^ 16 % 2 ^ 40

/-- R310: what a FREPLAY write makes of a sleeping entry whose sleep has not ended in a fault: those of its pages that it names are gone,
and once none is left its access issues afresh; a cancellation leaves it the fault of a page that it names. -/
def replayedEntry (value : Word64) (e : Split) : Split :=
  match e.block with
  | .sleep pages cancelled failed =>
    let hits := pages.filter fun x => x.reg = none && replays value x.page
    let rest := pages.filter fun x => !(decide (x.reg = none) && replays value x.page)
    if hits = [] ∨ cancelled = true ∨ failed ≠ none then e
    else { e with block := if value.getLsbD 0 then .sleep hits true none else .sleep rest false none }
  | _ => e

/-- R312: what the end of a producer makes of an entry that sleeps for its registration. -/
def producedEntry (g : Nat) (ok : Bool) (e : Split) : Split :=
  match e.block with
  | .sleep pages cancelled failed =>
    let hits := pages.filter fun x => x.reg = some g
    let rest := pages.filter fun x => x.reg ≠ some g
    if hits = [] ∨ cancelled = true ∨ failed ≠ none then e
    else { e with block := if ok then .sleep rest false none else .sleep hits false (some 2) }
  | _ => e

/-- Every sleeping entry of a partition's warps has become what a function makes of it, those whose access is to issue afresh merging as
R38 has it; no register has changed, and nothing of another partition's warps. -/
def Wakes (s t : State) (pi : Nat) (f : Split → Split) : Prop :=
  ∀ wi w, nth s.warps wi = some w → ∃ w', nth t.warps wi = some w' ∧ w'.c.v = w.c.v ∧ w'.c.k = w.c.k ∧ w'.c.p = w.c.p
    ∧ (s.partOf w.gang = pi → Unblocked (t.marked pi) (fun e x => x = f e) w.c.frontier w.c.sel w'.c.frontier w'.c.sel)
    ∧ (s.partOf w.gang ≠ pi → w'.c = w.c)

/-- No engine operation of a launch runs. -/
def OpsIdle (s : State) (li : Nat) : Prop := ∀ o ∈ s.ops, o.launch = li → o.phase ≠ .running

/-- R306, R312: what the end of a producer with CODE OK does to the page of an address: where a walk now meets a RECOMPUTE entry with its
index, that entry becomes a page entry of its level, valid, RO and PROP from FLAGS, its address PBASE + (VA - VBASE); the page's
cached translations are gone. -/
def remapPage (pi : Nat) (r : Producer) (va : Nat) (s : State) : State :=
  let u := s.dropTlb pi (some va)
  (u.recomputeAt (u.part pi) va 3 (u.part pi).root).elim u fun x =>
    let size := 2 ^ levelShift x.2.1
    let pa := (((r.pbase : Int) + (va / size * size : Nat) - r.vbase) % 2 ^ 52).toNat
    if x.2.2 = r.reg then
      u.store none [⟨{ loc := .phys x.1 }, leBytes 8 (1 + 2 + 8 * bits r.flags 0 0 + 16 * bits r.flags 1 1 + pa / 256 * 256), false⟩]
    else u

/-- The same for n pages from an address on. -/
def remapped (pi : Nat) (r : Producer) (n va : Nat) (s : State) : State :=
  (List.range n).foldl (fun s k => remapPage pi r (va + 65536 * k) s) s

end Sys2Proof.Claims

open Sys2Proof Sys2Proof.Machine Sys2Proof.Claims in
/-- R310, R312, R321, R325: FREPLAY writes and the end of a producer, which maps what it has produced in and replays the sleepers
where its CODE is OK, and fails them where it is not. A FREPLAY value whose zero fields are not zero is ignored. The CAUSEs of
what a cancellation or a failed producer ends are the model's readings [27]. -/
def Obligations.SleepersWake : Prop :=
  (∀ s pi (value : Word64) i, i = (if value.getLsbD 0 then .freplayCancel pi value else .freplayReissue pi value) →
    ∃ t, exec i s = .next t
      ∧ (value.toNat / 2 ^ 56 ≠ 0 ∨ value.toNat / 4 % 2 ^ 14 ≠ 0 → t = s)
      ∧ (value.toNat / 2 ^ 56 = 0 → value.toNat / 4 % 2 ^ 14 = 0 →
          Wakes s t pi (replayedEntry value) ∧ SameMemory s t
          ∧ (∀ k o p, nth s.ops k = some o → o.phase = .asleep p →
              nth t.ops k = some (if s.partOf o.gang = pi ∧ p.reg = none ∧ replays value p.page = true ∧ o.cancelled = false ∧ o.failed = none then
                if value.getLsbD 0 then { o with cancelled := true } else { o with phase := .running } else o))
          ∧ ∀ d < 8, FMap.get [] t.events d = if (s.part pi).dies.getLsbD d && s.pkg.dies.getLsbD d then
              FMap.get [] s.events d ++ [BitVec.ofNat 64 (2 + 256 * (value.toNat / 2 ^ 16 % 2 ^ 40))] else FMap.get [] s.events d))
  ∧ ∀ (s : State) pi launch r l, ((s.part pi).producers.find? fun x => x.launch == launch) = some r →
    nth s.launches launch = some l → l.phase = .ended → pi < s.parts.length →
    let ok := l.code == 0
    ∃ t, exec (.recomputeProducerEnd pi launch) s = .next t ∧ Wakes s t pi (producedEntry r.reg ok)
      ∧ (t.part pi).producers = (s.part pi).producers.filter (fun x => x.launch != launch)
      ∧ (let u := if ok then remapped pi r (r.len / 65536) r.vbase s else s
        SameMemory ((u.writeVa pi (r.addr + 0x24) (leBytes 4 (if ok then 2 else 3))).getD u) t)
      ∧ (∀ k o p, nth s.ops k = some o → s.partOf o.gang = pi → o.phase = .asleep p → p.reg = some r.reg → o.cancelled = false → o.failed = none →
          nth t.ops k = some (if ok then { o with phase := .running } else { o with failed := some 2 }))
      ∧ FMap.get [] t.events r.die = FMap.get [] s.events r.die ++ [BitVec.ofNat 64 (3 + 256 * (r.reg + 2 ^ 12))]

open Sys2Proof Sys2Proof.Machine Sys2Proof.Claims in
/-- R276, R315, R318, R320, R321, R344: a die's oldest record that waits goes to the fault ring, where it has room and the slot
can be written: 64 bytes laid out as R315 says, FRTAIL rises, the die is told, and a fatal one ends its launch. A single step
stops once every warp of the gang has issued or has nothing to issue, with a record for each. The argument of the event that
tells of a record is the model's reading [27], and so are the records of a single step [33]. -/
def Obligations.FaultRing : Prop :=
  (∀ s pi die r u, pi < s.parts.length → ((s.part pi).pendingRecs.find? fun r => r.frec.die == die) = some r →
    let p := s.part pi
    4 ≤ p.frsize → p.frsize ≤ 14 → (p.frtail - p.frhead).toNat ≠ 2 ^ p.frsize →
    s.writeVa pi (p.frbase.toNat + 64 * (p.frtail.toNat % 2 ^ p.frsize)) r.frec.bytes = some u →
    ∃ t, exec (.faultRecordWrite ⟨pi, die⟩) s = .next t ∧ ((∀ li code, r.after = .endLaunch li code → OpsIdle s li) → SameMemory u t)
      ∧ (t.part pi).pendingRecs = p.pendingRecs.erase r
      ∧ (t.part pi).frtail = p.frtail + 1
      ∧ FMap.get [] t.events die = FMap.get [] s.events die ++ [BitVec.ofNat 64 (1 + 256 * p.frtail.toNat)]
      ∧ ((r.after = .nothing ∨ ∃ gi, r.after = .staging gi) → t.launches = s.launches ∧ t.gangs = s.gangs)
      ∧ ∀ li code l, r.after = .endLaunch li code → nth s.launches li = some l → l.phase = .dispatched →
          (nth t.launches li).map (fun l => (l.phase, l.code)) = some (.ending, code)
          ∧ ∀ gi g, nth t.gangs gi = some g → g.launch = li → g.phase = .retired)
  ∧ (∀ r : FRec, r.bytes.length = 64
      ∧ ([(0, 1, r.cls.code), (1, 1, r.disp), (2, 1, r.variant), (3, 1, r.cause), (4, 4, r.lanes.toNat), (8, 8, r.fpc.toNat),
          (0x10, 8, r.altpc.toNat), (0x18, 4, r.eqix.toNat), (0x1C, 4, r.info.toNat), (0x20, 8, r.addr.toNat), (0x28, 4, r.tags),
          (0x2C, 4, r.gang), (0x30, 8, r.lseq), (0x38, 1, r.warp), (0x39, 1, r.die), (0x3A, 1, r.cell), (0x3B, 1, r.core),
          (0x3C, 4, 0)] : List (Nat × Nat × Nat)).all fun x => leNat ((r.bytes.drop x.1).take x.2.1) == x.2.2 % 256 ^ x.2.1)
  ∧ ∀ s gi g issued l, nth s.gangs gi = some g → g.step = some issued → nth s.launches g.launch = some l → s.running gi = true →
    l.part < s.parts.length →
    (∀ wi w, nth s.warps wi = some w → w.gang = gi → w.ended = false → wi ∈ issued
      ∨ ∀ e ∈ (s.refreshed w g l.part).frontier, e.issues = false) →
    ∃ t rs, exec (.singleStepStop gi) s = .next t ∧ nth t.gangs gi = some { g with phase := .stopping, step := none }
      ∧ { t with gangs := s.gangs, parts := s.parts } = s ∧ (∀ j, j ≠ gi → nth t.gangs j = nth s.gangs j)
      ∧ (t.part l.part).pendingRecs = (s.part l.part).pendingRecs ++ rs
      ∧ (∀ r ∈ rs, r.after = .nothing ∧ r.frec.cls = .bkpt ∧ r.frec.cause = 1 ∧ r.frec.disp = 4 ∧ r.frec.gang = g.lin)
      ∧ ∀ wi w, nth s.warps wi = some w → w.gang = gi → w.ended = false → w.c.frontier ≠ [] →
          ∃ r ∈ rs, r.frec.warp = w.index ∧ r.frec.core = w.core

namespace Sys2Proof.Claims

open Sys2Proof Sys2Proof.Machine

/-! Commands. -/

/-- The command processor has taken the oldest entry of a ring and answered it (R342, R343). -/
structure Answered (s t : State) (pi n : Nat) (e : List Byte) (rest : List (List Byte)) (result value value2 : Nat) : Prop where
  head : (t.ring pi n).head = (s.ring pi n).head + 1 ∧ (t.ring pi n).entries = rest
  last : (t.part pi).lastRing = n
  answer : (t.part pi).completions = (s.part pi).completions
    ++ [⟨n, BitVec.ofNat 64 (leNat ((e.drop 8).take 8)), leNat (e.take 2), result, BitVec.ofNat 64 value, BitVec.ofNat 64 value2⟩]

/-- A ring's entry comes next: the partition exists and the round-robin order is at this ring (R343). -/
structure Next (s : State) (pi n : Nat) (e : List Byte) (rest : List (List Byte)) (op : Nat) : Prop where
  exists_ : pi < s.parts.length ∧ (s.part pi).en = true
  entries : (s.ring pi n).entries = e :: rest
  turn : s.nextRing pi = some n
  op : leNat (e.take 2) = op

/-- The k-th argument of an entry. -/
def argOf (e : List Byte) (k : Nat) : Nat := leNat ((e.drop (0x10 + 8 * k)).take 8)

/-- The launch of a partition that a sequence number names. -/
def Named (s : State) (pi seq li : Nat) (l : Launch) : Prop :=
  nth s.launches li = some l ∧ l.part = pi ∧ l.seq = seq
    ∧ ∀ j m, nth s.launches j = some m → m.part = pi → m.seq = seq → j = li

end Sys2Proof.Claims

namespace Sys2Proof.Claims

open Sys2Proof Sys2Proof.Machine

/-! Which launch records are accepted (R268 to R272). -/

/-- A little-endian field, bits of it, and an area that is zero. -/
def num (bs : List Byte) (off n : Nat) : Nat := leNat ((bs.drop off).take n)
def numBits (bs : List Byte) (off n hi lo : Nat) : Nat := bits (num bs off n) hi lo
def Zeros (bs : List Byte) (off n : Nat) : Prop := ∀ b ∈ (bs.drop off).take n, b = 0

/-- R270: WIDW, and its six widths. -/
def widthsIn (w : Nat) : List Nat := [bits w 3 0, bits w 5 4, bits w 11 6, bits w 17 12, bits w 23 18, bits w 29 24]
def WidthsFit (w : Nat) : Prop :=
  bits w 31 30 = 0 ∧ 1 ≤ bits w 3 0 ∧ bits w 3 0 ≤ 9 ∧ bits w 5 4 ≤ 2 ∧ (∀ x ∈ (widthsIn w).drop 2, x ≤ 32) ∧ (widthsIn w).sum ≤ 64

/-- R268: a grid within the widths; GEOM, RES, LOCAL and PCTL. -/
def gridAt (bs : List Byte) (off : Nat) : List Nat := [num bs off 4, num bs (off + 4) 4, num bs (off + 8) 4, num bs (off + 12) 4]
def GridFits (w : Nat) (g : List Nat) : Prop :=
  (∀ x ∈ g.zip ((widthsIn w).drop 2), 1 ≤ x.1 ∧ x.1 ≤ 2 ^ x.2 ∧ x.1 < 2 ^ 32) ∧ g.prod < 2 ^ 32
def GeomFits (g w : Nat) : Prop :=
  bits g 15 10 = 0 ∧ bits g 31 19 = 0 ∧ 1 ≤ bits g 9 0 ∧ bits g 9 0 ≤ 512 ∧ bits g 9 0 ≤ 2 ^ bits w 3 0 ∧ 1 ≤ bits g 18 16
    ∧ bits g 18 16 ≤ 4 ∧ bits g 18 16 ≤ 2 ^ bits w 5 4
def ResFits (r : Nat) : Prop := bits r 5 0 ≤ 32 ∧ bits r 7 6 = 0 ∧ bits r 12 8 ≤ 16 ∧ bits r 31 13 = 0
def LocalFits (n groups : Nat) : Prop := n % 256 = 0 ∧ n * groups ≤ 2 ^ 21
def PctlFits (p : Nat) : Prop := bits p 31 14 = 0 ∧ bits p 1 0 ≠ 3 ∧ bits p 9 2 ≠ 0 ∧ bits p 13 10 ≠ 0

/-- R268 to R271: the limits of a record, its handle list apart. -/
structure RecordFits (bs : List Byte) : Prop where
  ctrl : numBits bs 8 4 31 25 = 0 ∧ numBits bs 8 4 24 23 ≠ 3 ∧ numBits bs 8 4 22 17 ≤ 32 ∧ numBits bs 8 4 16 14 ≤ 4
    ∧ numBits bs 8 4 13 10 ≤ 8 ∧ numBits bs 8 4 9 7 ≤ 4
  shape : WidthsFit (num bs 0xC 4) ∧ GridFits (num bs 0xC 4) (gridAt bs 0x10) ∧ GeomFits (num bs 0x20 4) (num bs 0xC 4)
    ∧ ResFits (num bs 0x24 4) ∧ LocalFits (num bs 0x28 4) (numBits bs 0x20 4 18 16) ∧ PctlFits (num bs 0x2C 4)
  addresses : num bs 0x30 8 % 4 = 0 ∧ (numBits bs 8 4 9 7 = 0 → num bs 0x30 8 = 0) ∧ num bs 0x40 8 % 8 = 0 ∧ num bs 0x48 8 % 4 = 0
    ∧ num bs 0x58 4 ≤ 672 ∧ num bs 0x58 4 % 8 = 0
  trace : num bs 0x60 8 % 16 = 0 ∧ (if numBits bs 8 4 24 23 = 0 then num bs 0x60 8 = 0 ∧ num bs 0x68 8 = 0
    else num bs 0x68 8 % 16 = 0 ∧ 32 ≤ num bs 0x68 8)
  zeros : Zeros bs 0x70 16 ∧ Zeros bs 0x1C0 64 ∧ (let n := 32 * numBits bs 8 4 9 7; Zeros bs (0x80 + n) (128 - n))
    ∧ (let n := 16 * numBits bs 8 4 13 10; Zeros bs (0x100 + n) (128 - n)) ∧ (let n := 16 * numBits bs 8 4 16 14; Zeros bs (0x180 + n) (64 - n))
  classes : ∀ i < numBits bs 8 4 9 7, Zeros bs (0x84 + 32 * i) 4 ∧ GridFits (num bs 0xC 4) (gridAt bs (0x88 + 32 * i))
    ∧ Zeros bs (0x9A + 32 * i) 6 ∧ (0 < i → num bs (0x80 + 32 * (i - 1)) 4 < num bs (0x80 + 32 * i) 4)
  stages : ∀ i < numBits bs 8 4 13 10, numBits bs (0x100 + 16 * i) 4 4 0 < numBits bs 8 4 22 17 ∧ numBits bs (0x100 + 16 * i) 4 7 5 = 0
    ∧ numBits bs (0x100 + 16 * i) 4 31 9 = 0 ∧ 16 ≤ num bs (0x104 + 16 * i) 4 ∧ num bs (0x104 + 16 * i) 4 ≤ 2 ^ 21
    ∧ num bs (0x104 + 16 * i) 4 % 16 = 0 ∧ num bs (0x108 + 16 * i) 8 % 16 = 0
  waits : ∀ i < numBits bs 8 4 16 14, num bs (0x180 + 16 * i) 8 % 8 = 0

/-- R268, R269, R271: what a record and its handle list say. -/
def recordFrom (bs hb : List Byte) : LaunchRec :=
  let w64 (off : Nat) : Word64 := BitVec.ofNat 64 (num bs off 8)
  { kdesc := w64 0, det := numBits bs 8 4 24 23, kind := numBits bs 8 4 6 5, migrate := (num bs 8 4).testBit 4
    coop := (num bs 8 4).testBit 3, prio := numBits bs 8 4 2 0, widths := widthsIn (num bs 0xC 4), grid := gridAt bs 0x10
    lanes := numBits bs 0x20 4 9 0, groups := numBits bs 0x20 4 18 16, slots := numBits bs 0x24 4 5 0
    tiles := numBits bs 0x24 4 12 8, localBytes := num bs 0x28 4, pctl := BitVec.ofNat 32 (num bs 0x2C 4), sizeAddr := w64 0x30
    done := w64 0x38, staddr := w64 0x40, userp := w64 0x50, userlen := num bs 0x58 4, timeout := num bs 0x5C 4, trace := w64 0x60
    traceLen := num bs 0x68 8
    classes := (List.range (numBits bs 8 4 9 7)).map fun i =>
      ⟨num bs (0x80 + 32 * i) 4, gridAt bs (0x88 + 32 * i), num bs (0x98 + 32 * i) 2⟩
    stages := (List.range (numBits bs 8 4 13 10)).map fun i =>
      ⟨numBits bs (0x100 + 16 * i) 4 4 0, (num bs (0x100 + 16 * i) 4).testBit 8, num bs (0x104 + 16 * i) 4, num bs (0x108 + 16 * i) 8⟩
    waits := (List.range (numBits bs 8 4 16 14)).map fun i => ⟨w64 (0x180 + 16 * i), w64 (0x188 + 16 * i), false⟩
    handles := (List.range (numBits bs 8 4 22 17)).map fun i =>
      ⟨numBits hb (4 * i) 4 23 0, (num hb (4 * i) 4).testBit 24, (num hb (4 * i) 4).testBit 25⟩ }

/-- The core kinds that KIND permits, and the one that it names first (R269). -/
def Permits (r : LaunchRec) (x : CoreKind) : Prop := r.kind ≤ 1 ∨ x = (if r.kind = 2 then .d else .l)
def named (r : LaunchRec) : CoreKind := if r.kind = 0 ∨ r.kind = 2 then .d else .l

/-- A handle as the partition's table has it (R345). -/
def entryOf (s : State) (pi : Nat) (h : HandleRef) : Option Handle := FMap.get none (s.part pi).handles h.index

/-- Where the local copies of stages end, each at the next 256-byte boundary (R48). -/
def localEnd (stages : List Stage) : Nat :=
  stages.foldl (fun e st => if st.vault then e else (e + 255) / 256 * 256 + st.bytes) 0

/-- R119, R272, R283, R345: the other checks of a submission, of a kernel that KDESC names. Any permitted kind may hold the gang's
warps, and KIND names its preferred kind: the model's readings [25]. -/
structure Admitted (s : State) (pi : Nat) (r : LaunchRec) (queue : Option Nat) (k : Kernel) : Prop where
  kernel : (((s.part pi).images.flatMap (·.kernels)).find? fun k => k.kdesc = r.kdesc) = some k
  variant : k.variant (named r) ≠ none
  warps : ∃ x v, Permits r x ∧ k.variant x = some v
    ∧ (r.lanes + 31) / 32 * r.groups ≤ 2 * min (match x with | .l => 8 | .d => 48) (2048 / max v.regs 1)
  locals : localEnd r.stages ≤ r.localBytes
  handles : ∀ h ∈ r.handles, ∃ e, entryOf s pi h = some e ∧ (h.prop = true → e.bitmap ≠ none) ∧ (h.rw = true → e.ro = false)
  apart : ∀ i j a b ea eb, j < i → nth r.handles i = some a → nth r.handles j = some b → entryOf s pi a = some ea → entryOf s pi b = some eb →
    (ea.len ≠ 0 ∧ eb.len ≠ 0 ∧ ea.base.toNat < eb.base.toNat + eb.len ∧ eb.base.toNat < ea.base.toNat + ea.len) → a.rw = false ∧ b.rw = false
  stages : ∀ st ∈ r.stages, ∃ h e, nth r.handles st.handle = some h ∧ entryOf s pi h = some e ∧ st.offset + st.bytes ≤ e.len
  classes : ∀ c ∈ r.classes, c.entry < k.entries.length
  queue : ∀ q, queue = some q → q < 64 ∧ (FMap.get ({} : Queue) (s.part pi).queues q).cfg.getLsbD 3 = true
  coop : r.coop = true → (∀ g ∈ (if r.classes = [] then [r.grid] else r.classes.map (·.grid)), g.prod ≤ (s.cellsOf (s.part pi)).length * r.cellCap k)

/-- R121, R268, R272: a submission that is accepted; it can be read whole. -/
structure Accepted (s : State) (pi va : Nat) (queue : Option Nat) (bs hb : List Byte) (k : Kernel) : Prop where
  aligned : va % 256 = 0
  record : s.readVa pi va 512 = .ok bs
  fits : RecordFits bs
  lists : s.readVa pi (num bs 0x48 8) (4 * numBits bs 8 4 22 17) = .ok hb ∧ ∃ kb, s.readVa pi (num bs 0 8) 256 = .ok kb
  entries : ∀ i < numBits bs 8 4 22 17, num hb (4 * i) 4 < 2 ^ 26
  admitted : Admitted s pi (recordFrom bs hb) queue k

end Sys2Proof.Claims

open Sys2Proof Sys2Proof.Machine Sys2Proof.Claims in
/-- R268 to R272, R274, R276, R283, R314, R342 to R344: which records a submission accepts, and SUBMIT, CANCEL, RESUME and the
codes that no command has. Which kinds must hold a gang's warps, and which KIND names, are the model's readings [25]. What RESUME
does for a gang that still stands on its cell is the model's reading [33]. That a second RESUME of such a gang finds nothing, that a field
of an entry which R342 marks zero is ignored, and that an entry which cannot be read counts as OP 0 are the model's readings too [28]. -/
def Obligations.LaunchCommands : Prop :=
  (∀ s pi va queue, (∀ bs hb k, Accepted s pi va queue bs hb k → s.readLaunch pi va queue = some (recordFrom bs hb, k))
    ∧ ((∀ bs hb k, ¬Accepted s pi va queue bs hb k) → s.readLaunch pi va queue = none))
  ∧ (∀ s pi n e rest, Next s pi n e rest 1 →
    let got := s.readLaunch pi (argOf e 0) (some (leNat ((e.drop 2).take 2)))
    (got = none → ∃ t, exec (.submit pi n) s = .next t ∧ Answered s t pi n e rest 2 0 0 ∧ t.launches = s.launches ∧ SameMemory s t)
    ∧ ∀ r kern, got = some (r, kern) → (s.part pi).nextSeq ≠ 0 → ∃ t l, exec (.submit pi n) s = .next t
        ∧ Answered s t pi n e rest 0 (s.part pi).nextSeq 0 ∧ SameMemory s t ∧ t.launches = s.launches ++ [l] ∧ l.lrec = r ∧ l.kern = kern
        ∧ l.part = pi ∧ l.phase = .queued ∧ l.seq = (s.part pi).nextSeq ∧ l.queue = some (leNat ((e.drop 2).take 2))
        ∧ (t.part pi).nextSeq = (s.part pi).nextSeq + 1)
  ∧ (∀ s pi n e rest, Next s pi n e rest 2 →
    (∀ li l, Named s pi (argOf e 0) li l →
      (l.phase ≠ .ending → l.phase ≠ .ended → l.dying = false → ∃ t, exec (.cancel pi n) s = .next t ∧ Answered s t pi n e rest 0 0 0
        ∧ (nth t.launches li).map (fun l => (l.phase, l.code)) = some (.ending, 6)
        ∧ (l.phase = .dispatched → ∀ gi g, nth t.gangs gi = some g → g.launch = li → g.phase = .retired))
      ∧ (l.phase = .ending ∨ l.phase = .ended → ∃ t, exec (.cancel pi n) s = .next t ∧ Answered s t pi n e rest 3 0 0
        ∧ t.launches = s.launches))
    ∧ ((∀ l ∈ s.launches, l.part = pi → l.seq ≠ argOf e 0) → ∃ t, exec (.cancel pi n) s = .next t ∧ Answered s t pi n e rest 3 0 0
        ∧ t.launches = s.launches))
  ∧ (∀ s pi n e rest li l, Next s pi n e rest 3 → Named s pi (argOf e 0) li l →
    let stopped (g : Gang) : Bool := g.launch == li && (decide (g.phase = .stopped) || (decide (g.phase = .stopping) && !g.resumed))
    ((∃ g ∈ s.gangs, stopped g = true) → ∃ t, exec (.resume pi n) s = .next t ∧ Answered s t pi n e rest 0 0 0 ∧ SameMemory s t
        ∧ ∀ gi g, nth s.gangs gi = some g → ∃ g', nth t.gangs gi = some g'
            ∧ (stopped g = false → g' = g)
            ∧ (stopped g = true → g'.stepNext = (argOf e 1).testBit 0 ∧ g'.e = l.base
                ∧ (g.phase = .stopped → g'.phase = .eligible) ∧ (g.phase = .stopping → g'.phase = .stopping ∧ g'.resumed = true)))
    ∧ ((∀ g ∈ s.gangs, stopped g = false) → ∃ t, exec (.resume pi n) s = .next t ∧ Answered s t pi n e rest 3 0 0
        ∧ t.gangs = s.gangs))
  ∧ ∀ s pi n e rest op, Next s pi n e rest op → (op = 0 ∨ 8 ≤ op) →
    ∃ t, exec (.badcmd pi n) s = .next t ∧ Answered s t pi n e rest 1 0 0 ∧ { t with parts := s.parts } = s

namespace Sys2Proof.Claims

open Sys2Proof Sys2Proof.Machine

/-- R345: the limits of HSET: its fields, and no overlap with another handle unless neither has a bitmap. -/
def HandleFits (p : Part) (i base len bitmap : Nat) : Prop :=
  i < 2 ^ 24 ∧ len ≠ 0 ∧ len % 256 = 0 ∧ base % 256 = 0 ∧ bitmap % 8 = 0
    ∧ ∀ j h, (j, some h) ∈ p.handles → j ≠ i → h.len ≠ 0 →
      (base < h.base.toNat + h.len ∧ h.base.toNat < base + len) → bitmap = 0 ∧ h.bitmap = none

/-- R334, R343, R345: whether a handle, or an image, is in use. -/
def HandleHeld (s : State) (pi i : Nat) : Prop :=
  (∃ l ∈ s.launches, l.part = pi ∧ l.phase ≠ .ended ∧ ∃ h ∈ l.lrec.handles, h.index = i)
    ∨ ∃ h, FMap.get none (s.part pi).handles i = some h ∧ h.image = true

def ImageHeld (s : State) (pi : Nat) (im : Image) : Prop :=
  ∃ l ∈ s.launches, l.part = pi ∧ l.phase ≠ .ended ∧ ∃ k ∈ im.kernels, k.kdesc = l.lrec.kdesc

/-! Which images are loaded (R326 to R332, R336). -/

/-- R326. -/
structure HeaderFits (bs : List Byte) : Prop where
  read : 64 ≤ bs.length ∧ 64 ≤ num bs 0x28 8 ∧ num bs 0x28 8 ≤ bs.length
  fields : num bs 0 4 = 0x4C525244 ∧ num bs 4 2 = 1 ∧ 1 ≤ num bs 6 2 ∧ 1 ≤ num bs 0x10 4 ∧ num bs 0x10 4 ≤ 1024 ∧ num bs 0x14 4 ≤ 256
    ∧ num bs 0x18 8 % 64 = 0 ∧ num bs 0x20 8 % 256 = 0 ∧ Zeros bs 0x30 16
  tables : num bs 0x18 8 + 32 * num bs 0x10 4 ≤ num bs 0x28 8 ∧ num bs 0x20 8 + 256 * num bs 0x14 4 ≤ num bs 0x28 8

/-- A field of section i. -/
def secField (bs : List Byte) (i off n : Nat) : Nat := num bs (num bs 0x18 8 + 32 * i + off) n
def secType (bs : List Byte) (i : Nat) : Nat := secField bs i 0 4
def secFlags (bs : List Byte) (i : Nat) : Nat := secField bs i 4 4
def secOff (bs : List Byte) (i : Nat) : Nat := secField bs i 8 8
def secSize (bs : List Byte) (i : Nat) : Nat := secField bs i 0x10 8
def secLink (bs : List Byte) (i : Nat) : Nat := secField bs i 0x18 4

/-- The name at an offset of NAMES. -/
def nameOf (bs : List Byte) (o : Nat) : Option (List Byte) := nameAt bs (parseSections bs) o

/-- R327: the limits of section i. -/
def SectionFits (bs : List Byte) (i : Nat) : Prop :=
  let t := secType bs i
  let l := secLink bs i
  let Partner (u : Nat) : Prop := l < num bs 0x10 4 ∧ secType bs l = u ∧ secLink bs l = i
  1 ≤ t ∧ t ≤ 6 ∧ secOff bs i + secSize bs i ≤ num bs 0x28 8
    ∧ (t = 3 → secFlags bs i ≤ 1 ∧ secOff bs i % 256 = 0 ∧ Partner 4 ∧ nameOf bs (secField bs i 0x1C 4) ≠ none)
    ∧ (t ≠ 3 → secFlags bs i = 0 ∧ secOff bs i % 64 = 0 ∧ secField bs i 0x1C 4 = 0)
    ∧ (t = 1 → secSize bs i % 64 = 0)
    ∧ (t = 4 → Partner 3 ∧ secSize bs i = (secSize bs l + 255) / 256)
    ∧ (t ≠ 3 → t ≠ 4 → l = 0)

/-- R327. -/
structure SectionsFit (bs : List Byte) : Prop where
  each : ∀ i < num bs 0x10 4, SectionFits bs i
  names : ∃ i < num bs 0x10 4, secType bs i = 5 ∧ ∀ j < num bs 0x10 4, secType bs j = 5 → j = i
  apart : ∀ i j x, i < num bs 0x10 4 → j < i → ¬((secOff bs i ≤ x ∧ x < secOff bs i + secSize bs i)
    ∧ secOff bs j ≤ x ∧ x < secOff bs j + secSize bs j)
  pages : ∀ i j x y, i < num bs 0x10 4 → j < num bs 0x10 4 → secType bs i = 1 → secType bs j = 3 → secFlags bs j = 0 →
    secOff bs i ≤ x → x < secOff bs i + secSize bs i → secOff bs j ≤ y → y < secOff bs j + secSize bs j → x / 65536 ≠ y / 65536

/-- A field of kernel k's descriptor; whether it has a variant, and a field of its block (R328). -/
def kern (bs : List Byte) (k off n : Nat) : Nat := num bs (num bs 0x20 8 + 256 * k + off) n
def has (bs : List Byte) (k : Nat) (x : CoreKind) : Bool := (kern bs k 4 4).testBit (match x with | .l => 0 | .d => 1)
def block : CoreKind → Nat | .l => 0x20 | .d => 0x40
def entryAt' (bs : List Byte) (k : Nat) (x : CoreKind) (j : Nat) : Nat :=
  num bs (kern bs k 0x70 8 + 16 * j + (match x with | .l => 0 | .d => 8)) 8
def vCode (bs : List Byte) (k : Nat) (x : CoreKind) : Nat := kern bs k (block x) 8
def vLen (bs : List Byte) (k : Nat) (x : CoreKind) : Nat := kern bs k (block x + 8) 8
def vRegs (bs : List Byte) (k : Nat) (x : CoreKind) : Nat := kern bs k (block x + 16) 4
def vHentry (bs : List Byte) (k : Nat) (x : CoreKind) : Nat := kern bs k (block x + 24) 4

/-- R328: a variant block. -/
def VariantFits (bs : List Byte) (k : Nat) (x : CoreKind) : Prop :=
  if has bs k x = false then Zeros bs (num bs 0x20 8 + 256 * k + block x) 32
  else vLen bs k x ≠ 0 ∧ vLen bs k x % 64 = 0 ∧ vCode bs k x % 64 = 0
    ∧ (∃ i < num bs 0x10 4, secType bs i = 1 ∧ secOff bs i ≤ vCode bs k x ∧ vCode bs k x + vLen bs k x ≤ secOff bs i + secSize bs i)
    ∧ (match x with
      | .l => 1 ≤ vRegs bs k x ∧ vRegs bs k x ≤ 255
      | .d => 8 ≤ vRegs bs k x ∧ vRegs bs k x ≤ 64 ∧ vRegs bs k x % 8 = 0)
    ∧ kern bs k (block x + 0x14) 4 = 0 ∧ kern bs k (block x + 0x1C) 4 = 0

/-- R328. -/
structure KernelFits (bs : List Byte) (k : Nat) : Prop where
  name : nameOf bs (kern bs k 0 4) ≠ none ∧ ∀ j < k, nameOf bs (kern bs j 0 4) ≠ nameOf bs (kern bs k 0 4)
  fields : 1 ≤ kern bs k 4 4 ∧ kern bs k 4 4 ≤ 3 ∧ WidthsFit (kern bs k 8 4) ∧ GeomFits (kern bs k 0xC 4) (kern bs k 8 4)
    ∧ ResFits (kern bs k 0x10 4) ∧ LocalFits (kern bs k 0x14 4) (bits (kern bs k 0xC 4) 18 16) ∧ PctlFits (kern bs k 0x18 4)
    ∧ kern bs k 0x1E 2 ≤ 32 ∧ kern bs k 0x68 4 ≤ 4096 ∧ 1 ≤ kern bs k 0x6C 4 ∧ kern bs k 0x6C 4 ≤ 64
  within : kern bs k 0x60 8 + 32 * kern bs k 0x68 4 ≤ num bs 0x28 8 ∧ kern bs k 0x70 8 + 16 * kern bs k 0x6C 4 ≤ num bs 0x28 8
    ∧ kern bs k 0x78 8 + 8 * kern bs k 0x1E 2 ≤ num bs 0x28 8
  zeros : Zeros bs (num bs 0x20 8 + 256 * k + 0x80) 128
  variants : ∀ x, VariantFits bs k x
  entries : ∀ x, ∀ j < kern bs k 0x6C 4, if has bs k x = false then entryAt' bs k x j = 2 ^ 64 - 1
    else j = 0 → entryAt' bs k x 0 = vCode bs k x
  handles : ∀ j < kern bs k 0x1E 2, nameOf bs (num bs (kern bs k 0x78 8 + 8 * j) 4) ≠ none ∧ num bs (kern bs k 0x78 8 + 8 * j + 4) 4 ≤ 3

/-- A slot of a variant's code (R140), and one whose TGT bit is set; the line word is read as R141 has it. -/
def InVariant (bs : List Byte) (k : Nat) (x : CoreKind) (pc : Nat) : Prop :=
  vCode bs k x ≤ pc ∧ pc < vCode bs k x + vLen bs k x ∧ pc % 64 ≤ 4
def imgLine (bs : List Byte) (at_ : Nat) : List Byte := (bs.drop at_).take 64
def IsTarget (bs : List Byte) (k : Nat) (x : CoreKind) (pc : Nat) : Prop :=
  InVariant bs k x pc ∧ (lineWordOf (imgLine bs (pc / 64 * 64))).testBit (pc % 64) = true

/-- R330, for a variant that is present. -/
structure CodeFits (bs : List Byte) (k : Nat) (x : CoreKind) : Prop where
  lines : ∀ i < vLen bs k x / 64, bits (lineWordOf (imgLine bs (vCode bs k x + 64 * i))) 31 20 = 0
    ∧ lineParityOk (imgLine bs (vCode bs k x + 64 * i)) = true
  entries : ∀ j < kern bs k 0x6C 4, IsTarget bs k x (entryAt' bs k x j)
  handler : if vHentry bs k x = 2 ^ 32 - 1 then kern bs k 0x1C 2 = 0 else IsTarget bs k x (vCode bs k x + vHentry bs k x)

/-- A field of map header j of kernel k, its PC in a variant and its pair words (R331). -/
def hdr (bs : List Byte) (k j off n : Nat) : Nat := num bs (kern bs k 0x60 8 + 32 * j + off) n
def hdrPc (bs : List Byte) (k j : Nat) : CoreKind → Nat | .l => hdr bs k j 8 8 | .d => hdr bs k j 16 8
def pairOf (bs : List Byte) (k j q : Nat) : Nat := num bs (hdr bs k j 24 8 + 4 * q) 4

/-- The word of a slot of the code is an EQP with an index (R245). -/
def IsEqp (bs : List Byte) (pc idx : Nat) : Prop :=
  let w := slotWord (imgLine bs (pc / 64 * 64)) (pc % 64)
  w / 2 ^ 86 = 0x3C0 ∧ w % 2 ^ 32 = idx

/-- R332: a register descriptor's limits, and the registers that it names: kind and number. -/
def DescFits (bs : List Byte) (k : Nat) (x : CoreKind) (d : Nat) : Prop :=
  bits d 13 8 = 0 ∧ (bits d 15 14 = 0 → bits d 7 0 < vRegs bs k x)
    ∧ (bits d 15 14 = 1 → bits d 7 0 % 2 = 0 ∧ bits d 7 0 + 1 < vRegs bs k x) ∧ (bits d 15 14 = 2 → bits d 7 0 ≤ 63)
    ∧ (bits d 15 14 = 3 → bits d 7 0 ≤ 15)
def Names (d : Nat) (r : Nat × Nat) : Prop :=
  (bits d 15 14 = 0 ∧ r = (0, bits d 7 0)) ∨ (bits d 15 14 = 1 ∧ (r = (0, bits d 7 0) ∨ r = (0, bits d 7 0 + 1)))
    ∨ (2 ≤ bits d 15 14 ∧ r = (bits d 15 14, bits d 7 0))

/-- R331, R332. -/
structure MapFits (bs : List Byte) (k : Nat) : Prop where
  rises : ∀ j, j + 1 < kern bs k 0x68 4 → hdr bs k j 0 4 < hdr bs k (j + 1) 0 4
  headers : ∀ j < kern bs k 0x68 4, hdr bs k j 0 4 ≤ 4095 ∧ hdr bs k j 4 4 ≤ 512
    ∧ (hdr bs k j 4 4 ≠ 0 → (∀ x, has bs k x = true) ∧ hdr bs k j 24 8 + 4 * hdr bs k j 4 4 ≤ num bs 0x28 8)
    ∧ ∀ x, if has bs k x = true then InVariant bs k x (hdrPc bs k j x) ∧ IsEqp bs (hdrPc bs k j x) (hdr bs k j 0 4)
        else hdrPc bs k j x = 2 ^ 64 - 1
  pairs : ∀ j < kern bs k 0x68 4, ∀ q < hdr bs k j 4 4, let w := pairOf bs k j q
    bits w 15 14 = bits w 31 30 ∧ DescFits bs k .l (w % 65536) ∧ DescFits bs k .d (w / 65536)
  once : ∀ j < kern bs k 0x68 4, ∀ q < hdr bs k j 4 4, ∀ p < q, ∀ r, ¬(Names (pairOf bs k j q % 65536) r ∧ Names (pairOf bs k j p % 65536) r)
    ∧ ¬(Names (pairOf bs k j q / 65536) r ∧ Names (pairOf bs k j p / 65536) r)
  points : ∀ x, has bs k x = true → ∀ pc idx, InVariant bs k x pc → IsEqp bs pc idx → (∃ j < kern bs k 0x68 4, hdr bs k j 0 4 = idx)
    ∧ ∀ pc', InVariant bs k x pc' → IsEqp bs pc' idx → pc' = pc

/-- R329, R336: the first check that an image fails, by its code. -/
def Refused (dgen : Nat) (bs : List Byte) (code : Nat) : Prop :=
  let All (P : Nat → Prop) : Prop := ∀ k < num bs 0x14 4, P k
  let Codes (k : Nat) : Prop := ∀ x, has bs k x = true → CodeFits bs k x
  (code = 1 ∧ ¬HeaderFits bs)
    ∨ (HeaderFits bs ∧ ((code = 2 ∧ dgen < num bs 6 2)
      ∨ (num bs 6 2 ≤ dgen ∧ ((code = 3 ∧ 2 ^ 8 ≤ num bs 8 8)
        ∨ (num bs 8 8 < 2 ^ 8 ∧ ((code = 4 ∧ ¬SectionsFit bs)
          ∨ (SectionsFit bs ∧ ((code = 5 ∧ ¬All (KernelFits bs))
            ∨ (All (KernelFits bs) ∧ ((code = 6 ∧ ¬All Codes)
              ∨ (All Codes ∧ code = 7 ∧ ¬All (MapFits bs))))))))))))

/-- A section of a type with some flags has bytes in a 64 KiB page of the image. -/
def HasIn (bs : List Byte) (page type : Nat) (flags : Nat → Prop) : Prop :=
  ∃ i < num bs 0x10 4, ∃ x, secType bs i = type ∧ flags (secFlags bs i) ∧ secOff bs i ≤ x ∧ x < secOff bs i + secSize bs i ∧ x / 65536 = page

/-- R306, R329: the entry of a page of a loaded image: valid, a page, at the page's place, EXEC where it holds code, writable where it
holds writable data, else RO; neither PROP nor DEV. -/
structure PageMapped (u : State) (p : Part) (bs : List Byte) (va pa page : Nat) : Prop where
  entry : ∃ ea, u.leafAt p (va + 65536 * page) 3 p.root = some ea
    ∧ u.word64 ea / 256 = (pa + 65536 * page) / 256 ∧ u.word64 ea % 8 = 3
    ∧ ((u.word64 ea).testBit 5 = true ↔ HasIn bs page 1 fun _ => True)
    ∧ ((u.word64 ea).testBit 3 = false ↔ HasIn bs page 3 fun f => f = 0)
    ∧ (u.word64 ea).testBit 4 = false ∧ (u.word64 ea).testBit 6 = false ∧ (u.word64 ea).testBit 7 = false

/-- The DATA sections, in the order of the section table. -/
def dataSections (bs : List Byte) : List Nat := (List.range (num bs 0x10 4)).filter fun i => secType bs i == 3

/-- R334: the first n pages of an image are mapped no more: the entry of each that still maps the image's page is zero. -/
def takenOut (pi : Nat) (im : Image) : Nat → State → State
  | 0, s => s
  | n + 1, s =>
    let u := takenOut pi im n s
    (u.leafAt (u.part pi) (im.base.toNat + 65536 * n) 3 (u.part pi).root).elim u fun ea =>
      let e := u.word64 ea
      if pteV e = true ∧ pteType e = 1 ∧ pteAddr e = im.pa + 65536 * n then u.store none [⟨{ loc := .phys ea }, leBytes 8 0, false⟩] else u

end Sys2Proof.Claims

open Sys2Proof Sys2Proof.Machine Sys2Proof.Claims in
/-- R326 to R332, R334, R336, R343, R345: HSET, HCLR, LOAD and UNLOAD, which images LOAD refuses and with which code, and the
writing of a ring's oldest completion, where its ring has room and the slot can be written. The order of the checks, and where an
image's pages lie, are the model's choice [29] [10]. Which overlaps HSET allows, that a nonzero field of its entry which R342 marks zero is
ignored, and that its index is below 2^24 are the model's readings [28]. -/
def Obligations.TableCommands : Prop :=
  (∀ (s : State) pi va n, let Code (c : Nat) : Prop := ∃ x, s.loadImage pi va n = .error x ∧ x.num = c
    (n < 64 → Code 1)
    ∧ (64 ≤ n → (∃ e, s.readVa pi va n = .error e) → Code 9)
    ∧ ∀ bs, 64 ≤ n → s.readVa pi va n = .ok bs → (∀ c, Refused s.pkg.dgen bs c → Code c)
        ∧ ((∀ c, ¬Refused s.pkg.dgen bs c) → Code 8 ∨ ∃ x, s.loadImage pi va n = .ok x))
  ∧ (∀ s pi n e rest, Next s pi n e rest 4 →
    let i := argOf e 0
    let fits := HandleFits (s.part pi) i (argOf e 1) (argOf e 2) (argOf e 3)
    (¬fits → ∃ t, exec (.hset pi n) s = .next t ∧ Answered s t pi n e rest 1 0 0 ∧ (t.part pi).handles = (s.part pi).handles)
    ∧ (fits → HandleHeld s pi i → ∃ t, exec (.hset pi n) s = .next t ∧ Answered s t pi n e rest 4 0 0
        ∧ (t.part pi).handles = (s.part pi).handles)
    ∧ (fits → ¬HandleHeld s pi i → ∃ t, exec (.hset pi n) s = .next t ∧ Answered s t pi n e rest 0 0 0
        ∧ ∀ j, FMap.get none (t.part pi).handles j = if j = i then
            some { base := BitVec.ofNat 64 (argOf e 1), len := argOf e 2
                   bitmap := if argOf e 3 = 0 then none else some (BitVec.ofNat 64 (argOf e 3))
                   ro := (argOf e 4).testBit 0, image := false }
          else FMap.get none (s.part pi).handles j))
  ∧ (∀ s pi n e rest, Next s pi n e rest 5 →
    let i := argOf e 0
    (HandleHeld s pi i → ∃ t, exec (.hclr pi n) s = .next t ∧ Answered s t pi n e rest 4 0 0 ∧ (t.part pi).handles = (s.part pi).handles)
    ∧ (¬HandleHeld s pi i → ∃ t, exec (.hclr pi n) s = .next t ∧ Answered s t pi n e rest 0 0 0
        ∧ ∀ j, FMap.get none (t.part pi).handles j = if j = i then none else FMap.get none (s.part pi).handles j))
  ∧ (∀ s pi n e rest, Next s pi n e rest 6 →
    (∀ c, s.loadImage pi (argOf e 0) (argOf e 1) = .error c → ∃ t, exec (.load pi n) s = .next t ∧ Answered s t pi n e rest 5 c.num 0
        ∧ SameMemory s t ∧ (t.part pi).images = (s.part pi).images)
    ∧ (∀ u v table, s.loadImage pi (argOf e 0) (argOf e 1) = .ok (u, v, table) → ∃ t im bytes, exec (.load pi n) s = .next t
        ∧ Answered s t pi n e rest 0 v table ∧ SameMemory u t ∧ s.readVa pi (argOf e 0) (argOf e 1) = .ok bytes
        ∧ imageFails s.pkg.dgen bytes = none ∧ (t.part pi).images = (s.part pi).images ++ [im] ∧ im.base = BitVec.ofNat 64 v
        ∧ im.kernels.length = imgKernels bytes ∧ im.pa % 65536 = 0
        ∧ im.len = (num bytes 0x28 8 + 65535) / 65536 * 65536 + 65536
        ∧ (∀ k < im.len / 65536, PageMapped u (s.part pi) bytes v im.pa k)
        ∧ im.handles.length = (dataSections bytes).length
        ∧ (∀ i ∈ im.handles, i < 2 ^ 24 ∧ FMap.get none (s.part pi).handles i = none
            ∧ ∀ j, i < j → j < 2 ^ 24 → FMap.get none (s.part pi).handles j ≠ none ∨ j ∈ im.handles)
        ∧ ∀ j i k, nth im.handles j = some i → nth (dataSections bytes) j = some k → FMap.get none (t.part pi).handles i =
            some { base := BitVec.ofNat 64 (v + secOff bytes k), len := secSize bytes k, bitmap := none, ro := secFlags bytes k == 1
                   image := true, name := (nameOf bytes (secField bytes k 0x1C 4)).getD [] }))
  ∧ (∀ s pi n e rest, Next s pi n e rest 7 →
    ((∀ im ∈ (s.part pi).images, im.base.toNat ≠ argOf e 0) → ∃ t, exec (.unload pi n) s = .next t ∧ Answered s t pi n e rest 3 0 0
        ∧ (t.part pi).images = (s.part pi).images)
    ∧ ∀ im, ((s.part pi).images.find? fun im => im.base.toNat == argOf e 0) = some im →
      (ImageHeld s pi im → ∃ t, exec (.unload pi n) s = .next t ∧ Answered s t pi n e rest 4 0 0 ∧ (t.part pi).images = (s.part pi).images)
      ∧ (¬ImageHeld s pi im → ∃ t, exec (.unload pi n) s = .next t ∧ Answered s t pi n e rest 0 0 0
          ∧ SameMemory (takenOut pi im ((im.len + 65535) / 65536) s) t
          ∧ (t.part pi).images = (s.part pi).images.filter (fun x => x.base ≠ im.base)
          ∧ ∀ j, FMap.get none (t.part pi).handles j = if j ∈ im.handles then none else FMap.get none (s.part pi).handles j))
  ∧ ∀ s pi n c u, pi < s.parts.length → ((s.part pi).completions.find? fun c => c.ring == n) = some c →
    let r := s.ring pi n
    let k := r.csize.toNat % 16
    4 ≤ k → k ≤ 12 → (r.ctail - r.chead).toNat ≠ 2 ^ k →
    s.writeVa pi (r.cbase.toNat + 32 * (r.ctail.toNat % 2 ^ k)) (leBytes 8 c.cookie.toNat ++ leBytes 2 c.op ++ leBytes 2 c.result
      ++ leBytes 4 0 ++ leBytes 8 c.value.toNat ++ leBytes 8 c.value2.toNat) = some u →
    ∃ t, exec (.commandCompletion pi n) s = .next t ∧ SameMemory u t ∧ (t.ring pi n).ctail = r.ctail + 1
      ∧ (t.part pi).completions = (s.part pi).completions.erase c

namespace Sys2Proof.Claims

open Sys2Proof Sys2Proof.Machine

/-! Launches and gangs. -/

/-- The index that grid coordinates name, the first of them counting fastest (R35). -/
def linearOf : List Nat → List Nat → Nat
  | g :: gs, c :: cs => c + g * linearOf gs cs
  | _, _ => 0

/-- The grid of a dispatch: the launch's own, or that of the first size class that holds the size word (R49). -/
def gridFor (r : LaunchRec) (size : Nat) : Option (List Nat) :=
  if r.classes = [] then some r.grid else (r.classes.find? fun c => size ≤ c.size).map (·.grid)

/-- A launch has ended by force: ENDING with a code, every gang of it retired (R276). -/
def ForcedEnd (t : State) (li code : Nat) : Prop :=
  (nth t.launches li).map (fun l => (l.phase, l.code)) = some (.ending, code)
    ∧ ∀ gi g, nth t.gangs gi = some g → g.launch = li → g.phase = .retired

/-- The CODE of an ended launch: TRACEFULL where its recording stopped short and no other code applies (R275, R288). -/
def endCode (l : Launch) : Nat := if l.code = 0 ∧ l.overflow = true then 5 else l.code

/-- The signals of an ended launch: its status word, then the rise of DONE, each dropped where it cannot be performed (R275). -/
def signalled (s : State) (l : Launch) : State :=
  let word := 2 ^ 32 * l.started + 2 ^ 16 * min (l.refs + l.grants.length) 0xFFFF + endCode l
  let u := if l.lrec.staddr = 0 then s else (s.writeVa l.part l.lrec.staddr.toNat (leBytes 8 word)).getD s
  if l.lrec.done = 0 ∨ l.lrec.done.toNat % 8 ≠ 0 then u else (u.raiseVa l.part l.lrec.done.toNat).getD u

/-- The word at an address, read as one access, is at least a value. -/
def holdsAtLeast (s : State) (part va value : Nat) : Bool :=
  match s.readVa part va 8 with
  | .ok bs => decide (value ≤ leNat bs)
  | .error _ => false

end Sys2Proof.Claims

open Sys2Proof Sys2Proof.Machine Sys2Proof.Claims in
/-- R35, R49, R254, R274 to R276, R278 to R280, R288, R318, R364: a launch becomes READY once its wait objects have reached their values
and the launches that its handles order before it have ended; a queue is ready whose head is, SERIAL waiting for the launch
submitted before it, cancelled or not, which is the model's reading [44]; the ready queue of the highest level is served, of equal ones the next after
the one served last there; dispatch makes the gangs of the chosen grid eligible, or ends the launch with NOCLASS, or with FAULT where a
read fails; a launch whose time is over ends with TIMEOUT; ENDED comes after its signals, and after its records have left for the fault ring. -/
def Obligations.LaunchLife : Prop :=
  (∀ s li l, nth s.launches li = some l → l.phase = .queued → (∀ w ∈ l.lrec.waits, w.reached = true) →
    (∀ h ∈ l.lrec.handles, ∀ m ∈ s.launches, m.part = l.part → m.order < l.order → ∀ h' ∈ m.lrec.handles, h'.index = h.index →
      (h'.rw = true ∨ h.rw = true) → m.phase = .ended) →
    ∃ t, exec (.launchReady li) s = .next t ∧ nth t.launches li = some { l with phase := .ready }
      ∧ (∀ j, j ≠ li → nth t.launches j = nth s.launches j) ∧ SameMemory s t
      ∧ ∀ q, l.queue = some q → l.part < s.parts.length → s.queueReady l.part q = false → t.queueReady l.part q = true →
          (FMap.get ({} : Queue) (t.part l.part).queues q).agedAt = s.pkg.clock.toNat)
  ∧ (∀ (s : State) pi q, s.queueReady pi q = true ↔
    let cfg := (FMap.get ({} : Queue) (s.part pi).queues q).cfg
    cfg.getLsbD 3 = true ∧ ∃ li l, s.headOf pi q = some li ∧ nth s.launches li = some l ∧ l.phase = .ready
      ∧ (cfg.getLsbD 4 = true → ∀ m ∈ s.launches, m.part = pi → m.queue = some q → m.order < l.order →
        (∀ n ∈ s.launches, n.part = pi → n.queue = some q → n.order < l.order → n.order ≤ m.order) → m.phase = .ended))
  ∧ (∀ s li l h m, nth s.launches li = some l → h ∈ l.lrec.handles → h.rw = true → m ∈ s.launches → m.part = l.part →
    m.order < l.order → (∃ h' ∈ m.lrec.handles, h'.index = h.index) → m.phase ≠ .ended →
    exec (.launchReady li) s = .fault .notEnabled)
  ∧ (∀ s li l, nth s.launches li = some l → l.phase = .queued → (∃ w ∈ l.lrec.waits, w.reached = false) →
    ∃ t, exec (.waitObjectPoll li) s = .next t ∧ { t with launches := s.launches } = s
      ∧ nth t.launches li = some { l with lrec := { l.lrec with waits :=
          (l.lrec.waits.map fun w => { w with reached := w.reached || holdsAtLeast s l.part w.addr.toNat w.value.toNat }) } })
  ∧ (∀ (s : State) pi q, s.servedQueue pi = some q →
    let level (q : Nat) : Nat := (FMap.get ({} : Queue) (s.part pi).queues q).level
    q < 64 ∧ s.queueReady pi q = true ∧ (∀ p < 64, s.queueReady pi p = true → level p ≤ level q)
    ∧ ∀ last, (level q, last) ∈ (s.part pi).served → (∀ x ∈ (s.part pi).served, x.1 = level q → x.2 = last) →
        ∀ p < 64, s.queueReady pi p = true → level p = level q → (p < q → p ≤ last ∧ last < q) ∧ (q ≤ last → p ≤ last))
  ∧ (∀ s pi q li l, s.servedQueue pi = some q → s.headOf pi q = some li → nth s.launches li = some l → s.pkg.install = none →
    pi < s.parts.length → l.lrec.det ≠ 2 →
    let level := (FMap.get ({} : Queue) (s.part pi).queues q).level
    let size := if l.lrec.classes = [] then .ok [] else s.readVa pi l.lrec.sizeAddr.toNat 4
    (∀ sb user, size = .ok sb → s.readVa pi l.lrec.userp.toNat l.lrec.userlen = .ok user →
      (∀ grid, gridFor l.lrec (leNat sb) = some grid → ∃ t gs l', exec (.dispatch pi) s = .next t ∧ t.gangs = s.gangs ++ gs
        ∧ gs.length = grid.prod ∧ nth t.launches li = some l' ∧ l'.phase = .dispatched ∧ l'.level = level
        ∧ l'.base = max ((FMap.get ({} : Queue) (s.part pi).queues q).cfg.toNat % 8) l.lrec.prio
        ∧ ∀ i g, nth gs i = some g → g.launch = li ∧ g.lin = i ∧ g.phase = .eligible ∧ g.started = false ∧ g.e = level
            ∧ g.coords.length = grid.length ∧ linearOf grid g.coords = i ∧ ∀ x ∈ g.coords.zip grid, x.1 < x.2)
      ∧ (gridFor l.lrec (leNat sb) = none → ∃ t, exec (.dispatch pi) s = .next t ∧ t.gangs = s.gangs
          ∧ (nth t.launches li).map (fun l => (l.phase, l.code)) = some (.ending, 1)))
    ∧ (∀ e, (size = .error e ∨ ((∃ sb, size = .ok sb) ∧ s.readVa pi l.lrec.userp.toNat l.lrec.userlen = .error e)) →
        ∃ t r, exec (.dispatch pi) s = .next t ∧ t.gangs = s.gangs
          ∧ (nth t.launches li).map (fun l => (l.phase, l.dying)) = some (.dispatched, true)
          ∧ (t.part pi).pendingRecs = (s.part pi).pendingRecs ++ [⟨r, .endLaunch li 2⟩] ∧ r.disp = 3 ∧ r.lseq = l.seq ∧ r.lanes = 0
          ∧ r.addr = BitVec.ofNat 64 e.2))
  ∧ (∀ s li l, nth s.launches li = some l → l.phase = .dispatched → l.dying = false → l.lrec.timeout ≠ 0 →
    l.dispatchedAt + 1000000 * l.lrec.timeout ≤ s.pkg.clock.toNat →
    ∃ t, exec (.launchTimeout li) s = .next t ∧ ForcedEnd t li 3 ∧ (OpsIdle s li → SameMemory s t))
  ∧ ∀ s li l, nth s.launches li = some l → l.phase = .ending →
    let waits := ∃ r ∈ (s.part l.part).pendingRecs, r.frec.lseq = l.seq
    (waits → exec (.launchEnded li) s = .fault .notEnabled)
    ∧ (¬waits → ∃ t l', exec (.launchEnded li) s = .next t ∧ SameMemory (signalled s l) t ∧ nth t.launches li = some l'
        ∧ l'.phase = .ended ∧ l'.refs = l.refs + l.grants.length ∧ l'.grants = [] ∧ l'.code = endCode l)

open Sys2Proof Sys2Proof.Machine Sys2Proof.Claims in
/-- R246, R278, R280, R285, R287: what time brings: a ready queue's level and a waiting gang's priority rise by one after each
AGE, up to 7; a placed gang reaches its quanta; a die controller asks for a migration and takes its own request back. That a
withdrawal clears NOSLOT too is the model's reading [33]. -/
def Obligations.TimedSteps : Prop :=
  (∀ (s : State) pi q, pi < s.parts.length → q < 64 → s.queueReady pi q = true →
    let x := FMap.get ({} : Queue) (s.part pi).queues q
    let due := x.agedAt + 1000 * (x.cfg.toNat / 2 ^ 16 % 2 ^ 16)
    x.level < 7 → due ≤ s.pkg.clock.toNat →
    ∃ t, exec (.queueAgeing pi q) s = .next t ∧ { t with parts := s.parts } = s
      ∧ FMap.get ({} : Queue) (t.part pi).queues q = { x with level := x.level + 1, agedAt := due }
      ∧ ∀ p, p ≠ q → FMap.get ({} : Queue) (t.part pi).queues p = FMap.get {} (s.part pi).queues p)
  ∧ (∀ s gi g l, nth s.gangs gi = some g → nth s.launches g.launch = some l → l.phase = .dispatched → l.dying = false →
    (g.phase = .eligible ∨ g.phase = .saving) →
    let due := g.agedAt + 1000 * ((FMap.get ({} : Queue) (s.part l.part).queues l.quanta).cfg.toNat / 2 ^ 16 % 2 ^ 16)
    g.e < 7 → due ≤ s.pkg.clock.toNat →
    ∃ t, exec (.gangAgeing gi) s = .next t ∧ { t with gangs := s.gangs } = s
      ∧ nth t.gangs gi = some { g with e := g.e + 1, agedAt := due } ∧ ∀ j, j ≠ gi → nth t.gangs j = nth s.gangs j)
  ∧ (∀ s gi g, nth s.gangs gi = some g → (g.phase = .resident ∨ g.phase = .staging) →
    let age := s.pkg.clock.toNat - g.placedAt
    let quantum := if 1000 * g.maxq ≤ age then 2 else if 1000 * g.minq ≤ age then 1 else 0
    g.quantum < quantum → ∃ t, exec (.quantumExpiry gi) s = .next t ∧ { t with gangs := s.gangs } = s
      ∧ nth t.gangs gi = some { g with quantum := quantum } ∧ ∀ j, j ≠ gi → nth t.gangs j = nth s.gangs j)
  ∧ ∀ s wi w g l, nth s.warps wi = some w → nth s.gangs w.gang = some g → nth s.launches g.launch = some l →
    s.running w.gang = true → w.ended = false →
    let room := ∃ v, l.kern.variant (otherKind w.kind) = some v
      ∧ s.migrationCore g.die g.cell (otherKind w.kind) v.regs ≠ none
    (l.lrec.migrate = true → w.migp = false → room → ∃ t, exec (.schedMigrationRequest wi) s = .next t ∧ { t with warps := s.warps } = s
        ∧ nth t.warps wi = some { w with migp := true, sched := true } ∧ ∀ j, j ≠ wi → nth t.warps j = nth s.warps j)
    ∧ (l.lrec.migrate = false ∨ w.migp = true ∨ ¬room → exec (.schedMigrationRequest wi) s = .fault .notEnabled)
    ∧ (w.migp = true → w.sched = true → ¬room → ∃ t, exec (.schedMigrationWithdraw wi) s = .next t ∧ { t with warps := s.warps } = s
        ∧ nth t.warps wi = some { w with migp := false, sched := false, noslot := false }
        ∧ ∀ j, j ≠ wi → nth t.warps j = nth s.warps j)
    ∧ (w.sched = false → exec (.schedMigrationWithdraw wi) s = .fault .notEnabled)

namespace Sys2Proof.Claims

open Sys2Proof Sys2Proof.Machine

/-- Two ranges have no byte in common. -/
def Apart (a n b m : Nat) : Prop := n = 0 ∨ m = 0 ∨ a + n ≤ b ∨ b + m ≤ a

/-- A range of a cell's local memory that is free beside ranges in use. -/
def FreeAt (used : List (Nat × Nat)) (o n : Nat) : Prop := o % 256 = 0 ∧ o + n ≤ cellBytes ∧ ∀ u ∈ used, Apart o n u.1 u.2

/-- R281, R282: what a gang that takes its place holds: its groups' local ranges, each the lowest that is free, its vault stages each in
one vault of the cell, and slots, tiles, warps and registers within what the cell has. -/
structure Holds (s t : State) (g g' : Gang) (gi : Nat) (l : Launch) (die cell : Nat) (kind : CoreKind) : Prop where
  permitted : Permits l.lrec kind ∧ l.kern.variant kind ≠ none
  present : (die, cell) ∈ s.cellsOf (s.part l.part)
  groups : g'.localAt.length = l.lrec.groups
  locals : ∀ k o, nth g'.localAt k = some o →
    let used := (g'.localAt.take k).map (fun a => (a, l.lrec.localBytes)) ++ s.localUsed die cell
    FreeAt used o l.lrec.localBytes ∧ ∀ a < o, ¬FreeAt used a l.lrec.localBytes
  slots : ((s.gangsOn die cell).map fun h => (s.recOf h).slots).sum + l.lrec.slots ≤ 32
    ∧ ((s.gangsOn die cell).map fun h => (s.recOf h).tiles).sum + l.lrec.tiles ≤ 16
  vaults : g.started = false → (∀ i st, nth l.lrec.stages i = some st → st.vault = true → ∃ v ∈ g'.vaults, v.1 = i)
    ∧ ∀ v ∈ g'.vaults, ∃ st, nth l.lrec.stages v.1 = some st ∧ st.vault = true ∧ v.2.2 = st.bytes ∧ v.2.1 % 256 = 0
      ∧ (∃ j < 4, let lo := vaultPa + ((die * 24 + cell) * 4 + j) * 2 ^ 21; lo ≤ v.2.1 ∧ v.2.1 + v.2.2 ≤ lo + 2 ^ 21)
      ∧ (∀ u ∈ s.vaultUsed, Apart v.2.1 v.2.2 u.1 u.2) ∧ ∀ x ∈ g'.vaults, x.1 ≠ v.1 → Apart v.2.1 v.2.2 x.2.1 x.2.2
  cores : ∀ k, ∀ core ∈ coresOf k, (t.onCore die cell core).length ≤ (match k with | .l => 8 | .d => 48)
    ∧ ∀ v w, l.kern.variant k = some v → 0 < v.regs → w ∈ t.onCore die cell core → w.gang = gi →
        ((t.onCore die cell core).map t.budgetOf).sum ≤ 2048

/-- R48: where a stage's copies lie: in the gang's vault range, or in each group's local memory, the stages there following one another
at 256-byte boundaries. -/
def copiesOf (g : Gang) (l : Launch) (i : Nat) (st : Stage) : List Loc :=
  if st.vault then ((g.vaults.find? fun v => v.1 == i).map fun v => Loc.phys v.2.1).toList
  else g.localAt.map fun o => .local g.cellKey (o + (localEnd (l.lrec.stages.take i) + 255) / 256 * 256)

def shifted (p : Loc) (n : Nat) : Place :=
  { loc := match p with
      | .phys pa => .phys (pa + n)
      | .local c o => .local c (o + n) }

/-- The places of a gang's copies do not meet, and each starts a sector. -/
def WellSeated (g : Gang) (l : Launch) : Prop :=
  (∀ v ∈ g.vaults, v.2.1 % 256 = 0 ∧ vaultPa ≤ v.2.1 ∧ v.2.1 + v.2.2 ≤ vaultPa + vaultLen
      ∧ ∀ st, nth l.lrec.stages v.1 = some st → v.2.2 = st.bytes)
    ∧ (∀ o ∈ g.localAt, o % 256 = 0) ∧ localEnd l.lrec.stages ≤ l.lrec.localBytes
    ∧ g.localAt.Pairwise fun a b => a + l.lrec.localBytes ≤ b ∨ b + l.lrec.localBytes ≤ a

/-- Warp i of a gang at its start (R33, R34, R60, R66): its group and place in it, its lanes at the entry, registers zero and S. -/
def Starts (w : Warp) (gi i : Nat) (l : Launch) (kind : CoreKind) : Prop :=
  let per := max ((l.lrec.lanes + 31) / 32) 1
  w.gang = gi ∧ w.index = i ∧ w.group = i / per ∧ w.inGroup = i % per ∧ w.kind = kind ∧ w.core ∈ coresOf kind
    ∧ (∀ j < 32, w.populated.getLsbD j = decide (32 * (i % per) + j < l.lrec.lanes))
    ∧ w.c.frontier = [⟨w.populated, l.entryPc kind, 0, .ready⟩] ∧ w.c.v = [] ∧ w.c.k = [] ∧ w.c.p = [] ∧ w.c.flags = []
    ∧ w.c.leqix = 0xFFFFFFFF ∧ w.ckpts = [] ∧ w.handler = none ∧ w.ended = false

end Sys2Proof.Claims

open Sys2Proof Sys2Proof.Machine Sys2Proof.Claims in
/-- R32 to R34, R41, R47, R48, R60, R66, R280 to R284, R309, R312, R323, R324: a gang takes its place where it fits, on its
preferred kind where it fits there, its warps at the entry of their variant within what the cell has; its stages are copied
before it runs, each byte and tag from its source, or it waits for a page that is not present; a gang that has run before comes
back with its local memory, its registers and its deque. That a fault of the copying ends the launch is the model's choice [35].
The core on which a saved deque comes back is the model's choice [41], and so is what local memory holds that no stage fills
[35]. -/
def Obligations.Placement : Prop :=
  (∀ s gi g l die cell kind, nth s.gangs gi = some g → nth s.launches g.launch = some l → s.waiting gi = true → g.started = false →
    s.placementLost gi = false → s.outranked gi = false → l.lrec.coop = false → (∀ w ∈ s.warps, w.gang ≠ gi) →
    (die, cell, kind) ∈ s.fitPlaces gi →
    ∃ t g', exec (.gangPlacement gi die cell kind) s = .next t ∧ nth t.gangs gi = some g' ∧ g'.die = die ∧ g'.cell = cell
      ∧ g'.kind = kind ∧ g'.phase = (if l.lrec.stages = [] then .resident else .staging) ∧ g'.started = decide (l.lrec.stages = [])
      ∧ g'.e = l.base ∧ g'.placedAt = s.pkg.clock.toNat ∧ (∀ j, j ≠ gi → nth t.gangs j = nth s.gangs j)
      ∧ t.warps.length = s.warps.length + l.lrec.gangWarps
      ∧ (∀ i < l.lrec.gangWarps, ∃ w, nth t.warps (s.warps.length + i) = some w ∧ Starts w gi i l kind)
      ∧ Holds s t g g' gi l die cell kind
      ∧ (kind ≠ named l.lrec → l.lrec.det ≠ 2 → ∀ d < 8, ∀ c < 24, s.seatFor gi d c (named l.lrec) = none))
  ∧ (∀ s gi g l, nth s.gangs gi = some g → nth s.launches g.launch = some l → g.phase = .staging → g.staging = none →
    l.dying = false → l.phase = .dispatched → l.part < s.parts.length → (∀ r ∈ (s.part l.part).pendingRecs, r.after ≠ .staging gi) →
    (∀ u, s.stageAll g l = .ok u →
      ∃ t, exec (.stageCopy gi) s = .next t ∧ SameMemory u t ∧ nth t.gangs gi = some { g with phase := .resident, started := true }
        ∧ (nth t.launches g.launch).map (·.started) = some (l.started + 1))
    ∧ (∀ cls cause prop addr, s.stageAll g l = .error (.fault cls cause prop, addr) →
      ∃ t r, exec (.stageCopy gi) s = .next t ∧ SameMemory s t ∧ (nth t.launches g.launch).map (·.dying) = some true
        ∧ (t.part l.part).pendingRecs = (s.part l.part).pendingRecs ++ [⟨r, .endLaunch g.launch 2⟩] ∧ r.cls = cls ∧ r.cause = cause
        ∧ r.disp = 3 ∧ r.addr = BitVec.ofNat 64 addr)
    ∧ (∀ va addr, s.stageAll g l = .error (.sleep va none, addr) →
      ∃ t r, exec (.stageCopy gi) s = .next t ∧ SameMemory s t
        ∧ nth t.gangs gi = some { g with staging := some { page := va / 65536, reg := none, addr := va } }
        ∧ (t.part l.part).pendingRecs = (s.part l.part).pendingRecs ++ [⟨r, .staging gi⟩] ∧ r.cls = .translation ∧ r.disp = 0
        ∧ r.addr = BitVec.ofNat 64 va ∧ exec (.stageCopy gi) t = .fault .notEnabled)
    ∧ ∀ va n addr, s.stageAll g l = .error (.sleep va (some n), addr) →
      ∃ t r rest, exec (.stageCopy gi) s = .next t ∧ (t.part l.part).pendingRecs = (s.part l.part).pendingRecs ++ ⟨r, .staging gi⟩ :: rest
        ∧ r.cls = .recompute ∧ r.disp = 1 ∧ r.addr = BitVec.ofNat 64 va
        ∧ ((nth t.gangs gi).bind (·.staging) = some { page := va / 65536, reg := some n, addr := va }
          ∨ (nth t.launches g.launch).map (·.dying) = some true))
  ∧ (∀ s gi g l r, nth s.gangs gi = some g → nth s.launches g.launch = some l → r ∈ (s.part l.part).pendingRecs → r.after = .staging gi →
    exec (.stageCopy gi) s = .fault .notEnabled)
  ∧ (∀ s g l i st h (p : Nat → Place), WellSeated g l → nth l.lrec.stages i = some st →
    (nth l.lrec.handles st.handle).bind (entryOf s l.part) = some h →
    (∀ k < st.bytes / 16, s.place (agentAccess l.part (h.base.toNat + st.offset + 16 * k) 16 false) = .ok (p k) ∧ Plain s (p k) 16) →
    let tag (k : Nat) : Bool := (p k).prop || (!untagged (p k) && sectorsOf s (sectorOf (p k)))
    ∃ u, s.stageOne g l i st = .ok u
      ∧ (∀ at_ ∈ copiesOf g l i st, (∀ k < st.bytes / 16, ∀ j < 16, cellsOf u (keyOf (shifted at_ (16 * k)) j) = cellsOf s (keyOf (p k) j))
          ∧ ∀ k, 2 * k + 1 < st.bytes / 16 → sectorsOf u (sectorOf (shifted at_ (32 * k))) = (tag (2 * k) || tag (2 * k + 1)))
      ∧ (∀ x, (∀ at_ ∈ copiesOf g l i st, ∀ k < st.bytes / 16, ∀ j < 16, x ≠ keyOf (shifted at_ (16 * k)) j) → cellsOf u x = cellsOf s x)
      ∧ ∀ x, (∀ at_ ∈ copiesOf g l i st, ∀ k < st.bytes / 16, x ≠ sectorOf (shifted at_ (16 * k))) → sectorsOf u x = sectorsOf s x)
  ∧ ∀ s gi g l die cell kind, nth s.gangs gi = some g → nth s.launches g.launch = some l → s.waiting gi = true → g.started = true →
    s.placementLost gi = false → s.outranked gi = false → l.lrec.coop = false → l.lrec.det = 0 → s.contextBad g = false →
    (∀ w ∈ s.warps, w.gang = gi → w.pending = []) → (die, cell, kind) ∈ s.fitPlaces gi →
    ∃ t g', exec (.resumption gi die cell kind) s = .next t ∧ nth t.gangs gi = some g' ∧ g'.die = die ∧ g'.cell = cell
      ∧ g'.phase = .resident ∧ g'.ctx = none ∧ g'.slots = g.slots ∧ g'.tiles = g.tiles ∧ g'.e = l.base ∧ g'.vaults = g.vaults
      ∧ Holds s t g g' gi l die cell kind
      ∧ (∀ wi w, nth s.warps wi = some w → w.gang = gi → w.ended = false → ∃ w', nth t.warps wi = some w' ∧ w'.c.v = w.c.v
          ∧ w'.c.p = w.c.p ∧ w'.c.taint = w.c.taint ∧ w'.c.leqix = w.c.leqix ∧ w'.kind = w.kind ∧ w'.core ∈ coresOf w.kind)
      ∧ (∀ k o, nth g'.localAt k = some o → ∀ j < l.lrec.localBytes,
          cellsOf t (.inr (g'.cellKey * cellBytes + o + j)) = FMap.get 0 g.savedLocal (k * l.lrec.localBytes + j))
      ∧ (g.savedDeque ≠ [] → ∃ key, FMap.get {} t.deques key = { entries := g.savedDeque, gang := some gi, launch := some g.launch })

open Sys2Proof Sys2Proof.Machine Sys2Proof.Claims in
/-- R47, R231, R241, R280, R283, R285, R286, R290, R318, R321 to R323: pre-emption gives each chosen gang an area of the context pool,
rolls its warps back and ends its waits on the matrix unit, and the gang is eligible and ages afresh from then on; one that
stops, once its record is written, takes the others of its unit with it. A replay's pre-emptions and stops are those that its trace
holds. Once its context is saved its local memory, deque and
cores are free, and the gang waits again, or has stopped. That the entries of several deques go into one list is the model's
choice [41]. The area of a context, and that a stopped gang with no room stays on its cell, are the model's readings [33], and
how far running operations have come is free [20]. -/
def Obligations.PreemptionAndSaving : Prop :=
  (∀ s gi g l set, nth s.gangs gi = some g → nth s.launches g.launch = some l → l.phase = .dispatched → l.dying = false →
    (g.phase = .stopping ∧ g.ctx = none ∧ s.stopWaits g l = false ∧ (l.lrec.det ≠ 2 ∨ preemptDue l g = true) ∧ set = gi :: s.closure [gi]
      ∨ (g.phase = .resident ∨ g.phase = .staging) ∧ preemptDue l g = true ∧ s.active gi g = true ∧ set = [gi]
      ∨ (g.phase = .resident ∨ g.phase = .staging) ∧ (preemptDue l g = false ∨ s.active gi g = false) ∧ s.preempted gi = some set) →
    (s.giveAreas set).isSome = true →
    ∃ t, exec (.preemption gi) s = .next t ∧ gi ∈ set ∧ ∀ k ∈ set, ∀ h, nth s.gangs k = some h →
      (∃ h', nth t.gangs k = some h' ∧ h'.phase = (if h.phase = .stopping then .stopping else .saving)
        ∧ (h.started = true → h'.ctx.isSome = true)
        ∧ (h.phase ≠ .stopping → h'.agedAt = s.pkg.clock.toNat ∧ s.nextElig ≤ h'.order
            ∧ ∀ m, nth s.launches h.launch = some m → h'.e = m.base))
      ∧ (∀ w ∈ t.warps, w.gang = k → w.ckpts = []) ∧ ∀ m ∈ t.mops, m.gang ≠ k)
  ∧ (∀ s gi g l, nth s.gangs gi = some g → nth s.launches g.launch = some l → l.phase = .dispatched → l.dying = false →
    g.phase = .stopping → g.ctx = none → s.stopWaits g l = false → l.lrec.det = 2 → (∀ e ∈ l.replay, ¬(e.kind = 1 ∧ e.gang = g.lin)) →
    ∃ t, exec (.preemption gi) s = .next t ∧ ForcedEnd t g.launch 4)
  ∧ ∀ s gi g l, nth s.gangs gi = some g → nth s.launches g.launch = some l →
    (g.phase = .saving ∨ (g.phase = .stopping ∧ g.ctx.isSome = true)) →
    ∃ t g', exec (.saved gi) s = .next t ∧ SameMemory s t ∧ nth t.gangs gi = some g'
      ∧ g'.phase = (if g.phase = .stopping ∧ g.resumed = false then .stopped else .eligible) ∧ g'.e = g.e
      ∧ g'.agedAt = g.agedAt ∧ g'.order = g.order ∧ g'.vaults = (if g.started = true then g.vaults else []) ∧ g'.localAt = [] ∧ (∀ e ∈ t.deques, e.2.gang ≠ some gi)
      ∧ g'.savedDeque = (s.deques.filter fun e => e.2.gang == some gi).flatMap (fun e => e.2.entries)
      ∧ (g.started = true → ∀ k o, nth g.localAt k = some o → ∀ j < l.lrec.localBytes,
          FMap.get 0 g'.savedLocal (k * l.lrec.localBytes + j) = cellsOf s (.inr (g.cellKey * cellBytes + o + j)))
      ∧ FMap.get [] t.events g.die = FMap.get [] s.events g.die ++ [BitVec.ofNat 64 (4 + 256 * g.lin)]

namespace Sys2Proof.Claims

open Sys2Proof Sys2Proof.Machine

/-! Etesian. -/

/-- The bytes of a record at an offset, as a number. -/
def fieldOf (bs : List Byte) (off n : Nat) : Nat := leNat ((bs.drop off).take n)

/-- A command of Etesian is in progress that can be carried out now: the table is not held, and none waits for its publication
(R292, R302). -/
structure Commands (s : State) (pi op : Nat) : Prop where
  exists_ : pi < s.parts.length
  busy : (s.part pi).et.busy = true
  op : (s.part pi).et.op = op
  free : s.held pi = false
  none_ : ∀ c ∈ (s.part pi).et.waiting, c.ofCommand = false

/-- A command has finished with a RESULT, and what it has changed of Etesian is this and what a function says. -/
def Finished (s t : State) (pi result : Nat) (f : Etesian → Etesian) : Prop :=
  (t.part pi).et = { f (s.part pi).et with busy := false, result := result } ∧ { t with parts := s.parts } = s

/-- The thresholds of a command record (R292). -/
def ThresholdsIn (bs : List Byte) (thr : Thresholds) : Prop :=
  let flags := fieldOf bs 4 4
  flags < 64 ∧ 1 ≤ thr.maxCopy ∧ thr.maxCopy ≤ 8 ∧ 1 ≤ thr.hot ∧ 1 ≤ thr.coldN ∧ thr.coldN ≤ 255
    ∧ thr = ⟨flags.testBit 0, flags / 2 % 32, fieldOf bs 0x18 4, fieldOf bs 0x1C 4, fieldOf bs 0x20 4⟩

/-- The expert that a REGISTER record describes within its limits (R292). -/
def Describes (s : State) (pi : Nat) (bs : List Byte) (x : Expert) : Prop :=
  let size := fieldOf bs 0x10 8
  let home := fieldOf bs 0xC 4
  ThresholdsIn bs x.thr ∧ fieldOf bs 0 4 ≤ 4095 ∧ fieldOf bs 8 4 < 2 ^ 24
    ∧ home ≤ 7 ∧ (s.part pi).dies.getLsbD home = true ∧ s.pkg.dies.getLsbD home = true ∧ size % 65536 = 0 ∧ 65536 ≤ size
    ∧ fieldOf bs 0x24 4 = 0 ∧ fieldOf bs 0x28 8 % 32 = 0 ∧ (∀ b ∈ (bs.drop 0x30).take 16, b = 0)
    ∧ ∃ h : Handle, FMap.get none (s.part pi).handles (fieldOf bs 8 4) = some h ∧ size ≤ h.len
        ∧ x = { eid := fieldOf bs 0 4, thr := x.thr, size := size, qaddr := BitVec.ofNat 64 (fieldOf bs 0x28 8)
                copies := [{ rep := 0, die := home, base := h.base, phase := .live, published := true }] }

end Sys2Proof.Claims

open Sys2Proof Sys2Proof.Machine Sys2Proof.Claims in
/-- R291, R292, R302: the commands of Etesian. A record that cannot be read or breaks its limits gives BADREC, an EID in use
INUSE, one that is not registered NOTREG, and nothing changes; SETTHR gives the expert its thresholds from the next interval;
DEREGISTER and REFRESH abort its copies in flight; REGISTER, DEREGISTER and a REFRESH with replicas wait for their publication.
While the table is held every command waits. That a command stays BUSY until its publication is the model's reading [30]. -/
def Obligations.EtesianCommands : Prop :=
  (∀ (i : Instr) s pi op, ((i = .register pi ∧ op = 1) ∨ (i = .deregister pi ∧ op = 2) ∨ (i = .setthr pi ∧ op = 3)
      ∨ i = .refresh pi ∧ op = 4) → Commands s pi op →
    let a := (s.part pi).et.cmdAddr.toNat
    (a % 64 ≠ 0 ∨ (∃ e, s.readVa pi a 64 = .error e) → ∃ t, exec i s = .next t ∧ Finished s t pi 1 id)
    ∧ ∀ bs, a % 64 = 0 → s.readVa pi a 64 = .ok bs → 2 ≤ op →
      (∀ x, (s.part pi).et.expert (fieldOf bs 0 4) = some x → x.registered = false) → ∃ t, exec i s = .next t ∧ Finished s t pi 3 id)
  ∧ (∀ s pi op, 5 ≤ op → Commands s pi op → ∃ t, exec (.badrec pi) s = .next t ∧ Finished s t pi 1 id)
  ∧ (∀ (i : Instr) s pi, (i = .register pi ∨ i = .deregister pi ∨ i = .setthr pi ∨ i = .refresh pi ∨ i = .badrec pi) →
      ((s.part pi).et.busy = false ∨ s.held pi = true) → exec i s = .fault .notEnabled)
  ∧ (∀ s pi bs, Commands s pi 1 → (s.part pi).et.cmdAddr.toNat % 64 = 0 →
      s.readVa pi (s.part pi).et.cmdAddr.toNat 64 = .ok bs →
      ((∀ x, ¬Describes s pi bs x) → ∃ t, exec (.register pi) s = .next t ∧ Finished s t pi 1 id)
      ∧ ∀ x, Describes s pi bs x →
        ((s.part pi).et.expert x.eid ≠ none → ∃ t, exec (.register pi) s = .next t ∧ Finished s t pi 2 id)
        ∧ ((s.part pi).et.expert x.eid = none → ∃ t, exec (.register pi) s = .next t ∧ { t with parts := s.parts } = s
            ∧ (t.part pi).et = { (s.part pi).et with waiting := (s.part pi).et.waiting ++ [.register x] }))
  ∧ ∀ s pi op bs x, Commands s pi op → (s.part pi).et.cmdAddr.toNat % 64 = 0 →
      s.readVa pi (s.part pi).et.cmdAddr.toNat 64 = .ok bs → (s.part pi).et.expert (fieldOf bs 0 4) = some x → x.registered = true →
      (x.copies.map (·.rep)).Nodup →
    let grounded : Expert := { x with copies := x.copies.filter fun k => !k.flying }
    let replicas := x.copies.any fun k => decide (k.phase = .live) && k.rep != 0
    (op = 3 → (∀ thr, ¬ThresholdsIn bs thr) → ∃ t, exec (.setthr pi) s = .next t ∧ Finished s t pi 1 id)
    ∧ (op = 3 → ∀ thr, ThresholdsIn bs thr → ∃ t, exec (.setthr pi) s = .next t
        ∧ Finished s t pi 0 (fun e => e.modExpert x.eid fun x => { x with next := some thr }))
    ∧ (op = 2 → ∃ t, exec (.deregister pi) s = .next t ∧ (t.part pi).et.waiting = (s.part pi).et.waiting ++ [.deregister x.eid]
        ∧ (t.part pi).et.busy = true ∧ (t.part pi).et.expert x.eid = some grounded ∧ (t.part pi).et.ver = (s.part pi).et.ver)
    ∧ (op = 4 → ∃ t, exec (.refresh pi) s = .next t ∧ (t.part pi).et.expert x.eid = some grounded
        ∧ (t.part pi).et.ver = (s.part pi).et.ver
        ∧ if replicas then (t.part pi).et.waiting = (s.part pi).et.waiting ++ [.refresh x.eid] ∧ (t.part pi).et.busy = true
          else (t.part pi).et.waiting = (s.part pi).et.waiting ∧ (t.part pi).et.busy = false ∧ (t.part pi).et.result = 0)

namespace Sys2Proof.Claims

open Sys2Proof Sys2Proof.Machine

/-- A copy that has failed: it is gone at once, the hold-offs run for its expert and for the expert with its die, and no table,
queue or reference changes (R296, R300). -/
structure Fails (s t : State) (pi : Nat) (x : Expert) (k : Copy) : Prop where
  gone : t.copyOf pi x.eid k.rep = none
  same : (t.part pi).et.ver = (s.part pi).et.ver ∧ (t.part pi).et.waiting = (s.part pi).et.waiting ∧ t.launches = s.launches
  hold : x.registered = true → ∃ x', (t.part pi).et.expert x.eid = some x'
    ∧ x'.holdoff = (s.part pi).et.ectl.toNat / 2 ^ 16 % 2 ^ 8
    ∧ FMap.get 0 x'.dieHold k.die = (s.part pi).et.ectl.toNat / 2 ^ 16 % 2 ^ 8
    ∧ x'.copies = x.copies.filter fun j => j.rep != k.rep

/-- The LIVE copies of an expert that stay, and its routes per copy, compared crosswise (R295). -/
def stayingOf (x : Expert) (marked : Copy → Bool) : Nat := x.copies.countP fun k => decide (k.phase = .live) && !marked k
def Hotter (x y : Expert) (mx my : Copy → Bool) : Prop :=
  y.routes * stayingOf x mx < x.routes * stayingOf y my ∨ (y.routes * stayingOf x mx = x.routes * stayingOf y my ∧ x.eid < y.eid)

/-- R292, R295, R300: an expert that may be given a copy. -/
def IsHot (s : State) (pi : Nat) (x : Expert) (marked : Copy → Bool) : Prop :=
  let n := stayingOf x marked
  s.held pi = false ∧ x.registered = true ∧ 0 < n ∧ x.thr.hot * n < x.routes ∧ x.thr.pin = false ∧ n < x.thr.maxCopy
    ∧ (∀ k ∈ x.copies, k.flying = false) ∧ x.holdoff = 0
    ∧ ∀ c ∈ (s.part pi).et.waiting, c ≠ .deregister x.eid ∧ c ≠ .refresh x.eid

/-- The cells of a die, and the samples that found one of them to hold a gang (R295). -/
def cellsOn (s : State) (d : Nat) : Nat := (List.range 24).countP fun c => s.pkg.cellPresent d c
def busyOn (s : State) (pi d : Nat) : Nat := FMap.get 0 (s.part pi).et.samples d

/-- R295, R300: a die that may be given a copy of an expert: the partition's, idle, with no copy of it and no hold-off. -/
def IdleFor (s : State) (pi : Nat) (x : Expert) (d : Nat) : Prop :=
  (s.part pi).dies.getLsbD d = true ∧ s.pkg.dies.getLsbD d = true ∧ 0 < cellsOn s d ∧ (∀ k ∈ x.copies, k.die ≠ d) ∧ FMap.get 0 x.dieHold d = 0
    ∧ busyOn s pi d * 256 < (s.part pi).et.ectl.toNat / 2 ^ 8 % 2 ^ 8 * (32 * cellsOn s d)

/-- R296, R304: what stops the die agent as it goes on with a copy: a sector of the source that it cannot read, or else one of the region
that it may not write, or, at verification, not read. -/
def AgentStops (s : State) (pi : Nat) (x : Expert) (k : Copy) (stop : Stop) : Prop :=
  (∃ a, s.copySource pi x = .error (stop, a)) ∨ ∃ src a, s.copySource pi x = .ok src
    ∧ ((k.phase = .copying ∧ s.regionPlaces pi k.base.toNat (x.size / 32) = .error (stop, a))
      ∨ k.phase = .verifying ∧ s.readRegion pi x k = .error (stop, a))

/-- R293: an offset in the vault window where a copy of a size may lie in a die's pool: free, and on no absent cell. -/
def RoomAt (s : State) (pi d size off : Nat) : Prop :=
  let pool := FMap.get (0, 0) (s.part pi).et.pools d
  off % 65536 = 0 ∧ pool.2 ≠ 0 ∧ (d * 96 + pool.1) * 2 ^ 21 ≤ off ∧ off + size ≤ (d * 96 + pool.1 + pool.2) * 2 ^ 21
    ∧ (∀ u ∈ s.vaultUsed, Apart off size (u.1 - vaultPa) u.2)
    ∧ ∀ c < 24, s.pkg.cellPresent d c = false → Apart off size ((d * 96 + 4 * c) * 2 ^ 21) (2 ^ 23)

/-- R295, R296: the copy that the end of an interval gives a hot expert: on the idle die with the least share of busy cells, of equal
ones the lowest, of those with room still (`t` is the state after). -/
structure GivenCopy (s t : State) (pi : Nat) (x : Expert) (marked : Copy → Bool) (k' : Copy) : Prop where
  hot : IsHot s pi x marked
  new : k'.phase = .copying ∧ k'.startedAt = s.pkg.clock.toNat
  rep : 1 ≤ k'.rep ∧ k'.rep ≤ 31 ∧ (∀ k ∈ x.copies, k.rep ≠ k'.rep) ∧ ∀ r, 1 ≤ r → r < k'.rep → ∃ k ∈ x.copies, k.rep = r
  die : IdleFor s pi x k'.die
  place : ∃ off, k'.base = (s.part pi).vaultBase + BitVec.ofNat 64 off ∧ RoomAt s pi k'.die x.size off
  least : ∀ d < 8, IdleFor s pi x d → (∃ off, RoomAt t pi d x.size off) →
    busyOn s pi k'.die * cellsOn s d ≤ busyOn s pi d * cellsOn s k'.die
      ∧ (busyOn s pi k'.die * cellsOn s d = busyOn s pi d * cellsOn s k'.die → k'.die ≤ d)

/-- A hot expert cannot be given a copy: it has no REP left, or no idle die has room. -/
def NoRoom (s t : State) (pi : Nat) (x : Expert) : Prop :=
  (∀ r, 1 ≤ r → r ≤ 31 → ∃ k ∈ x.copies, k.rep = r) ∨ ∀ d < 8, IdleFor s pi x d → ∀ off, ¬RoomAt t pi d x.size off

end Sys2Proof.Claims

open Sys2Proof Sys2Proof.Machine Sys2Proof.Claims in
/-- R292, R293, R295, R296, R300, R302, R304, R309: an interval samples and ends, once no failing copy is in the table; cold copies are marked
for one publication, and each hot expert, the hottest first, is given a copy as long as fewer than MAXFLY are in flight, on the idle die
with room that has the least share of busy cells; a copy is written, is verified bit for bit, becomes LIVE or fails, and waits for a page
that is not present. That an interval has 32 samples, and waits for a failing copy, is the model's choice [30]. -/
def Obligations.ExpertCopies : Prop :=
  (∀ s pi, pi < s.parts.length →
    let et := (s.part pi).et
    let interval := 1000 * (et.eintv.toNat % 2 ^ 16)
    (s.part pi).en = true → et.ectl.getLsbD 0 = true →
    (et.nsamples < 32 → et.since + interval * (et.nsamples + 1) / 32 ≤ s.pkg.clock.toNat → ∃ t, exec (.idleSample pi) s = .next t
      ∧ { t with parts := s.parts } = s ∧ { (t.part pi).et with samples := et.samples } = { et with nsamples := et.nsamples + 1 }
      ∧ ∀ d < 8, FMap.get 0 (t.part pi).et.samples d = FMap.get 0 et.samples d
          + (List.range 24).countP fun c => s.pkg.cellPresent d c && s.gangs.any fun g => g.onCell && g.die == d && g.cell == c)
    ∧ (et.nsamples = 32 → et.since + interval ≤ s.pkg.clock.toNat → (et.experts.map (·.eid)).Nodup →
        (∀ x ∈ et.experts, (x.copies.map (·.rep)).Nodup ∧ ∀ k ∈ x.copies, k.phase = .live → k.quarantined = false) →
      let cold (x : Expert) (k : Copy) : Nat := if k.phase = .live ∧ k.routes < x.thr.cold then k.cold + 1 else 0
      let leaves (x : Expert) (k : Copy) : Bool := !s.held pi && x.registered && decide (k.phase = .live) && k.rep != 0 && !k.marked
        && x.thr.coldN ≤ cold x k
      ∃ t, exec (.etesianInterval pi) s = .next t ∧ (t.part pi).et.since = et.since + interval ∧ (t.part pi).et.nsamples = 0
        ∧ (t.part pi).et.ver = et.ver
        ∧ (if ∃ x ∈ et.experts, ∃ k ∈ x.copies, leaves x k = true then
            ∃ l, (t.part pi).et.waiting = et.waiting ++ [.retire l]
              ∧ ∀ eid rep, (eid, rep) ∈ l ↔ ∃ x ∈ et.experts, ∃ k ∈ x.copies, x.eid = eid ∧ k.rep = rep ∧ leaves x k = true
          else (t.part pi).et.waiting = et.waiting)
        ∧ (∀ x ∈ et.experts, ∃ x', (t.part pi).et.expert x.eid = some x' ∧ x'.lastRoutes = x.routes ∧ x'.routes = 0
            ∧ x'.holdoff = x.holdoff - 1 ∧ (∀ d, FMap.get 0 x'.dieHold d = FMap.get 0 x.dieHold d - 1 ∨ ¬(x.dieHold.map (·.1)).Nodup)
            ∧ x'.thr = x.next.getD x.thr ∧ x'.next = none
            ∧ (∀ k ∈ x.copies, ∃ k' ∈ x'.copies, k'.rep = k.rep ∧ k'.phase = k.phase ∧ k'.routes = 0
                ∧ k'.lastRoutes = (if k.whole then some k.routes else none) ∧ k'.cold = cold x k ∧ k'.marked = (k.marked || leaves x k))
            ∧ x'.copies.length ≤ x.copies.length + 1
            ∧ ∀ k' ∈ x'.copies, (∀ k ∈ x.copies, k.rep ≠ k'.rep) → GivenCopy s t pi x (fun k => k.marked || leaves x k) k')
        ∧ (let limit := et.ectl.toNat / 2 ^ 24 % 8 + 1
          let marked (x : Expert) (k : Copy) : Bool := k.marked || leaves x k
          let Given (x : Expert) : Prop := ∃ x', (t.part pi).et.expert x.eid = some x' ∧ x'.copies.length = x.copies.length + 1
          (t.part pi).et.inflight ≤ max et.inflight limit
          ∧ (∀ x ∈ et.experts, IsHot s pi x (marked x) → Given x ∨ limit ≤ (t.part pi).et.inflight ∨ NoRoom s t pi x)
          ∧ ∀ x ∈ et.experts, ∀ y ∈ et.experts, IsHot s pi x (marked x) → Hotter x y (marked x) (marked y) → Given y →
              Given x ∨ NoRoom s t pi x))
    ∧ ((∃ x ∈ et.experts, ∃ k ∈ x.copies, k.phase = .live ∧ k.quarantined = true) → exec (.etesianInterval pi) s = .fault .notEnabled))
  ∧ (∀ s pi eid rep x k va, s.copyOf pi eid rep = some (x, k) → pi < s.parts.length → k.sleep = none → k.refused = false →
    AgentStops s pi x k (.sleep va none) →
    ∀ i : Instr, (i = .copyWritten pi eid rep ∧ k.phase = .copying ∨ i = .copyVerified pi eid rep ∧ k.phase = .verifying) →
    ∃ t r, exec i s = .next t ∧ SameMemory s t ∧ (t.part pi).pendingRecs = (s.part pi).pendingRecs ++ [⟨r, .nothing⟩]
      ∧ r.cls = .translation ∧ r.disp = 0 ∧ r.addr = BitVec.ofNat 64 va ∧ r.die = k.die
      ∧ (t.copyOf pi eid rep).map (·.2) = some { k with sleep := some { page := va / 65536, reg := none, addr := va } })
  ∧ (∀ s pi eid rep x k src, s.copyOf pi eid rep = some (x, k) → pi < s.parts.length → s.copySource pi x = .ok src →
    k.sleep = none → k.refused = false →
    (k.phase = .copying → ∀ pa : Nat → Nat,
      (∀ i < x.size / 32, ∃ q, s.place (agentAccess pi (k.base.toNat + 32 * i) 32 true) = .ok q ∧ q.loc = .phys (pa i) ∧ q.dev = false
        ∧ pa i % 32 = 0 ∧ isHostPa (pa i) = false ∧ ∀ j < i, pa j ≠ pa i) →
      ∃ t, exec (.copyWritten pi eid rep) s = .next t
        ∧ (t.copyOf pi eid rep).map (fun y => y.2.phase) = some .verifying
        ∧ (∀ i b, nth src i = some b → t.bytes (pa i) 32 = b.1 ∧ FMap.get false t.tags (pa i / 32) = b.2)
        ∧ ∀ a, (∀ i < x.size / 32, a < pa i ∨ pa i + 32 ≤ a) → t.bytes a 1 = s.bytes a 1)
    ∧ (k.phase = .verifying → ∀ p : Nat → Place,
      (∀ i < x.size / 32, s.place (agentAccess pi (k.base.toNat + 32 * i) 32 false) = .ok (p i)) →
      let same : Prop := ∀ i b, nth src i = some b → s.loadAt (p i) 32 = b
      let bad : Prop := ∃ i < x.size / 32, s.poisoned (p i) = true
      (same → ¬bad → ∃ t, exec (.copyVerified pi eid rep) s = .next t ∧ (t.copyOf pi eid rep).map (fun y => y.2) = some { k with phase := .live }
          ∧ (t.part pi).et.waiting = (s.part pi).et.waiting ++ [.add eid rep] ∧ { t with parts := s.parts } = s)
      ∧ (¬same ∨ bad → ∃ t, exec (.copyVerified pi eid rep) s = .next t ∧ Fails s t pi x k)))
  ∧ ∀ s pi eid rep x k, s.copyOf pi eid rep = some (x, k) → pi < s.parts.length →
    (k.flying = true → ∃ t, exec (.copyfail pi eid rep .uncorrectable) s = .next t ∧ Fails s t pi x k)
    ∧ (k.flying = true → ∃ t, exec (.copyfail pi eid rep .dieFault) s = .next t ∧ Fails s t pi x k)
    ∧ (k.flying = true →
        (k.refused = true ∨ (∃ cls cause prop, AgentStops s pi x k (.fault cls cause prop) ∧ ¬(cls = .bus ∧ cause = 0))
          ∨ ∃ va g, AgentStops s pi x k (.sleep va (some g))) →
        ∃ t, exec (.copyfail pi eid rep .access) s = .next t ∧ Fails s t pi x k)
    ∧ (k.flying = true → k.startedAt + 1000000 * ((s.part pi).et.eintv.toNat / 2 ^ 16) ≤ s.pkg.clock.toNat →
        ∃ t, exec (.copyTimeout pi eid rep) s = .next t ∧ Fails s t pi x k)
    ∧ (k.flying = false → ∀ i : Instr, (i = .copyTimeout pi eid rep ∨ ∃ cause, i = .copyfail pi eid rep cause) →
        exec i s = .fault .notEnabled)

namespace Sys2Proof.Claims

open Sys2Proof Sys2Proof.Machine

/-- Which LIVE copies a change takes out of the table (R292, R295 to R297, R300). -/
def takenBy (c : Change) (eid rep : Nat) : Bool :=
  match c with
  | .deregister e => e == eid
  | .refresh e => e == eid && rep != 0
  | .retire l => l.contains (eid, rep)
  | .fail e r => e == eid && r == rep
  | .register _ | .add _ _ => false

/-- A copy after a publication (R296, R297): one that leaves is RETIRING, its queue closed if it has none; one that is added is in
the version; and the version is noted in each copy that it includes. -/
def afterChange (c : Change) (ver : Nat) (x : Expert) (k : Copy) : Copy :=
  let k' := if k.phase = .live ∧ takenBy c x.eid k.rep then
      { k with phase := .retiring, marked := false, closed := k.closed || decide (x.qaddr = 0) }
    else if c = .add x.eid k.rep then { k with published := true } else k
  { k' with versions := k'.versions.filter (fun v => v != ver) ++ if k'.phase = .live ∧ k'.published = true then [ver] else [] }

/-- Whether a change aborts an expert's copies in flight (R292). -/
def abortedBy (c : Change) (eid : Nat) : Bool := decide (c = .deregister eid) || decide (c = .refresh eid)

/-- R299: the entries of a closed queue from one index to another are moved in order: how many, and how the moving ends. It waits where
the next entry is not yet VALID or cannot be read; else it ends for good with a number of stranded entries, when no entry is left, or no
open queue takes the next. -/
inductive Moves (pi : Nat) (x : Expert) (ring cap : Nat) : Nat → Nat → State → State → Nat → Option Nat → Prop
  | all {i last s} (h : last ≤ i) : Moves pi x ring cap i last s s 0 (some 0)
  | stranded {i last s place} (h : i < last) (entry : s.place (agentAccess pi (ring + 8 * (i % cap)) 8 false) = .ok place)
      (valid : leNat (s.loadAt place 8).1 / 2 ^ 63 % 2 = 1) (none_ : s.openQueues pi x = []) : Moves pi x ring cap i last s s 0 (some (last - i))
  | waits {i last s} (h : i < last)
      (not : ∀ place, s.place (agentAccess pi (ring + 8 * (i % cap)) 8 false) = .ok place → leNat (s.loadAt place 8).1 / 2 ^ 63 % 2 = 0) :
      Moves pi x ring cap i last s s 0 none
  | refused {i last s q place} (h : i < last) (dest : leastLoaded (s.openQueues pi x) = some q)
      (entry : s.place (agentAccess pi (ring + 8 * (i % cap)) 8 false) = .ok place) (valid : leNat (s.loadAt place 8).1 / 2 ^ 63 % 2 = 1)
      (put : ((s.writeVa pi (q.at_ + 0x14) (leBytes 4 (q.tail + 1))).bind fun u => u.writeTagged pi (q.ring + 8 * (q.tail % q.cap))
        (leBytes 8 (leNat (s.loadAt place 8).1 ||| 2 ^ 62)) (s.loadAt place 8).2) = none) :
      Moves pi x ring cap i last s s 0 (some (last - i))
  | moved {i last s q place m t n r} (h : i < last) (dest : leastLoaded (s.openQueues pi x) = some q)
      (entry : s.place (agentAccess pi (ring + 8 * (i % cap)) 8 false) = .ok place) (valid : leNat (s.loadAt place 8).1 / 2 ^ 63 % 2 = 1)
      (put : ((s.writeVa pi (q.at_ + 0x14) (leBytes 4 (q.tail + 1))).bind fun u => u.writeTagged pi (q.ring + 8 * (q.tail % q.cap))
        (leBytes 8 (leNat (s.loadAt place 8).1 ||| 2 ^ 62)) (s.loadAt place 8).2) = some m)
      (rest : Moves pi x ring cap (i + 1) last m t n r) : Moves pi x ring cap i last s t (n + 1) r

/-- What a step of a copy's closure leaves when its moving has got somewhere (R299, R301): it is complete, with its events, or it
stands where it was, to be carried on. -/
def Carried (s m t : State) (pi : Nat) (x : Expert) (k : Copy) (c : Closure) (n : Nat) : Option Nat → Prop
  | some stranded =>
    let moved := c.moved + n
    let m' := if moved = 0 then m else m.etEvent pi 9 (s.part pi).et.ver x.eid k.die k.rep 0 moved
    (t.copyOf pi x.eid k.rep).map (fun y => y.2.closed) = some true ∧ (∀ c ∈ (t.part pi).et.closures, ¬(c.eid = x.eid ∧ c.rep = k.rep))
      ∧ SameMemory (if stranded = 0 then m' else m'.etEvent pi 10 (s.part pi).et.ver x.eid k.die k.rep 0 stranded) t
  | none =>
    (t.copyOf pi x.eid k.rep).map (fun y => y.2.closed) = some false ∧ SameMemory m t
      ∧ ((t.part pi).et.closures.find? fun c => c.eid == x.eid && c.rep == k.rep) = some { c with next := c.next + n, moved := c.moved + n }

/-- Whether a change changes the table (R297). -/
def Changes (e : Etesian) (c : Change) : Prop :=
  (∃ x, c = .register x) ∨ (∃ eid, c = .deregister eid)
    ∨ (∃ eid rep x k, c = .add eid rep ∧ e.expert eid = some x ∧ (x.copies.find? fun k => k.rep == rep) = some k ∧ k.phase = .live
        ∧ k.published = false)
    ∨ ∃ eid x k, e.expert eid = some x ∧ k ∈ x.copies ∧ k.phase = .live ∧ takenBy c eid k.rep = true

end Sys2Proof.Claims

open Sys2Proof Sys2Proof.Machine Sys2Proof.Claims in
/-- R254, R288, R292, R296, R297, R299 to R302: a publication takes the next VER, waiting while a launch holds it, changes the table at
once and stands in the traces that record it; failures come first, and a held table publishes nothing else. A closure reads its queue
once, sets CLOSED in both counts, and moves the entries left in order, as often as it is carried on. A failed LIVE copy is quarantined.
Storage is freed once no launch holds a version that includes it. An event goes to the ring, or is counted lost. That commands may
publish beside a failing copy, that both counts get CLOSED in one step, that a moved entry keeps its tag, and that the entries are
stranded where the target queue cannot be written, are the model's choices [30]. -/
def Obligations.Publications : Prop :=
  (∀ s pi,
    let waiting := (s.part pi).et.waiting
    let failing := ∃ x ∈ (s.part pi).et.experts, ∃ k ∈ x.copies, k.phase = .live ∧ k.quarantined = true
    let none_ := ∀ c ∈ waiting, ∀ eid rep, c ≠ .fail eid rep
    (∀ c, s.nextChange pi = some c → c ∈ waiting)
    ∧ (¬none_ → ∃ eid rep, s.nextChange pi = some (.fail eid rep))
    ∧ (s.held pi = false → none_ → ¬failing → s.nextChange pi = waiting.head?)
    ∧ (s.held pi = false → none_ → failing → s.nextChange pi = waiting.find? Change.ofCommand)
    ∧ (s.held pi = true → (∀ c ∈ (s.part pi).et.waiting, ∀ eid rep, c ≠ .fail eid rep) → exec (.publication pi) s = .fault .notEnabled)
    ∧ (s.held pi = true → ∀ c, s.nextChange pi = some c → ∃ eid rep, c = .fail eid rep))
  ∧ (∀ s pi c, s.nextChange pi = some c → pi < s.parts.length →
    let et := (s.part pi).et
    let ver := (et.ver + 1) % 2 ^ 16
    let ends (t : State) : Prop := (t.part pi).et.waiting = et.waiting.erase c
      ∧ if c.ofCommand then (t.part pi).et.busy = false ∧ (t.part pi).et.result = 0
        else (t.part pi).et.busy = et.busy ∧ (t.part pi).et.result = et.result
    (¬Changes et c → ∃ t, exec (.publication pi) s = .next t ∧ ends t ∧ (t.part pi).et.ver = et.ver
      ∧ (t.part pi).et.experts = et.experts ∧ SameMemory s t)
    ∧ (Changes et c → s.verHeld pi ver = true → exec (.publication pi) s = .fault .notEnabled)
    ∧ (Changes et c → s.verHeld pi ver = false → ∃ t, exec (.publication pi) s = .next t ∧ ends t ∧ (t.part pi).et.ver = ver
        ∧ (∀ x, et.expert x.eid = some x → (x.copies.map (·.rep)).Nodup →
            let kept := x.copies.filter fun k => !(abortedBy c x.eid && k.flying)
            (kept ≠ [] ∨ (x.registered = true ∧ c ≠ .deregister x.eid)) →
            ∃ x', (t.part pi).et.expert x.eid = some x' ∧ x'.copies = kept.map (afterChange c ver x)
              ∧ x'.registered = (x.registered && decide (c ≠ .deregister x.eid)))
        ∧ (∀ x, c = .register x → et.expert x.eid = none → ∃ x', (t.part pi).et.expert x.eid = some x' ∧ x'.registered = x.registered
            ∧ x'.copies = x.copies.map (afterChange c ver x))
        ∧ (s.held pi = false → t.launches = s.launches)
        ∧ ∀ li l, nth s.launches li = some l → l.holds pi = true → l.lrec.det = 1 → l.overflow = false →
            (nth t.launches li).map (fun l => (l.traced, l.overflow))
              = some (if 32 + 16 * (l.traced + 1) ≤ l.lrec.traceLen then (l.traced + 1, false) else (l.traced, true))))
  ∧ (∀ s pi eid rep x k cause, s.copyOf pi eid rep = some (x, k) → pi < s.parts.length → k.phase = .live → k.quarantined = false →
    (cause = .uncorrectable ∨ cause = .dieFault) → ∃ t y, exec (.livefail pi eid rep cause) s = .next t ∧ t.copyOf pi eid rep = some y
      ∧ y.2.phase = .live ∧ y.2.quarantined = true ∧ y.2.failCause = causeNum cause ∧ (t.part pi).et.ver = (s.part pi).et.ver
      ∧ (x.qaddr = 0 → (∀ c ∈ (s.part pi).et.closures, ¬(c.eid = x.eid ∧ c.rep = k.rep)) → y.2.closed = true ∧ (t.part pi).et.waiting = (s.part pi).et.waiting ++ [.fail eid rep]))
  ∧ (∀ s pi eid rep x k q u, s.copyOf pi eid rep = some (x, k) → pi < s.parts.length → k.closed = false → k.phase = .retiring → k.quarantined = false →
    (∀ c ∈ (s.part pi).et.closures, ¬(c.eid = x.eid ∧ c.rep = k.rep)) → s.tokenQueue pi x k.rep = some q →
    ((s.writeVa pi (q.at_ + 0x14) (leBytes 4 (q.tail + 2 ^ 31))).bind fun s => s.writeVa pi (q.at_ + 0x10) (leBytes 4 (q.head + 2 ^ 31)))
      = some u →
    let closes (m : State) (moved stranded : Nat) : Prop := ∃ t, exec (.queueClosure pi eid rep) s = .next t
      ∧ (t.copyOf pi eid rep).map (fun y => y.2.closed) = some true
      ∧ let m' := if moved = 0 then m else m.etEvent pi 9 (s.part pi).et.ver x.eid k.die k.rep 0 moved
        SameMemory (if stranded = 0 then m' else m'.etEvent pi 10 (s.part pi).et.ver x.eid k.die k.rep 0 stranded) t
    (q.tail ≤ q.head → closes u 0 0)
    ∧ (∀ place, q.head < q.tail → u.place (agentAccess pi (q.ring + 8 * (q.head % q.cap)) 8 false) = .ok place →
        2 ^ 63 ≤ leNat (u.loadAt place 8).1 → u.openQueues pi x = [] → closes u 0 (q.tail - q.head))
    ∧ ∀ q' place m, q.tail = q.head + 1 → leastLoaded (u.openQueues pi x) = some q' →
        u.place (agentAccess pi (q.ring + 8 * (q.head % q.cap)) 8 false) = .ok place →
        let e := u.loadAt place 8
        2 ^ 63 ≤ leNat e.1 →
        ((u.writeVa pi (q'.at_ + 0x14) (leBytes 4 (q'.tail + 1))).bind fun u => u.writeTagged pi (q'.ring + 8 * (q'.tail % q'.cap))
          (leBytes 8 (leNat e.1 ||| 2 ^ 62)) e.2) = some m → closes m 1 0)
  ∧ (∀ s pi eid rep x k m n r, s.copyOf pi eid rep = some (x, k) → pi < s.parts.length → k.closed = false → k.phase = .retiring →
    k.quarantined = false →
    (∀ q u, (∀ c ∈ (s.part pi).et.closures, ¬(c.eid = x.eid ∧ c.rep = k.rep)) → s.tokenQueue pi x k.rep = some q →
      ((s.writeVa pi (q.at_ + 0x14) (leBytes 4 (q.tail + 2 ^ 31))).bind fun s => s.writeVa pi (q.at_ + 0x10) (leBytes 4 (q.head + 2 ^ 31)))
        = some u →
      Moves pi x q.ring q.cap q.head q.tail u m n r →
      ∃ t, exec (.queueClosure pi eid rep) s = .next t ∧ Carried s m t pi x k ⟨x.eid, k.rep, q.ring, q.cap, q.head, q.tail, 0⟩ n r)
    ∧ ∀ c, ((s.part pi).et.closures.find? fun c => c.eid == x.eid && c.rep == k.rep) = some c →
      Moves pi x c.ring c.cap c.next c.last s m n r →
      if n = 0 ∧ r = none then exec (.queueClosure pi eid rep) s = .fault .notEnabled
      else ∃ t, exec (.queueClosure pi eid rep) s = .next t ∧ Carried s m t pi x k c n r)
  ∧ (∀ l q, leastLoaded l = some q → ∃ r, (r, q) ∈ l ∧ ∀ x ∈ l, q.tail + x.2.head ≤ x.2.tail + q.head)
  ∧ (∀ s pi eid rep x k, s.copyOf pi eid rep = some (x, k) → pi < s.parts.length → k.phase = .retiring → k.closed = true →
    ((∃ l ∈ s.launches, l.part = pi ∧ ∃ g ∈ l.grants, g.ver ∈ k.versions) → exec (.freed pi eid rep) s = .fault .notEnabled)
    ∧ ((∀ l ∈ s.launches, l.part = pi → ∀ g ∈ l.grants, g.ver ∉ k.versions) → ∃ t, exec (.freed pi eid rep) s = .next t
        ∧ t.copyOf pi eid rep = none ∧ SameMemory (s.etEvent pi 6 (s.part pi).et.ver eid k.die k.rep 0 0) t
        ∧ if k.rep = 0 then t.freed = s.freed
          else let range := (k.base.toNat - (s.part pi).vaultBase.toNat, x.size); t.freed = s.freed.erase range ++ [range]))
  ∧ ∀ s pi code ver eid die rep cause count, pi < s.parts.length →
    let et := (s.part pi).et
    let k := et.evSize.toNat % 32
    let bs := leBytes 8 s.pkg.clock.toNat ++ leBytes 2 code ++ leBytes 2 ver ++ leBytes 2 eid ++ leBytes 1 die ++ leBytes 1 rep
      ++ leBytes 4 cause ++ leBytes 4 count ++ leBytes 8 0
    let fits : Prop := 4 ≤ k ∧ k ≤ 16 ∧ (et.evTail - et.evHead).toNat ≠ 2 ^ k
    let t := s.etEvent pi code ver eid die rep cause count
    let lost : Prop := SameMemory s t ∧ (t.part pi).et = { et with lost := min 255 (et.lost + 1) }
    (¬fits → lost)
    ∧ (fits → s.writeVa pi (et.evBase.toNat + 32 * (et.evTail.toNat % 2 ^ k)) bs = none → lost)
    ∧ ∀ u, fits → s.writeVa pi (et.evBase.toNat + 32 * (et.evTail.toNat % 2 ^ k)) bs = some u → SameMemory u t
        ∧ (t.part pi).et = { et with evTail := et.evTail + 1 }

namespace Sys2Proof.Claims

open Sys2Proof Sys2Proof.Machine

/-! Links, errors, the directory; bring-up. -/

end Sys2Proof.Claims

open Sys2Proof Sys2Proof.Machine Sys2Proof.Claims in
/-- R97, R122, R123, R132, R202, R321, R339, R340, R347, R348: a region merges with the other half of the region that both halve, once both
have been quiet for a die's interval, changing no value; an uncorrectable error marks its sector and tells the die; a flit with a good
CRC for this device stores its sectors and tags, one for another goes on, one with a bad CRC leaves nothing; a CXL port that goes down
takes its range away; the host's window reaches the first carve-out of package memory. That any present die's interval may merge a
region is the model's choice [7], the event's argument for an error in local memory is a free value [21], and so are what a flit's type stores and an access outside the window [31]. -/
def Obligations.LinksAndErrors : Prop :=
  (∀ (s : State) (r : Region), r ∈ s.regions → (∀ y ∈ s.regions, y.line = r.line → y = r) →
    let Half (x : Region) : Prop := x.lines = r.lines ∧ x.line / (2 * r.lines) = r.line / (2 * r.lines) ∧ x.line ≠ r.line
    (∀ x d, x ∈ s.regions → Half x → (∀ y ∈ s.regions, Half y → y = x) → s.pkg.dies.getLsbD d = true →
      let quiet := s.consctl d / 2 ^ 24 % 2 ^ 6
      quiet ≠ 0 → (∀ y, y = r ∨ y = x → 4 * 4096 * quiet ≤ 7 * (s.pkg.clock.toNat - y.seen) ∧ y.seen ≤ s.pkg.clock.toNat) →
      ∃ t, exec (.regionMerge r.line) s = .next t ∧ { t with regions := s.regions } = s
        ∧ t.regions = (if 512 ≤ 2 * r.lines then [] else [⟨min r.line x.line, 2 * r.lines, max r.seen x.seen⟩])
            ++ (s.regions.erase r).erase x)
    ∧ ((∀ x ∈ s.regions, ¬Half x) → exec (.regionMerge r.line) s = .fault .notEnabled))
  ∧ (∀ s die cell off, s.pkg.cellPresent die cell = true → off < cellBytes →
    ∃ t arg, exec (.uncorrectableError die (.cell cell off)) s = .next t ∧ SameMemory s t
      ∧ (∀ x, x ∈ t.lpoison ↔ x ∈ s.lpoison ∨ x = ((die * 24 + cell) * cellBytes + off) / 32)
      ∧ FMap.get [] t.events die = FMap.get [] s.events die ++ [BitVec.ofNat 64 (6 + 256 * arg)])
  ∧ (∀ s die pa, pa < 2 ^ 52 → s.pkg.reaches pa = true → s.pkg.dies.getLsbD die = true →
    ∃ t, exec (.uncorrectableError die (.memory pa)) s = .next t ∧ SameMemory s t
      ∧ (∀ x, x ∈ t.poison ↔ x ∈ s.poison ∨ x = s.pkg.norm pa / 32)
      ∧ FMap.get [] t.events die = FMap.get [] s.events die ++ [BitVec.ofNat 64 (6 + 256 * (pa / 16))])
  ∧ (∀ s (f : Flit), Config.crc16 (flitBytes f) ≠ f.crc → exec (.flitReceive f) s = .next s)
  ∧ (∀ s (f : Flit), Config.crc16 (flitBytes f) = f.crc → f.dest.toNat ≠ s.pkg.device →
    ∃ t, exec (.flitReceive f) s = .next t ∧ t.pkg.outbox = s.pkg.outbox ++ [f] ∧ { t with pkg := s.pkg } = s)
  ∧ (∀ s (f : Flit), Config.crc16 (flitBytes f) = f.crc → f.dest.toNat = s.pkg.device →
    let pa := s.pkg.norm (f.pa.toNat / 2 * 32)
    let n := min 7 (f.data.length / 32)
    (∀ i < n, s.pkg.reaches (pa + 32 * i) = true) → pa + 32 * n ≤ peerPa →
    ∃ t, exec (.flitReceive f) s = .next t
      ∧ (Config.flitStores f.kind.toNat = false → t = s)
      ∧ (Config.flitStores f.kind.toNat = true → ∀ i < n, t.bytes (pa + 32 * i) 32 = (f.data.drop (32 * i)).take 32
          ∧ FMap.get false t.tags (pa / 32 + i) = f.tags.getLsbD i)
      ∧ ∀ a, a < pa ∨ pa + 32 * n ≤ a → t.bytes a 1 = s.bytes a 1)
  ∧ (∀ s port, (nth s.pkg.cxl port).getD 0 ≠ 0 → ∃ t, exec (.cxlLinkDown port) s = .next t ∧ { t with pkg := s.pkg } = s
      ∧ { t.pkg with cxl := s.pkg.cxl } = s.pkg ∧ (∀ p, p ≠ port → nth t.pkg.cxl p = nth s.pkg.cxl p)
      ∧ ∀ off < 2 ^ 41, port < 4 → t.pkg.reaches (pkgEnd + port * 2 ^ 41 + off) = false)
  ∧ ∀ s pi base gib, s.pkg.stage = 7 → (s.part pi).en = true → gib ≠ 0 → base < 2 ^ 10 →
    (s.part pi).carves.head? = some (BitVec.ofNat 64 (gib * 2 ^ 52 + base * 2 ^ 30)) → gib < 2 ^ 12 →
    let pa (offset : Nat) : Nat := base * 2 ^ 30 + offset
    let inside (offset n : Nat) : Prop := pa offset + n ≤ min (base * 2 ^ 30 + min (gib * 2 ^ 30) (2 ^ 36)) pkgEnd
    (∀ offset bs, inside offset bs.length → ∃ t, exec (.hostWindowAccess pi offset (some bs) 0) s = .next t
        ∧ (∀ i b, nth bs i = some b → t.bytes (pa offset + i) 1 = [b])
        ∧ (∀ a, a < pa offset ∨ pa offset + bs.length ≤ a → t.bytes a 1 = s.bytes a 1)
        ∧ ∀ sector, FMap.get false t.tags sector =
            if pa offset ≤ 32 * sector ∧ 32 * sector + 32 ≤ pa offset + bs.length then false else FMap.get false s.tags sector)
    ∧ (∀ offset n, inside offset n → (∀ x ∈ s.poison, x < pa offset / 32 ∨ pa offset + n ≤ 32 * x) →
        ∃ t, exec (.hostWindowAccess pi offset none n) s = .next t ∧ t.pkg.hostRead = s.bytes (pa offset) n ∧ { t with pkg := s.pkg } = s)
    ∧ (∀ offset bs, ¬inside offset bs.length → exec (.hostWindowAccess pi offset (some bs) 0) s = .next s)
    ∧ ∀ offset n, ¬inside offset n → ∃ t, exec (.hostWindowAccess pi offset none n) s = .next t
        ∧ t.pkg.hostRead = List.replicate n 0xFF ∧ { t with pkg := s.pkg } = s

namespace Sys2Proof.Claims

open Sys2Proof Sys2Proof.Machine

/-- R353, R354: what an image of a KIND must hold, but for its SVN. -/
def SoundImage (kind : Nat) (bs : List Byte) : Prop :=
  let payload := (0xB0 + fieldOf bs 0xA0 4 + 63) / 64 * 64
  let signed := bs.take 0x40
  fieldOf bs 0 4 = 0x54464C48 ∧ fieldOf bs 4 2 = kind ∧ (if kind = 1 then fieldOf bs 6 2 = 0 else 1 ≤ fieldOf bs 6 2)
    ∧ 1 ≤ fieldOf bs 0xA0 4 ∧ fieldOf bs 0xA0 4 ≤ 8192 ∧ (∀ b ∈ (bs.drop 0xA4).take 12, b = 0)
    ∧ payload + fieldOf bs 0xC 4 ≤ bs.length
    ∧ Config.sha384 ((bs.drop payload).take (fieldOf bs 0xC 4)) = (bs.drop 0x10).take 48
    ∧ Config.ecdsaOk signed ((bs.drop 0x40).take 96) = true
    ∧ Config.lmsOk signed ((bs.drop 0xB0).take (fieldOf bs 0xA0 4)) = true

/-- The fused minimum SVN of a KIND. -/
def fusedSvn (k : Package) (kind : Nat) : Nat := ((nth k.minSvn (kind - 1)).getD 0).toNat

/-- An accepted image is measured (R355); the fused minimum never falls (R354). -/
def Measured (k k' : Package) (kind : Nat) (bs : List Byte) : Prop :=
  nth k'.measure (kind - 1) = (nth k.measure (kind - 1)).map (fun m => Config.sha384 (m ++ (bs.drop 0x10).take 48))
    ∧ ∀ j, fusedSvn k j ≤ fusedSvn k' j ∨ j = 0

/-- A halt of bring-up: the stage, CODE and DETAIL that BUSTAT shows (R351, R352). -/
def Halts (b : Boot) (s : State) (stage code detail : Nat) : Prop :=
  ∃ t, exec (.reset b) s = .next t ∧ t.pkg.stage = stage ∧ t.pkg.code = code ∧ t.pkg.detail = BitVec.ofNat 32 detail
    ∧ t.pkg.pcieUp = b.pcieUp ∧ t.launches = [] ∧ t.warps = [] ∧ ∀ n, (t.part n).en = false

end Sys2Proof.Claims

open Sys2Proof Sys2Proof.Machine Sys2Proof.Claims in
/-- R4, R335, R350 to R357: bring-up goes through its stages to READY, or halts in the stage that fails with its CODE; an image
is accepted only where R354 holds of it, and is measured; a decode table is swapped in once nothing runs, dispatch being held
meanwhile; a report holds what R355 names and both signatures. That memory keeps its bytes over a reset is the model's choice
[32], and the functions of the signatures and the order of a report's parts are its free values [23]. CLOCK's 0 after a reset
[4], the part's number by its enabled dies [32] and the place of the DECODE entry in the capability list [6] are the model's too. -/
def Obligations.BringUp : Prop :=
  (∀ kind bs, firmwareOk kind bs = true ↔ SoundImage kind bs)
  ∧ (∀ (b : Boot) s, ∃ t, exec (.reset b) s = .next t ∧ SameMemory s t ∧ t.poison = s.poison ∧ t.lpoison = s.lpoison)
  ∧ (∀ (b : Boot) s, (nth s.pkg.minSvn 0).isSome = true → (nth s.pkg.minSvn 1).isSome = true →
    let fw := b.firmware
    let good (kind : Nat) (bs : List Byte) : Prop := SoundImage kind bs ∧ fusedSvn s.pkg kind ≤ fieldOf bs 8 4
    let dies := b.diesUp &&& b.enabled
    let members := b.digests.length + 1
    (¬SoundImage 1 fw → Halts b s 1 1 1)
    ∧ (SoundImage 1 fw → fieldOf fw 8 4 < fusedSvn s.pkg 1 → Halts b s 1 2 1)
    ∧ (good 1 fw → ¬SoundImage 2 b.decode → Halts b s 1 1 2)
    ∧ (good 1 fw → SoundImage 2 b.decode → fieldOf b.decode 8 4 < fusedSvn s.pkg 2 → Halts b s 1 2 2)
    ∧ (good 1 fw → good 2 b.decode → dies = 0 → Halts b s 2 4 0)
    ∧ (good 1 fw → good 2 b.decode → dies ≠ 0 → b.lpddr = false → Halts b s 3 3 0)
    ∧ (good 1 fw → good 2 b.decode → dies ≠ 0 → b.lpddr = true → ∃ t, exec (.reset b) s = .next t
        ∧ t.pkg.stage = 7 ∧ t.pkg.code = 0 ∧ t.pkg.dies = dies ∧ t.pkg.dgen = fieldOf b.decode 6 2 ∧ t.pkg.pcieUp = b.pcieUp
        ∧ t.pkg.svn = BitVec.ofNat 32 (fieldOf fw 8 4) ∧ t.pkg.release = b.release ∧ t.pkg.services = b.services
        ∧ (∀ d < 8, nth t.pkg.cells d = some ((nth b.cells d).getD 0)) ∧ (∀ p < 4, nth t.pkg.cxl p = some (min 2048 ((nth b.cxlGib p).getD 0)))
        ∧ t.pkg.number = (if (List.range 8).countP b.enabled.getLsbD = 6 then 9600 else 9800)
        ∧ (if members = 1 ∨ 32 < members then t.pkg.device = 0 ∧ t.pkg.group = 1 ∧ t.pkg.peers = 0 ∧ t.pkg.ports = 0
           else t.pkg.device = b.digests.countP (fun x => bytesBefore x (Config.sha384 Config.identityKeys)) ∧ t.pkg.group = members
            ∧ (∀ p < 32, t.pkg.peers.getLsbD p = (b.peers.getLsbD p && decide (p < members))) ∧ t.pkg.ports = b.ports)
        ∧ nth t.pkg.measure 0 = some (Config.sha384 (List.replicate 48 0 ++ (fw.drop 0x10).take 48))
        ∧ nth t.pkg.measure 1 = some (Config.sha384 (List.replicate 48 0 ++ (b.decode.drop 0x10).take 48))
        ∧ (∀ j, 1 ≤ j → fusedSvn s.pkg j ≤ fusedSvn t.pkg j)
        ∧ t.pkg.clock = 0 ∧ t.launches = [] ∧ t.gangs = [] ∧ t.warps = [] ∧ t.ops = [] ∧ t.requests = [] ∧ t.events = [] ∧ t.tlb = []
        ∧ (t.part 0).en = true ∧ (t.part 0).dies = dies ∧ (t.part 0).carves.head? = some (BitVec.ofNat 64 (1024 * 2 ^ 52))
        ∧ (∀ p < 4, ∃ c : Word64, nth (t.part 0).carves (p + 1) = some c ∧ bits c.toNat 51 0 = pkgEnd + p * 2 ^ 41
            ∧ bits c.toNat 63 52 = if (nth t.pkg.cxl p).getD 0 = 0 then 0 else 2048)
        ∧ ∀ n, 1 ≤ n → (t.part n).en = false ∧ t.part n = {}))
  ∧ (∀ s image, s.pkg.install = none → s.pkg.stage = 7 →
    let accepted := SoundImage 2 image ∧ fusedSvn s.pkg 2 ≤ fieldOf image 8 4 ∧ s.pkg.dgen ≤ fieldOf image 6 2
    (¬accepted → exec (.decodeTableInstall image) s = .next s)
    ∧ (accepted → ∃ t, exec (.decodeTableInstall image) s = .next t ∧ { t with pkg := s.pkg } = s ∧ Measured s.pkg t.pkg 2 image
        ∧ if ∀ l ∈ s.launches, l.phase ≠ .dispatched ∧ l.phase ≠ .ending then
            t.pkg.dgen = fieldOf image 6 2 ∧ t.pkg.install = none
          else t.pkg.dgen = s.pkg.dgen ∧ t.pkg.install = some (fieldOf image 6 2)
            ∧ ∀ p, exec (.dispatch p) t = .fault .notEnabled))
  ∧ (∀ s image n, s.pkg.install = some n →
    ((∃ l ∈ s.launches, l.phase = .dispatched ∨ l.phase = .ending) → exec (.decodeTableInstall image) s = .fault .notEnabled)
    ∧ ((∀ l ∈ s.launches, l.phase ≠ .dispatched ∧ l.phase ≠ .ending) → ∃ t, exec (.decodeTableInstall image) s = .next t
        ∧ t.pkg = { s.pkg with dgen := n, install := none, caps := s.pkg.caps.take 72 ++ leBytes 4 n ++ s.pkg.caps.drop 76 }
        ∧ { t with pkg := s.pkg } = s))
  ∧ ∀ s (nonce : List Byte), nonce.length = 32 →
    let body := nonce ++ s.pkg.measure.flatten ++ (s.pkg.minSvn.map fun x => leBytes 4 x.toNat).flatten ++ leBytes 4 s.pkg.dgen
      ++ Config.identityKeys
    ∃ t, exec (.attestationReport nonce) s = .next t ∧ t.pkg.reports = s.pkg.reports ++ [body ++ Config.signEcdsa body ++ Config.signLms body]
      ∧ { t with pkg := s.pkg } = s ∧ { t.pkg with reports := s.pkg.reports } = s.pkg

namespace Sys2Proof.Claims

open Sys2Proof Sys2Proof.Machine

/-! Decoding, steps, reset, the canonical form. -/

end Sys2Proof.Claims

open Sys2Proof Sys2Proof.Machine Sys2Proof.Claims in
/-- R139, R145 to R152, R155: decode and encode agree for every well-formed instruction with an instruction word, in its 96 bits; and a
word that decodes is the word of what it decodes to, so no two words are one instruction and no bit is dropped. -/
def Obligations.DecodeEncode : Prop :=
  (∀ i : Instr, i.hasWord = true → i.wf = true →
    encodeWord i < 2 ^ 96 ∧ (encode i).length = 12 ∧ leNat (encode i) = encodeWord i ∧ decodeWord (encodeWord i) = .ok i
      ∧ decodeTableWord 96 (encodeWord i) = some i)
  ∧ ∀ w i, w < 2 ^ 96 → decodeWord w = .ok i → i.wf = true ∧ i.hasWord = true ∧ encodeWord i = w

open Sys2Proof Sys2Proof.Machine Sys2Proof.Claims in
/-- R101, R102, R117: every step of the device keeps memory, its tags, local memory and its tags in canonical form. The form
leaves out what reads as unlisted bytes and sectors do, which is the model's choice [1]. -/
def Obligations.StepKeepsCanonical : Prop := ∀ s t : State, s.Canonical → step s = .next t → t.Canonical

open Sys2Proof Sys2Proof.Machine Sys2Proof.Claims in
/-- R10, R123, R277, R291, R293, R294, R319, R341, R350 to R352, R355: what reset leaves where the spec gives a value: the registers of
the partitions, rings, dies and the package. Memory lists nothing and is in canonical form, by the model's choice of what unlisted bytes
and tags read as [1]. That there is no launch, gang, warp or operation, and that PART0 and its carve-outs have their values for eight dies
and no expander before READY already, are the model's choice [5]. -/
def Obligations.ResetState : Prop :=
  let s := State.reset
  s.Canonical ∧ s.mem = [] ∧ s.launches = [] ∧ s.gangs = [] ∧ s.warps = [] ∧ s.ops = []
    ∧ (∀ p < 8, ∀ q < 64, s.regValue ⟨p, none, none⟩ (.qcfg q) = 0x07D0006403E80008 ∧ s.regValue ⟨p, none, none⟩ (.qstat q) = 0)
    ∧ (∀ p < 8, s.regValue ⟨p, none, none⟩ .ectl = 0x03104000 ∧ s.regValue ⟨p, none, none⟩ .eintv = 0x00320064
        ∧ ∀ r ∈ [Reg.estat, .ecmdaddr, .ecmd, .eevbase, .eevsize, .eevhead, .eevtail, .ptroot, .prbase, .prcount, .frbase, .frsize, .frhead,
            .frtail, .ctxbase, .ctxsize], s.regValue ⟨p, none, none⟩ r = 0)
    ∧ (∀ p < 8, ∀ n < 16, ∀ r ∈ [Reg.rbase n, .rsize n, .rhead n, .rtail n, .rerr n, .cbase n, .csize n, .ctail n, .chead n],
        s.regValue ⟨p, none, none⟩ r = 0)
    ∧ (∀ d < 8, s.regValue ⟨0, none, none⟩ (.consctl d) = 0x10040003)
    ∧ (∀ p < 8, ∀ d < 8, s.regValue ⟨p, none, none⟩ (.epool d) = 0)
    ∧ (∀ p e, s.regValue ⟨p, none, none⟩ (.eload e) = 0)
    ∧ s.regValue ⟨0, none, none⟩ .bustat = 0 ∧ s.regValue ⟨0, none, none⟩ (.partn 0) = 0x1FF
    ∧ s.regValue ⟨0, none, none⟩ (.carve 0 0) = 1024 * 2 ^ 52
    ∧ (∀ p < 4, s.regValue ⟨0, none, none⟩ (.carve 0 (p + 1)) = 0x010000000000 + p * 0x020000000000)
    ∧ (∀ n j, 1 ≤ n ∨ 5 ≤ j → s.regValue ⟨0, none, none⟩ (.carve n j) = 0)
    ∧ (∀ n, 1 ≤ n → s.regValue ⟨0, none, none⟩ (.partn n) = 0) ∧ s.pkg.measure = [List.replicate 48 0, List.replicate 48 0]

open Sys2Proof Sys2Proof.Machine Sys2Proof.Claims in
/-- R36, R51, R69, R132, R139, R142, R143, R156, R158, R309: a step in which a core issues for the warp whose turn it is, round-robin
among those with a ready split, runs the instruction that the slot at its split's PC decodes to; a slot that decodes to none
takes ILLEGAL, a line that fails its checks LINE, a fetch that cannot be made its fault, and one that meets a page that is not present
sleeps on it; a step of another agent is that agent's, and one of the host's own writes its memory, a granule at most. The steps
come from the agenda, the model's way to order them [3], what is written from outside too [43], and before each CLOCK and the
count of steps advance, CLOCK never falling [4]; after it TLBs and walkers may keep entries of walks that an agent has made, and nothing
else changes [8]. Where no agent has a move, time passes [3]. The lanes of LINE and of ILLEGAL are the model's reading [15]. -/
def Obligations.StepRunsDecoded : Prop :=
  (∀ s ms wi x bs, s.agenda = .issue wi false :: ms →
    ({ s.ticked with agenda := ms } : State).onTurn wi = true →
    let u := ({ s.ticked with agenda := ms } : State).served wi
    let part : Nat := x.2.2.1.part
    let pc : Addr := x.2.2.2.pc
    let unread := bareContext u x none
    let guarded := bareContext u x (rawGuard (slotWord bs (pc.toNat % 8)))
    let lanes : Lanes := if guarded.active = 0 then guarded.split.lanes else guarded.active
    u.picked = some x → x.1.pending = [] → x.2.2.2.block.endsIn = none →
    (∀ i, u.fetch part pc = .line bs → decodeSlot bs (pc.toNat % 8) = .ok i → step s = keepWalks (exec i u))
    ∧ ((∀ w, nth (u.atFault unread).warps wi = some w → w.ckpts = []) →
      (∀ cause prop, u.fetch part pc = .badLine bs cause prop →
        ∃ t, step s = keepWalks (.next t) ∧ Takes u guarded { cls := .line, cause := cause, lanes := lanes, tags := 4 * prop.toNat } t)
      ∧ (∀ cls cause prop, u.fetch part pc = .fault cls cause prop →
        ∃ t, step s = keepWalks (.next t) ∧ Takes u unread
          { cls := cls, cause := cause, lanes := x.2.2.2.lanes, addr := BitVec.ofNat 64 (lineBase pc), tags := 4 * prop.toNat } t)
      ∧ (∀ e, u.fetch part pc = .line bs → decodeSlot bs (pc.toNat % 8) = .error e →
        ∃ t, step s = keepWalks (.next t) ∧ Takes u guarded { cls := .illegal, lanes := lanes } t)
      ∧ ∀ page, u.fetch part pc = .sleep page → x.1.handler = none → Apart1 unread →
        ∃ t, step s = keepWalks (.next t) ∧ FallsAsleep u unread (fun p g => p = page ∧ g = none) t))
  ∧ (∀ t : State, ∃ tlb, keepWalks (.next t) = .next { t with tlb := tlb } ∧ (∀ x ∈ t.tlb, x ∈ tlb)
      ∧ ∀ x ∈ tlb, x ∈ t.tlb ∨ ∃ pi va, cacheable x.level x.pte = true ∧ x.part = pi ∧ x.index = va / 2 ^ levelShift x.level
          ∧ (x.level, x.pte) ∈ t.path (t.part pi) va 3 (t.part pi).root)
  ∧ (∀ s ms wi co, s.agenda = .issue wi co :: ms → ({ s.ticked with agenda := ms } : State).onTurn wi = false → step s = .fault .noIssue)
  ∧ (∀ (s : State) core wi, s.nextServed core = some wi →
    let next := FMap.get 0 s.arb core
    wi ∈ s.readyOn core ∧ (next ≤ wi → ∀ j ∈ s.readyOn core, next ≤ j → wi ≤ j) ∧ (wi < next → ∀ j ∈ s.readyOn core, j < next ∧ wi ≤ j))
  ∧ (∀ (s : State) wi w, nth s.warps wi = some w → { s.served wi with arb := s.arb } = { s with cur := wi, co := none }
    ∧ FMap.get 0 (s.served wi).arb (s.coreOf w) = wi + 1 ∧ ∀ c, c ≠ s.coreOf w → FMap.get 0 (s.served wi).arb c = FMap.get 0 s.arb c)
  ∧ (∀ s ms pa data tag, s.agenda = .foreign pa data tag :: ms → isHostPa pa = true → data ≠ [] → pa % 16 + data.length ≤ 16 →
    ∃ t, step s = .next t ∧ cellsOf t = putIn (cellsOf s) { loc := .phys pa } data ∧ sectorsOf t = sectorsOf s)
  ∧ (∀ s ms i, s.agenda = .event i :: ms → i.hasWord = false → step s = keepWalks (exec i { s.ticked with agenda := ms }))
  ∧ (∀ s : State, s.agenda = [] → (∀ m ∈ s.ticked.candidates, isNext (runMove s.ticked m) = false) → step s = keepWalks (.next s.ticked))
  ∧ (∀ s m, s.agenda = [] → m ∈ s.ticked.candidates → isNext (runMove s.ticked m) = true →
      ∃ m' t, m' ∈ s.ticked.candidates ∧ runMove s.ticked m' = .next t ∧ step s = keepWalks (.next t))
  ∧ ∀ s : State, s.ticked.turn = s.turn + 1 ∧ s.pkg.clock.toNat ≤ s.ticked.pkg.clock.toNat ∧ { s.ticked with pkg := s.pkg, turn := s.turn } = s
      ∧ { s.ticked.pkg with clock := s.pkg.clock } = s.pkg

open Sys2Proof Sys2Proof.Machine Sys2Proof.Claims in
/-- R145 to R152, R155, R216, R217, R219: words written field by field from the spec's layouts and the instructions that they are: one of each format and of
each family. -/
def Obligations.DecodeWords : Prop :=
  let h : Hdr := ⟨none, 0, .none, .normal⟩
  decodeWord (0x080 * 2 ^ 86 + 2 ^ 85 + 2 ^ 84 + 5 * 2 ^ 80 + 1 * 2 ^ 74 + 3 * 2 ^ 64 + 4 * 2 ^ 56 + 6 * 2 ^ 48 + 2 * 2 ^ 16)
      = .ok (.iadd ⟨⟨some ⟨true, 5⟩, 0, .a, .normal⟩, .v 3, .v 4, .v 6, .v 0, .v 0, .s32, .rn, .g, .warp, 0⟩)
    ∧ decodeWord (0x081 * 2 ^ 86 + 3 * 2 ^ 64 + 4 * 2 ^ 56 + 2 * 2 ^ (16 + 32) + 0xFFFFFFFF)
      = .ok (.iaddImm ⟨h, .v 3, .v 4, .s32, .rn, .g, .warp, 0, 0xFFFFFFFF⟩)
    ∧ decodeWord (0x280 * 2 ^ 86 + 3 * 2 ^ 76 + 7 * 2 ^ 64 + 8 * 2 ^ 56 + 6 * 2 ^ 32 + 0xFFFFC)
      = .ok (.ld ⟨⟨none, 3, .none, .normal⟩, .v 7, .v 8, .v 0, .v 0, .n32, .g, .warp, 0, 0xFFFFC⟩)
    ∧ decodeWord (0x302 * 2 ^ 86 + 3 * 2 ^ 64 + 4 * 2 ^ 56 + 6 * 2 ^ 38 + 0x0000FFFF)
      = .ok (.wred ⟨h, .v 3, .v 4, .v 0, .n32, .rn, 0, 0x0000FFFF⟩)
    ∧ decodeWord (0x001 * 2 ^ 86 + (2 ^ 29 - 2) * 2 ^ 3 + 4) = .ok (.bra ⟨h, 0x1FFFFFFE, 4⟩)
    ∧ decodeWord (0x002 * 2 ^ 86 + 1 * 2 ^ 84 + 3 * 2 ^ 80 + 0xFFF * 2 ^ 60 + 2 * 2 ^ 57 + 15 * 2 ^ 53 + 1 * 2 ^ 41 + 4 * 2 ^ 38)
      = .ok (.mbr ⟨0, .none, .normal, ⟨3, 0xFFF, 2⟩, [⟨15, 1, 4⟩]⟩)
    ∧ decodeWord (0x186 * 2 ^ 86 + 3 * 2 ^ 64 + 4 * 2 ^ 56 + 5 * 2 ^ 48 + 6 * 2 ^ 40 + 9 * 2 ^ 16 + 4 * 2 ^ 13)
      = .ok (.ffma ⟨h, .v 3, .v 4, .v 5, .v 6, .v 0, .f32, .sr, .g, .warp, 0⟩)
    ∧ decodeWord (0x0C6 * 2 ^ 86 + 9 * 2 ^ 64 + 0x0D * 2 ^ 56 + 1 * 2 ^ 30 + 3 * 2 ^ 28)
      = .ok (.gets ⟨h, .k 9, .sp .clock, .v 0, .v 0, .v 0, .s8, .rn, .g, .warp, 0⟩)
    ∧ decodeWord (0x310 * 2 ^ 86 + 4 * 2 ^ 56 + 2 * 2 ^ 32 + 2 * 2 ^ 22)
      = .ok (.dqadd ⟨h, .v 0, .v 4, .v 0, .v 0, .p false 2, .s8, .rn, .g, .warp, 0⟩)
    ∧ decodeWord (0x314 * 2 ^ 86 + 2 * 2 ^ 64 + 4 * 2 ^ 56 + 6 * 2 ^ 48 + 1 * 2 ^ 30 + 1 * 2 ^ 28 + 1 * 2 ^ 26)
      = .ok (.launch ⟨h, .k 2, .k 4, .k 6, .v 0, .v 0, .s8, .rn, .g, .warp, 0⟩)
    ∧ decodeWord (0x388 * 2 ^ 86 + 1 * 2 ^ 64 + 2 * 2 ^ 56 + 3 * 2 ^ 48 + 1 * 2 ^ 30 + 1 * 2 ^ 28 + 1 * 2 ^ 26 + 11 * 2 ^ 16 + 21)
      = .ok (.mma ⟨h, .k 1, .k 2, .k 3, .v 0, .v 0, .bf16, .rn, .g, .warp, 21⟩)
    ∧ decodeWord (0x390 * 2 ^ 86 + 2 * 2 ^ 56 + 3 * 2 ^ 48 + 4 * 2 ^ 40 + 5 * 2 ^ 32 + 1 * 2 ^ 28 + 1 * 2 ^ 26 + 1 * 2 ^ 24 + 1 * 2 ^ 22
        + 2 * 2 ^ 10 + 65)
      = .ok (.cpy ⟨h, .v 0, .k 2, .k 3, .k 4, .k 5, .s8, .rn, .v, .warp, 65⟩)
    ∧ decodeWord (0x3C0 * 2 ^ 86 + 0x123) = .ok (.eqp ⟨h, .v 0, .v 0, .s8, .rn, .g, .warp, 0, 0x123⟩)
    ∧ decodeWord (0x3CC * 2 ^ 86) = .ok (.eret ⟨h, .v 0, .v 0, .v 0, .v 0, .v 0, .s8, .rn, .g, .warp, 0⟩)
    ∧ decodeWord (0x00C * 2 ^ 86) = .error .opcode
end

