-- ==== Sys2Proof/Laws/Maps.lean ====
section
/-! SUPPORT. Laws of the sparse maps and of lists changed by index: what a read after a write gives, and that every write
keeps the canonical form. -/

namespace Sys2Proof

variable {β : Type}

theorem FMap.get_filter_ne (d : β) (a b : Nat) (h : b ≠ a) : ∀ m : FMap β,
    FMap.get d (m.filter fun e => e.1 != a) b = FMap.get d m b
  | [] => rfl
  | (k, v) :: m => by
    have ih := FMap.get_filter_ne d a b h m
    by_cases hk : k = a
    · simp [hk, FMap.get, h, ih]
    · simp [hk, FMap.get, ih]

theorem FMap.get_filter_same (d : β) (a : Nat) : ∀ m : FMap β, FMap.get d (m.filter fun e => e.1 != a) a = d
  | [] => rfl
  | (k, v) :: m => by
    have ih := FMap.get_filter_same d a m
    by_cases hk : k = a
    · simp [hk, ih]
    · simp [hk, FMap.get, ih, Ne.symm hk]

theorem FMap.get_insert_other (d : β) (a b : Nat) (x : β) (h : b ≠ a) : ∀ m : FMap β,
    FMap.get d (FMap.insert a x m) b = FMap.get d m b
  | [] => by simp [FMap.insert, FMap.get, h]
  | (k, v) :: m => by
    have ih := FMap.get_insert_other d a b x h m
    simp only [FMap.insert]
    split <;> simp [FMap.get, h, ih]

theorem FMap.get_insert_same (d : β) (a : Nat) (x : β) : ∀ m : FMap β, (∀ e ∈ m, e.1 ≠ a) → FMap.get d (FMap.insert a x m) a = x
  | [], _ => by simp [FMap.insert, FMap.get]
  | (k, v) :: m, h => by
    have ih := FMap.get_insert_same d a x m fun e he => h e (List.mem_cons_of_mem _ he)
    have hk : k ≠ a := h (k, v) (List.mem_cons_self ..)
    simp only [FMap.insert]
    split <;> simp [FMap.get, ih, Ne.symm hk]

variable [DecidableEq β]

/-- A read after a write to the same key. -/
@[simp] theorem FMap.get_set_same (d : β) (m : FMap β) (a : Nat) (x : β) : FMap.get d (FMap.set d m a x) a = x := by
  simp only [FMap.set]
  split
  · next h => rw [h]; exact FMap.get_filter_same d a m
  · exact FMap.get_insert_same d a x _ fun e he => by simpa using (List.mem_filter.mp he).2

/-- A write leaves every other key alone. -/
theorem FMap.get_set_other (d : β) (m : FMap β) (a b : Nat) (x : β) (h : b ≠ a) :
    FMap.get d (FMap.set d m a x) b = FMap.get d m b := by
  simp only [FMap.set]
  split
  · exact FMap.get_filter_ne d a b h m
  · rw [FMap.get_insert_other d a b x h]; exact FMap.get_filter_ne d a b h m

theorem FMap.get_set (d : β) (m : FMap β) (a b : Nat) (x : β) :
    FMap.get d (FMap.set d m a x) b = if b = a then x else FMap.get d m b := by
  split
  · next e => rw [e]; exact FMap.get_set_same d m a x
  · next e => exact FMap.get_set_other d m a b x e

/-- A read outside the keys that a list of values is written to. -/
theorem FMap.get_setN_outside (d : β) : ∀ (xs : List β) (m : FMap β) (a b : Nat), (b < a ∨ a + xs.length ≤ b) →
    FMap.get d (FMap.setN d m a xs) b = FMap.get d m b
  | [], _, _, _, _ => rfl
  | x :: xs, m, a, b, hb => by
    simp only [FMap.setN, List.length_cons] at hb ⊢
    rw [FMap.get_setN_outside d xs _ (a + 1) b (by omega), FMap.get_set_other d m a b x (by omega)]

/-- A read of the j-th value written. -/
theorem FMap.get_setN_inside (d : β) : ∀ (xs : List β) (m : FMap β) (a j : Nat), (h : j < xs.length) →
    FMap.get d (FMap.setN d m a xs) (a + j) = xs[j]
  | x :: xs, m, a, 0, _ => by
    simp only [FMap.setN, Nat.add_zero, List.getElem_cons_zero]
    rw [FMap.get_setN_outside d xs _ (a + 1) a (by omega), FMap.get_set_same d m a x]
  | x :: xs, m, a, j + 1, hj => by
    simp only [FMap.setN, List.getElem_cons_succ]
    have := FMap.get_setN_inside d xs (FMap.set d m a x) (a + 1) j (by simpa using hj)
    rw [← this]
    congr 1
    omega

/-- Reading back the values just written. -/
theorem FMap.getN_setN (d : β) (xs : List β) (m : FMap β) (a : Nat) : FMap.getN d (FMap.setN d m a xs) a xs.length = xs := by
  induction xs generalizing m a with
  | nil => rfl
  | cons x xs ih =>
    simp only [FMap.setN, List.length_cons, FMap.getN]
    rw [FMap.get_setN_outside d xs _ (a + 1) a (by omega), FMap.get_set_same d m a x, ih]

omit [DecidableEq β] in
theorem FMap.getN_eq_of_get {d : β} {m m' : FMap β} : ∀ (n a : Nat), (∀ b, a ≤ b → b < a + n → FMap.get d m b = FMap.get d m' b) →
    FMap.getN d m a n = FMap.getN d m' a n
  | 0, _, _ => rfl
  | n + 1, a, h => by
    simp only [FMap.getN]
    rw [h a (by omega) (by omega), FMap.getN_eq_of_get n (a + 1) fun b h1 h2 => h b (by omega) (by omega)]

/-! The canonical form. -/

omit [DecidableEq β] in
theorem FMap.above_mono {m : FMap β} {a b : Nat} (h : FMap.above b m = true) (hab : a ≤ b) : FMap.above a m = true := by
  cases m with
  | nil => rfl
  | cons e m =>
    obtain ⟨k, v⟩ := e
    simp only [FMap.above, decide_eq_true_eq] at h ⊢
    omega

theorem FMap.above_filter (p : Nat × β → Bool) (d : β) : ∀ (m : FMap β) (b : Nat), FMap.above b m = true → FMap.wf d m = true →
    FMap.above b (m.filter p) = true
  | [], _, _, _ => rfl
  | (k, v) :: m, b, h, hw => by
    simp only [FMap.wf, Bool.and_eq_true] at hw
    simp only [List.filter]
    split
    · simpa [FMap.above] using h
    · refine FMap.above_filter p d m b (FMap.above_mono hw.1.1 ?_) hw.2
      simp [FMap.above] at h; omega

/-- A part of a canonical map is canonical. -/
theorem FMap.wf_filter (p : Nat × β → Bool) (d : β) : ∀ (m : FMap β), FMap.wf d m = true → FMap.wf d (m.filter p) = true
  | [], _ => rfl
  | (k, v) :: m, h => by
    simp only [FMap.wf, Bool.and_eq_true] at h
    simp only [List.filter]
    split
    · simp only [FMap.wf, Bool.and_eq_true]
      exact ⟨⟨FMap.above_filter p d m k h.1.1 h.2, h.1.2⟩, FMap.wf_filter p d m h.2⟩
    · exact FMap.wf_filter p d m h.2

omit [DecidableEq β] in
theorem FMap.above_insert (m : FMap β) (a b : Nat) (x : β) (h : FMap.above b m = true) (hb : b < a) :
    FMap.above b (FMap.insert a x m) = true := by
  cases m with
  | nil => simp [FMap.insert, FMap.above, hb]
  | cons e m =>
    obtain ⟨k, v⟩ := e
    simp only [FMap.insert]
    split
    · simp [FMap.above, hb]
    · simpa [FMap.above] using h

theorem FMap.wf_insert (d : β) (a : Nat) (x : β) (hx : x ≠ d) : ∀ m : FMap β, (∀ e ∈ m, e.1 ≠ a) → FMap.wf d m = true →
    FMap.wf d (FMap.insert a x m) = true
  | [], _, _ => by simp [FMap.insert, FMap.wf, FMap.above, hx]
  | (k, v) :: m, h, hw => by
    have hk : k ≠ a := h (k, v) (List.mem_cons_self ..)
    have hw' := hw
    simp only [FMap.wf, Bool.and_eq_true] at hw'
    simp only [FMap.insert]
    split
    · next hlt => rw [FMap.wf, hw]; simp [FMap.above, hlt, hx]
    · next hge =>
      have ih := FMap.wf_insert d a x hx m (fun e he => h e (List.mem_cons_of_mem _ he)) hw'.2
      have hab := FMap.above_insert m a k x hw'.1.1 (by omega)
      simp only [FMap.wf, hab, ih, hw'.1.2, Bool.and_self]

/-- A write keeps the canonical form. -/
theorem FMap.wf_set (d : β) (m : FMap β) (a : Nat) (x : β) (h : FMap.wf d m = true) : FMap.wf d (FMap.set d m a x) = true := by
  have hf := FMap.wf_filter (fun e => e.1 != a) d m h
  simp only [FMap.set]
  split
  · exact hf
  · next hx => exact FMap.wf_insert d a x hx _ (fun e he => by simpa using (List.mem_filter.mp he).2) hf

theorem FMap.wf_setN (d : β) : ∀ (xs : List β) (m : FMap β) (a : Nat), FMap.wf d m = true → FMap.wf d (FMap.setN d m a xs) = true
  | [], _, _, h => h
  | x :: xs, m, a, h => FMap.wf_setN d xs _ _ (FMap.wf_set d m a x h)

theorem FMap.get_above (d : β) : ∀ (m : FMap β) (b a : Nat), FMap.wf d m = true → FMap.above b m = true → a ≤ b → FMap.get d m a = d
  | [], _, _, _, _, _ => rfl
  | (k, v) :: m, b, a, hw, h, hab => by
    simp only [FMap.wf, Bool.and_eq_true] at hw
    have hk : b < k := by simpa [FMap.above] using h
    simp [FMap.get, show a ≠ k by omega, FMap.get_above d m k a hw.2 hw.1.1 (by omega)]

/-- Canonical maps that read alike are equal. -/
theorem FMap.ext_of_get (d : β) : ∀ (m m' : FMap β), FMap.wf d m = true → FMap.wf d m' = true →
    (∀ a, FMap.get d m a = FMap.get d m' a) → m = m'
  | [], [], _, _, _ => rfl
  | [], (k, v) :: m', _, h', hg => by
    simp only [FMap.wf, Bool.and_eq_true, decide_eq_true_eq] at h'
    have := hg k
    simp [FMap.get] at this
    exact absurd this.symm h'.1.2
  | (k, v) :: m, [], h, _, hg => by
    simp only [FMap.wf, Bool.and_eq_true, decide_eq_true_eq] at h
    have := hg k
    simp [FMap.get] at this
    exact absurd this h.1.2
  | (k, v) :: m, (k', v') :: m', h, h', hg => by
    simp only [FMap.wf, Bool.and_eq_true, decide_eq_true_eq] at h h'
    have e1 := hg k
    have e2 := hg k'
    have hk : k = k' := by
      by_contra hne
      rcases Nat.lt_or_gt_of_ne hne with hlt | hlt
      · simp [FMap.get, hne, FMap.get_above d m' k' k h'.2 h'.1.1 (by omega)] at e1; exact h.1.2 e1
      · simp [FMap.get, Ne.symm hne, FMap.get_above d m k k' h.2 h.1.1 (by omega)] at e2; exact h'.1.2 e2.symm
    subst hk
    have hv : v = v' := by simpa [FMap.get] using e1
    subst hv
    congr 1
    refine FMap.ext_of_get d m m' h.2 h'.2 fun a => ?_
    by_cases ha : a = k
    · subst ha
      rw [FMap.get_above d m a a h.2 h.1.1 (by omega), FMap.get_above d m' a a h'.2 h'.1.1 (by omega)]
    · simpa [FMap.get, ha] using hg a

/-! Lists changed by index. -/

variable {α : Type}

@[simp] theorem setAt_length : ∀ (l : List α) (i : Nat) (y : α), (setAt l i y).length = l.length
  | [], _, _ => rfl
  | _ :: _, 0, _ => rfl
  | _ :: xs, i + 1, y => by simp [setAt, setAt_length xs i y]

theorem nth_setAt_same : ∀ (l : List α) (i : Nat) (x y : α), nth l i = some x → nth (setAt l i y) i = some y
  | _ :: _, 0, _, _, _ => rfl
  | _ :: xs, i + 1, x, y, h => nth_setAt_same xs i x y h

theorem nth_setAt_other : ∀ (l : List α) (i j : Nat) (y : α), j ≠ i → nth (setAt l i y) j = nth l j
  | [], _, _, _, _ => rfl
  | _ :: _, 0, j + 1, _, _ => rfl
  | _ :: _, _ + 1, 0, _, _ => rfl
  | _ :: xs, i + 1, j + 1, y, h => nth_setAt_other xs i j y (by omega)
  | _ :: _, 0, 0, _, h => absurd rfl h

theorem nth_eq_getElem? : ∀ (l : List α) (i : Nat), nth l i = l[i]?
  | [], i => by simp [nth]
  | x :: xs, 0 => by simp [nth]
  | x :: xs, i + 1 => by simp [nth, nth_eq_getElem? xs i]

end Sys2Proof
end

