-- ==== Sys2Proof/Laws/State.lean ====
section
/-! SUPPORT. One lemma for each field under each update of the state by index, so that no later proof unfolds a record
update; and what an update by index gives at its index and elsewhere. -/

namespace Sys2Proof.Machine

open Sys2Proof

variable (s : State)

@[simp] theorem State.modWarp_turn (i : Nat) (f : Warp → Warp) : (s.modWarp i f).turn = s.turn := rfl
@[simp] theorem State.modWarp_agenda (i : Nat) (f : Warp → Warp) : (s.modWarp i f).agenda = s.agenda := rfl
@[simp] theorem State.modWarp_cur (i : Nat) (f : Warp → Warp) : (s.modWarp i f).cur = s.cur := rfl
@[simp] theorem State.modWarp_co (i : Nat) (f : Warp → Warp) : (s.modWarp i f).co = s.co := rfl
@[simp] theorem State.modWarp_pkg (i : Nat) (f : Warp → Warp) : (s.modWarp i f).pkg = s.pkg := rfl
@[simp] theorem State.modWarp_mem (i : Nat) (f : Warp → Warp) : (s.modWarp i f).mem = s.mem := rfl
@[simp] theorem State.modWarp_tags (i : Nat) (f : Warp → Warp) : (s.modWarp i f).tags = s.tags := rfl
@[simp] theorem State.modWarp_poison (i : Nat) (f : Warp → Warp) : (s.modWarp i f).poison = s.poison := rfl
@[simp] theorem State.modWarp_lpoison (i : Nat) (f : Warp → Warp) : (s.modWarp i f).lpoison = s.lpoison := rfl
@[simp] theorem State.modWarp_lmem (i : Nat) (f : Warp → Warp) : (s.modWarp i f).lmem = s.lmem := rfl
@[simp] theorem State.modWarp_ltags (i : Nat) (f : Warp → Warp) : (s.modWarp i f).ltags = s.ltags := rfl
@[simp] theorem State.modWarp_freed (i : Nat) (f : Warp → Warp) : (s.modWarp i f).freed = s.freed := rfl
@[simp] theorem State.modWarp_parts (i : Nat) (f : Warp → Warp) : (s.modWarp i f).parts = s.parts := rfl
@[simp] theorem State.modWarp_launches (i : Nat) (f : Warp → Warp) : (s.modWarp i f).launches = s.launches := rfl
@[simp] theorem State.modWarp_gangs (i : Nat) (f : Warp → Warp) : (s.modWarp i f).gangs = s.gangs := rfl
@[simp] theorem State.modWarp_ops (i : Nat) (f : Warp → Warp) : (s.modWarp i f).ops = s.ops := rfl
@[simp] theorem State.modWarp_mops (i : Nat) (f : Warp → Warp) : (s.modWarp i f).mops = s.mops := rfl
@[simp] theorem State.modWarp_deques (i : Nat) (f : Warp → Warp) : (s.modWarp i f).deques = s.deques := rfl
@[simp] theorem State.modWarp_events (i : Nat) (f : Warp → Warp) : (s.modWarp i f).events = s.events := rfl
@[simp] theorem State.modWarp_requests (i : Nat) (f : Warp → Warp) : (s.modWarp i f).requests = s.requests := rfl
@[simp] theorem State.modWarp_tlb (i : Nat) (f : Warp → Warp) : (s.modWarp i f).tlb = s.tlb := rfl
@[simp] theorem State.modWarp_arb (i : Nat) (f : Warp → Warp) : (s.modWarp i f).arb = s.arb := rfl
@[simp] theorem State.modWarp_regions (i : Nat) (f : Warp → Warp) : (s.modWarp i f).regions = s.regions := rfl
@[simp] theorem State.modWarp_marks (i : Nat) (f : Warp → Warp) : (s.modWarp i f).marks = s.marks := rfl
@[simp] theorem State.modWarp_nextOp (i : Nat) (f : Warp → Warp) : (s.modWarp i f).nextOp = s.nextOp := rfl
@[simp] theorem State.modWarp_nextOrder (i : Nat) (f : Warp → Warp) : (s.modWarp i f).nextOrder = s.nextOrder := rfl
@[simp] theorem State.modWarp_nextPlace (i : Nat) (f : Warp → Warp) : (s.modWarp i f).nextPlace = s.nextPlace := rfl
@[simp] theorem State.modWarp_nextElig (i : Nat) (f : Warp → Warp) : (s.modWarp i f).nextElig = s.nextElig := rfl

@[simp] theorem State.modGang_turn (i : Nat) (f : Gang → Gang) : (s.modGang i f).turn = s.turn := rfl
@[simp] theorem State.modGang_agenda (i : Nat) (f : Gang → Gang) : (s.modGang i f).agenda = s.agenda := rfl
@[simp] theorem State.modGang_cur (i : Nat) (f : Gang → Gang) : (s.modGang i f).cur = s.cur := rfl
@[simp] theorem State.modGang_co (i : Nat) (f : Gang → Gang) : (s.modGang i f).co = s.co := rfl
@[simp] theorem State.modGang_pkg (i : Nat) (f : Gang → Gang) : (s.modGang i f).pkg = s.pkg := rfl
@[simp] theorem State.modGang_mem (i : Nat) (f : Gang → Gang) : (s.modGang i f).mem = s.mem := rfl
@[simp] theorem State.modGang_tags (i : Nat) (f : Gang → Gang) : (s.modGang i f).tags = s.tags := rfl
@[simp] theorem State.modGang_poison (i : Nat) (f : Gang → Gang) : (s.modGang i f).poison = s.poison := rfl
@[simp] theorem State.modGang_lpoison (i : Nat) (f : Gang → Gang) : (s.modGang i f).lpoison = s.lpoison := rfl
@[simp] theorem State.modGang_lmem (i : Nat) (f : Gang → Gang) : (s.modGang i f).lmem = s.lmem := rfl
@[simp] theorem State.modGang_ltags (i : Nat) (f : Gang → Gang) : (s.modGang i f).ltags = s.ltags := rfl
@[simp] theorem State.modGang_freed (i : Nat) (f : Gang → Gang) : (s.modGang i f).freed = s.freed := rfl
@[simp] theorem State.modGang_parts (i : Nat) (f : Gang → Gang) : (s.modGang i f).parts = s.parts := rfl
@[simp] theorem State.modGang_launches (i : Nat) (f : Gang → Gang) : (s.modGang i f).launches = s.launches := rfl
@[simp] theorem State.modGang_warps (i : Nat) (f : Gang → Gang) : (s.modGang i f).warps = s.warps := rfl
@[simp] theorem State.modGang_ops (i : Nat) (f : Gang → Gang) : (s.modGang i f).ops = s.ops := rfl
@[simp] theorem State.modGang_mops (i : Nat) (f : Gang → Gang) : (s.modGang i f).mops = s.mops := rfl
@[simp] theorem State.modGang_deques (i : Nat) (f : Gang → Gang) : (s.modGang i f).deques = s.deques := rfl
@[simp] theorem State.modGang_events (i : Nat) (f : Gang → Gang) : (s.modGang i f).events = s.events := rfl
@[simp] theorem State.modGang_requests (i : Nat) (f : Gang → Gang) : (s.modGang i f).requests = s.requests := rfl
@[simp] theorem State.modGang_tlb (i : Nat) (f : Gang → Gang) : (s.modGang i f).tlb = s.tlb := rfl
@[simp] theorem State.modGang_arb (i : Nat) (f : Gang → Gang) : (s.modGang i f).arb = s.arb := rfl
@[simp] theorem State.modGang_regions (i : Nat) (f : Gang → Gang) : (s.modGang i f).regions = s.regions := rfl
@[simp] theorem State.modGang_marks (i : Nat) (f : Gang → Gang) : (s.modGang i f).marks = s.marks := rfl
@[simp] theorem State.modGang_nextOp (i : Nat) (f : Gang → Gang) : (s.modGang i f).nextOp = s.nextOp := rfl
@[simp] theorem State.modGang_nextOrder (i : Nat) (f : Gang → Gang) : (s.modGang i f).nextOrder = s.nextOrder := rfl
@[simp] theorem State.modGang_nextPlace (i : Nat) (f : Gang → Gang) : (s.modGang i f).nextPlace = s.nextPlace := rfl
@[simp] theorem State.modGang_nextElig (i : Nat) (f : Gang → Gang) : (s.modGang i f).nextElig = s.nextElig := rfl

@[simp] theorem State.modLaunch_turn (i : Nat) (f : Launch → Launch) : (s.modLaunch i f).turn = s.turn := rfl
@[simp] theorem State.modLaunch_agenda (i : Nat) (f : Launch → Launch) : (s.modLaunch i f).agenda = s.agenda := rfl
@[simp] theorem State.modLaunch_cur (i : Nat) (f : Launch → Launch) : (s.modLaunch i f).cur = s.cur := rfl
@[simp] theorem State.modLaunch_co (i : Nat) (f : Launch → Launch) : (s.modLaunch i f).co = s.co := rfl
@[simp] theorem State.modLaunch_pkg (i : Nat) (f : Launch → Launch) : (s.modLaunch i f).pkg = s.pkg := rfl
@[simp] theorem State.modLaunch_mem (i : Nat) (f : Launch → Launch) : (s.modLaunch i f).mem = s.mem := rfl
@[simp] theorem State.modLaunch_tags (i : Nat) (f : Launch → Launch) : (s.modLaunch i f).tags = s.tags := rfl
@[simp] theorem State.modLaunch_poison (i : Nat) (f : Launch → Launch) : (s.modLaunch i f).poison = s.poison := rfl
@[simp] theorem State.modLaunch_lpoison (i : Nat) (f : Launch → Launch) : (s.modLaunch i f).lpoison = s.lpoison := rfl
@[simp] theorem State.modLaunch_lmem (i : Nat) (f : Launch → Launch) : (s.modLaunch i f).lmem = s.lmem := rfl
@[simp] theorem State.modLaunch_ltags (i : Nat) (f : Launch → Launch) : (s.modLaunch i f).ltags = s.ltags := rfl
@[simp] theorem State.modLaunch_freed (i : Nat) (f : Launch → Launch) : (s.modLaunch i f).freed = s.freed := rfl
@[simp] theorem State.modLaunch_parts (i : Nat) (f : Launch → Launch) : (s.modLaunch i f).parts = s.parts := rfl
@[simp] theorem State.modLaunch_gangs (i : Nat) (f : Launch → Launch) : (s.modLaunch i f).gangs = s.gangs := rfl
@[simp] theorem State.modLaunch_warps (i : Nat) (f : Launch → Launch) : (s.modLaunch i f).warps = s.warps := rfl
@[simp] theorem State.modLaunch_ops (i : Nat) (f : Launch → Launch) : (s.modLaunch i f).ops = s.ops := rfl
@[simp] theorem State.modLaunch_mops (i : Nat) (f : Launch → Launch) : (s.modLaunch i f).mops = s.mops := rfl
@[simp] theorem State.modLaunch_deques (i : Nat) (f : Launch → Launch) : (s.modLaunch i f).deques = s.deques := rfl
@[simp] theorem State.modLaunch_events (i : Nat) (f : Launch → Launch) : (s.modLaunch i f).events = s.events := rfl
@[simp] theorem State.modLaunch_requests (i : Nat) (f : Launch → Launch) : (s.modLaunch i f).requests = s.requests := rfl
@[simp] theorem State.modLaunch_tlb (i : Nat) (f : Launch → Launch) : (s.modLaunch i f).tlb = s.tlb := rfl
@[simp] theorem State.modLaunch_arb (i : Nat) (f : Launch → Launch) : (s.modLaunch i f).arb = s.arb := rfl
@[simp] theorem State.modLaunch_regions (i : Nat) (f : Launch → Launch) : (s.modLaunch i f).regions = s.regions := rfl
@[simp] theorem State.modLaunch_marks (i : Nat) (f : Launch → Launch) : (s.modLaunch i f).marks = s.marks := rfl
@[simp] theorem State.modLaunch_nextOp (i : Nat) (f : Launch → Launch) : (s.modLaunch i f).nextOp = s.nextOp := rfl
@[simp] theorem State.modLaunch_nextOrder (i : Nat) (f : Launch → Launch) : (s.modLaunch i f).nextOrder = s.nextOrder := rfl
@[simp] theorem State.modLaunch_nextPlace (i : Nat) (f : Launch → Launch) : (s.modLaunch i f).nextPlace = s.nextPlace := rfl
@[simp] theorem State.modLaunch_nextElig (i : Nat) (f : Launch → Launch) : (s.modLaunch i f).nextElig = s.nextElig := rfl

@[simp] theorem State.modPart_turn (i : Nat) (f : Part → Part) : (s.modPart i f).turn = s.turn := rfl
@[simp] theorem State.modPart_agenda (i : Nat) (f : Part → Part) : (s.modPart i f).agenda = s.agenda := rfl
@[simp] theorem State.modPart_cur (i : Nat) (f : Part → Part) : (s.modPart i f).cur = s.cur := rfl
@[simp] theorem State.modPart_co (i : Nat) (f : Part → Part) : (s.modPart i f).co = s.co := rfl
@[simp] theorem State.modPart_pkg (i : Nat) (f : Part → Part) : (s.modPart i f).pkg = s.pkg := rfl
@[simp] theorem State.modPart_mem (i : Nat) (f : Part → Part) : (s.modPart i f).mem = s.mem := rfl
@[simp] theorem State.modPart_tags (i : Nat) (f : Part → Part) : (s.modPart i f).tags = s.tags := rfl
@[simp] theorem State.modPart_poison (i : Nat) (f : Part → Part) : (s.modPart i f).poison = s.poison := rfl
@[simp] theorem State.modPart_lpoison (i : Nat) (f : Part → Part) : (s.modPart i f).lpoison = s.lpoison := rfl
@[simp] theorem State.modPart_lmem (i : Nat) (f : Part → Part) : (s.modPart i f).lmem = s.lmem := rfl
@[simp] theorem State.modPart_ltags (i : Nat) (f : Part → Part) : (s.modPart i f).ltags = s.ltags := rfl
@[simp] theorem State.modPart_freed (i : Nat) (f : Part → Part) : (s.modPart i f).freed = s.freed := rfl
@[simp] theorem State.modPart_launches (i : Nat) (f : Part → Part) : (s.modPart i f).launches = s.launches := rfl
@[simp] theorem State.modPart_gangs (i : Nat) (f : Part → Part) : (s.modPart i f).gangs = s.gangs := rfl
@[simp] theorem State.modPart_warps (i : Nat) (f : Part → Part) : (s.modPart i f).warps = s.warps := rfl
@[simp] theorem State.modPart_ops (i : Nat) (f : Part → Part) : (s.modPart i f).ops = s.ops := rfl
@[simp] theorem State.modPart_mops (i : Nat) (f : Part → Part) : (s.modPart i f).mops = s.mops := rfl
@[simp] theorem State.modPart_deques (i : Nat) (f : Part → Part) : (s.modPart i f).deques = s.deques := rfl
@[simp] theorem State.modPart_events (i : Nat) (f : Part → Part) : (s.modPart i f).events = s.events := rfl
@[simp] theorem State.modPart_requests (i : Nat) (f : Part → Part) : (s.modPart i f).requests = s.requests := rfl
@[simp] theorem State.modPart_tlb (i : Nat) (f : Part → Part) : (s.modPart i f).tlb = s.tlb := rfl
@[simp] theorem State.modPart_arb (i : Nat) (f : Part → Part) : (s.modPart i f).arb = s.arb := rfl
@[simp] theorem State.modPart_regions (i : Nat) (f : Part → Part) : (s.modPart i f).regions = s.regions := rfl
@[simp] theorem State.modPart_marks (i : Nat) (f : Part → Part) : (s.modPart i f).marks = s.marks := rfl
@[simp] theorem State.modPart_nextOp (i : Nat) (f : Part → Part) : (s.modPart i f).nextOp = s.nextOp := rfl
@[simp] theorem State.modPart_nextOrder (i : Nat) (f : Part → Part) : (s.modPart i f).nextOrder = s.nextOrder := rfl
@[simp] theorem State.modPart_nextPlace (i : Nat) (f : Part → Part) : (s.modPart i f).nextPlace = s.nextPlace := rfl
@[simp] theorem State.modPart_nextElig (i : Nat) (f : Part → Part) : (s.modPart i f).nextElig = s.nextElig := rfl

@[simp] theorem State.modOp_turn (i : Nat) (f : EOp → EOp) : (s.modOp i f).turn = s.turn := rfl
@[simp] theorem State.modOp_agenda (i : Nat) (f : EOp → EOp) : (s.modOp i f).agenda = s.agenda := rfl
@[simp] theorem State.modOp_cur (i : Nat) (f : EOp → EOp) : (s.modOp i f).cur = s.cur := rfl
@[simp] theorem State.modOp_co (i : Nat) (f : EOp → EOp) : (s.modOp i f).co = s.co := rfl
@[simp] theorem State.modOp_pkg (i : Nat) (f : EOp → EOp) : (s.modOp i f).pkg = s.pkg := rfl
@[simp] theorem State.modOp_mem (i : Nat) (f : EOp → EOp) : (s.modOp i f).mem = s.mem := rfl
@[simp] theorem State.modOp_tags (i : Nat) (f : EOp → EOp) : (s.modOp i f).tags = s.tags := rfl
@[simp] theorem State.modOp_poison (i : Nat) (f : EOp → EOp) : (s.modOp i f).poison = s.poison := rfl
@[simp] theorem State.modOp_lpoison (i : Nat) (f : EOp → EOp) : (s.modOp i f).lpoison = s.lpoison := rfl
@[simp] theorem State.modOp_lmem (i : Nat) (f : EOp → EOp) : (s.modOp i f).lmem = s.lmem := rfl
@[simp] theorem State.modOp_ltags (i : Nat) (f : EOp → EOp) : (s.modOp i f).ltags = s.ltags := rfl
@[simp] theorem State.modOp_freed (i : Nat) (f : EOp → EOp) : (s.modOp i f).freed = s.freed := rfl
@[simp] theorem State.modOp_parts (i : Nat) (f : EOp → EOp) : (s.modOp i f).parts = s.parts := rfl
@[simp] theorem State.modOp_launches (i : Nat) (f : EOp → EOp) : (s.modOp i f).launches = s.launches := rfl
@[simp] theorem State.modOp_gangs (i : Nat) (f : EOp → EOp) : (s.modOp i f).gangs = s.gangs := rfl
@[simp] theorem State.modOp_warps (i : Nat) (f : EOp → EOp) : (s.modOp i f).warps = s.warps := rfl
@[simp] theorem State.modOp_mops (i : Nat) (f : EOp → EOp) : (s.modOp i f).mops = s.mops := rfl
@[simp] theorem State.modOp_deques (i : Nat) (f : EOp → EOp) : (s.modOp i f).deques = s.deques := rfl
@[simp] theorem State.modOp_events (i : Nat) (f : EOp → EOp) : (s.modOp i f).events = s.events := rfl
@[simp] theorem State.modOp_requests (i : Nat) (f : EOp → EOp) : (s.modOp i f).requests = s.requests := rfl
@[simp] theorem State.modOp_tlb (i : Nat) (f : EOp → EOp) : (s.modOp i f).tlb = s.tlb := rfl
@[simp] theorem State.modOp_arb (i : Nat) (f : EOp → EOp) : (s.modOp i f).arb = s.arb := rfl
@[simp] theorem State.modOp_regions (i : Nat) (f : EOp → EOp) : (s.modOp i f).regions = s.regions := rfl
@[simp] theorem State.modOp_marks (i : Nat) (f : EOp → EOp) : (s.modOp i f).marks = s.marks := rfl
@[simp] theorem State.modOp_nextOp (i : Nat) (f : EOp → EOp) : (s.modOp i f).nextOp = s.nextOp := rfl
@[simp] theorem State.modOp_nextOrder (i : Nat) (f : EOp → EOp) : (s.modOp i f).nextOrder = s.nextOrder := rfl
@[simp] theorem State.modOp_nextPlace (i : Nat) (f : EOp → EOp) : (s.modOp i f).nextPlace = s.nextPlace := rfl
@[simp] theorem State.modOp_nextElig (i : Nat) (f : EOp → EOp) : (s.modOp i f).nextElig = s.nextElig := rfl

@[simp] theorem State.modPkg_turn (f : Package → Package) : (s.modPkg f).turn = s.turn := rfl
@[simp] theorem State.modPkg_agenda (f : Package → Package) : (s.modPkg f).agenda = s.agenda := rfl
@[simp] theorem State.modPkg_cur (f : Package → Package) : (s.modPkg f).cur = s.cur := rfl
@[simp] theorem State.modPkg_co (f : Package → Package) : (s.modPkg f).co = s.co := rfl
@[simp] theorem State.modPkg_mem (f : Package → Package) : (s.modPkg f).mem = s.mem := rfl
@[simp] theorem State.modPkg_tags (f : Package → Package) : (s.modPkg f).tags = s.tags := rfl
@[simp] theorem State.modPkg_poison (f : Package → Package) : (s.modPkg f).poison = s.poison := rfl
@[simp] theorem State.modPkg_lpoison (f : Package → Package) : (s.modPkg f).lpoison = s.lpoison := rfl
@[simp] theorem State.modPkg_lmem (f : Package → Package) : (s.modPkg f).lmem = s.lmem := rfl
@[simp] theorem State.modPkg_ltags (f : Package → Package) : (s.modPkg f).ltags = s.ltags := rfl
@[simp] theorem State.modPkg_freed (f : Package → Package) : (s.modPkg f).freed = s.freed := rfl
@[simp] theorem State.modPkg_parts (f : Package → Package) : (s.modPkg f).parts = s.parts := rfl
@[simp] theorem State.modPkg_launches (f : Package → Package) : (s.modPkg f).launches = s.launches := rfl
@[simp] theorem State.modPkg_gangs (f : Package → Package) : (s.modPkg f).gangs = s.gangs := rfl
@[simp] theorem State.modPkg_warps (f : Package → Package) : (s.modPkg f).warps = s.warps := rfl
@[simp] theorem State.modPkg_ops (f : Package → Package) : (s.modPkg f).ops = s.ops := rfl
@[simp] theorem State.modPkg_mops (f : Package → Package) : (s.modPkg f).mops = s.mops := rfl
@[simp] theorem State.modPkg_deques (f : Package → Package) : (s.modPkg f).deques = s.deques := rfl
@[simp] theorem State.modPkg_events (f : Package → Package) : (s.modPkg f).events = s.events := rfl
@[simp] theorem State.modPkg_requests (f : Package → Package) : (s.modPkg f).requests = s.requests := rfl
@[simp] theorem State.modPkg_tlb (f : Package → Package) : (s.modPkg f).tlb = s.tlb := rfl
@[simp] theorem State.modPkg_arb (f : Package → Package) : (s.modPkg f).arb = s.arb := rfl
@[simp] theorem State.modPkg_regions (f : Package → Package) : (s.modPkg f).regions = s.regions := rfl
@[simp] theorem State.modPkg_marks (f : Package → Package) : (s.modPkg f).marks = s.marks := rfl
@[simp] theorem State.modPkg_nextOp (f : Package → Package) : (s.modPkg f).nextOp = s.nextOp := rfl
@[simp] theorem State.modPkg_nextOrder (f : Package → Package) : (s.modPkg f).nextOrder = s.nextOrder := rfl
@[simp] theorem State.modPkg_nextPlace (f : Package → Package) : (s.modPkg f).nextPlace = s.nextPlace := rfl
@[simp] theorem State.modPkg_nextElig (f : Package → Package) : (s.modPkg f).nextElig = s.nextElig := rfl

theorem State.modWarp_warps (i : Nat) (f : Warp → Warp) : (s.modWarp i f).warps = modAt s.warps i f := rfl
theorem State.modGang_gangs (i : Nat) (f : Gang → Gang) : (s.modGang i f).gangs = modAt s.gangs i f := rfl
theorem State.modLaunch_launches (i : Nat) (f : Launch → Launch) : (s.modLaunch i f).launches = modAt s.launches i f := rfl
theorem State.modPart_parts (i : Nat) (f : Part → Part) : (s.modPart i f).parts = modAt s.parts i f := rfl
theorem State.modOp_ops (i : Nat) (f : EOp → EOp) : (s.modOp i f).ops = modAt s.ops i f := rfl
@[simp] theorem State.modPkg_pkg (f : Package → Package) : (s.modPkg f).pkg = f s.pkg := rfl

variable {α : Type}

@[simp] theorem modAt_length (l : List α) (i : Nat) (f : α → α) : (modAt l i f).length = l.length := by
  unfold modAt
  split <;> simp

theorem nth_modAt_same (l : List α) (i : Nat) (f : α → α) : nth (modAt l i f) i = (nth l i).map f := by
  unfold modAt
  split
  · next x h => rw [nth_setAt_same l i x _ h, h]; rfl
  · next h => rw [h]; rfl

theorem nth_modAt_other (l : List α) (i j : Nat) (f : α → α) (h : j ≠ i) : nth (modAt l i f) j = nth l j := by
  unfold modAt
  split
  · exact nth_setAt_other l i j _ h
  · rfl

theorem nth_modAt (l : List α) (i j : Nat) (f : α → α) : nth (modAt l i f) j = if j = i then (nth l i).map f else nth l j := by
  split
  · next h => rw [h]; exact nth_modAt_same l i f
  · next h => exact nth_modAt_other l i j f h

theorem setAt_setAt : ∀ (l : List α) (i : Nat) (x y : α), setAt (setAt l i x) i y = setAt l i y
  | [], _, _, _ => rfl
  | _ :: _, 0, _, _ => rfl
  | _ :: xs, i + 1, x, y => by simp [setAt, setAt_setAt xs i x y]

theorem modAt_modAt (l : List α) (i : Nat) (f g : α → α) : modAt (modAt l i f) i g = modAt l i (g ∘ f) := by
  have h := nth_modAt_same l i f
  cases e : nth l i with
  | none => rw [e] at h; simp [modAt, e]
  | some x =>
    rw [e] at h
    unfold modAt at h ⊢
    simp only [e] at h ⊢
    rw [h]
    exact setAt_setAt l i (f x) (g (f x))

theorem setAt_nth : ∀ (l : List α) (i : Nat) (x : α), nth l i = some x → setAt l i x = l
  | y :: ys, 0, x, h => by simp [nth] at h; simp [setAt, h]
  | y :: ys, i + 1, x, h => by simp [setAt, setAt_nth ys i x h]

theorem modAt_id (l : List α) (i : Nat) (f : α → α) (h : ∀ x, nth l i = some x → f x = x) : modAt l i f = l := by
  unfold modAt
  split
  · next x e => rw [h x e]; exact setAt_nth l i x e
  · rfl

/-- Two updates of one warp are one. -/
theorem State.modWarp_modWarp (i : Nat) (f g : Warp → Warp) : (s.modWarp i f).modWarp i g = s.modWarp i (g ∘ f) := by
  simp only [State.modWarp, modAt_modAt]

theorem State.nth_modWarp_same (i : Nat) (f : Warp → Warp) : nth (s.modWarp i f).warps i = (nth s.warps i).map f :=
  nth_modAt_same s.warps i f

theorem State.nth_modWarp_other (i j : Nat) (f : Warp → Warp) (h : j ≠ i) : nth (s.modWarp i f).warps j = nth s.warps j :=
  nth_modAt_other s.warps i j f h

theorem State.nth_modGang_same (i : Nat) (f : Gang → Gang) : nth (s.modGang i f).gangs i = (nth s.gangs i).map f :=
  nth_modAt_same s.gangs i f

theorem State.nth_modGang_other (i j : Nat) (f : Gang → Gang) (h : j ≠ i) : nth (s.modGang i f).gangs j = nth s.gangs j :=
  nth_modAt_other s.gangs i j f h

end Sys2Proof.Machine
end

