-- ==== Sys2Proof/Laws/Memory.lean ====
section
/-! SUPPORT. Every memory operation keeps the canonical form; what reading a byte gives after a write; that the warps'
marks and checkpoints are no part of the storage. -/

namespace Sys2Proof.Machine

open Sys2Proof

/-- An operation that leaves the four tables alone keeps the form. -/
theorem State.Canonical.of_eq {s t : State} (h : s.Canonical) (h1 : t.mem = s.mem) (h2 : t.tags = s.tags)
    (h3 : t.lmem = s.lmem) (h4 : t.ltags = s.ltags) : t.Canonical := by
  unfold State.Canonical
  rw [h1, h2, h3, h4]
  exact h

theorem State.reset_canonical : State.reset.Canonical := ⟨rfl, rfl, rfl, rfl⟩

/-! Marking a conflict changes warps and the directory only. -/

theorem State.conflict_storage (s : State) (b : Option Nat) (q : Place) :
    (s.conflict b q).mem = s.mem ∧ (s.conflict b q).tags = s.tags ∧ (s.conflict b q).lmem = s.lmem
      ∧ (s.conflict b q).ltags = s.ltags ∧ (s.conflict b q).poison = s.poison ∧ (s.conflict b q).parts = s.parts
      ∧ (s.conflict b q).pkg = s.pkg ∧ (s.conflict b q).gangs = s.gangs ∧ (s.conflict b q).launches = s.launches := by
  unfold State.conflict
  extract_lets _ _ s1
  split
  · simp
  · split
    · simp [s1]
    · simp [s1]

/-- So does marking the conflicts at a shadow bit's line. -/
theorem State.shadowConflict_storage (s : State) (b : Option Nat) (q : Place) :
    (s.shadowConflict b q).mem = s.mem ∧ (s.shadowConflict b q).tags = s.tags ∧ (s.shadowConflict b q).lmem = s.lmem
      ∧ (s.shadowConflict b q).ltags = s.ltags ∧ (s.shadowConflict b q).poison = s.poison
      ∧ (s.shadowConflict b q).parts = s.parts ∧ (s.shadowConflict b q).pkg = s.pkg ∧ (s.shadowConflict b q).gangs = s.gangs
      ∧ (s.shadowConflict b q).launches = s.launches := by
  unfold State.shadowConflict
  split
  · exact s.conflict_storage b _
  · simp

theorem State.Canonical.shadowConflict {s : State} (h : s.Canonical) (b : Option Nat) (q : Place) : (s.shadowConflict b q).Canonical := by
  obtain ⟨h1, h2, h3, h4, -⟩ := s.shadowConflict_storage b q
  exact h.of_eq h1 h2 h3 h4

theorem State.Canonical.conflict {s : State} (h : s.Canonical) (b : Option Nat) (q : Place) : (s.conflict b q).Canonical := by
  obtain ⟨h1, h2, h3, h4, -⟩ := s.conflict_storage b q
  exact h.of_eq h1 h2 h3 h4

theorem State.Canonical.putBytes {s : State} (h : s.Canonical) (q : Place) (d : List Byte) : (s.putBytes q d).Canonical := by
  obtain ⟨h1, h2, h3, h4⟩ := h
  unfold State.putBytes
  split
  · exact ⟨h1, h2, FMap.wf_setN _ _ _ _ h3, h4⟩
  · split
    · exact ⟨h1, h2, h3, h4⟩
    · exact ⟨FMap.wf_setN _ _ _ _ h1, h2, h3, h4⟩

theorem State.Canonical.setTag {s : State} (h : s.Canonical) (q : Place) (t : Bool) : (s.setTag q t).Canonical := by
  obtain ⟨h1, h2, h3, h4⟩ := h
  unfold State.setTag
  split
  · exact ⟨h1, h2, h3, FMap.wf_set _ _ _ _ h4⟩
  · split
    · exact ⟨h1, h2, h3, h4⟩
    · split
      · split
        · exact ⟨FMap.wf_set _ _ _ _ h1, h2, h3, h4⟩
        · exact ⟨h1, h2, h3, h4⟩
      · exact ⟨h1, FMap.wf_set _ _ _ _ h2, h3, h4⟩

/-- A fold of operations that each keep a property keeps it. -/
theorem foldl_keeps {α β : Type} {P : α → Prop} (f : α → β → α) (l : List β) (a : α) (h : P a)
    (hf : ∀ a b, P a → P (f a b)) : P (l.foldl f a) := by
  induction l generalizing a with
  | nil => exact h
  | cons b l ih => exact ih _ (hf a b h)

theorem State.Canonical.store {s : State} (h : s.Canonical) (b : Option Nat) (ws : List Write) : (s.store b ws).Canonical := by
  unfold State.store
  extract_lets secs s1
  have h1 : s1.Canonical := foldl_keeps _ _ _ h fun a w ha => (ha.putBytes _ _).conflict _ _
  refine foldl_keeps _ _ _ h1 fun a sec ha => ?_
  simp only
  split
  · exact ha
  · exact (ha.setTag _ _).shadowConflict _ _

theorem State.Canonical.storeAtomic {s : State} (h : s.Canonical) (b : Option Nat) (q : Place) (d : List Byte) (t : Bool) :
    (s.storeAtomic b q d t).Canonical := (((h.putBytes _ _).conflict _ _).setTag _ _).shadowConflict _ _

theorem State.Canonical.writeTagged {s t : State} (h : s.Canonical) {pi va : Nat} {d : List Byte} {tag : Bool}
    (ht : s.writeTagged pi va d tag = some t) : t.Canonical := by
  simp only [State.writeTagged, Option.map_eq_some_iff] at ht
  obtain ⟨ws, -, rfl⟩ := ht
  exact h.store _ _

theorem State.Canonical.writeVa {s t : State} (h : s.Canonical) {pi va : Nat} {d : List Byte} (ht : s.writeVa pi va d = some t) :
    t.Canonical := h.writeTagged ht

theorem State.Canonical.raiseVa {s t : State} (h : s.Canonical) {pi va : Nat} (ht : s.raiseVa pi va = some t) : t.Canonical := by
  unfold State.raiseVa at ht
  split at ht
  · cases ht
  · injection ht with ht
    exact ht ▸ h.storeAtomic _ _ _ _

theorem State.Canonical.seenBy {s : State} (h : s.Canonical) (w : Warp) : (s.seenBy w).Canonical := by
  unfold State.seenBy
  exact foldl_keeps _ _ _ (h.of_eq rfl rfl rfl rfl) fun a b ha => ha.store _ _

/-! Reading a byte. -/

/-- A byte of physical memory. -/
theorem State.bytes_one (s : State) (a : Nat) : s.bytes a 1 = [FMap.get 0 s.mem a] := rfl

/-- A plain store of bytes: what is read back, and every other byte as before. -/
theorem State.bytes_putBytes (s : State) (q : Place) (d : List Byte) (pa : Nat) (hl : q.loc = .phys pa)
    (hd : q.dev = false) :
    (s.putBytes q d).bytes pa d.length = d ∧
      ∀ a, a < pa ∨ pa + d.length ≤ a → (s.putBytes q d).bytes a 1 = s.bytes a 1 := by
  have e : (s.putBytes q d) = { s with mem := FMap.setN 0 s.mem pa d } := by simp [State.putBytes, hl, hd]
  rw [e]
  exact ⟨FMap.getN_setN _ _ _ _, fun a ha => congrArg (fun x => [x]) (FMap.get_setN_outside _ _ _ _ _ ha)⟩

/-- A tag that was just written. -/
theorem State.tagAt_setTag (s : State) (q : Place) (t : Bool) (pa : Nat) (hl : q.loc = .phys pa)
    (hd : q.dev = false) (hh : isHostPa pa = false) : (s.setTag q t).tagAt q = t := by
  simp [State.setTag, State.tagAt, hl, hd, hh]

theorem State.tagAt_setTag_local (s : State) (q : Place) (t : Bool) (c o : Nat) (hl : q.loc = .local c o) :
    (s.setTag q t).tagAt q = t := by
  simp [State.setTag, State.tagAt, hl]

end Sys2Proof.Machine
end

