-- ==== Sys2Proof/Laws/Issue.lean ====
section
/-! SUPPORT. What an issue does, once for every instruction: where the context of an issue comes from, the state in which
it takes effect, and the state that it leaves. The proofs about single instructions cite these lemmas. -/

namespace Sys2Proof.Machine

open Sys2Proof

/-! The selection of a split changes the frontier table's fields only. -/

theorem WCore.resolve_eq {c : WCore} {x : Split × WCore} (h : c.resolve = some x) :
    x.2 = { c with sel := x.1.lanes, yielded := false } := by
  unfold WCore.resolve at h
  split at h
  · simp only [Option.map_eq_some_iff] at h
    obtain ⟨e, -, rfl⟩ := h
    rfl
  · simp only [Option.map_eq_some_iff] at h
    obtain ⟨e, -, rfl⟩ := h
    rfl

/-- The captured state at issue is the warp's but for the frontier table and its selection. -/
def WCore.sameRegs (a b : WCore) : Prop := { a with frontier := b.frontier, sel := b.sel, yielded := b.yielded } = b

theorem State.issuer_spec {s : State} {wi : Nat} {w : Warp} {g : Gang} {l : Launch} (h : s.issuer wi = some (w, g, l)) :
    nth s.warps wi = some w ∧ nth s.gangs w.gang = some g ∧ nth s.launches g.launch = some l := by
  unfold State.issuer at h
  split at h
  · cases h
  · next w0 hw =>
    split at h
    · cases h
    · next g0 hg =>
      split at h
      · cases h
      · next l0 hl =>
        dsimp only at h
        split_ifs at h
        simp only [Option.some.injEq, Prod.mk.injEq] at h
        obtain ⟨rfl, rfl, rfl⟩ := h
        exact ⟨hw, hg, hl⟩

/-- The issue that picked gives: its warp is the one in State.cur but for the frontier table. -/
theorem State.picked_spec {s : State} {x : Warp × Gang × Launch × Split} (h : s.picked = some x) :
    ∃ w0, nth s.warps s.cur = some w0 ∧ x.1 = { w0 with c := x.1.c } ∧ x.1.c.sameRegs w0.c
      ∧ nth s.gangs w0.gang = some x.2.1 ∧ nth s.launches x.2.1.launch = some x.2.2.1 := by
  unfold State.picked at h
  split at h
  · cases h
  · next w g l hi =>
    obtain ⟨h1, h2, h3⟩ := State.issuer_spec hi
    dsimp only at h
    split at h
    · cases h
    · split at h
      · split at h
        · cases h
          exact ⟨w, h1, rfl, rfl, h2, h3⟩
        · simp only [Option.map_eq_some_iff] at h
          obtain ⟨y, hy, rfl⟩ := h
          refine ⟨w, h1, rfl, ?_, h2, h3⟩
          simp only [WCore.sameRegs, WCore.resolve_eq hy, State.refreshed]
      · simp only [Option.map_eq_some_iff] at h
        obtain ⟨e, -, rfl⟩ := h
        exact ⟨w, h1, rfl, rfl, h2, h3⟩

/-- Where the context of an issue comes from. -/
theorem State.context_spec {s : State} {i : Instr} {c : Ctx} (h : s.context i = some c) :
    ∃ w0, nth s.warps s.cur = some w0 ∧ c.wi = s.cur ∧ c.w = { w0 with c := c.w.c } ∧ c.w.c.sameRegs w0.c
      ∧ c.gi = w0.gang ∧ nth s.gangs w0.gang = some c.g ∧ nth s.launches c.li = some c.l
      ∧ c.active = c.w.c.guarded c.split.lanes (hdrOf i).guard ∧ c.hdr = hdrOf i ∧ c.line = s.lineWord c.pi c.pc := by
  simp only [State.context, Option.map_eq_some_iff] at h
  obtain ⟨x, hx, rfl⟩ := h
  obtain ⟨w0, h1, h2, h3, h4, h5⟩ := State.picked_spec hx
  refine ⟨w0, h1, rfl, h2, h3, ?_, h4, h5, rfl, rfl, rfl⟩
  show x.1.gang = w0.gang
  rw [h2]

/-- The same for the union of splits at which a collective issues. -/
theorem State.contextFor_spec {s : State} {i : Instr} {c : Ctx} (h : s.contextFor i = some c) :
    ∃ w0, nth s.warps s.cur = some w0 ∧ c.wi = s.cur ∧ c.w = { w0 with c := c.w.c } ∧ c.w.c.sameRegs w0.c
      ∧ c.gi = w0.gang ∧ nth s.gangs w0.gang = some c.g ∧ nth s.launches c.li = some c.l
      ∧ c.active = c.w.c.guarded c.split.lanes (hdrOf i).guard ∧ c.hdr = hdrOf i ∧ c.line = s.lineWord c.pi c.pc := by
  unfold State.contextFor at h
  split at h
  · exact State.context_spec h
  · simp only [Option.bind_eq_some_iff] at h
    obtain ⟨c0, h0, h1⟩ := h
    split_ifs at h1
    cases h1
    obtain ⟨w0, a1, a2, a3, a4, a5, a6, a7, -, a9, a10⟩ := State.context_spec h0
    refine ⟨w0, a1, a2, a3, a4, a5, a6, a7, ?_, a9, a10⟩
    show c0.w.c.guarded _ c0.hdr.guard = _
    rw [a9]
    rfl

/-- The issue's warp and its captured state, as the state before the issue holds them. -/
theorem Issues.core {i : Instr} {s : State} {c : Ctx} (h : Issues i s c) : c.w.c.sameRegs (s.core s.cur) := by
  obtain ⟨w0, h1, -, -, h3, -⟩ := State.contextFor_spec h.context
  simpa [State.core, h1] using h3

/-- An instruction that is no collective issues for its context. -/
theorem Issues.issue {i : Instr} {s : State} {c : Ctx} (h : Issues i s c) (hm : membersOf i = none)
    (body : State → Ctx → Body) : issue i s body = issueAt i s c body := by
  have := h.context
  simp only [State.contextFor, hm] at this
  simp only [Machine.issue, this]

/-- A collective issues for the union of the splits at its PC. -/
theorem Issues.collective {i : Instr} {f : ColForm} {s : State} {c : Ctx} (h : Issues i s c) (hm : membersOf i = some f.mask)
    (width : Nat) (hasStatus : Bool) (value : Ctx → Nat → Value) :
    collective i f s width hasStatus value = issueAt i s c fun s c =>
      let r := c.each c.w.c f.dst width (value c)
      c.done s (if hasStatus then c.status f r.1 else r.1) r.2 := by
  have := h.context
  simp only [State.contextFor, hm, Option.bind_eq_some_iff] at this
  obtain ⟨c0, h0, h1⟩ := this
  split_ifs at h1 with hg
  cases h1
  simp only [Machine.collective, h0, hg, Bool.not_true, Bool.and_false, Bool.false_eq_true, if_false]

/-- An issue that passes its checks comes to its body. -/
theorem issue_eq {i : Instr} {s : State} {c : Ctx} (h : Issues i s c) (body : State → Ctx → Body) :
    issueAt i s c body = conclude i (c.settled i) (s.settledFor c i) (body (s.openedFor i c) (c.openedIn i s)) := by
  have e1 : (c.settled i).pi = c.pi := by unfold Ctx.settled; split <;> rfl
  have e2 : (c.settled i).wi = c.wi := by unfold Ctx.settled; split <;> rfl
  have e3 : s.settledFor (c.settled i) i = s.settledFor c i := by unfold State.settledFor; rw [e2]
  simp only [issueAt, h.noLate, h.mayIssue, e3, h.passes, Bool.false_eq_true, if_false]
  simp only [State.openedFor, Ctx.openedIn, e2]
  all_goals rfl

theorem settled_wi (c : Ctx) (i : Instr) : (c.settled i).wi = c.wi := by unfold Ctx.settled; split <;> rfl

theorem settled_ten (c : Ctx) (i : Instr) : (c.settled i).w.ten = c.w.ten := by unfold Ctx.settled; split <;> rfl

/-- An instruction whose body is done, whose flags trap nothing and whose stores fit completes. -/
theorem issue_done {i : Instr} {s : State} {c : Ctx} (h : Issues i s c) (body : State → Ctx → Body) {e : Effect}
    (hb : body (s.openedFor i c) (c.openedIn i s) = .done e)
    (ht : e.traps = true → trapLanes c.w.ten e.raised = 0)
    (hr : ∀ w, nth e.s.warps c.wi = some w → w.ckpts ≠ [] → w.fragments ≤ (runAhead w.kind).2.2) :
    issueAt i s c body = .next (State.finish i (c.settled i) e) := by
  rw [issue_eq h, hb]
  have h1 : (if e.traps = true then trapLanes (c.settled i).w.ten e.raised else 0) = 0 := by
    rw [settled_ten]; split
    · next hh => exact ht hh
    · rfl
  simp only [conclude, h1, settled_wi, ne_eq, not_true_eq_false, if_false]
  cases hw : nth e.s.warps c.wi with
  | none => simp
  | some w =>
    have h2 := hr w hw
    cases hck : w.ckpts with
    | nil => simp [hck]
    | cons k ks =>
      rw [hck] at h2
      have h3 := h2 (by simp)
      simp [Nat.not_lt.mpr h3]

/-! The state in which an issue takes effect. -/

/-- The warp as the effect sees it. -/
def Warp.opened (w : Warp) (i : Instr) (c : Ctx) (cons : Nat) : Warp :=
  let w := { w.reselect c.w.c with slow := w.slow && !irrevocable i }
  let w := if w.opens c.g.step.isSome then w.openCkpt cons else w
  if bit c.line (5 + c.pc.toNat % 8) then { w with c := w.c.popTaint c.split.lanes } else w

theorem State.openedFor_eq {s : State} {i : Instr} {c : Ctx} :
    s.openedFor i c = s.modWarp c.wi fun w => w.opened i c (s.consctl c.g.die) := by
  unfold State.openedFor State.settledFor Ctx.settled State.atIssue
  cases hi : irrevocable i
  · simp only [hi, Bool.false_eq_true, if_false, Warp.opened, Bool.not_false, Bool.and_true]
    rfl
  · simp only [hi, if_true, State.modWarp_modWarp, Function.comp_def, Warp.opened, Bool.not_true, Bool.and_false]
    rfl

/-- The issue as the effect sees it differs from the issue in its warp only. -/
theorem Issues.openedIn_eq {i : Instr} {s : State} {c : Ctx} (h : Issues i s c) :
    ∃ w0, nth s.warps s.cur = some w0 ∧ c.w = { w0 with c := c.w.c } ∧ nth s.warps c.wi = some w0 ∧
      c.openedIn i s = { c with w := w0.opened i c (s.consctl c.g.die) } := by
  obtain ⟨w0, h1, h2, h3, -⟩ := State.contextFor_spec h.context
  have h1' : nth s.warps c.wi = some w0 := h2 ▸ h1
  refine ⟨w0, h1, h3, h1', ?_⟩
  unfold Ctx.openedIn
  rw [State.openedFor_eq, State.nth_modWarp_same, h1']
  simp only [Option.map_some]
  unfold Ctx.settled
  split <;> rfl

@[simp] theorem WCore.popTaint_v (k : WCore) (m : Lanes) : (k.popTaint m).v = k.v := rfl
@[simp] theorem WCore.popTaint_k (k : WCore) (m : Lanes) : (k.popTaint m).k = k.k := rfl
@[simp] theorem WCore.popTaint_p (k : WCore) (m : Lanes) : (k.popTaint m).p = k.p := rfl
@[simp] theorem WCore.raise_v (k : WCore) (r : Raised) : (k.raise r).v = k.v := rfl
@[simp] theorem WCore.raise_k (k : WCore) (r : Raised) : (k.raise r).k = k.k := rfl
@[simp] theorem WCore.raise_p (k : WCore) (r : Raised) : (k.raise r).p = k.p := rfl
@[simp] theorem WCore.tick_v (k : WCore) (a b : Lanes) (n : Nat) (r : List Operand) : (k.tick a b n r).v = k.v := rfl
@[simp] theorem WCore.tick_k (k : WCore) (a b : Lanes) (n : Nat) (r : List Operand) : (k.tick a b n r).k = k.k := rfl
@[simp] theorem WCore.tick_p (k : WCore) (a b : Lanes) (n : Nat) (r : List Operand) : (k.tick a b n r).p = k.p := rfl

/-- An issue's advance changes the frontier table and the selection only. -/
theorem WCore.advance_eq (k : WCore) (e : Split) (ps : List Split) (m : Addr → Bool) (b : Bool) (kd : Kind) :
    { k.advance e ps m b kd with frontier := k.frontier, sel := k.sel } = k := rfl

/-- The warp as its effect sees it has the registers, the status and the checkpoints' contents that it had. -/
theorem Warp.opened_eq (w : Warp) (i : Instr) (c : Ctx) (n : Nat) :
    { w.opened i c n with c := w.c, latch := w.latch, slow := w.slow, ckpts := w.ckpts } = w := by
  unfold Warp.opened Warp.openCkpt
  dsimp only
  split <;> split <;> rfl

theorem Warp.opened_core (w : Warp) (i : Instr) (c : Ctx) (n : Nat) :
    (w.opened i c n).c = if bit c.line (5 + c.pc.toNat % 8) then c.w.c.popTaint c.split.lanes else c.w.c := by
  unfold Warp.opened Warp.openCkpt
  dsimp only
  split <;> split <;> rfl

theorem Warp.opened_fragments (w : Warp) (i : Instr) (c : Ctx) (n : Nat) : (w.opened i c n).fragments = w.fragments := by
  unfold Warp.opened Warp.openCkpt
  dsimp only
  split <;> split <;> simp [Warp.fragments, Warp.reselect]

/-- An empty store buffer of a young checkpoint adds nothing. -/
theorem Warp.opened_kind (w : Warp) (i : Instr) (c : Ctx) (n : Nat) : (w.opened i c n).kind = w.kind := by
  unfold Warp.opened Warp.openCkpt
  dsimp only
  split <;> split <;> rfl

end Sys2Proof.Machine
end

