-- ==== Sys2Proof/Laws/Registers.lean ====
section
/-! SUPPORT. Registers: what a read gives after a write, and what computing a destination in every lane of ACTIVE, or once
for a uniform destination, leaves (R56, R58, R59, R176). -/

namespace Sys2Proof.Machine

open Sys2Proof

/-! Lane sets. -/

theorem Lanes.mem_list (m : Lanes) (i : Nat) : i ∈ m.list ↔ m.has i = true := by
  simp only [Lanes.list, List.mem_filter, List.mem_range, Lanes.has]
  exact ⟨fun h => h.2, fun h => ⟨BitVec.lt_of_getLsbD h, h⟩⟩

theorem Lanes.lt_of_has {m : Lanes} {i : Nat} (h : m.has i = true) : i < 32 := BitVec.lt_of_getLsbD h

theorem Lanes.nodup_list (m : Lanes) : m.list.Nodup := List.Nodup.filter _ List.nodup_range

theorem Lanes.list_eq_nil {m : Lanes} : m.list = [] ↔ m = 0 := by
  constructor
  · intro h
    apply BitVec.eq_of_getLsbD_eq
    intro i _
    have := Lanes.mem_list m i
    rw [h] at this
    simpa [Lanes.has] using this
  · rintro rfl; decide

/-! Registers of one lane. -/

theorem vkey_inj {l l' r r' : Nat} (h : l < 32) (h' : l' < 32) : vkey l r = vkey l' r' ↔ l = l' ∧ r = r' := by
  unfold vkey; omega

@[simp] theorem WCore.setV_k (c : WCore) (l r : Nat) (x : VReg) : (c.setV l r x).k = c.k := rfl
@[simp] theorem WCore.setV_p (c : WCore) (l r : Nat) (x : VReg) : (c.setV l r x).p = c.p := rfl
@[simp] theorem WCore.setK_v (c : WCore) (r : Nat) (x : KReg) : (c.setK r x).v = c.v := rfl
@[simp] theorem WCore.setK_p (c : WCore) (r : Nat) (x : KReg) : (c.setK r x).p = c.p := rfl
@[simp] theorem WCore.setP_v (c : WCore) (l r : Nat) (x : PReg) : (c.setP l r x).v = c.v := rfl
@[simp] theorem WCore.setP_k (c : WCore) (l r : Nat) (x : PReg) : (c.setP l r x).k = c.k := rfl

theorem WCore.getV_setV (c : WCore) (l r l' r' : Nat) (x : VReg) :
    (c.setV l r x).getV l' r' = if vkey l' r' = vkey l r then x else c.getV l' r' := FMap.get_set _ _ _ _ _

theorem WCore.getK_setK (c : WCore) (r r' : Nat) (x : KReg) :
    (c.setK r x).getK r' = if r' = r then x else c.getK r' := FMap.get_set _ _ _ _ _

theorem WCore.getP_setP (c : WCore) (l r l' r' : Nat) (x : PReg) :
    (c.setP l r x).getP l' r' = if vkey l' r' = vkey l r then x else c.getP l' r' := FMap.get_set _ _ _ _ _

theorem WCore.getV_congr {c d : WCore} (h : c.v = d.v) (l r : Nat) : c.getV l r = d.getV l r := by simp [WCore.getV, h]
theorem WCore.getK_congr {c d : WCore} (h : c.k = d.k) (r : Nat) : c.getK r = d.getK r := by simp [WCore.getK, h]
theorem WCore.getP_congr {c d : WCore} (h : c.p = d.p) (l r : Nat) : c.getP l r = d.getP l r := by simp [WCore.getP, h]

/-- A read depends on the registers only. -/
theorem WCore.read_congr {c d : WCore} (hv : c.v = d.v) (hk : c.k = d.k) (hp : c.p = d.p) (o : Operand) (l w : Nat) :
    c.read o l w = d.read o l w := by
  have hr : ∀ n r, c.readVs l r n = d.readVs l r n := by
    intro n
    induction n with
    | zero => intro r; rfl
    | succ n ih => intro r; simp only [WCore.readVs, ih, WCore.getV_congr hv]
  cases o <;> simp only [WCore.read, hr, WCore.getK_congr hk, WCore.getP_congr hp]

/-- Two states of a warp that agree on everything but some of the fields listed here. -/
theorem WCore.writeVs_eq : ∀ (n : Nat) (c : WCore) (l r x : Nat) (t : Bool), { c.writeVs l r x t n with v := c.v } = c
  | 0, _, _, _, _, _ => rfl
  | n + 1, c, l, r, x, t => by
    have h := WCore.writeVs_eq n (c.setV l r ⟨BitVec.ofNat 32 x, t⟩) l (r + 1) (x / 2 ^ 32) t
    have h2 := congrArg (fun k : WCore => { k with v := c.v }) h
    exact h2

/-- Writing an operand changes registers only. -/
theorem WCore.write_eq (c : WCore) (o : Operand) (l w x : Nat) (t : Bool) :
    { c.write o l w x t with v := c.v, k := c.k, p := c.p } = c := by
  cases o with
  | v r => exact congrArg (fun k : WCore => { k with k := c.k, p := c.p }) (WCore.writeVs_eq _ c l r.toNat _ t)
  | k r => rfl
  | p i r => rfl
  | sp x => rfl

theorem WCore.getV_writeVs_other : ∀ (n : Nat) (c : WCore) (l r x : Nat) (t : Bool) (l' r' : Nat), l < 32 → l' < 32 →
    ¬(l' = l ∧ r ≤ r' ∧ r' < r + n) → (c.writeVs l r x t n).getV l' r' = c.getV l' r'
  | 0, _, _, _, _, _, _, _, _, _, _ => rfl
  | n + 1, c, l, r, x, t, l', r', h, h', hn => by
    rw [WCore.writeVs, WCore.getV_writeVs_other n _ l (r + 1) _ t l' r' h h' (by omega), WCore.getV_setV, if_neg]
    rw [vkey_inj h' h]
    omega

/-- What a value of one or two registers reads as after it has been written. -/
theorem WCore.readVs_writeVs_one (c : WCore) (l r x : Nat) (t : Bool) :
    (c.writeVs l r x t 1).readVs l r 1 = (x % 2 ^ 32, t) := by
  simp [WCore.readVs, WCore.writeVs, WCore.getV_setV, BitVec.toNat_ofNat]

theorem WCore.readVs_writeVs_two (c : WCore) (l r x : Nat) (t : Bool) :
    (c.writeVs l r x t 2).readVs l r 2 = (x % 2 ^ 64, t) := by
  have h1 : vkey l r ≠ vkey l (r + 1) := by unfold vkey; omega
  have h2 : vkey l (r + 1) ≠ vkey l r := by unfold vkey; omega
  simp only [WCore.readVs, WCore.writeVs, WCore.getV_setV, h1, h2, if_true, if_false, BitVec.toNat_ofNat, Bool.or_false,
    Bool.or_self, Nat.mul_zero, Nat.add_zero, Prod.mk.injEq, and_true]
  omega

/-- An operand that is a register to write: no special, and a predicate not inverted. -/
def Operand.isDest : Operand → Bool
  | .sp _ => false
  | .p inv _ => !inv
  | _ => true

/-- The whole destination after a write of a width up to 64: the value below its width, zeros above. -/
theorem WCore.read_write (c : WCore) (o : Operand) (l w x : Nat) (t : Bool) (hd : Operand.isDest o = true) (hw : w ≤ 64)
    (hp : ∀ i r, o = .p i r → w = 1) : (c.write o l w x t).read o l (fullWidth o w) = (x % 2 ^ w, t) := by
  have hle : x % 2 ^ w < 2 ^ w := Nat.mod_lt _ (by positivity)
  cases o with
  | v r =>
    by_cases h : w > 32
    · have h2 := WCore.readVs_writeVs_two c l r.toNat (x % 2 ^ w) t
      have : (2 : Nat) ^ w ≤ 2 ^ 64 := Nat.pow_le_pow_right (by omega) hw
      rw [Nat.mod_eq_of_lt (show x % 2 ^ w < 2 ^ 64 by omega)] at h2
      have e : fullWidth (.v r) w = 64 := if_pos h
      have e' : (if (64 : Nat) > 32 then 2 else 1) = 2 := rfl
      simp only [e, WCore.write, WCore.read, if_pos h, e', h2, Nat.mod_eq_of_lt (show x % 2 ^ w < 2 ^ 64 by omega)]
    · have h2 := WCore.readVs_writeVs_one c l r.toNat (x % 2 ^ w) t
      have : (2 : Nat) ^ w ≤ 2 ^ 32 := Nat.pow_le_pow_right (by omega) (by omega)
      rw [Nat.mod_eq_of_lt (show x % 2 ^ w < 2 ^ 32 by omega)] at h2
      have e : fullWidth (.v r) w = 32 := if_neg h
      have e' : (if (32 : Nat) > 32 then 2 else 1) = 1 := rfl
      simp only [e, WCore.write, WCore.read, if_neg h, e', h2, Nat.mod_eq_of_lt (show x % 2 ^ w < 2 ^ 32 by omega)]
  | k r =>
    have : (2 : Nat) ^ w ≤ 2 ^ 64 := Nat.pow_le_pow_right (by omega) hw
    simp [WCore.write, WCore.read, fullWidth, WCore.getK_setK, Nat.mod_eq_of_lt (show x % 2 ^ w < 18446744073709551616 by omega)]
  | p i r =>
    simp only [Operand.isDest, Bool.not_eq_true'] at hd
    subst hd
    rw [hp _ _ rfl]
    simp only [WCore.write, WCore.read, WCore.getP_setP, if_true]
    rcases Nat.mod_two_eq_zero_or_one x with h | h <;> simp [h]
  | sp s => cases hd

/-- Another lane's registers after a write for one lane: a vector register or predicate of another lane. -/
theorem WCore.read_write_other (c : WCore) (o : Operand) (l l' w w' x : Nat) (t : Bool) (hl : l < 32) (hl' : l' < 32)
    (hne : l' ≠ l) (hk : ∀ r, o ≠ .k r) : (c.write o l w x t).read o l' w' = c.read o l' w' := by
  cases o with
  | v r =>
    have hr : ∀ n m r', (c.writeVs l r.toNat (x % 2 ^ w) t m).readVs l' r' n = c.readVs l' r' n := by
      intro n m
      induction n with
      | zero => intro r'; rfl
      | succ n ih =>
        intro r'
        simp only [WCore.readVs, ih]
        rw [WCore.getV_writeVs_other _ _ _ _ _ _ _ _ hl hl' (by omega)]
    simp only [WCore.write, WCore.read, hr]
  | k r => exact absurd rfl (hk r)
  | p i r =>
    simp only [WCore.write, WCore.read, WCore.getP_setP, vkey_inj hl' hl, hne, false_and, if_false]
  | sp s => rfl

/-! Computing a destination. -/

/-- One lane's step of the computation in each lane. -/
def Ctx.eachStep (c : Ctx) (k : WCore) (dst : Operand) (width : Nat) (f : Nat → Value) (acc : WCore × Raised) (i : Nat) :
    WCore × Raised :=
  (acc.1.write dst i width (f i).val ((f i).tag || c.forced k i), acc.2 ++ [(i, (f i).flags)])

theorem Ctx.each_lanes (c : Ctx) (k : WCore) (dst : Operand) (width : Nat) (f : Nat → Value) (h : ∀ r, dst ≠ .k r) :
    c.each k dst width f = c.active.list.foldl (c.eachStep k dst width f) (k, []) := by
  cases dst with
  | k r => exact absurd rfl (h r)
  | _ => rfl

theorem Ctx.eachStep_flags (c : Ctx) (k : WCore) (dst : Operand) (width : Nat) (f : Nat → Value) : ∀ (l : List Nat) (a : WCore × Raised),
    (l.foldl (c.eachStep k dst width f) a).2 = a.2 ++ l.map fun i => (i, (f i).flags)
  | [], a => by simp
  | i :: l, a => by
    rw [List.foldl_cons, Ctx.eachStep_flags c k dst width f l]
    simp [Ctx.eachStep]

/-- The flags that a computation raises, by lane. -/
theorem Ctx.each_flags (c : Ctx) (k : WCore) (dst : Operand) (width : Nat) (f : Nat → Value) :
    (c.each k dst width f).2 = c.active.list.map fun i => (i, (f (laneOrOnce dst i)).flags) := by
  cases dst with
  | k r =>
    simp only [Ctx.each, laneOrOnce]
    split
    · next h => rw [Lanes.list_eq_nil.mpr h]; rfl
    · rfl
  | v r => rw [Ctx.each_lanes _ _ _ _ _ (by simp), Ctx.eachStep_flags]; rfl
  | p i r => rw [Ctx.each_lanes _ _ _ _ _ (by simp), Ctx.eachStep_flags]; rfl
  | sp x => rw [Ctx.each_lanes _ _ _ _ _ (by simp), Ctx.eachStep_flags]; rfl

/-- A computation changes registers only. -/
theorem Ctx.each_eq (c : Ctx) (k : WCore) (dst : Operand) (width : Nat) (f : Nat → Value) :
    { (c.each k dst width f).1 with v := k.v, k := k.k, p := k.p } = k := by
  have hf : ∀ (l : List Nat) (a : WCore × Raised), { (l.foldl (c.eachStep k dst width f) a).1 with v := k.v, k := k.k, p := k.p }
      = { a.1 with v := k.v, k := k.k, p := k.p } := by
    intro l
    induction l with
    | nil => intro a; rfl
    | cons i l ih =>
      intro a
      rw [List.foldl_cons, ih]
      have := WCore.write_eq a.1 dst i width (f i).val ((f i).tag || c.forced k i)
      exact congrArg (fun x : WCore => { x with v := k.v, k := k.k, p := k.p }) this
  cases dst with
  | k r => simp only [Ctx.each]; split <;> rfl
  | v r => rw [Ctx.each_lanes _ _ _ _ _ (by simp), hf]
  | p i r => rw [Ctx.each_lanes _ _ _ _ _ (by simp), hf]
  | sp x => rw [Ctx.each_lanes _ _ _ _ _ (by simp), hf]

theorem Ctx.fold_other (c : Ctx) (k : WCore) (dst : Operand) (width : Nat) (f : Nat → Value) (hk : ∀ r, dst ≠ .k r) (w : Nat)
    (lane : Nat) (hl : lane < 32) : ∀ (l : List Nat) (a : WCore × Raised), (∀ i ∈ l, i < 32) → lane ∉ l →
      (l.foldl (c.eachStep k dst width f) a).1.read dst lane w = a.1.read dst lane w
  | [], _, _, _ => rfl
  | i :: l, a, h, hn => by
    rw [List.foldl_cons, Ctx.fold_other c k dst width f hk w lane hl l _ (fun j hj => h j (List.mem_cons_of_mem _ hj))
      (fun hh => hn (List.mem_cons_of_mem _ hh))]
    exact WCore.read_write_other _ _ _ _ _ _ _ _ (h i (List.mem_cons_self ..)) hl
      (fun e => hn (e ▸ List.mem_cons_self ..)) hk

theorem Ctx.fold_read (c : Ctx) (k : WCore) (dst : Operand) (width : Nat) (f : Nat → Value) (hd : Operand.isDest dst = true)
    (hk : ∀ r, dst ≠ .k r) (hw : width ≤ 64) (hp : ∀ i r, dst = .p i r → width = 1) (lane : Nat) : ∀ (l : List Nat) (a : WCore × Raised),
      (∀ i ∈ l, i < 32) → l.Nodup → lane ∈ l →
      (l.foldl (c.eachStep k dst width f) a).1.read dst lane (fullWidth dst width)
        = ((f lane).val % 2 ^ width, (f lane).tag || c.forced k lane)
  | i :: l, a, h, hnd, hm => by
    rw [List.nodup_cons] at hnd
    rw [List.foldl_cons]
    by_cases e : lane = i
    · subst e
      rw [Ctx.fold_other c k dst width f hk _ lane (h lane hm) l _ (fun j hj => h j (List.mem_cons_of_mem _ hj)) hnd.1]
      exact WCore.read_write _ _ _ _ _ _ hd hw hp
    · exact Ctx.fold_read c k dst width f hd hk hw hp lane l _ (fun j hj => h j (List.mem_cons_of_mem _ hj)) hnd.2
        (by simpa [e] using hm)

/-- The destination after it has been computed: in each lane of ACTIVE the value of its computation, its tag raised by a P
guard or by taint; a uniform destination reads alike from every lane. -/
theorem Ctx.each_read (c : Ctx) (dst : Operand) (width : Nat) (f : Nat → Value) (hd : Operand.isDest dst = true)
    (hw : width ≤ 64) (hp : ∀ i r, dst = .p i r → width = 1) (lane : Nat) (hl : c.active.has lane = true) :
    (c.each c.w.c dst width f).1.read dst lane (fullWidth dst width)
      = ((f (laneOrOnce dst lane)).val % 2 ^ width, (f (laneOrOnce dst lane)).tag || c.forcedFor dst lane) := by
  have hm : ∀ i ∈ c.active.list, i < 32 := fun i hi => Lanes.lt_of_has ((Lanes.mem_list _ _).mp hi)
  have hin := (Lanes.mem_list c.active lane).mpr hl
  cases dst with
  | k r =>
    have hne : c.active ≠ 0 := fun e => by simp [Lanes.list_eq_nil.mpr e] at hin
    simp only [Ctx.each, if_neg hne, laneOrOnce, Ctx.forcedFor]
    have := WCore.read_write c.w.c (.k r) 32 width (f 32).val ((f 32).tag || c.forcedAny c.w.c) rfl hw (by simp)
    exact this
  | v r =>
    rw [Ctx.each_lanes _ _ _ _ _ (by simp)]
    exact Ctx.fold_read c c.w.c (.v r) width f hd (by simp) hw hp lane _ _ hm (Lanes.nodup_list _) hin
  | p i r =>
    rw [Ctx.each_lanes _ _ _ _ _ (by simp)]
    exact Ctx.fold_read c c.w.c (.p i r) width f hd (by simp) hw hp lane _ _ hm (Lanes.nodup_list _) hin
  | sp x => cases hd

/-- A property of registers that no write to the destination for a lane of ACTIVE changes. -/
theorem Ctx.each_keeps {P : WCore → Prop} (c : Ctx) (k : WCore) (dst : Operand) (width : Nat) (f : Nat → Value) (h : P k)
    (hs : ∀ (a : WCore) (i x : Nat) (t : Bool), (c.active.has i = true ∨ (∃ r, dst = .k r) ∧ c.active ≠ 0) → P a → P (a.write dst i width x t)) :
    P (c.each k dst width f).1 := by
  have hf : ∀ (l : List Nat), (∀ i ∈ l, c.active.has i = true) → ∀ a : WCore × Raised, P a.1 →
      P (l.foldl (c.eachStep k dst width f) a).1 := by
    intro l
    induction l with
    | nil => intro _ a ha; exact ha
    | cons i l ih =>
      intro hl a ha
      exact ih (fun j hj => hl j (List.mem_cons_of_mem _ hj)) _ (hs _ _ _ _ (.inl (hl i (List.mem_cons_self ..))) ha)
  have hl : ∀ i ∈ c.active.list, c.active.has i = true := fun i hi => (Lanes.mem_list _ _).mp hi
  cases dst with
  | k r =>
    simp only [Ctx.each]
    split
    · exact h
    · next hne => exact hs k 32 _ _ (.inr ⟨⟨r, rfl⟩, hne⟩) h
  | v r => rw [Ctx.each_lanes _ _ _ _ _ (by simp)]; exact hf _ hl _ h
  | p i r => rw [Ctx.each_lanes _ _ _ _ _ (by simp)]; exact hf _ hl _ h
  | sp x => rw [Ctx.each_lanes _ _ _ _ _ (by simp)]; exact hf _ hl _ h

/-! Sticky flags and flag traps. -/

/-- Sticky flags after flags have been raised once in each lane of a list. -/
theorem WCore.raise_map (k : WCore) (g : Nat → Flags) (lane : Nat) : ∀ (l : List Nat), l.Nodup →
    FMap.get 0 (k.raise (l.map fun i => (i, g i))).flags lane
      = if lane ∈ l then FMap.get 0 k.flags lane ||| g lane else FMap.get 0 k.flags lane := by
  have hf : ∀ (l : List Nat) (m : FMap Flags), l.Nodup →
      FMap.get 0 ((l.map fun i => (i, g i)).foldl (fun m x => FMap.set 0 m x.1 (FMap.get 0 m x.1 ||| x.2)) m) lane
        = if lane ∈ l then FMap.get 0 m lane ||| g lane else FMap.get 0 m lane := by
    intro l
    induction l with
    | nil => intro m _; rfl
    | cons i l ih =>
      intro m hnd
      rw [List.nodup_cons] at hnd
      simp only [List.map_cons, List.foldl_cons]
      rw [ih _ hnd.2, FMap.get_set]
      by_cases e : lane = i
      · subst e; simp [hnd.1]
      · simp [e]
  intro l hnd
  exact hf l k.flags hnd

theorem Lanes.has_ofList (l : List Nat) (h : ∀ i ∈ l, i < 32) (j : Nat) : (Lanes.ofList l).has j = decide (j ∈ l) := by
  have hf : ∀ (l : List Nat) (m : Lanes), (∀ i ∈ l, i < 32) →
      Lanes.has (l.foldl (fun m i => m ||| BitVec.ofNat 32 (2 ^ i)) m) j = (m.has j || decide (j ∈ l)) := by
    intro l
    induction l with
    | nil => intro m _; simp
    | cons i l ih =>
      intro m hl
      rw [List.foldl_cons, ih _ fun x hx => hl x (List.mem_cons_of_mem _ hx)]
      have hi := hl i (List.mem_cons_self ..)
      simp only [Lanes.has, BitVec.getLsbD_or, BitVec.getLsbD_ofNat, Nat.testBit_two_pow]
      by_cases e : j = i
      · subst e; simp [hi]
      · simp [e, Ne.symm e]
  rw [Lanes.ofList, hf l 0#32 h]
  simp [Lanes.has]

/-- No lane traps where none raises a flag that TEN enables. -/
theorem trapLanes_map_eq_zero (ten : BitVec 8) (m : Lanes) (g : Nat → Flags) (h : ∀ i, m.has i = true → g i &&& ten = 0) :
    trapLanes ten (m.list.map fun i => (i, g i)) = 0 := by
  have e : ((m.list.map fun i => (i, g i)).filter fun x => x.2 &&& ten ≠ 0) = [] := by
    rw [List.filter_eq_nil_iff]
    intro x hx
    obtain ⟨i, hi, rfl⟩ := List.mem_map.mp hx
    simp [h i ((Lanes.mem_list _ _).mp hi)]
  rw [trapLanes, e]
  rfl

end Sys2Proof.Machine
end

