-- ==== Sys2Proof/Laws/Frontier.lean ====
section
/-! SUPPORT. Where an issue leaves the lanes of its split, and what an instruction that changes only the captured state
leaves as it was. -/

namespace Sys2Proof.Machine

open Sys2Proof

theorem mem_insertSplit (e x : Split) : ∀ l : List Split, x ∈ insertSplit e l ↔ x = e ∨ x ∈ l
  | [] => by simp [insertSplit]
  | y :: l => by
    simp only [insertSplit]
    split
    · simp
    · simp only [List.mem_cons, mem_insertSplit e x l]; tauto

theorem mem_sortSplits (x : Split) : ∀ l : List Split, x ∈ sortSplits l ↔ x ∈ l
  | [] => by simp [sortSplits]
  | y :: l => by
    have ih := mem_sortSplits x l
    simp only [sortSplits, List.foldr_cons] at ih ⊢
    rw [mem_insertSplit, ih]; simp

theorem has_lanesOf (l : List Split) (i : Nat) : (lanesOf l).has i = l.any fun e => e.lanes.has i := by
  have hf : ∀ (l : List Split) (m : Lanes), Lanes.has (l.foldl (fun m e => m ||| e.lanes) m) i
      = (m.has i || l.any fun e => e.lanes.has i) := by
    intro l
    induction l with
    | nil => intro m; simp
    | cons e l ih =>
      intro m
      rw [List.foldl_cons, ih]
      simp [Lanes.has, BitVec.getLsbD_or, Bool.or_assoc]
  have := hf l 0
  simpa [Lanes.has, lanesOf] using this

theorem Lanes.has_of_and_zero {a b : Lanes} {i : Nat} (h : a &&& b = 0) (hb : b.has i = true) : a.has i = false := by
  have := congrArg (fun m : Lanes => m.getLsbD i) h
  simp only [BitVec.getLsbD_and] at this
  simp only [Lanes.has] at hb ⊢
  simpa [hb] using this

/-- After an issue a lane of the split stands where its part stands. -/
theorem WCore.pcOf_advance (k : WCore) (e : Split) (ps : List Split) (marked : Addr → Bool) (main : Bool) (kd : Kind)
    (lane : Nat) (x : Addr) (he : e.lanes.has lane = true) (h1 : ∃ p ∈ gatherParts ps, p.lanes.has lane = true)
    (h2 : ∀ p ∈ gatherParts ps, p.lanes.has lane = true → p.pc = x) :
    (k.advance e ps marked main kd).pcOf lane = some x := by
  unfold WCore.pcOf WCore.advance
  extract_lets others parts joins grown table
  have ho : ∀ y ∈ others, y.lanes.has lane = false := by
    intro y hy
    obtain ⟨z, hz, rfl⟩ := List.mem_map.mp hy
    have hz' := (List.mem_filter.mp hz).2
    have : (z.passed (z.lanes == k.sel)).lanes = z.lanes := by
      unfold Split.passed
      split
      · rfl
      · split <;> rfl
    rw [this]
    exact Lanes.has_of_and_zero (by simpa using hz') he
  have hg : ∀ y ∈ grown, y.lanes.has lane = true → y.pc = x := by
    intro y hy hl
    obtain ⟨p, hp, rfl⟩ := List.mem_map.mp hy
    obtain ⟨q, hq, rfl⟩ := List.mem_map.mp hp
    have h3 : (lanesOf (others.filter (joins { q with wait := 0 }))).has lane = false := by
      rw [has_lanesOf, List.any_eq_false]
      intro z hz
      simp [ho z (List.mem_filter.mp hz).1]
    have h4 : q.lanes.has lane = true := by
      simp only [Split.grown, Lanes.has, BitVec.getLsbD_or] at hl h3 ⊢
      simpa [h3] using hl
    exact h2 q hq h4
  have hmem : ∀ y ∈ table, y.lanes.has lane = true → y.pc = x := by
    intro y hy hl
    rw [mem_sortSplits] at hy
    rcases List.mem_append.mp hy with hy | hy
    · exact hg y hy hl
    · have := ho y (List.mem_filter.mp hy).1
      rw [this] at hl; cases hl
  have hex : ∃ y ∈ table, y.lanes.has lane = true := by
    obtain ⟨p, hp, hpl⟩ := h1
    refine ⟨({ p with wait := 0 } : Split).grown (others.filter (joins { p with wait := 0 })), ?_, ?_⟩
    · rw [mem_sortSplits]
      exact List.mem_append_left _ (List.mem_map.mpr ⟨_, List.mem_map.mpr ⟨p, hp, rfl⟩, rfl⟩)
    · simp only [Split.grown, Lanes.has, BitVec.getLsbD_or] at hpl ⊢
      simp [hpl]
  cases hfind : table.find? fun y => y.lanes.has lane with
  | none =>
    obtain ⟨y, hy, hyl⟩ := hex
    have := List.find?_eq_none.mp hfind y hy
    simp [hyl] at this
  | some y =>
    have hl := List.find?_some hfind
    simp [hmem y (List.mem_of_find?_eq_some hfind) hl]

/-- A single part keeps every lane together. -/
theorem WCore.pcOf_advance_one (k : WCore) (e p : Split) (marked : Addr → Bool) (main : Bool) (kd : Kind) (lane : Nat)
    (he : e.lanes.has lane = true) (hp : p.lanes.has lane = true) :
    (k.advance e [p] marked main kd).pcOf lane = some p.pc := by
  have hz : ¬p.lanes = 0 := by rintro h; rw [h] at hp; simp [Lanes.has] at hp
  have hg : gatherParts [p] = [p] := by
    show (if p.lanes = 0 then [] else [p]) = [p]
    rw [if_neg hz]
  refine WCore.pcOf_advance k e [p] marked main kd lane p.pc he ?_ ?_ <;> rw [hg]
  · exact ⟨p, List.mem_singleton_self _, hp⟩
  · intro q hq _
    rw [List.mem_singleton.mp hq]

/-! An issue that changes the captured state only. -/

/-- The captured state after an issue that goes to the next slot: registers as the effect left them; flags raised; RNGC,
windows, the frontier table and its selection moved on. -/
theorem WCore.after_next (k : WCore) (i : Instr) (c : Ctx) (e : Effect) (marked : Addr → Bool) (main : Bool)
    (hf : e.flow = .next) (ho : e.ownRngc = false) :
    let a := k.after i c e marked main
    { a with frontier := k.frontier, sel := k.sel, windows := k.windows, flags := k.flags, rngc := k.rngc, yielded := k.yielded } = k
      ∧ a.flags = (k.raise e.raised).flags ∧ a.rngc = k.rngc + 1
      ∧ ∀ lane, c.split.lanes.has lane = true → a.pcOf lane = some (nextSlot c.pc) := by
  intro a
  have ha : a = (let k1 := ({ k.raise e.raised with rngc := k.rngc + 1 } : WCore).tick c.split.lanes c.active (lookOf i) i.regsWritten
      let k2 := if e.yields then { k1 with yielded := true } else k1
      k2.advance c.split [⟨c.split.lanes, nextSlot c.pc, 0, .ready⟩] marked main .plain) := by
    simp only [a, WCore.after, hf, ho, Flow.parts, Bool.false_eq_true, if_false, reduceCtorEq]
    rfl
  refine ⟨?_, ?_, ?_, ?_⟩
  · rw [ha]; dsimp only; split <;> rfl
  · rw [ha]; dsimp only; split <;> rfl
  · rw [ha]; dsimp only; split <;> rfl
  · intro lane hl
    rw [ha]
    dsimp only
    split <;> exact WCore.pcOf_advance_one _ c.split ⟨c.split.lanes, nextSlot c.pc, 0, .ready⟩ marked main .plain lane hl hl

/-- The warp after an issue, its captured state apart. -/
theorem Warp.after_eq (w : Warp) (i : Instr) (c : Ctx) (e : Effect) (marked : Addr → Bool) (main slow : Bool) :
    { w.after i c e marked main slow with c := w.c, latch := w.latch, ckpts := w.ckpts, slow := w.slow, serLeft := w.serLeft,
                                          onTrace := w.onTrace } = w := rfl

theorem Warp.after_core (w : Warp) (i : Instr) (c : Ctx) (e : Effect) (marked : Addr → Bool) (main slow : Bool) :
    (w.after i c e marked main slow).c = w.c.after i c e marked main := rfl

theorem State.modWarp_outside (s : State) (i : Nat) (f : Warp → Warp) (ws : List Warp) (gs : List Gang) :
    { s.modWarp i f with warps := ws, gangs := gs } = { s with warps := ws, gangs := gs } := rfl

theorem State.modGang_outside (s : State) (i : Nat) (f : Gang → Gang) (ws : List Warp) (gs : List Gang) :
    { s.modGang i f with warps := ws, gangs := gs } = { s with warps := ws, gangs := gs } := rfl

/-- What an instruction whose effect is a change of registers leaves. -/
structure Moved (i : Instr) (c : Ctx) (s t : State) (k : WCore) (raised : Raised) : Prop extends OnlyWarp s t where
  warp : ∃ w0 w1, nth s.warps s.cur = some w0 ∧ nth t.warps s.cur = some w1 ∧
    { w1 with
      c := w0.c, latch := w0.latch, ckpts := w0.ckpts, slow := w0.slow, serLeft := w0.serLeft, onTrace := w0.onTrace } = w0
  core : { t.core s.cur with
      frontier := k.frontier, sel := k.sel, windows := k.windows, flags := k.flags, rngc := k.rngc, yielded := k.yielded } = k
  flags : (t.core s.cur).flags = (k.raise raised).flags
  rngc : (t.core s.cur).rngc = k.rngc + 1
  next : ∀ lane, c.split.lanes.has lane = true → (t.core s.cur).pcOf lane = some (nextSlot c.pc)

theorem settled_split (c : Ctx) (i : Instr) : (c.settled i).split = c.split := by unfold Ctx.settled; split <;> rfl
theorem settled_gi (c : Ctx) (i : Instr) : (c.settled i).gi = c.gi := by unfold Ctx.settled; split <;> rfl

theorem registers_done {i : Instr} {s : State} {c : Ctx} (h : Issues i s c) (body : State → Ctx → Body) (k : WCore)
    (raised : Raised)
    (hb : body (s.openedFor i c) (c.openedIn i s) = (c.openedIn i s).done (s.openedFor i c) k raised)
    (ht : trapLanes c.w.ten raised = 0) : ∃ t, issueAt i s c body = .next t ∧ Moved i c s t k raised := by
  obtain ⟨w0, h1, h2, h3, h4⟩ := h.openedIn_eq
  have hwi : c.wi = s.cur := by obtain ⟨_, _, hh, _⟩ := State.contextFor_spec h.context; exact hh
  have hkind : w0.kind = c.w.kind := by rw [h2]
  have hfr : w0.fragments = c.w.fragments := by rw [h2]; rfl
  -- the state of the effect
  have hes : ∀ e : Effect, e.s = ((s.openedFor i c).modWarp c.wi fun w => { w with c := k }) →
      nth e.s.warps c.wi = some { w0.opened i c (s.consctl c.g.die) with c := k } := by
    intro e he
    rw [he, State.nth_modWarp_same, State.openedFor_eq, State.nth_modWarp_same, h3]
    rfl
  have hc : (c.openedIn i s).wi = c.wi := by rw [h4]
  let e : Effect := { s := (s.openedFor i c).modWarp c.wi fun w => { w with c := k }, raised := raised }
  have hb' : body (s.openedFor i c) (c.openedIn i s) = .done e := by rw [hb, Ctx.done, hc]
  have hd := issue_done h body hb' (fun _ => ht) (fun w hw _ => by
    rw [hes e rfl] at hw
    cases hw
    show (w0.opened i c (s.consctl c.g.die)).fragments ≤ (runAhead (w0.opened i c (s.consctl c.g.die)).kind).2.2
    rw [Warp.opened_fragments, Warp.opened_kind, hkind, hfr]
    exact h.room)
  refine ⟨_, hd, ?_⟩
  set c' := c.settled i with hc'
  have hwi' : c'.wi = c.wi := settled_wi c i
  have hsp : c'.split = c.split := settled_split c i
  have hpc : c'.pc = c.pc := by rw [Ctx.pc, hsp]; rfl
  -- the state after the issue
  let main := e.s.co.isNone && c'.w.c.sel &&& c'.split.lanes != 0
  have hfin : State.finish i c' e = ((e.s.modWarp c'.wi fun w => w.after i c' e (fun pc => e.s.marked c'.pi pc) main
      (Config.slow e.s.turn)).modGang c'.gi fun g => { g with step := g.step.map fun d => if d.contains c'.wi then d else c'.wi :: d }) :=
    rfl
  have hw1 : nth (State.finish i c' e).warps s.cur = some (({ w0.opened i c (s.consctl c.g.die) with c := k } : Warp).after i c' e
      (fun pc => e.s.marked c'.pi pc) main (Config.slow e.s.turn)) := by
    rw [hfin, State.modGang_warps, hwi', ← hwi, State.nth_modWarp_same, hes e rfl]
    rfl
  have hcore : (State.finish i c' e).core s.cur = k.after i c' e (fun pc => e.s.marked c'.pi pc) main := by
    rw [State.core, hw1]
    rfl
  obtain ⟨a1, a2, a3, a4⟩ := WCore.after_next k i c' e (fun pc => e.s.marked c'.pi pc) main rfl rfl
  rw [← hcore] at a1 a2 a3 a4
  have hrest : { State.finish i c' e with warps := s.warps, gangs := s.gangs } = s := by
    have he : e.s = (s.modWarp c.wi fun w => w.opened i c (s.consctl c.g.die)).modWarp c.wi fun w => { w with c := k } := by
      rw [← State.openedFor_eq]
    rw [hfin, State.modGang_outside, State.modWarp_outside, he, State.modWarp_outside, State.modWarp_outside]
  refine ⟨⟨hrest, fun a => ?_, fun j hj => ?_, fun j => ?_⟩, ⟨w0, _, h1, hw1, ?_⟩, a1, a2, a3, ?_⟩
  · have hm := congrArg (fun x : State => x.mem) hrest
    exact congrArg (fun m => FMap.getN 0 m a 1) hm
  · rw [hfin, State.modGang_warps, hwi', hwi, State.nth_modWarp_other _ _ _ _ hj]
    show nth ((s.openedFor i c).modWarp c.wi _).warps j = _
    rw [hwi, State.nth_modWarp_other _ _ _ _ hj, State.openedFor_eq, hwi, State.nth_modWarp_other _ _ _ _ hj]
  · have hg : e.s.gangs = s.gangs := by
      show ((s.openedFor i c).modWarp c.wi _).gangs = _
      rw [State.modWarp_gangs, State.openedFor_eq, State.modWarp_gangs]
    rw [hfin, State.modGang_gangs, State.modWarp_gangs, hg, nth_modAt]
    split
    · next hj => subst hj; cases nth s.gangs c'.gi <;> rfl
    · rfl
  · exact congrArg (fun w : Warp => { w with latch := w0.latch, serLeft := w0.serLeft, onTrace := w0.onTrace })
      (Warp.opened_eq w0 i c (s.consctl c.g.die))
  · intro lane hl
    rw [← hpc]
    exact a4 lane (by rw [hsp]; exact hl)

end Sys2Proof.Machine
end

