-- ==== Sys2Proof/Laws/Compute.lean ====
section
/-! SUPPORT. What an instruction leaves that computes one destination in each lane of ACTIVE, or once for a uniform
destination: its completion, its result, its flags and its frame, in one lemma for all of them. -/

namespace Sys2Proof.Machine

open Sys2Proof

/-- The registers that a destination of a width names are among those that the instruction's word writes. -/
structure Names (i : Instr) (dst : Operand) (width : Nat) : Prop where
  isDest : Operand.isDest dst = true
  le : width ≤ 64
  pred : ∀ inv r, dst = .p inv r → width = 1
  v : ∀ n, dst = .v n → ∀ j, j < (if width > 32 then 2 else 1) →
    n.toNat + j < 256 ∧ .v (BitVec.ofNat 8 (n.toNat + j)) ∈ i.regsWritten
  k : ∀ n, dst = .k n → .k n ∈ i.regsWritten
  p : ∀ inv n, dst = .p inv n → ∃ inv', .p inv' n ∈ i.regsWritten

/-- The registers of the issue as the effect sees it are those of the state before. -/
theorem Issues.openedIn_regs {i : Instr} {s : State} {c : Ctx} (h : Issues i s c) :
    (c.openedIn i s).w.c.v = (s.core s.cur).v ∧ (c.openedIn i s).w.c.k = (s.core s.cur).k
      ∧ (c.openedIn i s).w.c.p = (s.core s.cur).p := by
  obtain ⟨w0, h1, h2, h3, h4⟩ := h.openedIn_eq
  have hc := h.core
  unfold WCore.sameRegs at hc
  have hv : c.w.c.v = (s.core s.cur).v := (congrArg (fun x : WCore => x.v) hc :)
  have hk : c.w.c.k = (s.core s.cur).k := (congrArg (fun x : WCore => x.k) hc :)
  have hp : c.w.c.p = (s.core s.cur).p := (congrArg (fun x : WCore => x.p) hc :)
  rw [h4]
  simp only [Warp.opened_core]
  split <;> exact ⟨hv, hk, hp⟩

theorem Issues.openedIn_read {i : Instr} {s : State} {c : Ctx} (h : Issues i s c) (o : Operand) (l w : Nat) :
    (c.openedIn i s).w.c.read o l w = (s.core s.cur).read o l w := by
  obtain ⟨hv, hk, hp⟩ := h.openedIn_regs
  exact WCore.read_congr hv hk hp o l w

theorem Issues.openedIn_src {i : Instr} {s : State} {c : Ctx} (h : Issues i s c) (x : Source) (l w : Nat) :
    (c.openedIn i s).w.c.src x l w = (s.core s.cur).src x l w := by
  cases x with
  | op o => exact h.openedIn_read o l w
  | imm n => rfl

theorem Issues.openedIn_active {i : Instr} {s : State} {c : Ctx} (h : Issues i s c) :
    (c.openedIn i s).active = c.active ∧ (c.openedIn i s).wi = c.wi ∧ (c.openedIn i s).split = c.split
      ∧ (c.openedIn i s).l = c.l ∧ (c.openedIn i s).g = c.g ∧ (c.openedIn i s).hdr = c.hdr := by
  obtain ⟨w0, h1, h2, h3, h4⟩ := h.openedIn_eq
  rw [h4]
  exact ⟨rfl, rfl, rfl, rfl, rfl, rfl⟩

/-- Taint stacks as the effect sees them: popped once at a join, in the lanes of the split (R107). -/
theorem WCore.popTaint_get (k : WCore) (m : Lanes) (lane : Nat) :
    FMap.get [] (k.popTaint m).taint lane = if m.has lane then (FMap.get [] k.taint lane).tail else FMap.get [] k.taint lane := by
  have hf : ∀ (l : List Nat) (t : FMap (List Addr)), l.Nodup →
      FMap.get [] (l.foldl (fun m i => FMap.set [] m i (FMap.get [] m i).tail) t) lane
        = if lane ∈ l then (FMap.get [] t lane).tail else FMap.get [] t lane := by
    intro l
    induction l with
    | nil => intro t _; rfl
    | cons i l ih =>
      intro t hnd
      rw [List.nodup_cons] at hnd
      rw [List.foldl_cons, ih _ hnd.2, FMap.get_set]
      by_cases e : lane = i
      · subst e; simp [hnd.1]
      · simp [e]
  rw [WCore.popTaint]
  show FMap.get [] (m.list.foldl _ k.taint) lane = _
  rw [hf _ _ (Lanes.nodup_list m)]
  simp only [Lanes.mem_list]

theorem Issues.openedIn_core {i : Instr} {s : State} {c : Ctx} (h : Issues i s c) :
    (c.openedIn i s).w.c = if bit c.line (5 + c.pc.toNat % 8) then c.w.c.popTaint c.split.lanes else c.w.c := by
  obtain ⟨w0, h1, h2, h3, h4⟩ := h.openedIn_eq
  rw [h4]
  exact Warp.opened_core _ _ _ _

/-- A field of the captured state other than taint is, as the effect sees it, what it was before. -/
theorem Issues.opened_field {α : Type} {i : Instr} {s : State} {c : Ctx} (h : Issues i s c) (f : WCore → α)
    (hf : ∀ (a : WCore) t fr sl y, f { a with taint := t, frontier := fr, sel := sl, yielded := y } = f a) :
    f (c.openedIn i s).w.c = f (s.core s.cur) := by
  have hc := h.core
  unfold WCore.sameRegs at hc
  have e : f c.w.c = f (s.core s.cur) := by
    rw [← hc, ← hf c.w.c c.w.c.taint (s.core s.cur).frontier (s.core s.cur).sel (s.core s.cur).yielded]
  rw [h.openedIn_core]
  split
  · rw [← e]; exact hf c.w.c _ c.w.c.frontier c.w.c.sel c.w.c.yielded
  · exact e

theorem Issues.opened_taint {i : Instr} {s : State} {c : Ctx} (h : Issues i s c) (lane : Nat) :
    FMap.get [] (c.openedIn i s).w.c.taint lane =
      if bit c.line (5 + c.pc.toNat % 8) && c.split.lanes.has lane then (FMap.get [] (s.core s.cur).taint lane).tail
      else FMap.get [] (s.core s.cur).taint lane := by
  have hc := h.core
  unfold WCore.sameRegs at hc
  have e1 : c.w.c.taint = (s.core s.cur).taint := (congrArg (fun x : WCore => x.taint) hc :)
  rw [h.openedIn_core]
  by_cases hb : bit c.line (5 + c.pc.toNat % 8) = true
  · simp only [hb, if_true, Bool.true_and, WCore.popTaint_get, e1]
  · simp [hb, e1]

/-- An effect on the captured state that keeps within the registers that the word names leaves the issue's frame. -/
theorem Moved.issueFrame {i : Instr} {s t : State} {c : Ctx} {k : WCore} {raised : Raised} (h : Issues i s c)
    (m : Moved i c s t k raised)
    (he : k.leqix = (c.openedIn i s).w.c.leqix ∧ k.eqSeen = (c.openedIn i s).w.c.eqSeen ∧ k.flags = (c.openedIn i s).w.c.flags)
    (hv : ∀ lane r : Nat, lane < 32 → r < 256 → ¬(c.active.has lane = true ∧ .v (BitVec.ofNat 8 r) ∈ i.regsWritten) →
      k.getV lane r = (s.core s.cur).getV lane r)
    (hk : ∀ r : Nat, r < 64 → ¬(c.active ≠ 0 ∧ .k (BitVec.ofNat 6 r) ∈ i.regsWritten) → k.getK r = (s.core s.cur).getK r)
    (hp : ∀ lane r : Nat, lane < 32 → r < 16 →
      ¬(c.active.has lane = true ∧ ∃ inv, .p inv (BitVec.ofNat 4 r) ∈ i.regsWritten) → k.getP lane r = (s.core s.cur).getP lane r)
    (hf : ∀ lane, c.active.has lane = false → FMap.get 0 (k.raise raised).flags lane = FMap.get 0 k.flags lane) :
    IssueFrame i c s t := by
  have m1 : (t.core s.cur).v = k.v := (congrArg (fun x : WCore => x.v) m.core :)
  have m2 : (t.core s.cur).k = k.k := (congrArg (fun x : WCore => x.k) m.core :)
  have m3 : (t.core s.cur).p = k.p := (congrArg (fun x : WCore => x.p) m.core :)
  have a2 : (t.core s.cur).leqix = k.leqix := (congrArg (fun x : WCore => x.leqix) m.core :)
  have a3 : (t.core s.cur).eqSeen = k.eqSeen := (congrArg (fun x : WCore => x.eqSeen) m.core :)
  refine ⟨m.warp, ⟨?_, ?_⟩, ?_, ?_, ?_, ?_⟩
  · rw [a2, he.1, h.opened_field (·.leqix) (fun _ _ _ _ _ => rfl)]
  · rw [a3, he.2.1, h.opened_field (·.eqSeen) (fun _ _ _ _ _ => rfl)]
  · intro lane r hl hr hn; rw [WCore.getV_congr m1]; exact hv lane r hl hr hn
  · intro r hr hn; rw [WCore.getK_congr m2]; exact hk r hr hn
  · intro lane r hl hr hn; rw [WCore.getP_congr m3]; exact hp lane r hl hr hn
  · intro lane hl
    rw [m.flags, hf lane hl, he.2.2, h.opened_field (·.flags) (fun _ _ _ _ _ => rfl)]

theorem Moved.straightOn {i : Instr} {s t : State} {c : Ctx} {k : WCore} {raised : Raised} (h : Issues i s c)
    (m : Moved i c s t k raised) (he : k.taint = (c.openedIn i s).w.c.taint ∧ k.tovf = (c.openedIn i s).w.c.tovf) :
    StraightOn c s t := by
  have a1 : (t.core s.cur).tovf = k.tovf := (congrArg (fun x : WCore => x.tovf) m.core :)
  have a2 : (t.core s.cur).taint = k.taint := (congrArg (fun x : WCore => x.taint) m.core :)
  refine ⟨m.next, fun lane => ?_, ?_⟩
  · rw [a2, he.1, h.opened_taint]
  · rw [a1, he.2, h.opened_field (·.tovf) (fun _ _ _ _ _ => rfl)]

theorem Moved.counted {i : Instr} {s t : State} {c : Ctx} {k : WCore} {raised : Raised} (h : Issues i s c)
    (m : Moved i c s t k raised)
    (he : k.rngc = (c.openedIn i s).w.c.rngc ∧ k.rngk = (c.openedIn i s).w.c.rngk ∧ k.mstat = (c.openedIn i s).w.c.mstat) :
    Counted s t := by
  have a4 : (t.core s.cur).rngk = k.rngk := (congrArg (fun x : WCore => x.rngk) m.core :)
  have a5 : (t.core s.cur).mstat = k.mstat := (congrArg (fun x : WCore => x.mstat) m.core :)
  refine ⟨?_, ?_, ?_⟩
  · rw [m.rngc, he.1, h.opened_field (·.rngc) (fun _ _ _ _ _ => rfl)]
  · rw [a4, he.2.1, h.opened_field (·.rngk) (fun _ _ _ _ _ => rfl)]
  · rw [a5, he.2.2, h.opened_field (·.mstat) (fun _ _ _ _ _ => rfl)]

/-- An effect that writes registers within those that the word names leaves the register frame. -/
theorem Moved.frame {i : Instr} {s t : State} {c : Ctx} {k : WCore} {raised : Raised} (h : Issues i s c) (m : Moved i c s t k raised)
    (he : { k with v := (c.openedIn i s).w.c.v, k := (c.openedIn i s).w.c.k, p := (c.openedIn i s).w.c.p } = (c.openedIn i s).w.c)
    (hv : ∀ lane r : Nat, lane < 32 → r < 256 → ¬(c.active.has lane = true ∧ .v (BitVec.ofNat 8 r) ∈ i.regsWritten) →
      k.getV lane r = (s.core s.cur).getV lane r)
    (hk : ∀ r : Nat, r < 64 → ¬(c.active ≠ 0 ∧ .k (BitVec.ofNat 6 r) ∈ i.regsWritten) → k.getK r = (s.core s.cur).getK r)
    (hp : ∀ lane r : Nat, lane < 32 → r < 16 →
      ¬(c.active.has lane = true ∧ ∃ inv, .p inv (BitVec.ofNat 4 r) ∈ i.regsWritten) → k.getP lane r = (s.core s.cur).getP lane r)
    (hf : ∀ lane, c.active.has lane = false → FMap.get 0 (k.raise raised).flags lane = FMap.get 0 k.flags lane) :
    RegisterFrame i c s t := by
  refine ⟨m.toOnlyWarp, m.issueFrame h ⟨?_, ?_, ?_⟩ hv hk hp hf, m.straightOn h ⟨?_, ?_⟩, m.counted h ⟨?_, ?_, ?_⟩⟩
  · exact (congrArg (fun x : WCore => x.leqix) he :)
  · exact (congrArg (fun x : WCore => x.eqSeen) he :)
  · exact (congrArg (fun x : WCore => x.flags) he :)
  · exact (congrArg (fun x : WCore => x.taint) he :)
  · exact (congrArg (fun x : WCore => x.tovf) he :)
  · exact (congrArg (fun x : WCore => x.rngc) he :)
  · exact (congrArg (fun x : WCore => x.rngk) he :)
  · exact (congrArg (fun x : WCore => x.mstat) he :)

/-! One destination. -/

theorem WCore.getV_write_other (a : WCore) (dst : Operand) (i width x : Nat) (t : Bool) (lane r : Nat) (hi : i < 32) (hl : lane < 32)
    (hn : ∀ n, dst = .v n → ¬(lane = i ∧ n.toNat ≤ r ∧ r < n.toNat + (if width > 32 then 2 else 1))) :
    (a.write dst i width x t).getV lane r = a.getV lane r := by
  cases dst with
  | v n => exact WCore.getV_writeVs_other _ _ _ _ _ _ _ _ hi hl (hn n rfl)
  | k n => rfl
  | p inv n => rfl
  | sp y => rfl

theorem WCore.getK_write_other (a : WCore) (dst : Operand) (i width x : Nat) (t : Bool) (r : Nat)
    (hn : ∀ n, dst = .k n → r ≠ n.toNat) : (a.write dst i width x t).getK r = a.getK r := by
  cases dst with
  | v n =>
    have := WCore.writeVs_eq (if width > 32 then 2 else 1) a i n.toNat (x % 2 ^ width) t
    have h2 := (congrArg (fun k : WCore => k.k) this :)
    exact WCore.getK_congr h2 r
  | k n => rw [WCore.write, WCore.getK_setK, if_neg (hn n rfl)]
  | p inv n => rfl
  | sp y => rfl

theorem WCore.getP_write_other (a : WCore) (dst : Operand) (i width x : Nat) (t : Bool) (lane r : Nat) (hi : i < 32) (hl : lane < 32)
    (hn : ∀ inv n, dst = .p inv n → ¬(lane = i ∧ r = n.toNat)) : (a.write dst i width x t).getP lane r = a.getP lane r := by
  cases dst with
  | v n =>
    have := WCore.writeVs_eq (if width > 32 then 2 else 1) a i n.toNat (x % 2 ^ width) t
    have h2 := (congrArg (fun k : WCore => k.p) this :)
    exact WCore.getP_congr h2 lane r
  | k n => rfl
  | p inv n =>
    rw [WCore.write, WCore.getP_setP, if_neg]
    rw [vkey_inj hl hi]
    exact hn inv n rfl
  | sp y => rfl

/-- An instruction that computes one destination: it completes, with the frame of register instructions, the destination's
value and tag in every lane of ACTIVE, and the flags raised there. -/
theorem each_done {i : Instr} {s : State} {c : Ctx} (h : Issues i s c) (dst : Operand) (width : Nat) (hn : Names i dst width)
    (f : Ctx → Nat → Value)
    (ht : ∀ lane, c.active.has lane = true → (f (c.openedIn i s) (laneOrOnce dst lane)).flags &&& c.w.ten = 0) :
    ∃ t, (issueAt i s c fun s c => c.done s (c.each c.w.c dst width (f c)).1 (c.each c.w.c dst width (f c)).2) = .next t
      ∧ RegisterFrame i c s t
      ∧ ∀ lane, c.active.has lane = true →
          (t.core s.cur).read dst lane (fullWidth dst width)
            = ((f (c.openedIn i s) (laneOrOnce dst lane)).val % 2 ^ width,
               (f (c.openedIn i s) (laneOrOnce dst lane)).tag || (c.openedIn i s).forcedFor dst lane)
          ∧ FMap.get 0 (t.core s.cur).flags lane
            = FMap.get 0 (s.core s.cur).flags lane ||| (f (c.openedIn i s) (laneOrOnce dst lane)).flags := by
  set c' := c.openedIn i s with hc'
  obtain ⟨ha, -⟩ := h.openedIn_active
  rw [← hc'] at ha
  obtain ⟨rv, rk, rp⟩ := h.openedIn_regs
  rw [← hc'] at rv rk rp
  set r := c'.each c'.w.c dst width (f c') with hr
  have hfl : r.2 = c.active.list.map fun j => (j, (f c' (laneOrOnce dst j)).flags) := by rw [hr, Ctx.each_flags, ha]
  have heq : { r.1 with v := c'.w.c.v, k := c'.w.c.k, p := c'.w.c.p } = c'.w.c := Ctx.each_eq c' c'.w.c dst width (f c')
  have htr : trapLanes c.w.ten r.2 = 0 := by
    rw [hfl]; exact trapLanes_map_eq_zero c.w.ten c.active (fun j => (f c' (laneOrOnce dst j)).flags) ht
  obtain ⟨t, hx, m⟩ := registers_done h (fun s c => c.done s (c.each c.w.c dst width (f c)).1 (c.each c.w.c dst width (f c)).2)
    r.1 r.2 rfl htr
  have hw : ∀ (j : Nat), (c'.active.has j = true ∨ (∃ r, dst = .k r) ∧ c'.active ≠ 0) → (∀ r, dst ≠ .k r) → j < 32 := by
    intro j hj hk
    rcases hj with hj | ⟨⟨r, hj⟩, -⟩
    · exact Lanes.lt_of_has hj
    · exact absurd hj (hk r)
  refine ⟨t, hx, m.frame h heq ?_ ?_ ?_ ?_, fun lane hl => ⟨?_, ?_⟩⟩
  · intro lane q hl hq hnn
    rw [← WCore.getV_congr rv]
    refine Ctx.each_keeps (P := fun a => a.getV lane q = c'.w.c.getV lane q) c' c'.w.c dst width (f c') rfl ?_
    intro a j x tg hj hp
    rw [← hp]
    cases hd : dst with
    | v n =>
      have hj32 := hw j hj (by simp [hd])
      refine WCore.getV_write_other a _ j width x tg lane q hj32 hl ?_
      rintro n' hn' ⟨rfl, h1, h2⟩
      cases hn'
      obtain ⟨b1, b2⟩ := hn.v n hd (q - n.toNat) (by omega)
      rw [show n.toNat + (q - n.toNat) = q by omega] at b2
      refine hnn ⟨?_, b2⟩
      rcases hj with hj | ⟨⟨r, hj⟩, -⟩
      · rw [← ha]; exact hj
      · rw [hd] at hj; cases hj
    | k n => rfl
    | p inv n => rfl
    | sp y => rfl
  · intro q hq hnn
    rw [← WCore.getK_congr rk]
    refine Ctx.each_keeps (P := fun a => a.getK q = c'.w.c.getK q) c' c'.w.c dst width (f c') rfl ?_
    intro a j x tg hj hp
    rw [← hp]
    refine WCore.getK_write_other a dst j width x tg q ?_
    rintro n hd rfl
    refine hnn ⟨?_, by rw [BitVec.ofNat_toNat]; simpa using hn.k n hd⟩
    rw [← ha]
    rcases hj with hj | ⟨-, hj⟩
    · rintro e; rw [e] at hj; simp [Lanes.has] at hj
    · exact hj
  · intro lane q hl hq hnn
    rw [← WCore.getP_congr rp]
    refine Ctx.each_keeps (P := fun a => a.getP lane q = c'.w.c.getP lane q) c' c'.w.c dst width (f c') rfl ?_
    intro a j x tg hj hp
    rw [← hp]
    cases hd : dst with
    | p inv n =>
      have hj32 := hw j hj (by simp [hd])
      refine WCore.getP_write_other a _ j width x tg lane q hj32 hl ?_
      rintro inv' n' hn' ⟨rfl, rfl⟩
      cases hn'
      refine hnn ⟨?_, by rw [BitVec.ofNat_toNat]; simpa using hn.p inv n hd⟩
      rcases hj with hj | ⟨⟨r, hj⟩, -⟩
      · rw [← ha]; exact hj
      · rw [hd] at hj; cases hj
    | v n =>
      exact WCore.getP_write_other a (.v n) j width x tg lane q (hw j hj (by simp [hd])) hl (by simp)
    | k n => rfl
    | sp y => rfl
  · intro lane hl
    rw [hfl, WCore.raise_map _ _ _ _ (Lanes.nodup_list _), if_neg]
    rw [Lanes.mem_list, hl]; simp
  · have e := WCore.read_congr (c := t.core s.cur) (d := r.1) (congrArg (fun x : WCore => x.v) m.core :) (congrArg (fun x : WCore => x.k) m.core :)
      (congrArg (fun x : WCore => x.p) m.core :) dst lane (fullWidth dst width)
    refine Eq.trans e ?_
    exact Ctx.each_read c' dst width (f c') hn.isDest hn.le hn.pred lane (by rw [ha]; exact hl)
  · have e1 : r.1.flags = c'.w.c.flags := (congrArg (fun x : WCore => x.flags) heq :)
    have e2 : c'.w.c.flags = (s.core s.cur).flags := by
      rw [hc', h.openedIn_core]
      have := h.core
      unfold WCore.sameRegs at this
      split <;> exact (congrArg (fun x : WCore => x.flags) this :)
    rw [m.flags, hfl, WCore.raise_map _ _ _ _ (Lanes.nodup_list _), if_pos ((Lanes.mem_list _ _).mpr hl), e1, e2]

/-- The same for a computation from sources of given widths (R99). -/
theorem compute_done {i : Instr} {s : State} {c : Ctx} (h : Issues i s c) (dst : Operand) (width : Nat) (hn : Names i dst width)
    (srcs : List (Source × Nat)) (p : Bool) (f : Nat → List Nat → Nat × Flags)
    (ht : ∀ lane, c.active.has lane = true →
      (f (laneOrOnce dst lane) (srcs.map fun x => ((s.core s.cur).src x.1 (laneOrOnce dst lane) x.2).1)).2 &&& c.w.ten = 0) :
    ∃ t, (issueAt i s c fun s c => c.compute s dst width srcs p f) = .next t ∧ RegisterFrame i c s t
      ∧ ∀ lane, c.active.has lane = true →
          (t.core s.cur).read dst lane (fullWidth dst width)
            = ((f (laneOrOnce dst lane) (srcs.map fun x => ((s.core s.cur).src x.1 (laneOrOnce dst lane) x.2).1)).1 % 2 ^ width,
               p || (srcs.any fun x => ((s.core s.cur).src x.1 (laneOrOnce dst lane) x.2).2)
                 || (c.openedIn i s).forcedFor dst lane)
          ∧ FMap.get 0 (t.core s.cur).flags lane
            = FMap.get 0 (s.core s.cur).flags lane
              ||| (f (laneOrOnce dst lane) (srcs.map fun x => ((s.core s.cur).src x.1 (laneOrOnce dst lane) x.2).1)).2 := by
  have hs : ∀ (x : Source) (l w : Nat), (c.openedIn i s).w.c.src x l w = (s.core s.cur).src x l w := fun x l w => h.openedIn_src x l w
  have := each_done h dst width hn (fun c lane =>
    let xs := srcs.map fun x => c.w.c.src x.1 lane x.2
    let v := f lane (xs.map (·.1))
    ⟨v.1, p || xs.any (·.2), v.2⟩) (by
      intro lane hl
      simp only [List.map_map, Function.comp_def, hs]
      exact ht lane hl)
  obtain ⟨t, h1, h2, h3⟩ := this
  refine ⟨t, h1, h2, fun lane hl => ?_⟩
  have := h3 lane hl
  simp only [List.map_map, Function.comp_def, hs, List.any_map] at this
  exact this

end Sys2Proof.Machine
end

