-- ==== Sys2Proof/Laws/PageMap.lean ====
section
/-! SUPPORT. What the loader's page mapping, a write from outside the device, and the arbiter can do to the storage. -/

namespace Sys2Proof.Machine

open Sys2Proof

theorem State.Canonical.putPte {s : State} (h : s.Canonical) (ea e : Nat) : (s.putPte ea e).Canonical := h.store _ _

theorem State.Canonical.clearTable {s : State} (h : s.Canonical) (pa n : Nat) : (s.clearTable pa n).Canonical := by
  have h' : ((List.range (n / 128)).foldl (fun s j => s.conflict none { loc := .phys (pa + 128 * j) }) s).Canonical :=
    foldl_keeps _ _ _ h fun a b ha => ha.conflict _ _
  obtain ⟨h1, h2, h3, h4⟩ := h'
  exact ⟨FMap.wf_filter _ _ _ h1, FMap.wf_filter _ _ _ h2, h3, h4⟩

theorem State.Canonical.openTables {p : Part} {va : Nat} : ∀ {left table free : Nat} {s : State} {r : State × Nat},
    s.Canonical → s.openTables p va left table free = some r → r.1.Canonical
  | 0, _, _, s, r, h, e => by
    rw [State.openTables, Option.some.injEq] at e
    exact e ▸ h
  | left + 1, table, free, s, r, h, e => by
    rw [State.openTables, Option.bind_eq_some_iff] at e
    obtain ⟨ea, -, e⟩ := e
    simp only at e
    split at e
    · exact h.openTables e
    · split at e
      · cases e
      · exact ((h.clearTable _ _).putPte _ _).openTables e

theorem State.Canonical.mapPage {s : State} {p : Part} {va e free : Nat} {r : State × Nat} (h : s.Canonical)
    (hr : s.mapPage p va e free = some r) : r.1.Canonical := by
  simp only [State.mapPage, Option.bind_eq_some_iff] at hr
  obtain ⟨r', h', ea, -, hr⟩ := hr
  split at hr
  · cases hr
  · cases hr
    exact (h.openTables h').putPte _ _

/-- Mapping an image's pages keeps the form. -/
theorem State.Canonical.mapPages {p : Part} : ∀ {xs : List (Nat × Nat)} {free : Nat} {s t : State}, s.Canonical →
    s.mapPages p xs free = some t → t.Canonical
  | [], _, s, t, h, e => by
    rw [State.mapPages, Option.some.injEq] at e
    exact e ▸ h
  | x :: xs, free, s, t, h, e => by
    rw [State.mapPages, Option.bind_eq_some_iff] at e
    obtain ⟨r, hr, e⟩ := e
    exact (h.mapPage hr).mapPages e

/-- So does taking one out. -/
theorem State.Canonical.unmapPage {s : State} (h : s.Canonical) (p : Part) (va pa : Nat) : (s.unmapPage p va pa).Canonical := by
  rw [State.unmapPage]
  generalize s.leafAt p va 3 p.root = x
  cases x with
  | none => exact h
  | some ea =>
    show State.Canonical (if _ then _ else _)
    split
    · exact h.putPte ea 0
    · exact h

/-- A write from outside the device is a store within one granule of foreign memory, or it does not happen (R132) [43]. -/
theorem State.foreignWrite_cases {s t : State} {pa : Nat} {d : List Byte} {tag : Bool} (h : s.foreignWrite pa d tag = .next t) :
    (isHostPa pa = true ∨ peerPa ≤ pa) ∧ d ≠ [] ∧ pa % 16 + d.length ≤ 16
      ∧ t = s.store none [⟨{ loc := .phys pa }, d, tag⟩] := by
  simp only [State.foreignWrite] at h
  split at h
  · next hc =>
    cases h
    simp only [Bool.and_eq_true, Bool.or_eq_true, decide_eq_true_eq, Bool.not_eq_true', List.isEmpty_eq_false_iff] at hc
    exact ⟨hc.1.1.imp id fun x => x.1.1.1, hc.1.2, hc.2, rfl⟩
  · cases h

theorem State.Canonical.foreignWrite {s t : State} (hs : s.Canonical) {pa : Nat} {d : List Byte} {tag : Bool}
    (h : s.foreignWrite pa d tag = .next t) : t.Canonical := by
  obtain ⟨-, -, -, rfl⟩ := State.foreignWrite_cases h
  exact hs.store _ _

/-! Walks (R305 to R307, R349). -/

/-- A page that an entry gives is one that the partition may map. -/
theorem State.entryMeans_ok {s : State} {p : Part} {va level e pa attr : Nat}
    (h : s.entryMeans p va level e = .error (.ok pa attr)) : s.mayMap p pa = true := by
  unfold State.entryMeans at h
  split at h
  · cases h
  · split at h
    · cases h
    · split at h
      · split at h <;> cases h
      · simp only at h
        split at h
        · cases h
        · split at h
          · next hm => cases h; exact hm
          · cases h
      · split at h <;> cases h
      · cases h

/-- A walk reads its tables in the partition's own storage. -/
theorem State.walkLevel_owns {s : State} {p : Part} {va level table x : Nat} {see : Nat → Nat → Nat}
    (h : s.walkLevel p va see level table = .ok x) : s.ownsPa p (s.pkg.norm (table + 8 * levelIndex va level)) = true := by
  unfold State.walkLevel at h
  simp only at h
  split at h
  · cases h
  · next hn => simpa using hn

/-- What a walk maps an address to, the partition may map. -/
theorem State.walkFrom_ok {s : State} {p : Part} {va : Nat} {see : Nat → Nat → Nat} : ∀ {left table pa attr : Nat},
    s.walkFrom p va see left table = .ok pa attr → s.mayMap p pa = true := by
  have level {level table pa attr : Nat} (h : s.walkLevel p va see level table = .error (.ok pa attr)) : s.mayMap p pa = true := by
    unfold State.walkLevel at h
    simp only at h
    split at h
    · cases h
    · split at h
      · cases h
      · split at h
        · cases h
        · exact State.entryMeans_ok h
  intro left
  induction left with
  | zero =>
    intro table pa attr h
    rw [State.walkFrom] at h
    split at h
    · cases h
    · next hx => exact level (h ▸ hx)
  | succ left ih =>
    intro table pa attr h
    rw [State.walkFrom] at h
    split at h
    · exact ih h
    · next hx => exact level (h ▸ hx)

/-- Nor does a cached page entry reach anything else (R319, R349). -/
theorem State.cached_ok {s : State} {p : Part} {t : TlbEntry} {va pa attr : Nat} (h : s.cached p t va = .ok pa attr) :
    s.mayMap p pa = true := by
  unfold State.cached at h
  simp only at h
  split at h
  · next hm => cases h; exact hm
  · cases h

/-! The arbiter (R51). -/

/-- Serving a warp changes the warp at issue and the arbiter alone. -/
theorem State.served_frame (s : State) (wi : Nat) :
    ∃ a, s.served wi = { s with cur := wi, co := none, arb := a } := by
  unfold State.served
  split
  · exact ⟨_, rfl⟩
  · exact ⟨_, rfl⟩

/-- A core serves one of its own warps, and one that has a split ready to issue. -/
theorem State.nextServed_ready {s : State} {core i : Nat} (h : s.nextServed core = some i) : i ∈ s.readyOn core := by
  simp only [State.nextServed] at h
  split at h
  · next hf => cases h; exact List.mem_of_find?_eq_some hf
  · exact List.mem_of_mem_head? h

/-- CLOCK never falls (R69). -/
theorem le_clockAfter (now : Word64) (n : Nat) : now.toNat ≤ (clockAfter now n).toNat := by
  have := now.isLt
  simp only [clockAfter, BitVec.toNat_ofNat]
  omega

end Sys2Proof.Machine
end

