-- ==== Sys2Proof/Laws/Word.lean ====
section
/-! SUPPORT. What passing the static checks says of an instruction's operands, and the registers that its word names as
written. -/

namespace Sys2Proof.Machine

open Sys2Proof

/-- An issue that passes its checks is of a well-formed word. -/
theorem Issues.check {i : Instr} {s : State} {c : Ctx} (h : Issues i s c) : i.check = none := by
  have := h.passes
  unfold State.earlyFault at this
  dsimp only at this
  split at this
  · cases this
  · next hn => simp at hn; exact hn.1

/-- The row's checks that a well-formed instruction passes. -/
theorem Instr.check_row {i : Instr} {r : Row} {v : View} (h : i.check = none) (hr : i.row = some r) (hv : i.view = some v) :
    r.check v = none := by
  unfold Instr.check at h
  simp only [hr, hv] at h
  split at h
  · cases h
  · next hh => exact hh

theorem Row.check_places {r : Row} {v : View} (h : r.check v = none) :
    r.dst.accepts v v.dst = true ∧ r.a.accepts v v.a = true ∧ r.b.accepts v v.b = true ∧ r.c.accepts v v.c = true
      ∧ r.d.accepts v v.d = true ∧ v.ty ∈ r.ty ∧ r.sub.accepts v = true := by
  unfold Row.check at h
  split_ifs at h with h1 h2 h3 h4 h5 h6 h7
  simp only [Row.places, List.all_cons, List.all_nil, Bool.and_true, Bool.not_eq_false, Bool.and_eq_true,
    Bool.not_eq_eq_eq_not, Bool.not_true] at h1 h3 h7
  refine ⟨?_, ?_, ?_, ?_, ?_, ?_, ?_⟩ <;> simp_all

/-- The destination's registers are among those that the word writes. -/
theorem Instr.dst_written {i : Instr} {r : Row} {v : View} (hr : i.row = some r) (hv : i.view = some v) (hw : r.dst.writes = true)
    {o : Operand} (ho : o ∈ r.dst.registers v v.dst) : o ∈ i.regsWritten := by
  unfold Instr.regsWritten
  refine List.mem_append_left _ ?_
  unfold Instr.placeRegs
  simp only [hr, hv, Row.places]
  exact List.mem_flatMap.mpr ⟨(r.dst, v.dst), by simp, by simpa [hw] using ho⟩

theorem Ty.width_cases (t : Ty) : t.width = 4 ∨ t.width = 8 ∨ t.width = 16 ∨ t.width = 32 ∨ t.width = 64 := by
  cases t <;> simp [Ty.width]

/-- The places of one destination: a value of the type or of a fixed size, or a predicate. -/
def Slot.oneDest : Slot → Bool
  | .vkTw | .vTw | .vTrw | .vk32w | .v32w | .pw => true
  | _ => false

/-- The width of what such a place holds. -/
def Slot.widthOf (s : Slot) (t : Ty) : Nat :=
  match s with
  | .vkTw | .vTw | .vTrw => t.width
  | .pw => 1
  | _ => 32

theorem ofNat_add_toNat (n : BitVec 8) (j : Nat) : BitVec.ofNat 8 (n.toNat + j) = n + BitVec.ofNat 8 j := by
  apply BitVec.eq_of_toNat_eq
  simp [BitVec.toNat_add]

/-- The destination of a well-formed instruction names registers that its word writes. -/
theorem Names.of_row {i : Instr} {r : Row} {v : View} (hc : i.check = none) (hr : i.row = some r) (hv : i.view = some v)
    (hs : Slot.oneDest r.dst = true) : Names i v.dst (Slot.widthOf r.dst v.ty) := by
  have ha := (Row.check_places (Instr.check_row hc hr hv)).1
  have hwr : r.dst.writes = true := by revert hs; cases r.dst <;> simp [Slot.oneDest, Slot.writes]
  have hmem := fun {o} => Instr.dst_written (o := o) hr hv hwr
  have ht := Ty.width_cases v.ty
  have hreg : v.ty.regs = if v.ty.width > 32 then 2 else 1 := by
    unfold Ty.regs; rcases ht with h | h | h | h | h <;> rw [h] <;> rfl
  have hused : r.dst.used v v.dst = true := by revert hs; cases r.dst <;> simp [Slot.oneDest, Slot.used]
  have hn : ∀ n : BitVec 8, v.dst = .v n → r.dst.regs v = (if Slot.widthOf r.dst v.ty > 32 then 2 else 1) ∧ n.toNat % r.dst.regs v = 0 := by
    intro n hd
    rw [hd] at ha hused
    revert hs ha
    unfold Slot.accepts
    rw [hused]
    cases r.dst <;> simp [Slot.oneDest, Slot.regs, Slot.widthOf, hreg]
  refine ⟨?_, ?_, ?_, ?_, ?_, ?_⟩
  · revert hs ha
    unfold Slot.accepts
    rw [hused]
    cases r.dst <;> cases v.dst <;> simp [Slot.oneDest, Operand.isDest]
  · revert hs
    cases r.dst <;> simp [Slot.oneDest, Slot.widthOf] <;> omega
  · intro inv p hd
    rw [hd] at ha hused
    revert hs ha
    unfold Slot.accepts
    rw [hused]
    cases r.dst <;> simp [Slot.oneDest, Slot.widthOf]
  · intro n hd j hj
    obtain ⟨h1, h2⟩ := hn n hd
    rw [← h1] at hj
    have hlt := n.isLt
    refine ⟨?_, hmem ?_⟩
    · split at h1 <;> rw [h1] at h2 hj <;> omega
    · unfold Slot.registers
      rw [hused, hd]
      simp only [Bool.not_true, Bool.false_eq_true, if_false, List.mem_map, List.mem_range]
      exact ⟨j, hj, by rw [ofNat_add_toNat]⟩
  · intro n hd
    refine hmem ?_
    unfold Slot.registers
    rw [hused, hd]
    revert hs
    cases r.dst <;> simp [Slot.oneDest]
  · intro inv n hd
    refine ⟨false, hmem ?_⟩
    unfold Slot.registers
    rw [hused, hd]
    simp

end Sys2Proof.Machine
end

