-- ==== Sys2Proof/Tests/Slice0.lean ====
section
/-! SUPPORT. Tests: words decode as the spec lays them out, each well-formedness check refuses a term, the hypotheses of every
statement can be met, and single steps give what the spec's tables say. -/

namespace Sys2Proof.Tests

open Sys2Proof Sys2Proof.Machine Sys2Proof.Claims

set_option Elab.async false

/-! Short forms: fields not named are zero. -/

/-- A header with no guard, no lookahead, no hold and no hint. -/
def h0 : Hdr := ⟨none, 0, .none, .normal⟩

def rf (dst a b c : Operand := .v 0) (ty : Ty := .s8) (sub : BitVec 7 := 0) (d : Operand := .v 0) (rnd : Rnd := .rn)
    (space : Space := .g) (scope : Scope := .warp) (hdr : Hdr := h0) : RegForm :=
  ⟨hdr, dst, a, b, c, d, ty, rnd, space, scope, sub⟩

def mf (dst base b c : Operand := .v 0) (ty : Ty := .s8) (sub : BitVec 6 := 0) (off : BitVec 20 := 0) (space : Space := .g)
    (scope : Scope := .warp) (hdr : Hdr := h0) : MemForm :=
  ⟨hdr, dst, base, b, c, ty, space, scope, sub, off⟩

def imf (dst a : Operand := .v 0) (ty : Ty := .s8) (imm : Word32 := 0) (sub : BitVec 7 := 0) (hdr : Hdr := h0) : ImmForm :=
  ⟨hdr, dst, a, ty, .rn, .g, .warp, sub, imm⟩

def cf (dst a b : Operand := .v 0) (ty : Ty := .s8) (op : BitVec 3 := 0) (mask : Lanes := 0xFFFFFFFF) (hdr : Hdr := h0) : ColForm :=
  ⟨hdr, dst, a, b, ty, .rn, op, mask⟩

/-- Each word decodes to the instruction beside it. -/
def decodesAs (l : List (Nat × Instr)) : Bool := l.all fun x => match decodeWord x.1 with
  | .ok i => decide (i = x.2)
  | .error _ => false

/-! States with a warp of 32 lanes at an instruction. -/

/-- The vault window, mapped as one page of 1 GiB by a translation tree at physical 0. -/
def mapped (s : State) : State :=
  { s with mem := FMap.setN 0 (FMap.setN 0 s.mem 0 (leBytes 8 0x103001)) 0x103A00 (leBytes 8 0xA0000000023) }
/-- The device at reset, with the vault window mapped. -/
def booted : State := mapped State.reset
/-- A state whose warp 0 issues the instruction, after a change. -/
def at_ (i : Instr) (f : State → State := id) : State := f { mapped (State.reset.placeWord (encodeWord i)) with cur := 0 }

/-- The instruction issues there, in a context of which a test holds. -/
def meets (i : Instr) (s : State) (p : Ctx → Bool) : Bool :=
  match s.contextFor i with
  | some c => c.w.pending.isEmpty && !mustWait i c && ((s.settledFor c i).earlyFault i (c.settled i)).isNone
      && decide (c.w.fragments ≤ (runAhead c.w.kind).2.2) && p c
  | none => false

theorem issues_of_meets {i : Instr} {s : State} {p : Ctx → Bool} (h : meets i s p = true) : ∃ c, Issues i s c ∧ p c = true := by
  unfold meets at h
  split at h
  · simp only [Bool.and_eq_true, Bool.not_eq_true', Option.isNone_iff_eq_none, List.isEmpty_iff, decide_eq_true_eq] at h
    exact ⟨_, ⟨by assumption, h.1.1.1.1, h.1.1.1.2, h.1.1.2, h.1.2⟩, h.2⟩
  · cases h

/-- ACTIVE holds every lane. -/
def full (c : Ctx) : Bool := c.active == 0xFFFFFFFF
/-- No checkpoint is open once the instruction issues. -/
def plain (i : Instr) (f : State → State := id) (c : Ctx) : Bool := (c.openedIn i (at_ i f)).w.ckpts.isEmpty

/-- Words of the control family written from R145 to R155. -/
theorem test_words_control : decodesAs
    [(0x000008000000000000000000,
      .nop ⟨⟨none, 0, .b, .normal⟩, .v 0, .v 0, .v 0, .v 0, .v 0, .s8, .rn, .g, .warp, 0⟩),
     (0x0065000000000000FFFFFFED,
      .bra ⟨⟨(some ⟨false, 5⟩), 0, .none, .normal⟩, 0x1ffffffd, 5⟩),
     (0x00A3047FF530017C00700000,
      .mbr ⟨0, .a, .normal, ⟨3, 0x7FF, 2⟩, [⟨9, 0x800, 5⟩, ⟨15, 1, 6⟩]⟩),
     (0x00C000000C00000000000000,
      .brx ⟨h0, .v 0, .v 12, .v 0, .v 0, .v 0, .s8, .rn, .g, .warp, 0⟩),
     (0x010000000000000007FFFFFA,
      .call ⟨h0, 0xffffff, 2⟩),
     (0x014000000700000010000000,
      .callx ⟨h0, .v 0, .k 7, .v 0, .v 0, .v 0, .s8, .rn, .g, .warp, 0⟩),
     (0x018000000000000000000000,
      .ret ⟨h0, .v 0, .v 0, .v 0, .v 0, .v 0, .s8, .rn, .g, .warp, 0⟩),
     (0x01F904000000000000000000,
      .exit ⟨⟨(some ⟨true, 9⟩), 0, .a, .normal⟩, .v 0, .v 0, .v 0, .v 0, .v 0, .s8, .rn, .g, .warp, 0⟩),
     (0x020000000000000000000000,
      .yield ⟨h0, .v 0, .v 0, .v 0, .v 0, .v 0, .s8, .rn, .g, .warp, 0⟩),
     (0x0265000000000000DEADBEEF,
      .trap ⟨⟨(some ⟨false, 5⟩), 0, .none, .normal⟩, .v 0, .v 0, .s8, .rn, .g, .warp, 0, 0xdeadbeef⟩),
     (0x028000000000000000000000,
      .bkpt ⟨h0, .v 0, .v 0, .v 0, .v 0, .v 0, .s8, .rn, .g, .warp, 0⟩),
     (0x02C000000000000000000000,
      .trst ⟨h0, .v 0, .v 0, .v 0, .v 0, .v 0, .s8, .rn, .g, .warp, 0⟩)] = true := by decide +kernel

/-- Words of the integer family written from R145 to R155. -/
theorem test_words_integer1 : decodesAs
    [(0x20000014283C000000020001,
      .iadd ⟨h0, .v 20, .v 40, .v 60, .v 0, .v 0, .s32, .rn, .g, .warp, 1⟩),
     (0x2079041E0802000112345678,
      .iaddImm ⟨⟨(some ⟨true, 9⟩), 0, .a, .normal⟩, .v 30, .v 8, .s32, .rn, .g, .warp, 1, 0x12345678⟩),
     (0x20800014283C000000070001,
      .isub ⟨h0, .v 20, .v 40, .v 60, .v 0, .v 0, .n64, .rn, .g, .warp, 1⟩),
     (0x20F9041E0807000112345678,
      .isubImm ⟨⟨(some ⟨true, 9⟩), 0, .a, .normal⟩, .v 30, .v 8, .n64, .rn, .g, .warp, 1, 0x12345678⟩),
     (0x21000014283C000000060001,
      .imul ⟨h0, .v 20, .v 40, .v 60, .v 0, .v 0, .n32, .rn, .g, .warp, 1⟩),
     (0x2179041E0806000112345678,
      .imulImm ⟨⟨(some ⟨true, 9⟩), 0, .a, .normal⟩, .v 30, .v 8, .n32, .rn, .g, .warp, 1, 0x12345678⟩),
     (0x21800014283C000000030000,
      .imulh ⟨h0, .v 20, .v 40, .v 60, .v 0, .v 0, .s64, .rn, .g, .warp, 0⟩),
     (0x21F9041E0803000012345678,
      .imulhImm ⟨⟨(some ⟨true, 9⟩), 0, .a, .normal⟩, .v 30, .v 8, .s64, .rn, .g, .warp, 0, 0x12345678⟩),
     (0x220000020406080004020001,
      .imad ⟨h0, .v 2, .v 4, .k 6, .v 8, .v 0, .s32, .rn, .g, .warp, 1⟩),
     (0x2280FC02043F000004020000,
      .idiv ⟨⟨none, 15, .c, .normal⟩, .v 2, .v 4, .k 63, .v 0, .v 0, .s32, .rn, .g, .warp, 0⟩),
     (0x22FF30020406000000000007,
      .idivImm ⟨⟨(some ⟨true, 15⟩), 3, .none, .normal⟩, .v 2, .v 4, .n32, .rn, .g, .warp, 0, 0x7⟩),
     (0x23000014283C000000070000,
      .irem ⟨h0, .v 20, .v 40, .v 60, .v 0, .v 0, .n64, .rn, .g, .warp, 0⟩),
     (0x2379041E0807000012345678,
      .iremImm ⟨⟨(some ⟨true, 9⟩), 0, .a, .normal⟩, .v 30, .v 8, .n64, .rn, .g, .warp, 0, 0x12345678⟩),
     (0x238000020400000000030001,
      .iabs ⟨h0, .v 2, .v 4, .v 0, .v 0, .v 0, .s64, .rn, .g, .warp, 1⟩),
     (0x240000020400000050060001,
      .ineg ⟨h0, .k 2, .k 4, .v 0, .v 0, .v 0, .n32, .rn, .g, .warp, 1⟩),
     (0x24800014283C000000020000,
      .imin ⟨h0, .v 20, .v 40, .v 60, .v 0, .v 0, .s32, .rn, .g, .warp, 0⟩),
     (0x24F9041E0802000012345678,
      .iminImm ⟨⟨(some ⟨true, 9⟩), 0, .a, .normal⟩, .v 30, .v 8, .s32, .rn, .g, .warp, 0, 0x12345678⟩),
     (0x25000014283C000000060000,
      .imax ⟨h0, .v 20, .v 40, .v 60, .v 0, .v 0, .n32, .rn, .g, .warp, 0⟩)] = true := by decide +kernel

/-- Words of the integer family written from R145 to R155. -/
theorem test_words_integer2 : decodesAs
    [(0x2579041E0806000012345678,
      .imaxImm ⟨⟨(some ⟨true, 9⟩), 0, .a, .normal⟩, .v 30, .v 8, .n32, .rn, .g, .warp, 0, 0x12345678⟩)] = true := by decide +kernel

/-- Words of the logic family written from R145 to R155. -/
theorem test_words_logic1 : decodesAs
    [(0x25800014283C000000060000,
      .shl ⟨h0, .v 20, .v 40, .v 60, .v 0, .v 0, .n32, .rn, .g, .warp, 0⟩),
     (0x25F9041E0806000000000021,
      .shlImm ⟨⟨(some ⟨true, 9⟩), 0, .a, .normal⟩, .v 30, .v 8, .n32, .rn, .g, .warp, 0, 0x21⟩),
     (0x26000014283C000000060000,
      .shr ⟨h0, .v 20, .v 40, .v 60, .v 0, .v 0, .n32, .rn, .g, .warp, 0⟩),
     (0x2679041E0806000000000021,
      .shrImm ⟨⟨(some ⟨true, 9⟩), 0, .a, .normal⟩, .v 30, .v 8, .n32, .rn, .g, .warp, 0, 0x21⟩),
     (0x26800014283C000000060000,
      .sar ⟨h0, .v 20, .v 40, .v 60, .v 0, .v 0, .n32, .rn, .g, .warp, 0⟩),
     (0x26F9041E0806000000000021,
      .sarImm ⟨⟨(some ⟨true, 9⟩), 0, .a, .normal⟩, .v 30, .v 8, .n32, .rn, .g, .warp, 0, 0x21⟩),
     (0x27000014283C000000060000,
      .rotl ⟨h0, .v 20, .v 40, .v 60, .v 0, .v 0, .n32, .rn, .g, .warp, 0⟩),
     (0x2779041E0806000000000021,
      .rotlImm ⟨⟨(some ⟨true, 9⟩), 0, .a, .normal⟩, .v 30, .v 8, .n32, .rn, .g, .warp, 0, 0x21⟩),
     (0x27800014283C000000070000,
      .andB ⟨h0, .v 20, .v 40, .v 60, .v 0, .v 0, .n64, .rn, .g, .warp, 0⟩),
     (0x27F9041E0807000012345678,
      .andBImm ⟨⟨(some ⟨true, 9⟩), 0, .a, .normal⟩, .v 30, .v 8, .n64, .rn, .g, .warp, 0, 0x12345678⟩),
     (0x28000014283C000000070000,
      .orB ⟨h0, .v 20, .v 40, .v 60, .v 0, .v 0, .n64, .rn, .g, .warp, 0⟩),
     (0x2879041E0807000012345678,
      .orBImm ⟨⟨(some ⟨true, 9⟩), 0, .a, .normal⟩, .v 30, .v 8, .n64, .rn, .g, .warp, 0, 0x12345678⟩),
     (0x28800014283C000000070000,
      .xor ⟨h0, .v 20, .v 40, .v 60, .v 0, .v 0, .n64, .rn, .g, .warp, 0⟩),
     (0x28F9041E0807000012345678,
      .xorImm ⟨⟨(some ⟨true, 9⟩), 0, .a, .normal⟩, .v 30, .v 8, .n64, .rn, .g, .warp, 0, 0x12345678⟩),
     (0x290000020500000010060000,
      .notB ⟨h0, .v 2, .k 5, .v 0, .v 0, .v 0, .n32, .rn, .g, .warp, 0⟩),
     (0x298000010203040000066E00,
      .logx ⟨h0, .v 1, .v 2, .v 3, .v 4, .n32, 6, 14⟩),
     (0x2A0000010400000000070000,
      .popc ⟨h0, .v 1, .v 4, .v 0, .v 0, .v 0, .n64, .rn, .g, .warp, 0⟩),
     (0x2A8000010400000050060000,
      .clz ⟨h0, .k 1, .k 4, .v 0, .v 0, .v 0, .n32, .rn, .g, .warp, 0⟩)] = true := by decide +kernel

/-- Words of the logic family written from R145 to R155. -/
theorem test_words_logic2 : decodesAs
    [(0x2B0000010300000000060000,
      .brev ⟨h0, .v 1, .v 3, .v 0, .v 0, .v 0, .n32, .rn, .g, .warp, 0⟩),
     (0x2B8000010305090004020000,
      .bfx ⟨h0, .v 1, .v 3, .k 5, .v 9, .v 0, .s32, .rn, .g, .warp, 0⟩),
     (0x2C0000020406090B00070000,
      .bfi ⟨h0, .v 2, .v 4, .v 6, .v 9, .v 11, .n64, .rn, .g, .warp, 0⟩),
     (0x2C8000020407000000070007,
      .lea ⟨h0, .v 2, .v 4, .v 7, .v 0, .v 0, .n64, .rn, .g, .warp, 7⟩),
     (0x2CC0000204030003FFFFFFFF,
      .leaImm ⟨h0, .v 2, .v 4, .s64, .rn, .g, .warp, 3, 0xffffffff⟩)] = true := by decide +kernel

/-- Words of the moves family written from R145 to R155. -/
theorem test_words_moves : decodesAs
    [(0x2D0000010200000010060000,
      .mov ⟨h0, .v 1, .k 2, .v 0, .v 0, .v 0, .n32, .rn, .g, .warp, 0⟩),
     (0x2DC00001000900003F800000,
      .movi ⟨h0, .v 1, .v 0, .f32, .rn, .g, .warp, 0, 0x3f800000⟩),
     (0x2E0000010203040000060000,
      .prmt ⟨h0, .v 1, .v 2, .v 3, .v 4, .v 0, .n32, .rn, .g, .warp, 0⟩),
     (0x2E4000010206000000004321,
      .prmtImm ⟨h0, .v 1, .v 2, .n32, .rn, .g, .warp, 0, 0x4321⟩),
     (0x2E8000010203870002060000,
      .sel ⟨h0, .v 1, .v 2, .v 3, .p true 7, .v 0, .n32, .rn, .g, .warp, 0⟩),
     (0x2F0000030204000080030005,
      .icmp ⟨h0, .p false 3, .v 2, .v 4, .v 0, .v 0, .s64, .rn, .g, .warp, 5⟩),
     (0x2F40000F0286000200000009,
      .icmpImm ⟨h0, .p false 15, .v 2, .n32, .rn, .g, .warp, 2, 0x9⟩),
     (0x2F8000023C01000010070000,
      .krd ⟨h0, .v 2, .k 60, .v 1, .v 0, .v 0, .n64, .rn, .g, .warp, 0⟩),
     (0x3000000182030000A8000002,
      .plop ⟨h0, .p false 1, .p true 2, .p false 3, .v 0, .v 0, .s8, .rn, .g, .warp, 2⟩),
     (0x308000058400000020000000,
      .p2v ⟨h0, .v 5, .p true 4, .v 0, .v 0, .v 0, .s8, .rn, .g, .warp, 0⟩),
     (0x310000000500000080000001,
      .v2p ⟨h0, .p false 0, .v 5, .v 0, .v 0, .v 0, .s8, .rn, .g, .warp, 1⟩),
     (0x318000040D00000030000000,
      .gets ⟨h0, .v 4, .sp .clock, .v 0, .v 0, .v 0, .s8, .rn, .g, .warp, 0⟩),
     (0x3200000E02000000D0000000,
      .sets ⟨h0, .sp .pctl, .k 2, .v 0, .v 0, .v 0, .s8, .rn, .g, .warp, 0⟩),
     (0x3240000F00C000000000003F,
      .setsImm ⟨h0, .sp .lstat, .v 0, .s8, .rn, .g, .warp, 0, 0x3f⟩)] = true := by decide +kernel

/-- Words of the float family written from R145 to R155. -/
theorem test_words_float1 : decodesAs
    [(0x60000014283C000000092000,
      .fadd ⟨h0, .v 20, .v 40, .v 60, .v 0, .v 0, .f32, .rz, .g, .warp, 0⟩),
     (0x6079041E0809200012345678,
      .faddImm ⟨⟨(some ⟨true, 9⟩), 0, .a, .normal⟩, .v 30, .v 8, .f32, .rz, .g, .warp, 0, 0x12345678⟩),
     (0x60800014283C000000084000,
      .fsub ⟨h0, .v 20, .v 40, .v 60, .v 0, .v 0, .f64, .ru, .g, .warp, 0⟩),
     (0x60F9041E0808400012345678,
      .fsubImm ⟨⟨(some ⟨true, 9⟩), 0, .a, .normal⟩, .v 30, .v 8, .f64, .ru, .g, .warp, 0, 0x12345678⟩),
     (0x61000014283C0000000A6000,
      .fmul ⟨h0, .v 20, .v 40, .v 60, .v 0, .v 0, .f16, .rd, .g, .warp, 0⟩),
     (0x6179041E080A600012345678,
      .fmulImm ⟨⟨(some ⟨true, 9⟩), 0, .a, .normal⟩, .v 30, .v 8, .f16, .rd, .g, .warp, 0, 0x12345678⟩),
     (0x6180000204060800000B8000,
      .ffma ⟨h0, .v 2, .v 4, .v 6, .v 8, .v 0, .bf16, .sr, .g, .warp, 0⟩),
     (0x62000014283C000000090001,
      .fmin ⟨h0, .v 20, .v 40, .v 60, .v 0, .v 0, .f32, .rn, .g, .warp, 1⟩),
     (0x6279041E0809000112345678,
      .fminImm ⟨⟨(some ⟨true, 9⟩), 0, .a, .normal⟩, .v 30, .v 8, .f32, .rn, .g, .warp, 1, 0x12345678⟩),
     (0x62800014283C000000080001,
      .fmax ⟨h0, .v 20, .v 40, .v 60, .v 0, .v 0, .f64, .rn, .g, .warp, 1⟩),
     (0x62F9041E0808000112345678,
      .fmaxImm ⟨⟨(some ⟨true, 9⟩), 0, .a, .normal⟩, .v 30, .v 8, .f64, .rn, .g, .warp, 1, 0x12345678⟩),
     (0x6300000103000000000A0000,
      .fabs ⟨h0, .v 1, .v 3, .v 0, .v 0, .v 0, .f16, .rn, .g, .warp, 0⟩),
     (0x6380000103000000000B0000,
      .fneg ⟨h0, .v 1, .v 3, .v 0, .v 0, .v 0, .bf16, .rn, .g, .warp, 0⟩),
     (0x64000002010300008009000D,
      .fcmp ⟨h0, .p false 2, .v 1, .v 3, .v 0, .v 0, .f32, .rn, .g, .warp, 13⟩),
     (0x64400002018900067FC00000,
      .fcmpImm ⟨h0, .p false 2, .v 1, .f32, .rn, .g, .warp, 6, 0x7fc00000⟩),
     (0x6480000201030000800C0000,
      .fclass ⟨h0, .p false 2, .v 1, .v 3, .v 0, .v 0, .e4m3, .rn, .g, .warp, 0⟩),
     (0x65000014283C000000082000,
      .fdiv ⟨h0, .v 20, .v 40, .v 60, .v 0, .v 0, .f64, .rz, .g, .warp, 0⟩),
     (0x6579041E0808200012345678,
      .fdivImm ⟨⟨(some ⟨true, 9⟩), 0, .a, .normal⟩, .v 30, .v 8, .f64, .rz, .g, .warp, 0, 0x12345678⟩)] = true := by decide +kernel

/-- Words of the float family written from R145 to R155. -/
theorem test_words_float2 : decodesAs
    [(0x658000020400000000094000,
      .fsqrt ⟨h0, .v 2, .v 4, .v 0, .v 0, .v 0, .f32, .ru, .g, .warp, 0⟩),
     (0x660010020400000000080000,
      .frcpa ⟨⟨none, 1, .none, .normal⟩, .v 2, .v 4, .v 0, .v 0, .v 0, .f64, .rn, .g, .warp, 0⟩),
     (0x6680200204000000000A0000,
      .frsqa ⟨⟨none, 2, .none, .normal⟩, .v 2, .v 4, .v 0, .v 0, .v 0, .f16, .rn, .g, .warp, 0⟩),
     (0x6700300204000000000B0000,
      .fex2 ⟨⟨none, 3, .none, .normal⟩, .v 2, .v 4, .v 0, .v 0, .v 0, .bf16, .rn, .g, .warp, 0⟩),
     (0x678040020400000000090000,
      .flg2 ⟨⟨none, 4, .none, .normal⟩, .v 2, .v 4, .v 0, .v 0, .v 0, .f32, .rn, .g, .warp, 0⟩),
     (0x680050020400000000080000,
      .fsin ⟨⟨none, 5, .none, .normal⟩, .v 2, .v 4, .v 0, .v 0, .v 0, .f64, .rn, .g, .warp, 0⟩),
     (0x6880600204000000000A0000,
      .fcos ⟨⟨none, 6, .none, .normal⟩, .v 2, .v 4, .v 0, .v 0, .v 0, .f16, .rn, .g, .warp, 0⟩),
     (0x6900700204000000000B0000,
      .ftanh ⟨⟨none, 7, .none, .normal⟩, .v 2, .v 4, .v 0, .v 0, .v 0, .bf16, .rn, .g, .warp, 0⟩),
     (0x69800014283C000000096000,
      .fscale ⟨h0, .v 20, .v 40, .v 60, .v 0, .v 0, .f32, .rd, .g, .warp, 0⟩),
     (0x69F9041E08096000FFFFFFFF,
      .fscaleImm ⟨⟨(some ⟨true, 9⟩), 0, .a, .normal⟩, .v 30, .v 8, .f32, .rd, .g, .warp, 0, 0xffffffff⟩),
     (0x6A0000020400000000086000,
      .frnd ⟨h0, .v 2, .v 4, .v 0, .v 0, .v 0, .f64, .rd, .g, .warp, 0⟩)] = true := by decide +kernel

/-- Words of the convert family written from R145 to R155. -/
theorem test_words_convert : decodesAs
    [(0x6A8000010300000000042009,
      .cvt ⟨h0, .v 1, .v 3, .v 0, .v 0, .v 0, .n8, .rz, .g, .warp, 9⟩),
     (0x6A8000010300000000000012,
      .cvt ⟨h0, .v 1, .v 3, .v 0, .v 0, .v 0, .s8, .rn, .g, .warp, 18⟩),
     (0x6B00000102030405000E204D,
      .qnt ⟨h0, .v 1, .v 2, .v 3, .v 4, .v 5, .b4, .rz, .g, .warp, 77⟩),
     (0x6B8000010203000010090007,
      .dqnt ⟨h0, .v 1, .k 2, .v 3, .v 0, .v 0, .f32, .rn, .g, .warp, 7⟩),
     (0x6C00000102030400000D4000,
      .fdot ⟨h0, .v 1, .v 2, .v 3, .v 4, .v 0, .e5m2, .ru, .g, .warp, 0⟩),
     (0x6C8000000204060015000001,
      .rngkey ⟨h0, .v 0, .k 2, .k 4, .k 6, .v 0, .s8, .rn, .g, .warp, 1⟩),
     (0x6D0000020000000000000001,
      .rngdraw ⟨h0, .v 2, .v 0, .v 0, .v 0, .v 0, .s8, .rn, .g, .warp, 1⟩),
     (0x6D8000000200000010000000,
      .rngskip ⟨h0, .v 0, .k 2, .v 0, .v 0, .v 0, .s8, .rn, .g, .warp, 0⟩),
     (0x6DC00000000000000000004D,
      .rngskipImm ⟨h0, .v 0, .v 0, .s8, .rn, .g, .warp, 0, 0x4d⟩),
     (0x6E0000040300000080000000,
      .tagq ⟨h0, .p false 4, .v 3, .v 0, .v 0, .v 0, .s8, .rn, .g, .warp, 0⟩),
     (0x6E8000040600000000000001,
      .tagp ⟨h0, .v 4, .v 6, .v 0, .v 0, .v 0, .s8, .rn, .g, .warp, 1⟩),
     (0x6F0000020406080300891F82,
      .dcorv ⟨h0, .v 2, .v 4, .v 6, .v 8, .p false 3, .f32, 63, 2⟩)] = true := by decide +kernel

/-- Words of the memory family written from R145 to R155. -/
theorem test_words_memory : decodesAs
    [(0xA000210802000006629FFFFC,
      .ld ⟨⟨none, 2, .none, .readCount⟩, .v 8, .v 2, .v 0, .v 0, .n32, .c, .warp, 41, 0xffffc⟩),
     (0xA0000308030000008007FFFF,
      .ld ⟨⟨none, 0, .none, .bypass⟩, .v 8, .v 3, .v 0, .v 0, .s8, .p, .warp, 0, 0x7ffff⟩),
     (0xA06500000209006D40080000,
      .st ⟨⟨(some ⟨false, 5⟩), 0, .none, .normal⟩, .v 0, .k 2, .k 9, .v 0, .e5m2, .v, .warp, 0, 0x80000⟩),
     (0xA0800008020406070C700000,
      .atom ⟨h0, .v 8, .v 2, .v 4, .v 6, .n64, .g, .die, 7, 0x0⟩),
     (0xA0C000000304000924000000,
      .red ⟨h0, .v 0, .v 3, .v 4, .v 0, .f32, .l, .group, 0, 0x0⟩),
     (0xA10000000000000000000001,
      .fence ⟨h0, .v 0, .v 0, .v 0, .v 0, .v 0, .s8, .rn, .g, .warp, 1⟩),
     (0xA1400100020000000CF00040,
      .pft ⟨⟨none, 0, .none, .readCount⟩, .v 0, .v 2, .v 0, .v 0, .s8, .g, .die, 15, 0x40⟩),
     (0xA18000000200000050200000,
      .cctl ⟨h0, .v 0, .v 2, .v 0, .v 0, .s8, .v, .pkg, 2, 0x0⟩),
     (0xA1C000010204000215200000,
      .scatc ⟨h0, .v 1, .v 2, .v 4, .v 0, .s32, .g, .fabric, 18, 0x0⟩)] = true := by decide +kernel

/-- Words of the collective family written from R145 to R155. -/
theorem test_words_collective : decodesAs
    [(0xC000000102030183F0F0F0F0,
      .shfl ⟨h0, .v 1, .v 2, .v 3, .n32, .rn, 3, 0xf0f0f0f0⟩),
     (0xC04000018200A001FFFFFFFF,
      .vote ⟨h0, .p false 1, .p true 2, .v 0, .s8, .rn, 1, 0xffffffff⟩),
     (0xC080000204060A58FFFFFFFF,
      .wred ⟨h0, .v 2, .v 4, .p false 6, .f32, .rd, 0, 0xffffffff⟩),
     (0xC0C00002040001C500000001,
      .wscan ⟨h0, .v 2, .v 4, .v 0, .n64, .rn, 5, 0x1⟩),
     (0xC100000103020981FFFFFFFF,
      .matchL ⟨h0, .v 1, .v 3, .p false 2, .n32, .rn, 1, 0xffffffff⟩),
     (0xC20000000000000000000100,
      .bar ⟨h0, .v 0, .v 0, .v 0, .v 0, .v 0, .s8, .rn, .g, .gang, 0⟩),
     (0xC24000000000000000000280,
      .gbar ⟨h0, .v 0, .v 0, .v 0, .v 0, .v 0, .s8, .rn, .g, .fabric, 0⟩),
     (0xC28000000204000700000008,
      .cinit ⟨h0, .v 0, .v 2, .v 4, .v 0, .n64, .g, .warp, 0, 0x8⟩),
     (0xC2C000000104000720000000,
      .cwait ⟨h0, .v 0, .v 1, .v 4, .v 0, .n64, .l, .warp, 0, 0x0⟩),
     (0xC3000003020400E740000000,
      .ctest ⟨h0, .k 3, .k 2, .k 4, .v 0, .n64, .v, .warp, 0, 0x0⟩),
     (0xC40000000400000200800000,
      .dqadd ⟨h0, .v 0, .v 4, .v 0, .v 0, .p false 2, .s8, .rn, .g, .warp, 0⟩),
     (0xC44010060000000300800000,
      .dqtake ⟨⟨none, 1, .none, .normal⟩, .v 6, .v 0, .v 0, .v 0, .p false 3, .s8, .rn, .g, .warp, 0⟩),
     (0xC48000060100000400800000,
      .dqsteal ⟨h0, .v 6, .v 1, .v 0, .v 0, .p false 4, .s8, .rn, .g, .warp, 0⟩),
     (0xC4C000060100000000000001,
      .dqcnt ⟨h0, .v 6, .v 1, .v 0, .v 0, .v 0, .s8, .rn, .g, .warp, 1⟩),
     (0xC50000020406000054000000,
      .launch ⟨h0, .k 2, .k 4, .k 6, .v 0, .v 0, .s8, .rn, .g, .warp, 0⟩)] = true := by decide +kernel

/-- Words of the tile family written from R145 to R155. -/
theorem test_words_tile : decodesAs
    [(0xE00000010200000050000000,
      .oclm ⟨h0, .k 1, .k 2, .v 0, .v 0, .v 0, .s8, .rn, .g, .warp, 0⟩),
     (0xE04000000200000010000000,
      .orls ⟨h0, .v 0, .k 2, .v 0, .v 0, .v 0, .s8, .rn, .g, .warp, 0⟩),
     (0xE080000102030400550B0801,
      .old ⟨h0, .k 1, .k 2, .k 3, .k 4, .v 0, .bf16, .rn, .v, .warp, 1⟩),
     (0xE0C000010203040055000440,
      .ost ⟨h0, .k 1, .k 2, .k 3, .k 4, .v 0, .s8, .rn, .l, .warp, 64⟩),
     (0xE10000010200000050000000,
      .aclm ⟨h0, .k 1, .k 2, .v 0, .v 0, .v 0, .s8, .rn, .g, .warp, 0⟩),
     (0xE14000000500000010000000,
      .arls ⟨h0, .v 0, .k 5, .v 0, .v 0, .v 0, .s8, .rn, .g, .warp, 0⟩),
     (0xE18000000500000010080000,
      .aclr ⟨h0, .v 0, .k 5, .v 0, .v 0, .v 0, .f64, .rn, .g, .warp, 0⟩),
     (0xE200000102030000540B0015,
      .mma ⟨h0, .k 1, .k 2, .k 3, .v 0, .v 0, .bf16, .rn, .g, .warp, 21⟩),
     (0xE240000102030400550C006A,
      .mmas ⟨h0, .k 1, .k 2, .k 3, .k 4, .v 0, .e4m3, .rn, .g, .warp, 106⟩),
     (0xE28000010203040055000840,
      .adrn ⟨h0, .k 1, .k 2, .k 3, .k 4, .v 0, .s8, .rn, .v, .warp, 64⟩),
     (0xE2C0000102030400550B8001,
      .wupd ⟨h0, .k 1, .k 2, .k 3, .k 4, .v 0, .bf16, .sr, .g, .warp, 1⟩),
     (0xE40000000203040515400841,
      .cpy ⟨h0, .v 0, .k 2, .k 3, .k 4, .k 5, .s8, .rn, .v, .warp, 65⟩),
     (0xE44000000203040515430404,
      .cpyr ⟨h0, .v 0, .k 2, .k 3, .k 4, .k 5, .s64, .rn, .l, .warp, 4⟩),
     (0xE48000000003040005000000,
      .isect ⟨h0, .v 0, .v 0, .k 3, .k 4, .v 0, .s8, .rn, .g, .warp, 0⟩),
     (0xE4C0000000030400050E0040,
      .dcorm ⟨h0, .v 0, .v 0, .k 3, .k 4, .v 0, .b4, .rn, .g, .warp, 64⟩),
     (0xE50000010200000050000001,
      .astat ⟨h0, .k 1, .k 2, .v 0, .v 0, .v 0, .s8, .rn, .g, .warp, 1⟩)] = true := by decide +kernel

/-- Words of the system family written from R145 to R155. -/
theorem test_words_system : decodesAs
    [(0xF00000000000000000000FFF,
      .eqp ⟨h0, .v 0, .v 0, .s8, .rn, .g, .warp, 0, 0xfff⟩),
     (0xF04000000000000000000001,
      .migr ⟨h0, .v 0, .v 0, .v 0, .v 0, .v 0, .s8, .rn, .g, .warp, 1⟩),
     (0xF08000010000000000000000,
      .migq ⟨h0, .v 1, .v 0, .v 0, .v 0, .v 0, .s8, .rn, .g, .warp, 0⟩),
     (0xF10030080102000304800000,
      .route ⟨⟨none, 3, .none, .normal⟩, .v 8, .v 1, .k 2, .v 0, .p false 3, .s8, .rn, .g, .warp, 0⟩),
     (0xF14000000500000100800000,
      .rtrel ⟨h0, .v 0, .v 5, .v 0, .v 0, .p false 1, .s8, .rn, .g, .warp, 0⟩),
     (0xF18000050000000040000000,
      .rtver ⟨h0, .k 5, .v 0, .v 0, .v 0, .v 0, .s8, .rn, .g, .warp, 0⟩),
     (0xF2000001025000000000ABCD,
      .svc ⟨h0, .k 1, .k 2, .s8, .rn, .g, .warp, 0, 0xabcd⟩),
     (0xF24000020400000010070000,
      .srd ⟨h0, .v 2, .k 4, .v 0, .v 0, .v 0, .n64, .rn, .g, .warp, 0⟩),
     (0xF28000000406000014060000,
      .swr ⟨h0, .v 0, .k 4, .k 6, .v 0, .v 0, .n32, .rn, .g, .warp, 0⟩),
     (0xF2C000000900000010000000,
      .tlbi ⟨h0, .v 0, .k 9, .v 0, .v 0, .v 0, .s8, .rn, .g, .warp, 0⟩),
     (0xF30000000000000000000000,
      .eret ⟨h0, .v 0, .v 0, .v 0, .v 0, .v 0, .s8, .rn, .g, .warp, 0⟩),
     (0xF34000010200000050000000,
      .idle ⟨h0, .k 1, .k 2, .v 0, .v 0, .v 0, .s8, .rn, .g, .warp, 0⟩)] = true := by decide +kernel

/-- Change warp 0, and its captured state. -/
def warp (f : Warp → Warp) (s : State) : State := s.modWarp 0 f
def core (f : WCore → WCore) (s : State) : State := s.modCore 0 f
/-- Change the launch. -/
def launch0 (f : Launch → Launch) (s : State) : State := { s with launches := s.launches.map f }
/-- Under TAINT. -/
def taintMode (s : State) : State := launch0 (fun l => { l with lrec := { l.lrec with pctl := 0xE02 } }) s
/-- A vector pair of every lane, and a uniform register. -/
def setPair (r x : Nat) (s : State) : State := core (fun k => (List.range 32).foldl (fun k j => k.writeVs j r x false 2) k) s
def setUni (r x : Nat) (s : State) : State := core (fun k => k.setK r ⟨BitVec.ofNat 64 x, false⟩) s
/-- A predicate of every lane. -/
def setPred (r : Nat) (x : PReg) (s : State) : State := core (fun k => (List.range 32).foldl (fun k j => k.setP j r x) k) s
/-- In handler mode, with a fault taken at slot 2 by lanes 0 and 1. -/
def aFault : FRec :=
  { cls := .trap, disp := 2, variant := 0, cause := 0, lanes := 1, fpc := 0x10000000002, altpc := 0, eqix := 0, info := 0, addr := 0
    tags := 0, gang := 0, lseq := 1, warp := 0, die := 0, cell := 0, core := 0 }
def aHandler : Handler :=
  { epc := 0x10000000002, emask := 1, faulted := 3, frec := aFault, frontier := [⟨3, 0x10000000002, 0, .ready⟩], sel := 3
    windows := [] }
def handling (s : State) : State := warp (fun w => { w with handler := some aHandler }) s
/-- A guard that is false in every lane, so that ACTIVE is empty. -/
def off : Hdr := ⟨some ⟨false, 0⟩, 0, .none, .normal⟩
def idle (c : Ctx) : Bool := c.active == 0

/-- Each instruction issues at its state, with ACTIVE full. -/
def allFull (l : List (Instr × (State → State))) : Bool := l.all fun x => meets x.1 (at_ x.1 x.2) full
def allIdle (l : List Instr) : Bool := l.all fun i => meets i (at_ i) idle
/-- The same, with no checkpoint open at the issue. -/
def allPlain (l : List (Instr × (State → State))) : Bool := l.all fun x => meets x.1 (at_ x.1 x.2) fun c => full c && plain x.1 x.2 c

/-! Hypotheses of the statements can be met. With TEN zero no flag traps. -/

theorem premises_IntegerArithmeticAndDivision : allFull
    [(.iadd (rf (.v 1) (.v 2) (.v 3) (ty := .s32) (sub := 1)), id), (.imad (rf (.v 2) (.v 4) (.v 6) (.v 8) .n64), id),
     (.isubImm (imf (.k 1) (.k 2) .s32 5), id), (.idiv (rf (.v 2) (.v 4) (.v 6) (ty := .s64)), setPair 6 0),
     (.irem (rf (.v 1) (.v 4) (.v 6) (ty := .s32)), fun s => setPair 6 0xFFFFFFFF (setPair 4 0x80000000 s)),
     (.idivImm (imf (.v 1) (.v 2) .n32 3), id)] = true := by decide +kernel

theorem premises_LogicAndBits : allFull
    [(.andB (rf (.v 1) (.v 2) (.v 3) (ty := .n32)), id), (.xor (rf (.v 2) (.v 4) (.v 6) (ty := .n64)), id), (.xor (rf (.k 1) (.k 2) (.k 3) (ty := .n32)), id), (.shlImm (imf (.v 2) (.v 4) .n64 64), id), (.rotl (rf (.v 2) (.v 4) (.v 6) (ty := .n64)), setPair 6 65),
     (.notB (rf (.k 1) (.k 2) (ty := .n64)), id), (.brev (rf (.v 1) (.v 2) (ty := .n32)), id), (.popc (rf (.v 1) (.v 2) (ty := .n64)), id),
     (.clz (rf (.v 1) (.v 2) (ty := .n32)), id), (.logx ⟨h0, .v 1, .v 2, .v 3, .v 4, .n32, 6, 9⟩, id)] = true := by decide +kernel

theorem premises_FieldsMovesAndCompares : allFull
    [(.bfx (rf (.v 1) (.v 2) (.v 3) (.v 4) .s32), setPair 4 8), (.bfi (rf (.v 2) (.v 4) (.v 6) (.v 8) .n64 (d := .v 9)), setPair 8 63),
     (.lea (rf (.v 2) (.v 4) (.v 6) (ty := .s64) (sub := 7)), id), (.leaImm (imf (.v 2) (.v 4) .n64 9 1), id), (.mov (rf (.v 1) (.v 2) (ty := .n32)), id),
     (.movi (imf (.v 2) (ty := .f64) (imm := 1)), id), (.prmt (rf (.v 1) (.v 2) (.v 3) (.v 4) .n32), id), (.prmtImm (imf (.v 1) (.v 2) .n32 0x9876), id),
     (.sel (rf (.v 1) (.v 2) (.v 3) (.p true 4) .n32), id), (.icmp (rf (.p false 1) (.v 2) (.v 3) (ty := .s32) (sub := 5)), id),
     (.icmpImm (imf (.p false 1) (.v 2) .n32 1 2), id), (.krd (rf (.v 2) (.k 60) (.v 4) (ty := .n64)), setPair 4 3),
     (.krd (rf (.v 2) (.k 60) (.v 4) (ty := .n64)), setPair 4 4)] = true := by decide +kernel

theorem premises_Predicates : allFull
    [(.plop (rf (.p false 1) (.p true 2) (.p false 3) (sub := 2)), id), (.plop (rf (.p false 1) (.p true 2) (sub := 3)), id),
     (.p2v (rf (.v 1) (.p false 2)), id), (.p2v (rf (.v 1) (sub := 1)), id), (.v2p (rf (.p false 1) (.v 2)), id),
     (.v2p (rf (.p false 0) (.v 2) (sub := 1)), id)] = true := by decide +kernel

theorem premises_GetsAndSets : allFull
    [(.gets (rf (.v 2) (.sp .wid)), id), (.gets (rf (.k 1) (.sp .ganggrp)), id), (.sets (rf (.sp .lstat) (.v 1)), id),
     (.sets (rf (.sp .wstat) (.k 1)), id), (.setsImm (imf (.sp .mstat) (imm := 7)), id)] = true
    ∧ allIdle [.sets (rf (.sp .wstat) (.k 1) (hdr := off)), .setsImm (imf (.sp .mstat) (imm := 7) (hdr := off))] = true := by decide +kernel

/-- Lanes 0 to 3 alone are live, each with its own value in a vector pair. -/
def fourLanes (r : Nat) (x : Nat → Nat) (s : State) : State :=
  core (fun k => (List.range 4).foldl (fun k j => k.writeVs j r (x j) false 2) { k with frontier := [⟨15, 0x10000000000, 0, .ready⟩] }) s
/-- Every lane of ACTIVE, lanes 0 to 3, goes to a marked slot of the code, or falls through. -/
def goesWell (i : Instr) (s : State) (c : Ctx) : Bool :=
  c.active == 15 && (List.range 4).all fun lane => (destOf i (s.core s.cur) c.pc lane).all fun d => s.targetOk c.pi c.variant d

theorem premises_TransfersOfControl :
    ([(.bra ⟨h0, 0, 4⟩, id), (.mbr ⟨0, .none, .normal, ⟨1, 0, 3⟩, []⟩, setPred 1 ⟨true, true⟩), (.mbr ⟨0, .none, .normal, ⟨1, 5, 3⟩, []⟩, id),
      (.call ⟨h0, 0, 1⟩, id)] : List (Instr × (State → State))).all (fun x =>
      let s := fourLanes 2 (fun _ => 0) (at_ x.1 x.2)
      meets x.1 s (goesWell x.1 s)) = true := by decide +kernel

theorem premises_TransfersOfControl_registers :
    ([(.brx (rf (a := .v 2)), fourLanes 2 fun _ => 0x10000000001), (.callx (rf (a := .k 2)), fun s => setUni 2 0x10000000000 (fourLanes 2 (fun _ => 0) s)),
      (.ret (rf (a := .v 0)), fourLanes 0 fun _ => 0x10000000004)] : List (Instr × (State → State))).all
      (fun x => meets x.1 (at_ x.1 x.2) (goesWell x.1 (at_ x.1 x.2))) = true := by decide +kernel

/-- A branch on a P guard under TAINT, with three and with four entries on each stack already. -/
theorem premises_TransfersOfControl_pushes :
    ([3, 4] : List Nat).all (fun n =>
      let i : Instr := .bra ⟨⟨some ⟨false, 1⟩, 0, .none, .normal⟩, 0, 4⟩
      let s := at_ i fun s => core (fun k => { k with taint := (List.range 4).map fun j => (j, List.replicate n 7) })
        (setPred 1 ⟨true, true⟩ (taintMode (fourLanes 2 (fun _ => 0) s)))
      meets i s fun c => goesWell i s c && c.policy == 2 && (List.range 4).all fun j =>
        restsOnP i c (s.core s.cur) j && (poppedTaint s c j).length == n && (poppedTaint s c j).head? != some c.pc) = true := by
  decide +kernel

theorem premises_NopYieldTrstAndExit :
    allFull [(.nop (rf), id), (.yield (rf), id), (.trst (rf), id), (.exit (rf), id)] = true
    ∧ allIdle [.yield (rf (hdr := off)), .trst (rf (hdr := off)), .exit (rf (hdr := off))] = true
    ∧ meets (.trst (rf)) (at_ (.trst (rf))) (fun c => c.active == c.w.live) = true := by decide +kernel

/-- The selected split, at slot 1, has yielded: alone, and beside entries below it, above it and on both sides, ready or blocked. -/
theorem premises_YieldPassesOn :
    ([([], [], false), ([⟨2, 0x10000000000, 255, .ready⟩], [], true), ([], [⟨4, 0x10000000002, 3, .ready⟩, ⟨8, 0x10000000003, 0, .ready⟩], true),
      ([⟨2, 0x10000000000, 0, .ready⟩], [⟨4, 0x10000000002, 0, .barrier .warp⟩, ⟨8, 0x10000000003, 0, .ready⟩], true),
      ([⟨2, 0x10000000000, 0, .barrier .warp⟩], [], false)] : List (List Split × List Split × Bool)).all (fun x =>
      let s := core (fun k => { k with yielded := true, sel := 1, frontier := x.1 ++ ⟨1, 0x10000000001, 0, .ready⟩ :: x.2.1 }) (at_ (.yield (rf)))
      match s.issuer s.cur with
      | some (w, g, l) =>
        let k := s.refreshed w g l.part
        let others := k.frontier.filter fun x => x.lanes != k.sel && x.issues
        s.co.isNone && !k.maskExpired && k.yielded && (k.frontier.all fun e => !e.block.replayed)
          && decide (k.frontier.Pairwise fun x y => x.pc.toNat ≤ y.pc.toNat)
          && (k.frontier.filter fun e => e.lanes == k.sel && e.issues).length == 1 && (k.frontier.filter fun e => e.lanes == k.sel).length == 1
          && (others.all fun x => decide (x.wait < 256)) && !others.isEmpty == x.2.2
      | none => false) = true := by decide +kernel

/-- The last EXIT of the one warp of its launch's one gang. -/
theorem premises_LastExitRetires :
    (let i : Instr := .exit (rf)
     let s := at_ i
     meets i s fun c => full c && plain i id c && c.active == c.split.lanes && c.w.live == c.split.lanes && c.w.handler.isNone && c.g.started
       && s.warps.length == 1 && s.gangs.length == 1 && s.ops.isEmpty && s.mops.isEmpty) = true := by decide +kernel

/-- A term that is not well formed, a privileged instruction, a window's register, a P address under TRAP, and none of them. -/
theorem premises_ChecksComeInOrder :
    let context (i : Instr) (f : State → State) (p : State → Ctx → Bool) : Bool := match (at_ i f).contextFor i with
      | some c => c.w.pending.isEmpty && !mustWait i c && plain i f c && p (at_ i f) c
      | none => false
    let illegal (i : Instr) (c : Ctx) : Bool := i.check.isSome || illegalHere i (c.settled i)
    let ahead (i : Instr) (s : State) (c : Ctx) : Lanes := c.w.c.windowHits c.active ((s.settledFor c i).lookRegs i (c.settled i))
    let jump : Instr := .brx (rf (a := .k 2))
    let wide : Instr := .mov (rf (.v 254) (.v 4) (ty := .n32))
    let eret : Instr := .eret (rf)
    let load : Instr := .ld (mf (.v 4) (.k 2) (ty := .n32))
    let farLoad : Instr := .ld (mf (.v 255) (.k 2) (ty := .n32))
    context wide id (fun _ c => illegal wide c = false) = true
    ∧ context (.mov (rf (.v 255) (.v 4) (ty := .n32))) id (fun _ c => illegal (.mov (rf (.v 255) (.v 4) (ty := .n32))) c) = true
    ∧ context (.mov (rf (.v 1) (.v 4) (ty := .n64))) id (fun _ c => illegal (.mov (rf (.v 1) (.v 4) (ty := .n64))) c) = true
    ∧ context eret id (fun _ c => !illegal eret c && privHere eret (c.settled eret)) = true
    ∧ context wide (core fun k => { k with windows := [⟨0, 1, [.v 254]⟩] })
        (fun s c => !illegal wide c && !privHere wide (c.settled wide) && ahead wide s c == 1) = true
    ∧ context farLoad (fun s => core (fun k => (k.setK 2 ⟨0, true⟩)) s)
        (fun _ c => illegal farLoad c && addressTag farLoad (c.settled farLoad) 31) = true
    ∧ context load (fun s => core (fun k => { (k.setK 2 ⟨0, true⟩) with windows := [⟨0, 1, [.v 4]⟩] }) s)
        (fun s c => !illegal load c && !privHere load (c.settled load) && ahead load s c == 1 && addressTag load (c.settled load) 0) = true
    ∧ context jump (fun s => core (fun k => k.setK 2 ⟨0, true⟩) (launch0 (fun l => { l with lrec := { l.lrec with pctl := 0xE01 } }) s))
        (fun s c => !illegal jump c && !privHere jump (c.settled jump) && ahead jump s c == 0 && (taintFault jump (c.settled jump)).isSome) = true
    ∧ context jump id (fun s c => !illegal jump c && !privHere jump (c.settled jump) && ahead jump s c == 0
        && (taintFault jump (c.settled jump)).isNone && decide (c.w.fragments ≤ (runAhead c.w.kind).2.2)) = true := by decide +kernel

/-- TRAP and BKPT with and without lanes; a branch to a line with no marked slot; a zero divisor with DZ enabled. -/
theorem premises_TrapsAndTargetFaults :
    allPlain [(.trap (imf (imm := 9)), id), (.bkpt (rf), id)] = true ∧ allIdle [.trap (imf (hdr := off)), .bkpt (rf (hdr := off))] = true
    ∧ (let i : Instr := .bkpt (rf)
       meets i (at_ i handling) (fun c => full c && plain i handling c && c.w.handler.isSome)
         && meets i (at_ i) fun c => c.w.handler.isNone && c.w.c.frontier == [c.split]) = true := by decide +kernel

/-- A variant whose code reaches into a page that is not present. -/
def longCode (s : State) : State := launch0 (fun l => { l with kern := { l.kern with varL := some ⟨0x10000000000, 0x100000, 255, none⟩ } }) s

/-- A branch to a line in the variant's code with no marked slot, past its code, to no slot, and to a line of a page that is not present. -/
theorem premises_BadTargetsFault :
    ([(.bra ⟨h0, 1, 0⟩, longCode, 0), (.bra ⟨h0, 1, 0⟩, id, 1), (.brx (rf (a := .k 2)), setUni 2 0x10000000005, 1),
      (.brx (rf (a := .k 2)), fun s => longCode (setUni 2 0x10000030000 s), 2)] : List (Instr × (State → State) × Nat)).all (fun x =>
      let s := at_ x.1 x.2.1
      meets x.1 s fun c => full c && plain x.1 x.2.1 c && c.w.handler.isNone && c.w.c.frontier == [c.split]
        && (List.range 32).all fun lane => (destOf x.1 (s.core 0) c.pc lane).any fun d => match x.2.2 with
          | 0 => !outOfCode c.variant d && (s.lineUnread c.pi d).isNone && !s.marked c.pi d
          | 1 => outOfCode c.variant d
          | _ => !outOfCode c.variant d && s.lineUnread c.pi d == some (.sleep 0x10000030000 none)) = true := by decide +kernel

/-- Both sources of a sum, in every lane and for the warp; a trap, where the enabled flag is one that unit u raises. -/
def sources (a b : Nat) (s : State) : State := setUni 4 a (setUni 6 b (setPair 4 a (setPair 6 b s)))
def flagTraps (i : Instr) (f : State → State) (fl : WCore → Nat → Flags) (u : Nat) : Bool :=
  let f := fun s => warp (fun w => { w with ten := fDZ ||| fOV }) (f s)
  meets i (at_ i f) fun c => full c && plain i f c && fl ((at_ i f).core 0) u &&& c.w.ten != 0
def beyondRange (o : Operand) (v : Int → Int → Int) (k : WCore) (u : Nat) : Flags :=
  overflows .s32 (v (intOf .s32 (valOf k o u 32)) (intOf .s32 (valOf k (if uniform o then .k 6 else .v 6) u 32)))
def flagOfFirst (g : Int → Flags) (o : Operand) (k : WCore) (u : Nat) : Flags := g (intOf .s32 (valOf k o u 32))

/-- Sums, differences and products whose flag is enabled, in a lane's register and once for the warp. -/
theorem premises_IntegerFlagsTrap :
    (flagTraps (.iadd (rf (.v 1) (.v 4) (.v 6) (ty := .s32))) (sources 0x7FFFFFFF 1) (beyondRange (.v 4) (· + ·)) 31
     && flagTraps (.iadd (rf (.k 1) (.k 4) (.k 6) (ty := .s32))) (sources 0x7FFFFFFF 1) (beyondRange (.k 4) (· + ·)) 32
     && flagTraps (.isub (rf (.v 1) (.v 4) (.v 6) (ty := .s32))) (sources 0x80000000 1) (beyondRange (.v 4) (· - ·)) 0
     && flagTraps (.imul (rf (.v 1) (.v 4) (.v 6) (ty := .s32))) (sources 0x10000 0x10000) (beyondRange (.v 4) (· * ·)) 0) = true := by decide +kernel

/-- Immediate forms, quotients and remainders whose flag is enabled. -/
theorem premises_IntegerFlagsTrap_immediates :
    (flagTraps (.iaddImm (imf (.v 1) (.v 4) .s32 1)) (sources 0x7FFFFFFF 0) (flagOfFirst (fun x => overflows .s32 (x + 1)) (.v 4)) 0
     && flagTraps (.isubImm (imf (.k 1) (.k 4) .s32 1)) (sources 0x80000000 0) (flagOfFirst (fun x => overflows .s32 (x - 1)) (.k 4)) 32
     && flagTraps (.imulImm (imf (.v 1) (.v 4) .s32 2)) (sources 0x40000000 0) (flagOfFirst (fun x => overflows .s32 (x * 2)) (.v 4)) 0
     && flagTraps (.idiv (rf (.v 1) (.v 4) (.v 6) (ty := .s32))) (sources 5 0) (flagOfFirst (fun x => divisionFlag .s32 x 0) (.v 4)) 0
     && flagTraps (.irem (rf (.v 1) (.v 4) (.v 6) (ty := .s32))) (sources 0x80000000 0xFFFFFFFF) (flagOfFirst (fun x => divisionFlag .s32 x (-1)) (.v 4)) 0
     && flagTraps (.idivImm (imf (.v 1) (.v 4) .s32 0xFFFFFFFF)) (sources 0x80000000 0) (flagOfFirst (fun x => divisionFlag .s32 x (-1)) (.v 4)) 0
     && flagTraps (.iremImm (imf (.k 1) (.k 4) .s32 0)) (sources 5 0) (flagOfFirst (fun x => divisionFlag .s32 x 0) (.k 4)) 32) = true := by decide +kernel

/-! Each check refuses a term. -/

theorem test_checks_refuse :
    ([(.iadd (rf (.p false 1) (.v 2) (.v 3) (ty := .s32)), .operand), (.iadd (rf (.v 3) (.v 2) (.v 4) (ty := .s64)), .operand),
      (.iadd (rf (.k 1) (.k 2) (.v 3) (ty := .s32)), .uniform), (.iadd (rf (.v 1) (.v 2) (.v 3) (ty := .f32)), .type),
      (.iadd (rf (.v 1) (.v 2) (.v 3) (ty := .s32) (rnd := .rz)), .rounding), (.iadd (rf (.v 1) (.v 2) (.v 3) (ty := .s32) (space := .l)), .space),
      (.iadd (rf (.v 1) (.v 2) (.v 3) (ty := .s32) (scope := .gang)), .scope), (.iadd (rf (.v 1) (.v 2) (.v 3) (ty := .s32) (sub := 2)), .sub),
      (.iadd (rf (.v 1) (.v 2) (.v 3) (ty := .s32) (hdr := ⟨none, 1, .none, .normal⟩)), .look),
      (.bar (rf (hdr := off)), .guard), (.ld (mf (.v 1) (.v 2) (ty := .n32) (sub := 3)), .hint),
      (.eqp (imf (.v 0) (imm := 4096)), .immediate), (.mbr ⟨0, .none, .normal, ⟨0, 0, 0⟩, List.replicate 4 ⟨0, 0, 0⟩⟩, .reserved)]
      : List (Instr × IllFormed)).all (fun x => x.1.check == some x.2 && !x.1.wf) = true := by decide +kernel

/-- Words with no opcode, with a marked-zero bit set, and with a specifier that no operand has. -/
theorem test_words_refuse :
    (match decodeWord (0x3FF * 2 ^ 86), decodeWord (0x001 * 2 ^ 86 + 2 ^ 40), decodeWord (0x0C6 * 2 ^ 86 + 255 * 2 ^ 56 + 3 * 2 ^ 28) with
    | .error a, .error b, .error c => [a, b, c]
    | _, _, _ => []) = [.opcode, .reserved, .specifier] := by decide +kernel

/-! Single steps with the results that the spec's worked examples give. -/

/-- Warp 0 after the instruction, run as the next step. -/
def after (i : Instr) (f : State → State := id) : Option WCore :=
  match step { at_ i f with agenda := [.issue 0 false] } with
  | .next t => (nth t.warps 0).map (·.c)
  | _ => none
def vOf (k : WCore) (r : Nat) (lane : Nat := 0) : Nat := (k.getV lane r).bits.toNat
/-- A register of each lane. -/
def setLanes (r : Nat) (x : Nat → Nat) (s : State) : State :=
  core (fun k => (List.range 32).foldl (fun k j => k.setV j r ⟨BitVec.ofNat 32 (x j), false⟩) k) s

/-- R161, the example of IADD: with and without saturation; OV is set in both. -/
theorem test_iadd_overflow :
    ([1, 0] : List (BitVec 7)).map (fun sub => (after (.iaddImm (imf (.v 2) (.v 2) .s32 1 sub)) (setPair 2 0x7FFFFFFF)).map
      fun k => (vOf k 2, k.lstat 0)) = [some (0x7FFFFFFF, 2), some (0x80000000, 2)] := by decide +kernel

/-- R87, its example: −7 divided by 2 is −3, remainder −1. -/
theorem test_division_rounds_to_zero :
    ((after (.idivImm (imf (.v 2) (.v 2) .s32 2)) (setPair 2 0xFFFFFFF9)).map (vOf · 2),
      (after (.iremImm (imf (.v 2) (.v 2) .s32 2)) (setPair 2 0xFFFFFFF9)).map (vOf · 2)) = (some 0xFFFFFFFD, some 0xFFFFFFFF) := by decide +kernel

/-- The example of R70: a division by zero, a product that overflows, a read of LSTAT, a write of its bit 0. -/
theorem test_sticky_flags :
    (after (.idiv (rf (.v 2) (.v 0) (.v 1) (ty := .s32))) (setLanes 0 fun _ => 5)).map (fun k => (vOf k 2, k.lstat 0)) = some (0x7FFFFFFF, 1)
    ∧ (after (.fmul (rf (.v 3) (.v 4) (.v 4) (ty := .f32))) (setPair 4 0x7F000000)).map (fun k => (vOf k 3, k.lstat 0)) = some (0x7F800000, 0x50)
    ∧ (after (.setsImm (imf (.sp .lstat) (imm := 1))) fun s => core (fun k => { k with flags := [(0, 0x51)] }) s).map (fun k => k.lstat 0) = some 0x50 := by
  decide +kernel

/-- The example of R185: the reciprocal of 3. -/
theorem test_frcpa_three :
    (after (.frcpa (rf (.v 2) (.v 4) (ty := .f32))) (setPair 4 0x40400000)).map (vOf · 2) = some 0x3EAAAB00 := by decide +kernel

/-- The examples of SHFL: lanes 6 and 7 change places; lane 3 reads lane 4 and lane 7 lane 0. -/
theorem test_shfl_modes :
    (after (.shfl (cf (.v 4) (.v 3) (.k 5) .n32 2)) (fun s => setLanes 3 id (setUni 5 0x041F s))).map (fun k => (vOf k 4 6, vOf k 4 7)) = some (7, 6)
    ∧ (after (.shfl (cf (.v 4) (.v 3) (.k 5) .n32 3)) (fun s => setLanes 3 id (setUni 5 0x0061 s))).map (fun k => (vOf k 4 3, vOf k 4 7)) = some (4, 0) := by
  decide +kernel

/-- The example of LEA: eight times an index is added to a 64-bit address. -/
theorem test_lea_scales :
    (after (.lea (rf (.v 4) (.v 4) (.v 9) (ty := .n64) (sub := 3))) (fun s => setLanes 9 (fun _ => 5) (setPair 4 0xFFFFFFF8 s))).map
      (fun k => (vOf k 4, vOf k 5)) = some (0x20, 1) := by decide +kernel

/-- The example of R40, step 2: lanes 0 to 15 take the branch, and the lowest PC goes first. -/
theorem test_branch_splits :
    (after (.bra ⟨⟨some ⟨false, 1⟩, 0, .none, .normal⟩, 0, 4⟩) (fun s =>
      core (fun k => (List.range 16).foldl (fun k j => k.setP j 1 ⟨true, false⟩) k) s)).map
      (fun k => (k.frontier.map (fun e => (e.lanes, e.pc)), k.sel))
      = some ([(0xFFFF0000, 0x10000000001), (0xFFFF, 0x10000000004)], 0xFFFF0000) := by decide +kernel

theorem premises_FloatArithmetic : allFull
    [(.fadd (rf (.v 1) (.v 2) (.v 3) (ty := .f32) (rnd := .sr)), id), (.fdiv (rf (.v 2) (.v 4) (.v 6) (ty := .f64)), setPair 4 1),
     (.fmulImm (imf (.v 1) (.v 2) .bf16 0x3F800000), id), (.ffma (rf (.v 2) (.v 4) (.v 6) (.v 8) .f64), id),
     (.fsqrt (rf (.v 1) (.v 2) (ty := .f16)), id), (.fscale (rf (.v 1) (.v 2) (.v 3) (ty := .f32)), id),
     (.fscaleImm (imf (.v 1) (.v 2) .f32 0xFFFFFFFF), id), (.frnd (rf (.v 1) (.v 2) (ty := .f32) (rnd := .rd)), id)] = true := by
  decide +kernel

theorem premises_FloatSelection : allFull
    [(.fmin (rf (.v 1) (.v 2) (.v 3) (ty := .f32) (sub := 1)), id), (.fmaxImm (imf (.v 1) (.v 2) .f16 0x7FC00000), id),
     (.fabs (rf (.v 1) (.v 2) (ty := .f32)), id), (.fneg (rf (.v 2) (.v 4) (ty := .f64)), id),
     (.fcmp (rf (.p false 1) (.v 2) (.v 3) (ty := .f32) (sub := 6)), id), (.fcmpImm (imf (.p false 1) (.v 2) .f32 0 13), id),
     (.fclass (rf (.p false 1) (.v 2) (.v 3) (ty := .e4m3)), id)] = true := by decide +kernel

theorem premises_DotAndApproximations : allFull
    [(.fdot (rf (.v 1) (.v 2) (.v 3) (.v 4) .e4m3), id), (.frcpa (rf (.v 1) (.v 2) (ty := .f32)), id),
     (.ftanh (rf (.v 2) (.v 4) (ty := .f64)), id)] = true := by decide +kernel

theorem premises_Conversion : allFull
    [(.cvt (rf (.v 1) (.v 2) (ty := .s8) (sub := 9)), setPair 2 0x7F800000), (.cvt (rf (.v 1) (.v 2) (ty := .e4m3) (sub := 9)), setPair 2 1),
     (.cvt (rf (.k 1) (.k 2) (ty := .n8) (sub := 0x12)), id)] = true
    ∧ Ty.ofCode ((0x12 : BitVec 7).toNat % 16) = some .s32 := by decide +kernel

theorem premises_QuantisedBlocks : allFull
    [(.qnt (rf (.v 1) (.v 2) (.v 3) (.v 4) .b4 77 (.v 5)), id), (.dqnt (rf (.v 1) (.v 2) (.v 3) (ty := .f32) (sub := 7)), id),
     (.dqnt (rf (.v 1) (.v 2) (ty := .f32) (sub := 3)), id)] = true
    ∧ Ty.ofCode ((77 : BitVec 7).toNat / 8 % 16) = some .f32 := by decide +kernel

theorem premises_RandomNumbers : allFull
    [(.rngdraw (rf (.v 1) (sub := 0x7C)), id), (.rngdraw (rf (.v 2) (sub := 1)), id), (.rngdraw (rf (.k 2) (sub := 2)), id),
     (.rngkey (rf (a := .k 1) (b := .k 2) (c := .k 3) (sub := 1)), id), (.rngkey (rf (a := .k 1) (b := .k 2)), id),
     (.rngskip (rf (a := .k 1)), setUni 1 (2 ^ 64 - 1)), (.rngskipImm (imf (imm := 5)), id)] = true
    ∧ allIdle [.rngkey (rf (a := .k 1) (b := .k 2) (hdr := off)), .rngskip (rf (a := .k 1) (hdr := off)),
        .rngskipImm (imf (imm := 5) (hdr := off))] = true := by decide +kernel

theorem premises_LaneCertification : allFull
    [(.dcorv ⟨h0, .v 2, .v 4, .v 6, .v 8, .p false 1, .f64, 63, 2⟩, id), (.dcorv ⟨h0, .v 1, .v 2, .v 0, .v 0, .p false 1, .f32, 0, 0⟩, id),
     (.dcorv ⟨h0, .v 1, .v 2, .v 0, .v 0, .p false 1, .f32, 20, 1⟩, id)] = true := by decide +kernel

theorem premises_TagInstructions : allFull
    [(.tagq (rf (.p false 1) (.v 2)), id), (.tagq (rf (.v 1) (.v 2) (sub := 1)), id), (.tagp (rf (.k 1) (.k 2)), id),
     (.tagp (rf (.p false 1) (.p false 2)), id), (.tagp (rf (.v 2) (.v 4) (sub := 1)), id)] = true := by decide +kernel

/-- The greatest finite value of a format is in range, and is the value of a finite encoding. -/
theorem premises_RoundingIsCorrect :
    |rational (.fin false 0xFFFFFF 104)| ≤ rational (FVal.decode Ty.f32.fmt Ty.f32.fmt.maxCode)
    ∧ (FVal.decode Ty.f32.fmt Ty.f32.fmt.maxCode).isFin = true ∧ Ty.f32.fmt.maxCode < 2 ^ Ty.f32.width := by
  decide +kernel

/-- Magnitudes beyond the largest of E4M3, 448, and of E5M2, 57344, that each mode rounds to it and that it does not; values below the least
normal number and at each bound of `RaisesUnderflow`; and of SR a value with a fraction, one without, and the largest. -/
theorem premises_RoundsBeyondRange :
    (magnitude .e4m3 Ty.e4m3.fmt.maxCode = 448 ∧ magnitude .e4m3 Ty.e4m3.fmt.maxCode - magnitude .e4m3 (Ty.e4m3.fmt.maxCode - 1) = 32
      ∧ magnitude .e5m2 Ty.e5m2.fmt.maxCode = 57344 ∧ magnitude .e5m2 Ty.e5m2.fmt.maxCode - magnitude .e5m2 (Ty.e5m2.fmt.maxCode - 1) = 8192)
    ∧ (|rational (.fin false 464 0)| = 448 + 32 / 2 ∧ (448 : ℚ) < |rational (.fin true 479 0)| ∧ |rational (.fin true 479 0)| < 448 + 32
      ∧ |rational (.fin true 480 0)| = 448 + 32 ∧ |rational (.fin false 61440 0)| = 57344 + 8192 / 2)
    ∧ goesAway .ru false = true ∧ goesAway .ru true = false ∧ goesAway .rd true = true
    ∧ (magnitude .e4m3 1 = 1 / 512 ∧ magnitude .e4m3 (2 ^ Ty.e4m3.fmt.fb) = 1 / 64)
    ∧ (|rational (.fin false 1 (-9))| ≤ 448 ∧ |rational (.fin false 31 (-11))| = 1 / 64 - 1 / 512 / 4 ∧ |rational (.fin true 15 (-10))| = 1 / 64 - 1 / 512 / 2
      ∧ |rational (.fin true 15 (-10))| < 1 / 64)
    ∧ (magnitude .e4m3 0x38 = |rational (.fin true 1 0)| ∧ |rational (.fin true 17 (-4))| < magnitude .e4m3 0x39
      ∧ magnitude .e4m3 0x38 < |rational (.fin true 17 (-4))| ∧ |rational (.fin false 448 0)| = 448 ∧ 0x38 < Ty.e4m3.fmt.maxCode) := by
  decide +kernel

/-- Inputs with an exact result, and two that lie two half-turns apart. -/
theorem premises_Approximations :
    rational (.fin true 3 0) = ((-3 : ℤ) : ℚ) ∧ rational (.fin false 8 (-5)) = 2 ^ (-2 : ℤ) ∧ |(-2 : ℤ)| < 2 ^ 16
    ∧ rational (.fin true 3 (-1)) = ((-2 : ℤ) : ℚ) + 1 / 2 ∧ rational (.fin false 10 (-2)) = rational (.fin false 1 (-1)) + 2
    ∧ rational (.fin false 4 (-2)) = 1 := by decide +kernel

/-- Finite values, zeros among them. -/
theorem premises_ExactOperations :
    (FVal.fin true 0 5).isFin = true ∧ (FVal.fin false 3 (-2)).isFin = true ∧ (3 : Nat) ≠ 0 ∧ Ty.e4m3 ∈ formats ∧ Ty.f64 ∈ formats := by decide

/-- The vault window's first address. -/
def vault : Nat := 0x5000000000
/-- A checkpoint that has read nothing, opened by warp 0. -/
def aCkpt (w : Warp) : Ckpt := ⟨w.c, 1, 1, [], [], [], false, none, 0x10040003, [], []⟩
def ahead (s : State) : State := warp (fun w => { w with ckpts := [aCkpt w] }) s

/-- Each unit's access lies at a place, and a test holds of it. -/
def locates (s : State) (c : Ctx) (f : MemForm) (sp : Space) (n : Nat) (write atomic : Bool) (units : List Nat)
    (p : Located → Bool) : Bool :=
  units.all fun u => match s.locate (c.access sp n n write atomic) (addressOf (s.core s.cur) f u) with
    | .ok l => p l
    | .error _ => false

/-- A place within one sector, not MMIO, poisoned or shadowed. -/
def plainAt (s : State) (n : Nat) : Located → Bool
  | .param _ => false
  | .place q => !q.dev && q.shadow.isNone && !s.poisoned q && match q.loc with
    | .phys pa => pa % 32 + n ≤ 32
    | .local _ o => o % 32 + n ≤ 32 && o + n ≤ cellBytes

/-- `Buffers`, for a warp. -/
def buffers (w : Warp) : Bool := w.ckpts.all fun k => k.stores.all fun st => st.all fun b => b.shadow.isNone && !b.data.isEmpty
  && match b.loc with
    | .phys pa => decide (pa % 32 + b.data.length ≤ 32)
    | .local _ o => decide (o % 32 + b.data.length ≤ 32 ∧ o + b.data.length ≤ cellBytes)

def usable (s : State) (w : Warp) : Located → Bool
  | .param _ => true
  | .place q => !s.poisoned q && (!q.dev || w.ckpts.isEmpty)

/-- Two buffered stores to one word, the younger of a byte, P. -/
def stored (s : State) : State := warp (fun w => { w with ckpts := [{ aCkpt w with
  stores := [[⟨.phys vaultPa, none, [1, 2, 3, 4], false⟩], [⟨.phys (vaultPa + 1), none, [9], true⟩]] }] }) s

/-- Loads from local memory at its last word, from global memory, from the parameter block, and from a warp that runs ahead, with and
without buffered stores there. -/
theorem premises_Loads :
    ([(mf (.v 1) (.v 2) (ty := .n32) (space := .l) (off := 4092), id), (mf (.v 8) (.v 2) (ty := .n64) (sub := 0x10), setPair 2 vault),
      (mf (.k 1) (.k 2) (ty := .s8), setUni 2 (vault + 1)), (mf (.v 1) (.v 2) (ty := .n16) (space := .p) (off := 0x3FE), id),
      (mf (.v 1) (.v 2) (ty := .n32) (space := .v), fun s => ahead (setPair 2 vault s)),
      (mf (.v 1) (.v 2) (ty := .n32) (space := .v), fun s => stored (setPair 2 vault s))] : List (MemForm × (State → State))).all (fun x =>
        let s := at_ (.ld x.1) x.2
        meets (.ld x.1) s fun c => full c && buffers c.w && locates s c x.1 x.1.space (accessBytes x.1) false false
          (unitsWhen (uniform x.1.dst) c.active) (usable s (c.openedIn (.ld x.1) s).w)) = true := by decide +kernel

/-- A completion object that has reached its value, and one that has not. -/
theorem premises_CompletionObjects :
    ([0, 1] : List Nat).all (fun b =>
      let f : MemForm := mf (.v 1) (.v 2) (.v 4) (ty := .n64) (space := .l)
      let g : MemForm := { f with dst := .v 0 }
      let s := at_ (.ctest f) (setPair 4 b)
      let t := at_ (.cwait g) (setPair 4 b)
      meets (.ctest f) s (fun c => full c && buffers c.w && locates s c f .l 8 false false (unitsWhen false c.active) (usable s (c.openedIn (.ctest f) s).w))
      && meets (.cwait g) t fun c => full c && buffers c.w && (unitsWhen false c.active).all fun u =>
          match t.locate (c.access .l 8 8 false false) (addressOf (t.core t.cur) g u) with
          | .ok l => usable t (c.openedIn (.cwait g) t).w l
              && (decide (valOf (t.core t.cur) g.b u 64 ≤ leNat (loadUnit t (t.seenBy c.w) c u l 8).1)) == (b == 0)
          | .error _ => false) = true := by decide +kernel

/-- Stores with no checkpoint open and under one. -/
theorem premises_Stores :
    ([(.st (mf (.v 0) (.v 2) (.v 4) (ty := .n32) (space := .l))), .cinit (mf (.v 0) (.v 2) (.v 4) (ty := .n64) (space := .l))] : List Instr).all
      (fun i =>
        let f := ((accessOf i).map (·.1)).getD (mf)
        let n := if f.ty = .n64 then 8 else 4
        let units (c : Ctx) := unitsWhen (uniform f.base && uniform f.b) c.active
        meets i (at_ i) (fun c => full c && plain i id c && locates (at_ i) c f .l n true false (units c) (plainAt (at_ i) n))
        && meets i (at_ i ahead) fun c => full c && !plain i ahead c && c.w.fragments + 1 ≤ (runAhead c.w.kind).2.2
            && locates (at_ i ahead) c f .l n true false (units c) (plainAt (at_ i ahead) n)) = true := by decide +kernel

theorem premises_AtomicsAndScatters :
    ([(.atom (mf (.v 8) (.v 2) (.v 4) (.v 6) .n64 7 (space := .l))), .red (mf (.v 0) (.k 2) (.k 4) (ty := .f32) (space := .l)),
      .scatc (mf (.v 8) (.v 2) (.v 4) (ty := .s32) (sub := 0x10) (space := .l))] : List Instr).all (fun i =>
        match accessOf i with
        | some (f, n, once, _, _) => meets i (at_ i) fun c => full c
            && locates (at_ i) c f .l n true true (unitsWhen once c.active) (plainAt (at_ i) n)
        | none => false) = true := by decide +kernel

theorem premises_HintsAndFences :
    allFull [(.fence (rf (sub := 1)), id), (.pft (mf (.v 0) (.v 2) (space := .g)), id)] = true
    ∧ ([(2, id), (1, id), (1, ahead)] : List (BitVec 6 × (State → State))).all (fun x =>
       let f : MemForm := mf (.v 0) (.v 2) (space := .v) (sub := x.1)
       let s := at_ (.cctl f) fun s => x.2 (setPair 2 vault s)
       meets (.cctl f) s fun c => full c && locates s c f .v 1 false false (unitsWhen false c.active) fun _ => true) = true := by
  decide +kernel

/-- One byte off in every lane, and in the warp's one access. -/
theorem premises_MisalignmentFaults :
    ([(.ld (mf (.v 1) (.v 2) (ty := .n32) (space := .l) (off := 1))), .st (mf (.v 0) (.v 2) (.v 4) (ty := .n16) (space := .l) (off := 1)),
      .ctest (mf (.k 1) (.k 2) (.k 4) (ty := .n64) (space := .l) (off := 4)), .cwait (mf (.v 0) (.v 2) (.v 4) (ty := .n64) (space := .l) (off := 7)),
      .cinit (mf (.v 0) (.v 2) (.v 4) (ty := .n64) (space := .l) (off := 1)), .atom (mf (.v 8) (.v 2) (.v 4) (ty := .n32) (space := .l) (off := 2)),
      .red (mf (.v 0) (.v 2) (.v 4) (ty := .n32) (space := .l) (off := 2)), .scatc (mf (.v 0) (.v 2) (.v 4) (ty := .n32) (space := .l) (off := 2))]
      : List Instr).all (fun i => match accessOf i with
        | some (f, n, once, _, _) => meets i (at_ i) fun c => full c && plain i id c
            && ((unitsWhen once c.active).find? fun u => addressOf ((at_ i).core 0) f u % n != 0).isSome
        | none => false) = true := by decide +kernel

/-- Two splits of sixteen lanes, at slots 0 and 1. -/
def twoSplits (s : State) : State := core (fun k => { k with sel := 0xFFFF, frontier :=
  [⟨0xFFFF, 0x10000000000, 0, .ready⟩, ⟨0xFFFF0000, 0x10000000001, 0, .ready⟩] }) s

theorem premises_Exchanges : allFull
    [(.shfl (cf (.v 1) (.v 2) (.v 3) .n32 1), setPair 3 0xFFFFFFFF), (.shfl (cf (.v 1) (.v 2) (.v 3) .n32 2), setPair 3 0x7FFF),
     (.shfl (cf (.v 2) (.v 4) (.v 6) .n64 3), setPair 6 160), (.vote (cf (.p false 1) (.p true 2) (.p false 3) (op := 2)), id),
     (.vote (cf (.v 1) (.p false 2) (op := 3)), id), (.vote (cf (.p false 1) (.p false 2) (.p false 1)), id), (.matchL (cf (.v 1) (.v 2) (.p false 1) .n32 1), id)] = true
    ∧ meets (.vote (cf (.p false 1) (.p false 2) (.p false 3))) (at_ (.vote (cf (.p false 1) (.p false 2) (.p false 3)))
        fun s => warp (fun w => { w with c := { w.c with frontier := [⟨7, 0x10000000000, 0, .ready⟩], sel := 7 } }) s)
        (fun c => c.active == 7) = true := by decide +kernel

theorem premises_CollectiveReductions :
    allFull [(.wred (cf (.v 1) (.v 2) (.p false 1) .f32), id), (.wscan (cf (.v 2) (.v 4) (.v 0) .s64 1), id)] = true
    ∧ (let i : Instr := .wred (cf (.v 1) (.v 2) (.v 0) .n32)
       match (at_ i twoSplits).context i with
       | some c => c.w.pending.isEmpty && membersOf i == some 0xFFFFFFFF && !c.w.gathered 0xFFFFFFFF c.pc
          && ((at_ i twoSplits).core 0).frontier.all fun x => ((at_ i twoSplits).core 0).frontier.all fun y => x.lanes &&& y.lanes == 0 || x.pc == y.pc
       | none => false) = true := by decide +kernel

/-- Every live lane of the warp, and of the gang, arrives at once; or half of the warp's lanes are still on their way. -/
theorem premises_Barriers :
    ([.warp, .group, .gang] : List Scope).all (fun sc =>
      let i : Instr := .bar (rf (scope := sc))
      meets i (at_ i) (fun c => full c && c.w.live == c.split.lanes && (at_ i).warps.length == 1)
      && meets i (at_ i twoSplits) fun c => c.split.lanes == 0xFFFF && c.w.live == 0xFFFFFFFF) = true
    ∧ (let i : Instr := .gbar (rf (scope := .die))
       meets i (at_ i) (fun c => c.w.live == c.split.lanes && (at_ i).warps.length == 1 && (at_ i).gangs.all (·.started))
       && meets i (at_ i twoSplits) fun c => c.split.lanes == 0xFFFF && c.w.live == 0xFFFFFFFF) = true := by decide +kernel

/-- A second warp of the gang, all of whose lanes wait for something. -/
def second (b : Block) (s : State) : State := { s with warps := s.warps ++ (s.warps.map fun w => { w with c := { w.c with
  frontier := [⟨0xFFFFFFFF, 0x10000000001, 0, b⟩] } }) }

/-- The lanes of another warp go on with those that arrive last, at the gang's and at the launch's barrier; at another scope's they wait. -/
theorem premises_Barriers_departs :
    ([(.bar (rf (scope := .gang)), .gang, .gang, true), (.gbar (rf (scope := .die)), .pkg, .pkg, true),
      (.bar (rf (scope := .gang)), .gang, .group, false)] : List (Instr × Scope × Scope × Bool)).all (fun x =>
      let s := at_ x.1 (second (.barrier x.2.2.1))
      meets x.1 s fun c => full c && c.w.live == c.split.lanes && s.warps.length == 2 && s.gangs.all (·.started)
        && (nth s.warps 1).any fun w => w.gang == c.gi && (List.range 32).all fun j =>
          w.awaited.has j && waitsAt w x.2.2.1 j && waitsAt w x.2.1 j == x.2.2.2) = true := by decide +kernel

/-- Two splits that meet at a marked slot as their barrier departs, in the warp that issues, in another's captured tables and in the table
that its handler has suspended. -/
theorem premises_Barriers_merges :
    (let i : Instr := .bar (rf (scope := .gang))
     let table : List Split := [⟨0xFFFF, 0x10000000000, 0, .barrier .gang⟩, ⟨0xFFFF0000, 0x10000000000, 0, .barrier .gang⟩]
     let unshared (l : List Split) : Bool := l.all (fun e => e.lanes != 0) && decide (l.Pairwise fun x y => x.lanes &&& y.lanes = 0)
     let s := second (.barrier .gang) (at_ i fun s => warp (fun w => { w with c := { w.c with sel := 0xFFFF, frontier := [⟨0xFFFF, 0x10000000000, 0, .ready⟩, ⟨0xFFFF0000, 0x10000000000, 0, .barrier .gang⟩] } }) s)
     let s := s.modWarp 1 fun w => { w with c := { w.c with frontier := table, sel := 0xFFFF },
                                            handler := some { aHandler with frontier := table, sel := 0xFFFF } }
     let s := s.modWarp 1 fun w => { w with ckpts := [aCkpt w] }
     meets i s (fun c => c.active == 0xFFFF && c.w.c.frontier.contains c.split && unshared c.w.c.frontier && s.marked c.pi (nextSlot c.pc)
       && (nth s.warps 1).any fun w => w.gang == c.gi && unshared w.c.frontier && w.handler.any (fun h => unshared h.frontier)
         && w.ckpts.any (fun k => unshared k.saved.frontier)
         && (List.range 32).all fun j => w.awaited.has j && waitsAt w .gang j)) = true := by decide +kernel

/-- A deque of core 0 with n entries, held by a launch. -/
def dequeOf (n li : Nat) (s : State) : State :=
  { s with deques := [(0, { entries := List.replicate n ⟨5, true⟩, gang := some 0, launch := some li })] }

/-- Deques at their bounds, of this launch and of another; a victim that no core is. -/
theorem premises_Deques :
    ([(.dqadd (rf (a := .v 2) (d := .p false 1)), id), (.dqadd (rf (a := .v 2) (d := .p false 1)), dequeOf 255 0),
      (.dqadd (rf (a := .k 2) (d := .p false 1)), dequeOf 256 0), (.dqtake (rf (.v 2) (d := .p false 1)), dequeOf 1 0),
      (.dqtake (rf (.k 2) (d := .p false 1)), dequeOf 1 7), (.dqsteal (rf (.v 2) (.v 4) (d := .p false 1)), fun s => dequeOf 2 0 (setPair 4 96 s)),
      (.dqsteal (rf (.v 2) (.v 4) (d := .p false 1)), dequeOf 2 0), (.dqcnt (rf (.v 2)), dequeOf 256 0),
      (.dqcnt (rf (.k 2) (.k 3) (sub := 1)), dequeOf 1 0)] : List (Instr × (State → State))).all (fun x =>
        meets x.1 (at_ x.1 x.2) fun c => full c && c.l.lrec.det == 0 && c.w.dqDone &&& c.active == 0) = true := by decide +kernel

/-- The launch records its trace in the vault window, with room for some bytes. -/
def recording (len : Nat) (s : State) : State :=
  launch0 (fun l => { l with lrec := { l.lrec with det := 1, trace := BitVec.ofNat 64 vault, traceLen := len } }) s

/-- Deque operations that are recorded, in each lane and once for the warp. -/
theorem premises_Deques_recorded :
    ([(.dqadd (rf (a := .v 2) (d := .p false 1)), recording 4096), (.dqsteal (rf (.k 2) (.k 4) (d := .p false 1)), fun s => recording 4096 (dequeOf 2 0 s)),
      (.dqtake (rf (.v 2) (d := .p false 1)), fun s => recording 40 (dequeOf 1 0 s))] : List (Instr × (State → State))).all (fun x =>
        meets x.1 (at_ x.1 x.2) fun c => full c && c.l.lrec.det == 1 && c.w.dqDone &&& c.active == 0) = true := by decide +kernel

/-- An entry that fits exactly, one that does not, a trace that has overflown and a launch that does not record. -/
theorem premises_RecordingWrites :
    ([(48, false, true), (47, false, false)] : List (Nat × Bool × Bool)).all (fun x =>
      let s := at_ (.nop (rf)) (recording x.1)
      (nth s.launches 0).any fun l => l.lrec.det == 1 && !l.overflow && decide (32 + 16 * (l.traced + 1) ≤ l.lrec.traceLen) == x.2.2
        && ((s.writeVa l.part (l.lrec.trace.toNat + 32 + 16 * l.traced) (leBytes 8 7 ++ leBytes 8 9)).bind fun s1 =>
            s1.writeVa l.part (l.lrec.trace.toNat + 8) (leBytes 8 (l.traced + 1))).isSome) = true
    ∧ (nth (at_ (.nop (rf)) fun s => launch0 (fun l => { l with overflow := true }) (recording 48 s)).launches 0).any (fun l => l.overflow) = true
    ∧ (nth (at_ (.nop (rf))).launches 0).any (fun l => l.lrec.det != 1) = true := by decide +kernel

/-- Bytes of the vault window: offset, size, value. -/
def put (fields : List (Nat × Nat × Nat)) (s : State) : State :=
  { s with mem := fields.foldl (fun m x => FMap.setN 0 m (vaultPa + x.1) (leBytes x.2.1 x.2.2)) s.mem }
/-- A launch record at the start of the vault window, of the kernel that the partition has loaded. -/
def withRecord (s : State) : State :=
  (put [(0, 8, 0x10000020000), (8, 4, 0x20), (0xC, 4, 0x5410429), (0x10, 4, 1), (0x14, 4, 1), (0x18, 4, 1), (0x1C, 4, 1),
    (0x20, 4, 0x10020), (0x2C, 4, 0xE00)] s).modPart 0 fun p => { p with images := [{ placedImage with kernels := [placedKernel 0] }] }

/-- A record that is accepted, one that is refused, and an address off its boundary. -/
theorem premises_DeviceLaunch :
    (let i : Instr := .launch (rf (.k 1) (.k 2) (.k 3))
     let at2 (va : Nat) (f : State → State) : State := at_ i fun s => setUni 2 va (f s)
     meets i (at2 vault withRecord) (fun c => full c && ((at2 vault withRecord).readLaunch c.pi vault (some 0)).isSome)
     && meets i (at2 vault id) (fun c => full c && ((at2 vault id).readLaunch c.pi vault (some 0)).isNone)
     && meets i (at2 (vault + 255) id) full) = true
    ∧ allIdle [.launch (rf (.k 1) (.k 2) (.k 3) (hdr := off))] = true := by decide +kernel

/-- Slot and tile 0 claimed. -/
def claimed (mode : TileMode) (s : State) : State :=
  s.modGang 0 fun g => { g with slots := [(0, some {})], tiles := [(0, some { mode := mode })] }

/-- Numbers at both sides of the gang's share, claimed and not, with no operation that names them. -/
theorem premises_ClaimsAndReleases :
    ([(.oclm (rf (.k 1) (.k 2)), 31, id), (.oclm (rf (.k 1) (.k 2)), 0, claimed .f32), (.oclm (rf (.k 1) (.k 2)), 32, id),
      (.orls (rf (a := .k 2)), 31, id), (.orls (rf (a := .k 2)), 0, claimed .f32)] : List (Instr × Nat × (State → State))).all (fun x =>
        let s := at_ x.1 fun s => setUni 2 x.2.1 (x.2.2 s)
        meets x.1 s fun c => full c && c.l.lrec.slots == 32 && !s.slotBusy c.gi x.2.1) = true
    ∧ ([(.aclm (rf (.k 1) (.k 2)), 15, id), (.aclm (rf (.k 1) (.k 2)), 0, claimed .f32), (.aclm (rf (.k 1) (.k 2)), 16, id),
      (.arls (rf (a := .k 2)), 15, id), (.aclr (rf (a := .k 2) (ty := .f64)), 0, claimed .f32),
      (.astat (rf (.k 1) (.k 2) (sub := 1)), 0, claimed .s32), (.astat (rf (.k 1) (.k 2)), 15, id)] : List (Instr × Nat × (State → State))).all (fun x =>
        let s := at_ x.1 fun s => setUni 2 x.2.1 (x.2.2 s)
        meets x.1 s fun c => full c && c.l.lrec.tiles == 16 && !s.tileBusy c.gi x.2.1) = true := by decide +kernel

/-- `QuarterFits`, for the slots and tile of a state. -/
def fits (x : Mma) (g : Gang) (l : Launch) (q : Nat) : Bool :=
  let slot (d : Nat) : Bool := decide (d % 32 < l.lrec.slots) && (FMap.get none g.slots (d % 32)).isSome
  decide (x.d < 2 ^ 13) && decide (x.d % 16 < l.lrec.tiles)
    && ((FMap.get none g.tiles (x.d % 16)).any fun t =>
      t.mode == mmaMode x.t && decide (32 * (x.d / 2 ^ 11) + x.n ≤ if t.mode = .f64 then 64 else 128))
    && decide (x.d / 16 % 128 + q * x.m + x.m ≤ 128) && decide (x.a < 2 ^ 13) && slot x.a
    && decide (x.a / 32 + q * x.m + x.m ≤ 256) && decide (x.b < 2 ^ 14) && slot x.b
    && (if x.b.testBit 5 then x.meta_.isNone && decide (x.b / 64 + x.k ≤ 256) && decide (x.n * x.t.width ≤ 1024) && decide (x.t ≠ .b4)
        else decide (x.b / 64 + x.n ≤ 256))
    && x.meta_.all fun m => decide (m < 2 ^ 13) && slot m && decide (m / 32 + q * x.m + x.m ≤ 256)

theorem quarterFits_of_fits {x : Mma} {g : Gang} {l : Launch} {q : Nat} (h : fits x g l q = true) : QuarterFits x g l q := by
  simp only [fits, Bool.and_eq_true, decide_eq_true_eq, Option.any_eq_true, beq_iff_eq, Option.isSome_iff_ne_none,
    Option.all_eq_true] at h
  obtain ⟨⟨⟨⟨⟨⟨⟨⟨⟨⟨h1, h2⟩, t, ht, hm, hn⟩, h4⟩, h5⟩, h6⟩, h7⟩, h8⟩, h9⟩, h10⟩, h11⟩ := h
  refine ⟨h1, h2, ⟨t, ht, hm, hn⟩, h4, h5, h6, h7, h8, h9, ?_, fun m hm => ⟨(h11 m hm).1.1, (h11 m hm).1.2, (h11 m hm).2⟩⟩
  by_cases hb : x.b.testBit 5 = true <;> simp only [hb, if_true, if_false, Bool.and_eq_true, decide_eq_true_eq, Option.isNone_iff_eq_none,
    Bool.false_eq_true] at h10 ⊢
  · exact ⟨h10.1.1.1, h10.1.1.2, h10.1.2, h10.2⟩
  · exact h10

/-- The operands of an MMA or MMAS as `Obligations.MatrixMultiply` reads them. -/
def shapeIn (k : WCore) (f : RegForm) (sparse : Bool) : Mma :=
  let sub := f.sub.toNat
  { t := f.ty, m := 8 * 2 ^ (sub / 8 % 4), n := 32 * 2 ^ (sub / 2 % 4)
    k := if f.ty = .b4 then 128 else 512 / f.ty.width * 2 ^ (sub % 2)
    d := uniformOf k f.dst, a := uniformOf k f.a, b := uniformOf k f.b
    meta_ := if sparse then some (uniformOf k f.c) else none, sparse := 2 * (sub / 32) }

/-- Ranges that end at the last row of the tile and of a slot; at one row further they do not fit. -/
theorem premises_MatrixMultiply :
    ([(false, 0), (true, 0), (false, 1), (true, 1)] : List (Bool × Nat)).all (fun x =>
      let f : RegForm := rf (.k 1) (.k 2) (.k 3) (if x.1 then .k 4 else .v 0) .bf16 (if x.1 then 0x20 else 0)
      let i : Instr := if x.1 then .mmas f else .mma f
      let s := at_ i fun s => setUni 1 (16 * (96 + x.2)) (setUni 2 (32 * 224) (claimed .f32 s))
      meets i s fun c => full c && !s.drainPending c.gi 0 && quarters c.active == [0, 1, 2, 3]
        && (quarters c.active).all fun q => fits (shapeIn (s.core 0) f x.1) c.g c.l q == (x.2 == 0 || q != 3)) = true := by
  decide +kernel

/-- An issue of each engine operation, its completion object in local memory. -/
def engines : List (Instr × (State → State)) :=
  let ready (s : State) : State := setUni 1 (2 ^ 13) (setUni 2 0 (setUni 3 64 (claimed .f32 s)))
  let drain (s : State) : State := setUni 1 (2 ^ 11) (setUni 2 0 (setUni 3 64 (claimed .f32 s)))
  [(.old (rf (.k 1) (.k 2) (.k 3) (.k 4) .bf16 0x40 (space := .l)), ready), (.old (rf (.k 1) (.k 2) (.k 3) (.k 4) .bf16 0x41 (space := .l)), ready),
   (.old (rf (.k 1) (.k 2) (.v 0) (.k 4) .bf16 0x42 (.k 5) (space := .l)), fun s => setUni 1 (8 * 2 ^ 13) (ready s)),
   (.old (rf (.k 1) (.k 2) (.v 0) (.k 4) .bf16 0x43 (.k 5) (space := .l)), ready),
   (.ost (rf (.k 1) (.k 2) (.k 3) (.k 4) .s8 0x40 (space := .l)), ready), (.adrn (rf (.k 1) (.k 2) (.k 3) (.k 4) .s8 0x40 (space := .l)), drain),
   (.wupd (rf (.k 1) (.k 2) (.k 4) (.k 4) .f32 0x40 (space := .l)), drain),
   (.wupd (rf (.k 1) (.k 2) (.k 4) (.k 4) .f64 0x41 (space := .l)), fun s => setUni 1 (2 ^ 11) (claimed .f64 s)),
   (.cpy (rf (.v 0) (.k 2) (.k 3) (.k 4) .s8 0x40 (.k 5) (space := .l)), ready),
   (.cpyr (rf (.v 0) (.k 2) (.k 3) (.k 4) .f32 0x40 (.k 5) (space := .l)), ready),
   (.isect (rf (.v 0) (.v 0) (.k 3) (.k 4) .s8 0x40), ready), (.dcorm (rf (.v 0) (.v 0) (.k 3) (.k 4) .f32 0x40), ready)]

/-- `EngineReady`, for a completion object in local memory. -/
def readyHere (i : Instr) (f : RegForm) (s : State) (c : Ctx) : Bool :=
  let v (o : Operand) : Nat := uniformOf (s.core s.cur) o
  let slot : Bool := decide (v f.dst < 2 ^ 22 ∧ v f.dst / 2 ^ 13 ≠ 0 ∧ v f.dst / 32 % 256 + v f.dst / 2 ^ 13 ≤ 256
    ∧ v f.dst % 32 < c.l.lrec.slots ∧ slotIn s c.gi (v f.dst % 32) ≠ none)
  let drain : Bool := decide (v f.dst < 2 ^ 19 ∧ v f.dst / 2 ^ 11 ≠ 0 ∧ v f.dst / 16 % 128 + v f.dst / 2 ^ 11 ≤ 128
    ∧ v f.dst % 16 < c.l.lrec.tiles ∧ tileIn s c.gi (v f.dst % 16) ≠ none ∧ s.drainPending c.gi (v f.dst % 16) = false)
  decide (v f.c % 8 = 0) && f.sub.getLsbD 6 && match i with
    | .old _ => slot && match f.sub.toNat % 4 with
      | 0 => decide (v f.a % 16 = 0 ∧ v f.b % 16 = 0)
      | 1 => decide (v f.a % (f.ty.width / 8) = 0 ∧ v f.b % (f.ty.width / 8) = 0)
      | 2 => decide (v f.a % 16 = 0 ∧ v f.dst / 2 ^ 13 % 8 = 0 ∧ v f.d < 2 ^ 32)
      | _ => decide (v f.a % (f.ty.width / 8) = 0)
    | .ost _ => slot && decide (v f.a % 16 = 0 ∧ v f.b % 16 = 0)
    | .adrn _ => drain && decide (v f.a % 16 = 0 ∧ v f.b % 64 = 0)
    | .wupd _ => drain && decide (v f.a % 16 = 0 ∧ v f.b / 2 ^ 32 % 16 = 0
        ∧ (f.ty = .f64 → (tileIn s c.gi (v f.dst % 16)).map (·.mode) = some .f64))
    | .cpy _ => decide (v f.a % 16 = 0 ∧ v f.b % 16 = 0 ∧ v f.d % 16 = 0 ∧ v f.d < 2 ^ 48)
    | .cpyr _ => decide (v f.a % 16 = 0 ∧ v f.b % 16 = 0 ∧ v f.d / 2 ^ 12 % 2 ^ 20 = 0)
    | .isect _ => decide (v f.b % 64 = 0)
    | _ => decide (v f.b % 64 = 0 ∧ v f.c % 32 = 0)

theorem engineReady_of {i : Instr} {f : RegForm} {s : State} {c : Ctx} (h : readyHere i f s c = true) : EngineReady i f s c := by
  simp only [readyHere, Bool.and_eq_true, decide_eq_true_eq] at h
  refine ⟨⟨h.1.1, fun h' => absurd h' (by simp [h.1.2])⟩, ?_⟩
  replace h := h.2
  split at h <;> simp only [Bool.and_eq_true, decide_eq_true_eq] at h ⊢ <;> try exact h
  refine ⟨h.1, ?_⟩
  replace h := h.2
  split at h <;> simp_all

theorem premises_EngineOperationsIssue :
    (engines.all fun x => meets x.1 (at_ x.1 x.2) fun c => full c && (at_ x.1 x.2).queuedOps c.wi == 0
      && (engineWord x.1).any fun f => readyHere x.1 f (at_ x.1 x.2) c) = true
    ∧ allIdle [.old (rf (.k 1) (.k 2) (.k 3) (.k 4) .bf16 0x40 (space := .l) (hdr := off))] = true := by decide +kernel

theorem premises_ServicesAndWaits :
    allFull [(.svc (imf (.k 1) (.k 2) .s8 7), id), (.tlbi (rf (a := .k 2)), handling), (.tlbi (rf (sub := 1)), handling),
      (.idle (rf (.k 1) (.k 2)), handling), (.idle (rf (.k 1) (.k 2)), fun s => setUni 2 1 (handling s)),
      (.idle (rf (.k 1) (.k 2)), fun s => { setUni 2 1 (handling s) with events := [(0, [6])] })] = true
    ∧ allIdle [.svc (imf (.k 1) (.k 2) .s8 7 (hdr := off))] = true
    ∧ ([(.tlbi (rf (sub := 1) (hdr := off))), .idle (rf (.k 1) (.k 2) (hdr := off))] : List Instr).all
        (fun i => meets i (at_ i handling) idle) = true := by decide +kernel

/-- Addresses at both sides of a boundary, in the last block that is mapped and the first that is not, for firmware and in a handler. -/
theorem premises_SystemAccesses :
    ([(0x12000000, true), (0x12000004, true), (0x13000000, true), (0x08000008, true), (0x09000000, true), (0x20000000, false), (0x21000000, false)]
      : List (Nat × Bool)).all (fun x =>
        let f (s : State) : State := setUni 2 x.1 (if x.2 then warp (fun w => { w with firmware := true }) s else handling s)
        let r : Instr := .srd (rf (.v 4) (.k 2) (ty := .n64))
        let w : Instr := .swr (rf (.v 0) (.k 2) (.k 3) (ty := .n64))
        let mapped := x.1 / 2 ^ 24 != 0x13 && x.1 / 2 ^ 24 != 9 && x.1 / 2 ^ 24 != 0x21
        meets r (at_ r f) (fun c => full c && plain r f c && ((at_ r f).block c.agent x.1).isSome == mapped)
        && meets w (at_ w f) fun c => full c && plain w f c && ((at_ w f).block c.agent x.1).isSome == mapped) = true := by
  decide +kernel

/-- Registers of every block that is mapped for some agent once the device is up. -/
theorem premises_SystemAccesses_places :
    ([.consctl 7, .qcfg 63, .qstat 0, .ectl, .eload 4095, .epool 7, .ptroot, .ctxsize, .rbase 0, .chead 15] : List Reg).all (fun r =>
      let s : State := { State.reset with pkg := { State.reset.pkg with stage := 7 } }
      (registerAt r).any fun x => ((s.block ⟨0, none, none⟩ (x.1 * 2 ^ 24 + x.2)).bind (· x.2)) == some (r, false)) = true := by decide +kernel

/-- A return to a marked slot, and to a line that has none. -/
theorem premises_HandlerReturn :
    ([(0x10000000002, true), (0x10000000040, false)] : List (Word64 × Bool)).all (fun x =>
      let i : Instr := .eret (rf)
      let s := at_ i fun s => warp (fun w => { w with handler := some { aHandler with epc := x.1 } }) s
      meets i s fun c => (c.w.handler.map (·.epc)) == some x.1 && s.marked c.pi x.1 == x.2 && s.lineUnread c.pi x.1 == none) = true
    ∧ ([(0x10000030000, some (.sleep 0x10000030000 none)), (2 ^ 56, some (.fault .translation 2 false)), (0x10000000005, none)] : List (Word64 × Option Stop)).all (fun x =>
      let i : Instr := .eret (rf)
      let s := at_ i fun s => warp (fun w => { w with handler := some { aHandler with epc := x.1 } }) s
      meets i s fun c => (c.w.handler.map (·.epc)) == some x.1 && !s.marked c.pi x.1 && (!pcOk x.1 || s.lineUnread c.pi x.1 == x.2)
        && pcOk x.1 == x.2.isSome) = true := by decide +kernel

/-- No migration asked for; one asked for with room in the other kind, with none, and with no variant of it. -/
theorem premises_EquivalencePoints :
    let i : Instr := .eqp (imf (imm := 5))
    let asked (s : State) : State := warp (fun w => { w with migp := true }) s
    let big (s : State) : State := launch0 (fun l => { l with kern := { l.kern with varD := some ⟨0x10000010000, 64, 2049, none⟩ } }) s
    let alone (s : State) : State := launch0 (fun l => { l with kern := { l.kern with varD := none } }) s
    let room (s : State) (c : Ctx) : Option Nat := (c.l.kern.varD).bind fun v => s.migrationCore c.g.die c.g.cell .d v.regs
    (meets i (at_ i) (fun c => c.l.lrec.det == 0 && !c.w.migp)
      && meets i (at_ i alone) (fun c => c.l.kern.varD.isNone)
      && meets i (at_ i asked) (fun c => c.w.migp && c.split.lanes == c.w.live && plain i asked c && !c.w.slow && !c.w.asleep
          && (room (at_ i asked) c).isSome && (List.range 32).all fun j => poppedTaint (at_ i asked) c j == [])
      && meets i (at_ i fun s => recording 4096 (asked s)) (fun c => c.l.lrec.det == 1 && c.w.migp && c.split.lanes == c.w.live && plain i asked c
          && !c.w.slow && !c.w.asleep && (room (at_ i asked) c).isSome)
      && meets i (at_ i fun s => asked (big s)) (fun c => c.w.migp && c.split.lanes == c.w.live && (room (at_ i fun s => asked (big s)) c).isNone)) = true
    ∧ allFull [(.migr (rf), id), (.migr (rf (sub := 1)), id), (.migq (rf (.v 1)), id)] = true ∧ allIdle [.migr (rf (hdr := off))] = true := by
  decide +kernel

/-- Expert 9 with two copies in the current version, the second less used. -/
def anExpert : Expert :=
  { eid := 9, copies := [{ rep := 0, die := 0, base := 0, phase := .live, published := true, outstanding := 2 },
                         { rep := 1, die := 1, base := 0x5000010000, phase := .live, published := true }] }
def withExpert (s : State) : State := s.modPart 0 fun p => { p with et := { p.et with experts := [anExpert], ver := 3 } }

theorem premises_RoutingInstructions :
    ([(.route (rf (.v 4) (.v 1) (.v 2) (d := .p false 1)), fun s => withExpert (setPair 1 9 s)), (.route (rf (.k 4) (.k 1) (.k 2) (d := .p false 1)), id),
      (.rtrel (rf (a := .v 1) (d := .p false 1)), id), (.rtver (rf (.v 1)), withExpert)] : List (Instr × (State → State))).all (fun x =>
        meets x.1 (at_ x.1 x.2) fun c => full c && c.l.lrec.det == 0 && decide (c.pi < (at_ x.1 x.2).parts.length)) = true
    ∧ (let i : Instr := .route (rf (.v 4) (.v 1) (.v 2) (d := .p false 1))
       meets i (at_ i fun s => recording 4096 (withExpert (setPair 1 9 s))) fun c => full c && c.l.lrec.det == 1) = true
    ∧ (({ experts := [anExpert] } : Etesian).choose false 9 0).map (fun x => x.2.rep) = some 1
    ∧ (({ experts := [anExpert] } : Etesian).choose true 9 128).map (fun x => x.2.rep) = some 1
    ∧ (anExpert.copies.map (·.rep)).Nodup ∧ (∀ k ∈ anExpert.copies, k.rep < 32)
    ∧ anExpert.registered = true ∧ (anExpert.copies.all fun k => k.phase == .live && k.published && !k.quarantined) = true := by decide +kernel

/-! Steps of other agents. -/

/-- A change of partition 0, and of its Etesian. -/
def part0 (f : Part → Part) (s : State) : State := s.modPart 0 f
/-- The device at READY. -/
def ready : State := { State.reset with pkg := { State.reset.pkg with stage := 7 } }
/-- Ring 2 of partition 0 with space for sixteen entries, HEAD 3 and TAIL t. -/
def ring2 (t : Word32) (s : State) : State :=
  part0 (fun p => { p with rings := [(2, { base := BitVec.ofNat 64 vault, size := 4, head := 3, tail := t })] }) s

/-- A write of a whole register: its address is mapped and names it. -/
def names (s : State) (addr : Word32) (r : Reg) : Bool :=
  (s.block ⟨0, none, none⟩ addr.toNat).any fun b => b (addr.toNat % 2 ^ 24) == some (r, false)

theorem premises_RegisterWrites :
    ([(0x11000000, .ectl, State.reset), (0x12000080, .ptroot, State.reset), (0x10001008, .qstat 0, State.reset), (0x12008004, .caps 4, State.reset),
      (0x100013F0, .qcfg 63, State.reset), (0x12000090, .prcount, State.reset), (0x08000040, .consctl 7, State.reset),
      (0x12001080, .rbase 2, ring2 3 ready), (0x12001088, .rsize 2, ring2 4 ready), (0x120010A0, .csize 2, ready),
      (0x12001094, .rerr 2, ready), (0x12001090, .rtail 2, ring2 3 ready), (0x11000004, .eintv, State.reset), (0x11000008, .estat, State.reset),
      (0x11000018, .ecmd, State.reset), (0x11000018, .ecmd, part0 (fun p => { p with et := { p.et with busy := true } }) State.reset),
      (0x11000138, .epool 7, State.reset), (0x120000B8, .freplay, State.reset)] : List (Word32 × Reg × State)).all
      (fun x => names x.2.2 x.1 x.2.1 && x.1.toNat % (if x.2.1.wide then 8 else 4) == 0 && 0 < x.2.2.parts.length) = true
    ∧ State.reset.block ⟨0, none, none⟩ 0x13000000 = none ∧ State.reset.block ⟨0, none, none⟩ 0 = none
    ∧ names State.reset 0x12001080 (.rbase 2) = false
    ∧ ready.pkg.stage = 7 ∧ (ready.part 0).en = true ∧ State.reset.parts.length = 8 := by decide +kernel

/-- High and low halves of wide registers, a device before READY, and carve-outs that may and may not be granted. -/
theorem premises_RegisterWrites_halves :
    ([(0x12000084, .ptroot, true), (0x12000080, .ptroot, false), (0x1100013C, .epool 7, true), (0x100013F4, .qcfg 63, true)] : List (Word32 × Reg × Bool)).all (fun x =>
      (State.reset.block ⟨0, none, none⟩ x.1.toNat).any fun b =>
        let off := x.1.toNat - if x.2.2 then 4 else 0
        b (x.1.toNat % 2 ^ 24) == some (x.2.1, x.2.2) && x.2.1.wide && off % 8 == 0 && b (off % 2 ^ 24) == some (x.2.1, false)
          && x.1.toNat / 2 ^ 24 == off / 2 ^ 24) = true
    ∧ State.reset.pkg.stage < 7
    ∧ (List.range 8).all (fun n => (ready.part n).carves.length == 7 && (n == 0 || (ready.part n).carves.all (· == 0))) = true
    ∧ ready.launches.isEmpty = true ∧ (nth (ready.part 0).carves 0).any (fun c => 0 < c.toNat / 2 ^ 52) = true
    ∧ (ready.part 0).en = true ∧ (ready.part 0).dies ≠ 0 := by decide +kernel

/-- A doorbell at the last entry that is accepted, sixteen past HEAD, and at the first that is not. -/
theorem premises_RegisterWrites_doorbell :
    ([19, 20] : List Word32).map (fun v => let s := ring2 3 State.reset
      ((v - (s.ring 0 2).tail).toNat ≤ (v - (s.ring 0 2).head).toNat && (v - (s.ring 0 2).head).toNat ≤ 16 : Bool)) = [true, false] := by
  decide +kernel

/-- The warp's one split waits for something; the launch runs, or its gang is off the cells. -/
def blocked (b : Block) (wait : Nat := 0) (phase : GPhase := .resident) : State :=
  (at_ (.nop (rf)) fun s => core (fun k => { k with frontier := [⟨0xFFFFFFFF, 0x10000000000, wait, b⟩] }) s).modGang 0
    fun g => { g with phase := phase }
def request (s : State) : State := { s with requests := [⟨0, 7, 0, 0, 0, 0xFFFFFFFF⟩] }

theorem premises_WaitsEnd :
    ([(request (blocked (.svc 1 false none))), request (blocked (.svc 1 false none) 0 .eligible)] : List State).map (fun s =>
      ((nth s.warps 0).bind fun w => w.entryOf 0xFFFFFFFF) == some ⟨0xFFFFFFFF, 0x10000000000, 0, .svc 1 false none⟩
        && (s.requests.find? fun r => r.warp == 0 && r.lanes == 0xFFFFFFFF).isSome && s.running 0) = [true, false]
    ∧ ([(.tlbi none), .tlbi (some 5), .idle 1 false 0 false, .idle 1 false 9 true] : List Block).all (fun b =>
      ((nth (blocked b).warps 0).bind fun w => w.entryOf 0xFFFFFFFF) == some ⟨0xFFFFFFFF, 0x10000000000, 0, b⟩
        && (blocked b).running 0) = true
    ∧ ([(.tlbi none, true), (.tlbi (some (BitVec.ofNat 64 (vault + 65536))), true), (.tlbi (some 5), false)] : List (Block × Bool)).all (fun x =>
      let s := warp (fun w => { w with ckpts := [{ aCkpt w with pages := [(vault / 65536, 3)] }] }) (blocked x.1)
      let s := { s with tlb := [{ part := 0, level := 1, index := vault / 2 ^ 30, pte := 0xA0000000023 }] }
      let removed (va : Option Nat) : Bool := match va with
        | none => true
        | some a => a / 65536 == vault / 65536 || s.tlb.any fun e => pteType e.pte != 0 && e.covers 0 a && e.covers 0 vault
      (match x.1 with
      | .tlbi va => removed (va.map (·.toNat))
      | _ => false) == x.2
        && match s.walk (s.part 0) vault with
          | .ok pa _ => s.pkg.norm pa / 65536 != 3
          | _ => false) = true
    ∧ (let s := at_ (.nop (rf)) fun s => core (fun k => { k with sel := 1, frontier :=
        [⟨1, 0x10000000000, 255, .ready⟩, ⟨0xFFFFFFFE, 0x10000000001, 256, .ready⟩] }) s
       (s.issuer 0).any fun x => (s.refreshed x.1 x.2.1 0).frontier.any (fun e => e.issues && 256 ≤ e.wait)
        && (s.refreshed x.1 x.2.1 0).frontier.all fun e => e.lanes != (s.refreshed x.1 x.2.1 0).sel || e.wait < 256) = true
    ∧ (let s := at_ (.nop (rf)) fun s => core (fun k => { k with sel := 1, frontier :=
        [⟨1, 0x10000000000, 0, .collective 3 65536⟩, ⟨2, 0x10000000001, 0, .ready⟩] }) s
       (s.issuer 0).any fun x => x.1.ckpts.isEmpty
        && ((s.refreshed x.1 x.2.1 0).frontier.find? fun e => e.lanes = 1) == some ⟨1, 0x10000000000, 0, .collective 3 65536⟩) = true := by
  decide +kernel

/-- A checkpoint with a store and one with a conflict; a warp whose serial accesses are spent. -/
theorem premises_CheckpointsEnd :
    let stored (s : State) : State := warp (fun w => { w with ckpts := [{ aCkpt w with stores := [[⟨.local 0 4, none, [1, 2], true⟩]] }] }) s
    let hit (s : State) : State := warp (fun w => { w with ckpts := [aCkpt w, { aCkpt w with conflict := true, marks := [5] }], rbRow := [0, 3] }) s
    let w (f : State → State) : Option Warp := nth (at_ (.nop (rf)) f).warps 0
    ((w stored).any fun w => w.ckpts.length == 1 && w.ckpts.all (fun k => !k.conflict && k.stores.flatten.all (·.shadow.isNone)) && !w.asleep) = true
    ∧ ([(0x10040004, false), (0x10040003, true)] : List (Nat × Bool)).all (fun x =>
        ((w fun s => warp (fun w => { w with ckpts := [aCkpt w, { aCkpt w with conflict := true, cons := x.1 }], rbRow := [0, 3] }) s).bind fun w =>
          (nth w.ckpts 1).map fun y => decide (y.cons % 16 < (nth w.rbRow 1).getD 0 + 1)) == some x.2) = true
    ∧ ((w hit).bind fun w => (nth w.ckpts 1).map (·.conflict)) = some true ∧ (at_ (.nop (rf)) hit).running 0 = true
    ∧ ((w fun s => warp (fun w => { w with ser := true }) s).any fun w => w.ser && w.serLeft == 0) = true := by decide +kernel

/-- An engine operation of warp 0, running, its slot and tile 0 claimed. -/
def anOp (i : Instr) (dst a b c d : Word64) : EOp :=
  { instr := i, gang := 0, warp := 0, launch := 0, group := 0, kind := .l, pc := 0x10000000000, eqix := 0xFFFFFFFF, altpc := 0
    dst := dst, a := a, b := b, c := c, d := d, tag := true, rngk := 0, rngc := 0, phase := .running }
def running (o : EOp) : State := { at_ (.nop (rf)) (claimed .f32) with ops := [o] }
def lives (s : State) : Bool := s.warps.any fun w => w.gang == 0 && !w.ended
/-- The place of local memory at an offset. -/
def localPlace (off : Nat) : Place := ⟨.local 0 off, none, false, false, off⟩

/-- OLD in each form, over zero bytes of local memory. -/
theorem premises_EnginesPerform_old :
    ([0x40, 0x41, 0x43] : List (BitVec 7)).all (fun sub =>
      let f : RegForm := rf (.k 1) (.k 2) (.k 3) (.k 4) .bf16 sub (.k 5) (space := .l)
      let o := anOp (.old f) (2 ^ 13) 0 16 2048 1024
      let s := running o
      s.thread 0 == some o && lives s && (slotIn s 0 0).isSome
        && (match s.threadPlace (completionAccess s o f) true with
          | .ok q => q == localPlace 2048
          | .error _ => false)
        && (List.range 128).all (fun j => match oldSource f o (fun _ => 0) 0 j with
          | some (a, n, _) => (match s.threadRead o .l a n with
            | .ok r => r == (List.replicate n 0, false)
            | .error _ => false)
          | none => sub == 0x43)
        && (List.range 8).all fun i => (match s.threadRead o .l (1024 + i) 1 with
          | .ok r => r == ([0], false)
          | .error _ => false)) = true := by decide +kernel

/-- The places are in local memory or beyond the translation tree. -/
def clear (W : List Place) : Bool := W.all fun q => match q.loc with
  | .local _ _ => true
  | .phys pa => vaultPa ≤ pa

theorem near_via {W : List Place} {s u : State} {α : Type} (h : NearIn W s u) (g : State → α) :
    g { u with mem := s.mem, tags := s.tags, lmem := s.lmem, ltags := s.ltags, warps := s.warps, regions := s.regions, marks := s.marks }
      = g s := congrArg g h.1

theorem near_tile {W : List Place} {s u : State} (h : NearIn W s u) : NearTile W s u := by
  have hg : u.gangs = s.gangs := near_via h State.gangs
  refine ⟨?_, fun j => by rw [hg]⟩
  rw [← hg]; exact h

/-- Places of local memory depend neither on what memory holds nor on slots and tiles. -/
theorem near_threadPlace {W : List Place} {s u : State} (h : NearTile W s u) (a : Access) (c : Bool) (ha : a.space = .l) :
    u.threadPlace a c = s.threadPlace a c := by
  obtain ⟨h, hg⟩ := h
  have hl : u.launches = s.launches := near_via h State.launches
  have hp : u.poison = s.poison := near_via h State.poison
  have hq : u.lpoison = s.lpoison := near_via h State.lpoison
  have hr : ∀ gi group, u.localRange gi group = s.localRange gi group := by
    intro gi group
    cases gi with
    | none => rfl
    | some j =>
      have hj := hg j
      simp only [State.localRange, Option.bind_some, hl]
      cases h1 : nth u.gangs j <;> cases h2 : nth s.gangs j <;> simp only [h1, h2, Option.map_none, Option.map_some, reduceCtorEq,
        Option.some.injEq] at hj ⊢
      rename_i x y
      have e1 : x.launch = y.launch := by have e := congrArg Gang.launch hj; exact e
      have e2 : x.die = y.die := by have e := congrArg Gang.die hj; exact e
      have e3 : x.cell = y.cell := by have e := congrArg Gang.cell hj; exact e
      have e4 : x.localAt = y.localAt := by have e := congrArg Gang.localAt hj; exact e
      rw [e1, e2, e3, e4]
  simp only [State.threadPlace, State.place, State.poisoned, ha, hr, hp, hq]
  rfl

/-- Memory below the vaults is the same. -/
theorem near_low {W : List Place} {s u : State} (h : NearTile W s u) (hW : clear W = true) {pa : Nat} (hpa : pa < vaultPa) :
    FMap.get 0 u.mem pa = FMap.get 0 s.mem pa := by
  refine h.1.2 pa fun q hq e => ?_
  have hc := List.all_eq_true.mp hW q hq
  rcases hl : q.loc with x | ⟨c, o⟩
  · simp only [hl, decide_eq_true_eq] at hc
    rw [sectorOf, hl] at e
    have e : x / 32 = pa / 32 := by injection e
    have : vaultPa % 32 = 0 := by decide
    omega
  · rw [sectorOf, hl] at e; cases e

/-- A walk that meets only tables below the vaults. -/
def lowWalk (s : State) (p : Part) (va : Nat) : Nat → Nat → Bool
  | left, table => s.pkg.norm (table + 8 * levelIndex va (3 - left)) + 8 ≤ vaultPa && match left with
    | 0 => true
    | left + 1 => match s.walkLevel p va (fun _ e => e) (2 - left) table with
      | .ok below => lowWalk s p va left below
      | .error _ => true

/-- It goes the same way where nothing but memory above them differs. -/
theorem low_walk {s u : State} {p : Part} {va : Nat} (hk : u.pkg = s.pkg) (ht : u.turn = s.turn) (hp : u.poison = s.poison)
    (hf : u.freed = []) (hf' : s.freed = []) (hm : ∀ pa, pa < vaultPa → FMap.get 0 u.mem pa = FMap.get 0 s.mem pa) :
    ∀ left table, lowWalk s p va left table = true → u.walkFrom p va (fun _ e => e) left table = s.walkFrom p va (fun _ e => e) left table := by
  have hw (ea : Nat) (h : ea + 8 ≤ vaultPa) : u.word64 ea = s.word64 ea := by
    simp only [State.word64, State.bytes, FMap.getN]
    rw [hm ea (by omega), hm (ea + 1) (by omega), hm (ea + 1 + 1) (by omega), hm (ea + 1 + 1 + 1) (by omega), hm (ea + 1 + 1 + 1 + 1) (by omega),
      hm (ea + 1 + 1 + 1 + 1 + 1) (by omega), hm (ea + 1 + 1 + 1 + 1 + 1 + 1) (by omega), hm (ea + 1 + 1 + 1 + 1 + 1 + 1 + 1) (by omega)]
  have hown (pa : Nat) : u.ownsPa p pa = s.ownsPa p pa := by simp only [State.ownsPa, hk]
  have hmay (pa : Nat) : u.mayMap p pa = s.mayMap p pa := by
    simp only [State.mayMap, hown, State.isFreed, hf, hf', List.any_nil, Bool.false_and]
  have hlevel (level table : Nat) (h : s.pkg.norm (table + 8 * levelIndex va level) + 8 ≤ vaultPa) :
      u.walkLevel p va (fun _ e => e) level table = s.walkLevel p va (fun _ e => e) level table := by
    simp only [State.walkLevel, State.entryMeans, hk, ht, hp, hown, hmay, hw _ h]
  intro left
  induction left with
  | zero =>
    intro table h
    simp only [lowWalk, Bool.and_eq_true, decide_eq_true_eq] at h
    simp only [State.walkFrom, hlevel 3 table h.1]
  | succ left ih =>
    intro table h
    simp only [lowWalk, Bool.and_eq_true, decide_eq_true_eq] at h
    have e : 3 - (left + 1) = 2 - left := by omega
    rw [e] at h
    simp only [State.walkFrom, hlevel (2 - left) table h.1]
    cases hx : s.walkLevel p va (fun _ e => e) (2 - left) table with
    | ok below => rw [hx] at h; exact ih below h.2
    | error x => rfl

/-- An address whose translation is a walk of tables below the vaults, to storage with no shadow. -/
def low (s : State) (pi va : Nat) : Bool :=
  s.tlb.isEmpty && s.freed.isEmpty && lowWalk s (s.part pi) va 3 (s.part pi).root && match s.walk (s.part pi) va with
    | .ok pa _ => !isHostPa pa && !isHostPa (s.pkg.norm pa)
    | _ => true

/-- Nor do places of global memory there. -/
theorem near_globalPlace {W : List Place} {s u : State} (h : NearTile W s u) (hW : clear W = true) (a : Access) (c : Bool) (ha : a.space = .g)
    (hv : low s a.part a.addr = true) : u.threadPlace a c = s.threadPlace a c := by
  have hm : ∀ pa, pa < vaultPa → FMap.get 0 u.mem pa = FMap.get 0 s.mem pa := fun pa hpa => near_low h hW hpa
  obtain ⟨h, -⟩ := h
  have hpt : u.parts = s.parts := near_via h State.parts
  have hl : u.launches = s.launches := near_via h State.launches
  have hp : u.poison = s.poison := near_via h State.poison
  have hq : u.lpoison = s.lpoison := near_via h State.lpoison
  have hk : u.pkg = s.pkg := near_via h State.pkg
  have hf : u.freed = s.freed := near_via h State.freed
  have ht : u.turn = s.turn := near_via h State.turn
  have hb : u.tlb = s.tlb := near_via h State.tlb
  have part : ∀ j, u.part j = s.part j := fun j => by simp only [State.part, hpt]
  simp only [low, Bool.and_eq_true, List.isEmpty_iff] at hv
  obtain ⟨⟨⟨b, f⟩, w⟩, host⟩ := hv
  have trans (t : State) (b : t.tlb = []) (e : t.part a.part = s.part a.part) : t.translate a.part a.addr = t.walk (s.part a.part) a.addr := by
    simp only [State.translate, State.walk, b, e, List.filter_nil, List.map_nil, ite_self, staleChoice]
  have gap : ∀ p va, u.vaultGap p va = s.vaultGap p va := fun p va => by simp only [State.vaultGap, hk]
  have eq : u.walk (s.part a.part) a.addr = s.walk (s.part a.part) a.addr := by
    simp only [State.walk, State.walkBy, gap, low_walk hk ht hp (hf.trans f) f hm _ _ w]
  have hr : ∀ l, u.handleRanges l = s.handleRanges l := fun l => by simp only [State.handleRanges, hl, part]
  have sh : u.globalPlace a = s.globalPlace a := by
    simp only [State.globalPlace, trans u (hb.trans b) (part _), trans s b rfl, eq, gap, part, State.touchesRo, State.insideRo, hr, hk, ht]
    cases hx : s.walk (s.part a.part) a.addr with
    | ok pa e =>
      rw [hx] at host
      simp only [Bool.and_eq_true, Bool.not_eq_true'] at host
      have hd : (isHostPa (if pteDev e = true then pa else s.pkg.norm pa) && !pteDev e) = false := by cases pteDev e <;> simp [host.2]
      by_cases hro : (a.write && pteRo e) = true
      · simp only [Xlat.access, hro, if_true]
      · simp only [Xlat.access, hro, if_false, hd, Bool.false_eq_true]
    | fault cls _ _ => cases cls <;> rfl
    | _ => rfl
  simp only [State.threadPlace, State.place, State.poisoned, ha, sh, hp, hq]
  rfl

/-- OST and CPY from and to local memory, so that their places are the same in every state near the first. -/
theorem premises_EnginesPerform_writers :
    ([(.ost (rf (.k 1) (.k 2) (.k 3) (.k 4) .s8 0x40 (space := .l))), .cpy (rf (.v 0) (.k 2) (.k 3) (.k 4) .s8 0x41 (.k 5) (space := .l))]
      : List Instr).all (fun i =>
      let f := (engineWord i).getD (rf)
      let o := anOp i (2 ^ 13) 0 512 2048 128
      let s := running o
      s.thread 0 == some o && lives s
        && (match s.threadPlace (completionAccess s o f) true with
          | .ok q => q == localPlace 2048 && plainAt s 8 (.place q)
          | .error _ => false)
        && (completionAccess s o f).space == .l
        && (List.range 8).all (fun i => (match s.threadPlace (s.threadAccess o .l (16 * i) 16 true) false with
          | .ok q => q == localPlace (16 * i) && plainAt s 16 (.place q)
          | .error _ => false)
          && (match s.threadPlace (s.threadAccess o .l (512 + 16 * i) 16 false) true with
          | .ok q => q == localPlace (512 + 16 * i) && plainAt s 16 (.place q)
              && (List.range 8).all fun j => sectorOf q != sectorOf (localPlace (16 * j))
          | .error _ => false))) = true := by decide +kernel

/-- A place of the vault window at an offset. -/
def vaultPlace (off : Nat) : Place := ⟨.phys (vaultPa + off), none, false, false, vault + off⟩

/-- An access of an operation's thread lies at a place of local memory or of the vault window. -/
def lies (s : State) (o : EOp) (sp : Space) (addr n : Nat) (write : Bool) (p : Place) : Bool :=
  decide (addr % 16 + n ≤ 16) && decide (0 < n) && plainAt s n (.place p)
    && (match s.threadPlace (s.threadAccess o sp (wrapAddr addr) n write) (!write) with
      | .ok q => q == p
      | .error _ => false)
    && (sp == .l || sp == .g && low s (s.partOf o.gang) (wrapAddr addr))

theorem plain_of {s : State} {p : Place} {n : Nat} (h : plainAt s n (.place p) = true) : Plain s p n := by
  simp only [plainAt, Bool.and_eq_true, Bool.not_eq_true', Option.isNone_iff_eq_none] at h
  refine ⟨h.1.1.1, h.1.1.2, h.1.2, ?_⟩
  replace h := h.2
  split at h <;> simp_all

theorem liesAt_of {W : List Place} {s : State} {o : EOp} {sp : Space} {addr n : Nat} {write : Bool} {p : Place} (hW : clear W = true)
    (h : lies s o sp addr n write p = true) : LiesAt W s o sp addr n write p := by
  simp only [lies, Bool.and_eq_true, decide_eq_true_eq, Bool.or_eq_true, beq_iff_eq] at h
  obtain ⟨⟨⟨⟨h1, h2⟩, h3⟩, h4⟩, h5⟩ := h
  refine ⟨h1, h2, plain_of h3, fun u hu => ?_⟩
  have e : u.threadPlace (s.threadAccess o sp (wrapAddr addr) n write) (!write)
      = s.threadPlace (s.threadAccess o sp (wrapAddr addr) n write) (!write) := by
    rcases h5 with h5 | h5
    · exact near_threadPlace hu _ _ h5
    · exact near_globalPlace hu hW _ _ h5.1 h5.2
  rw [e]
  split at h4
  · rename_i q hq
    rw [hq, eq_of_beq h4]
  · cases h4

/-- The operation starts afresh and completes in local memory at 2048. -/
def fresh (s : State) (o : EOp) : Bool :=
  s.thread 0 == some o && o.units == 0 && !o.finished && o.sectors.isEmpty && lives s && match engineWord o.instr with
    | some f => plainAt s 8 (.place (localPlace 2048)) && (completionAccess s o f).space == .l
        && (match s.threadPlace (completionAccess s o f) true with
          | .ok q => q == localPlace 2048
          | .error _ => false)
    | none => false

theorem completes_of {W : List Place} {s : State} {o : EOp} {f : RegForm} (hf : engineWord o.instr = some f) (h : fresh s o = true) :
    CompletesAt W s o f (localPlace 2048) := by
  simp only [fresh, hf, Bool.and_eq_true, beq_iff_eq] at h
  refine ⟨plain_of h.2.1.1, fun u hu => ?_⟩
  rw [near_threadPlace hu _ _ h.2.1.2]
  replace h := h.2.2
  split at h
  · rename_i q hq
    rw [hq, eq_of_beq h]
  · cases h

/-- A record of 64 bytes with some fields. -/
def record (fields : List (Nat × Nat × Nat)) : List (Byte × Bool) :=
  let m := fields.foldl (fun m x => FMap.setN 0 m x.1 (leBytes x.2.1 x.2.2)) ([] : FMap Byte)
  (List.range 64).map fun j => (FMap.get 0 m j, false)
/-- Rows of a drained tile in f32. -/
def drainedRows (n : Nat) : List (List Word64 × Bool) := List.replicate n (List.replicate 128 0x3F800000, false)

/-- ADRN with every array and the clear, its bias at the end of local memory, and WUPD over a row; of CPYR two sources of two
elements. -/
theorem premises_EnginesPerform_drains :
    (let i : Instr := .adrn (rf (.k 1) (.k 2) (.k 3) (.k 4) .s8 0x40 (space := .l))
     let R := record [(0, 8, 3000), (8, 8, 3072), (0x10, 8, 3584), (0x1C, 4, 0x9020)]
     let o := { anOp i (2 ^ 11) 0 64 2048 0 with rows := drainedRows 1, record := R }
     let s := running o
     fresh s o && (tileIn s 0 0).any (fun x => x.mode == .f32 && o.rows.length == 1 && o.rows.all (·.1.length == 128))
       && recField R 0x1C 4 == 0x9020 && Ty.ofCode (0x9020 / 2 ^ 12 % 16) == some .f32 && lies s o .l 3000 1 false (localPlace 3000)
       && (List.range 128).all fun j => lies s o .l (3072 + j) 1 false (localPlace (3072 + j))
         && lies s o .l (3584 + 4 * j) 4 false (localPlace (3584 + 4 * j)) && lies s o .l (4 * j) 4 true (localPlace (4 * j))) = true
    ∧ (let i : Instr := .wupd (rf (.k 1) (.k 2) (.k 4) (.k 4) .f32 0x40 (space := .l))
       let o := { anOp i (2 ^ 11) 0 0x3F800000 2048 0 with rows := drainedRows 1 }
       let s := running o
       fresh s o && (tileIn s 0 0).any (fun x => x.mode == .f32) && (List.range 32).all fun g =>
         lies s o .l (16 * g) 16 false (localPlace (16 * g)) && lies s o .l (16 * g) 16 true (localPlace (16 * g))) = true
    ∧ (let i : Instr := .cpyr (rf (.v 0) (.k 2) (.k 3) (.k 4) .f32 0x41 (.k 5) (space := .l))
       let o := anOp i 0 0 512 2048 (2 * 2 ^ 32 + 1)
       let s := running o
       fresh s o && (List.range 2).all fun e => lies s o .l (4 * e) 4 true (localPlace (4 * e))
         && (List.range 2).all fun k => lies s o .l (512 + 16 * k + 4 * e) 4 false (localPlace (512 + 16 * k + 4 * e))) = true := by
  decide +kernel

/-- ISECT over two streams of two elements, one pair kept; DCORM over one row, REFUSED, settled and corrected. -/
theorem premises_EnginesPerform_records :
    (let i : Instr := .isect (rf (.v 0) (.v 0) (.k 3) (.k 4) .s8 0x40)
     let R := record [(0, 8, vault), (8, 8, vault + 64), (0x10, 4, 2), (0x14, 4, 2), (0x18, 8, vault + 128), (0x20, 4, 1), (0x24, 4, 1)]
     let o := { anOp i 0 0 (BitVec.ofNat 64 (vault + 512)) 2048 0 with record := R }
     let s := running o
     fresh s o && R.length == 64 && recField R 0x10 4 == 2 && recField R 0x24 4 == 1 && recField R 0x28 8 == 0 && recField R 0x38 8 == 0
       && (List.range 2).all (fun j => lies s o .g (vault + 8 * j) 8 false (vaultPlace (8 * j))
         && lies s o .g (vault + 64 + 8 * j) 8 false (vaultPlace (64 + 8 * j)))
       && lies s o .g (vault + 128) 8 true (vaultPlace 128) && lies s o .g (vault + 512 + 0x30) 8 true (vaultPlace 560)) = true
    ∧ ([(4, 0, 0), (0, 0, 0), (0, 0x3FF0000000000000, 1)] : List (Nat × Nat × Nat)).all (fun x =>
      let f : RegForm := rf (.v 0) (.v 0) (.k 3) (.k 4) .f32 0x40
      let o := anOp (.dcorm f) 0 0 (BitVec.ofNat 64 (vault + 512)) 2048 0
      let fields : List (Nat × Nat × Nat) := [(0, 8, vault), (8, 8, vault + 64), (0x10, 8, vault + 128), (0x18, 8, vault + 192),
        (0x20, 4, 1), (0x24, 4, 1), (0x28, 4, 1), (0x2C, 4, x.2.2)]
      let s := put ((64, 8, x.2.1) :: fields.map fun y => (512 + y.1, y.2)) { running o with lmem := FMap.setN 0 [] 2056 (leBytes 4 x.1) }
      fresh s o && s.launches.length == 1 && (match s.readRecord o .g (vault + 512) 64 with
          | .ok R => R == record fields
          | .error _ => false)
        && lies s o .l 2056 4 false (localPlace 2056) && lies s o .l 2056 8 true (localPlace 2056)
        && lies s o .l 2064 8 false (localPlace 2064) && lies s o .l 2064 16 true (localPlace 2064)
        && valueAt s (localPlace 2056) 4 == x.1
        && (List.range 4).all (fun j => lies s o .g (vault + 128 + 8 * j) 8 false (vaultPlace (128 + 8 * j))
          && lies s o .g (vault + 128 + 8 * j) 8 true (vaultPlace (128 + 8 * j)))
        && lies s o .g (vault + 64) 8 false (vaultPlace 64) && lies s o .g vault 8 false (vaultPlace 0)
        && lies s o .g (vault + 192) 4 false (vaultPlace 192)) = true
    ∧ ([(0, 0), (0x3FF0000000000000, 1)] : List (Nat × Nat)).map (fun x =>
      let d (n : Nat) : FVal := FVal.decode Ty.f64.fmt n
      let v := outcome false x.2 0x80 3 0 0 0 [residual [(d 0).mul (d 0)] (d x.1)] [bound [(d 0).mul (d 0)] (d x.1)]
      (v.corrects, v.settles)) = [(false, true), (true, false)]
    ∧ ([.ready, .barrier .gang] : List Block).all (fun b =>
      let s := (running (anOp (.dcorm (rf)) 0 0 0 0 0)).modCore 0 fun k => { k with frontier := [⟨0xFFFFFFFF, 0x10000000000, 0, b⟩] }
      (nth s.warps 0).any fun w => w.gang == 0 && !w.ended && w.live != 0 && w.pending.isEmpty
        && w.c.frontier.any Split.issues == (b == .ready)) = true := by decide +kernel

/-- A thread that meets a fault past the end of local memory, one whose page is not present, and one that a replay has cancelled; the
first of two matrix operations. -/
theorem premises_EngineFaultsAndWaits :
    let f : RegForm := rf (.k 1) (.k 2) (.k 3) (.k 4) .bf16 0x40 (space := .l)
    let g : RegForm := rf (.k 1) (.k 2) (.k 3) (.k 4) .bf16 0x40
    let beyond := anOp (.old f) (2 ^ 13) 4096 16 2048 0
    let away := anOp (.old g) (2 ^ 13) 0x20000 16 2048 0
    let cancelled := { away with cancelled := true, phase := .asleep { page := 2, reg := none, addr := 0x20000 } }
    let warpOk (s : State) : Bool := (nth s.warps 0).any fun w => w.gang == 0 && !w.ended && w.c.frontier.any Split.issues
    ((running beyond).thread 0 == some beyond && warpOk (running beyond)
      && (Thread.finish { s := running beyond, o := beyond }).halt == some (.fault .translation 2 4096 false)) = true
    ∧ ((running away).thread 0 == some away && (nth (running away).gangs 0).isSome && 0 < (running away).parts.length
      && (nth (running away).warps 0).any (fun w => !w.sleepsOn 2)
      && (Thread.finish { s := running away, o := away }).halt == some (.sleep 2 none 0x20000)) = true
    ∧ (nth (running cancelled).ops 0 == some cancelled && (running cancelled).running 0 && cancelled.cancelled && cancelled.failed.isNone
      && warpOk (running cancelled)) = true
    ∧ (let s := { running away with mops := [⟨7, 0, [0], some 0⟩, ⟨9, 0, [0], some 0⟩] }
       (s.mops.find? fun m => m.id == 7) == some ⟨7, 0, [0], some 0⟩ && s.mops.all (fun m => 7 ≤ m.id) && lives s) = true := by decide +kernel

/-- A page table whose second level says RECOMPUTE, index 1, for the low addresses. -/
def recomputes (s : State) : State :=
  { s with mem := FMap.setN 0 s.mem 0x103000 (leBytes 8 (256 + 5)) }

/-- What some units of an access meet, where they all meet one thing; no checkpoint is open, and the split of lanes 0 to 3 stands alone. -/
def meetsAll (i : Instr) (g : State → State) (only : Nat → Bool := fun _ => true) : Option (Nat × Stop) :=
  match accessOf i, (at_ i g).contextFor i with
  | some (f, n, once, write, atomic), some c =>
    let fails (u : Nat) : Option (Nat × Stop) := failing (at_ i g) c f n write atomic (consumesData i) (addressOf ((at_ i g).core 0) f u)
    match ((unitsWhen once c.active).filter only).map fails with
    | x :: xs => if xs.all (· == x) && meets i (at_ i g) (fun c => c.active == 15 && plain i g c && c.w.handler.isNone && c.w.c.frontier == [c.split])
        then x else none
    | [] => none
  | _, _ => none
/-- Handle 7, at an address, and the launch may only read it. -/
def readOnly (va : Nat) (s : State) : State :=
  part0 (fun p => { p with handles := [(7, some { base := BitVec.ofNat 64 va, len := 256, bitmap := some 0, ro := true, image := false })] })
    (launch0 (fun l => { l with lrec := { l.lrec with handles := [⟨7, false, false⟩] } }) s)
/-- An entry for the page that follows the placed image. -/
def page (e : Nat) (s : State) : State := { s with mem := FMap.setN 0 s.mem 0x102018 (leBytes 8 e) }
/-- A registration at index 1, in the vault window. -/
def registered (s : State) : State := part0 (fun p => { p with prbase := BitVec.ofNat 64 vault, prcount := 2 }) (put [(64 + 8, 8, 0x20000), (64 + 16, 8, 65536)] s)

/-- Bounds, met by every lane. -/
theorem premises_FailingAccessFaults_bounds :
    ([(.ld (mf (.v 1) (.v 2) (ty := .n32) (space := .l) (off := 4096)), 0),
      (.st (mf (.v 0) (.v 2) (.v 4) (ty := .n32) (space := .l) (off := 0xFFFFC)), 0),
      (.ld (mf (.v 1) (.v 2) (ty := .n16) (space := .p) (off := 1024)), 0),
      (.ld (mf (.v 8) (.v 2) (ty := .n32) (space := .v)), vault + vaultLen)]
      : List (Instr × Nat)).all (fun x => meetsAll x.1 (fourLanes 2 fun _ => x.2) == some (1, .fault .translation 2 false)) = true := by
  decide +kernel

/-- READONLY and translation, met by every lane. -/
theorem premises_FailingAccessFaults_pages :
    let st : Instr := .st (mf (.v 0) (.v 2) (.v 4) (ty := .n32))
    ([(.ld (mf (.v 8) (.v 2) (ty := .n32) (space := .c)), fun s => readOnly vault (fourLanes 2 (fun _ => vault + 256) s), 2, .fault .readonly 0 false),
      (st, fun s => readOnly vault (fourLanes 2 (fun _ => vault + 252) s), 2, .fault .readonly 0 false),
      (.atom (mf (.v 8) (.v 2) (.v 4) (ty := .n32)), fourLanes 2 fun _ => 0x10000000000, 20, .fault .readonly 0 false),
      (.ld (mf (.v 8) (.v 2) (ty := .n32)), fourLanes 2 fun _ => 2 ^ 56, 12, .fault .translation 2 false)]
      : List (Instr × (State → State) × Nat × Stop)).all (fun x => meetsAll x.1 x.2.1 == some x.2.2) = true := by decide +kernel

/-- BUS, and an error, met by every lane: a load consumes the bytes, a store does not. -/
theorem premises_FailingAccessFaults_bus :
    let st : Instr := .st (mf (.v 0) (.v 2) (.v 4) (ty := .n32))
    let bad (s : State) : State := { fourLanes 2 (fun _ => vault) s with poison := [vaultPa / 32] }
    (([(.red (mf (.v 0) (.v 2) (.v 4) (ty := .n32)), fun s => page 0x230043 (fourLanes 2 (fun _ => 0x10000030000) s), 53, .fault .bus 3 false),
      (st, fun s => page 0x3F00000000003 (fourLanes 2 (fun _ => 0x10000030000) s), 51, .fault .bus 1 false),
      (.ld (mf (.v 8) (.v 2) (ty := .n32)), bad, 60, .fault .bus 0 false)]
      : List (Instr × (State → State) × Nat × Stop)).all (fun x => meetsAll x.1 x.2.1 == some x.2.2) && meetsAll st bad == none) = true := by
  decide +kernel

/-- Lane 3 meets READONLY where the others meet pages that are not present: lanes 0 and 1 one, the rest another; and without lane 3's
fault. A page whose entry is RECOMPUTE, with its producer running. -/
theorem premises_FailingAccessSleeps :
    let i : Instr := .st (mf (.v 0) (.v 2) (.v 4) (ty := .n32))
    let lanes (three : Nat) (s : State) : State := readOnly 0x40000 (fourLanes 2 (fun j => if j = 3 then three else if j < 2 then 0x20000 else 0x30000) s)
    let again (s : State) : State :=
      part0 (fun p => { p with producers := [⟨1, 0, 0, vault + 64, 0x20000, 65536, 0, 0⟩] }) (registered (recomputes (fourLanes 2 (fun _ => 0x20000) s)))
    (meetsAll i (lanes 0x40000) (· == 3) == some (2, .fault .readonly 0 false) && meetsAll i (lanes 0x40000) (· < 2) == some (40, .sleep 0x20000 none)
      && meetsAll i (lanes 0x30000) (· < 2) == some (40, .sleep 0x20000 none) && meetsAll i (lanes 0x30000) (2 ≤ ·) == some (40, .sleep 0x30000 none)
      && meetsAll i again == some (30, .sleep 0x20000 (some 1)) && ((at_ i again).registration 0 1).isSome) = true := by decide +kernel

/-- Replays of one page and of all, a value with a reserved bit, and producers that have ended with either code, one where its page
is mapped as RECOMPUTE. -/
theorem premises_SleepersWake :
    let asleep : State := blocked (.sleep [{ page := 2, reg := none }, { page := 3, reg := some 1 }] false none)
    let produced (code : Nat) : State := part0 (fun p => { p with producers := [⟨1, 0, 0, vault, 0, 65536, 0, 0⟩] })
      (launch0 (fun l => { l with phase := .ended, code := code }) asleep)
    ([0x20000, 0x20001, 2, 3] : List Word64).all (fun v => v.toNat / 2 ^ 56 == 0 && v.toNat / 4 % 2 ^ 14 == 0 && replays v 2) = true
    ∧ ([(true, none), (false, some 2)] : List (Bool × Option Nat)).all (fun x =>
        let e : Split := ⟨1, 0x10000000000, 0, .sleep [{ page := 2, reg := none }] x.1 x.2⟩
        replayedEntry 0x20000 e == e && producedEntry 1 true e == e) = true
    ∧ ([(0x20000, false), (0x20001, true)] : List (Word64 × Bool)).all (fun x =>
        (replayedEntry x.1 ⟨1, 0x10000000000, 0, .sleep [{ page := 2, reg := none }] false none⟩).block
          == (if x.2 then .sleep [{ page := 2, reg := none }] true none else .sleep [] false none)) = true
    ∧ replays 0x30000 2 = false ∧ ((2 ^ 56 : Word64).toNat / 2 ^ 56 ≠ 0 ∧ (4 : Word64).toNat / 4 % 2 ^ 14 ≠ 0)
    ∧ ([0, 2] : List Nat).all (fun code => ((produced code).part 0).producers.find? (fun x => x.launch == 0) == some ⟨1, 0, 0, vault, 0, 65536, 0, 0⟩
        && (nth (produced code).launches 0).any fun l => l.phase == .ended && l.code == code) = true
    ∧ (let s := recomputes (part0 (fun p => { p with producers := [⟨1, 0, 0, vault, 0x20000, 65536, vaultPa, 0⟩] })
        (launch0 (fun l => { l with phase := .ended }) asleep))
       (s.recomputeAt (s.part 0) 0x20000 3 (s.part 0).root).any fun x => x.2.2 == 1) = true := by decide +kernel

/-- A ring of sixteen slots with one left, and records that do and do not end a launch; a gang whose one warp has stepped. -/
theorem premises_FaultRing :
    ([(.nothing), .endLaunch 0 2, .staging 0] : List AfterRecord).all (fun after =>
      let s := part0 (fun p => { p with frbase := BitVec.ofNat 64 vault, frsize := 4, frhead := 0xFFFFFFFF, frtail := 14
                                        pendingRecs := [⟨aFault, after⟩] }) (at_ (.nop (rf)))
      let p := s.part 0
      s.ops.isEmpty && p.pendingRecs == [⟨aFault, after⟩] && p.pendingRecs.find? (fun r => r.frec.die == 0) == some ⟨aFault, after⟩ && 4 ≤ p.frsize && p.frsize ≤ 14 && (p.frtail - p.frhead).toNat == 15
        && (s.writeVa 0 (p.frbase.toNat + 64 * (p.frtail.toNat % 2 ^ p.frsize)) aFault.bytes).isSome
        && (nth s.launches 0).any fun l => l.phase == .dispatched) = true
    ∧ (let s := (at_ (.nop (rf))).modGang 0 fun g => { g with step := some [0] }
       (nth s.gangs 0).any (fun g => g.step == some [0]) && s.running 0 && s.warps.length == 1
        && s.warps.all fun w => w.gang == 0 && !w.ended && !w.c.frontier.isEmpty) = true := by decide +kernel

/-! Commands. -/

/-- A ring's entry: OP, QUEUE, a cookie and the arguments. -/
def entry (op queue : Nat) (args : List Nat) : List Byte :=
  leBytes 2 op ++ leBytes 2 queue ++ leBytes 4 0 ++ leBytes 8 77 ++ args.flatMap (leBytes 8) ++ List.replicate (48 - 8 * args.length) 0
/-- Ring 0 of partition 0 holds one entry. -/
def commanded (e : List Byte) (s : State) : State :=
  part0 (fun p => { p with rings := [(0, { base := BitVec.ofNat 64 vault, size := 4, tail := 1, entries := [e], csize := 4 })] }) s
/-- The entry comes next. -/
def nextIs (s : State) (op : Nat) : Bool :=
  0 < s.parts.length && (s.part 0).en && s.nextRing 0 == some 0
    && ((s.ring 0 0).entries.head?.map fun e => leNat (e.take 2)) == some op
/-- The launch of the short state in a phase, its gang in a phase. -/
def phased (l : LPhase) (g : GPhase) : State := ((at_ (.nop (rf))).modLaunch 0 fun x => { x with phase := l }).modGang 0 fun x => { x with phase := g }
def seq0 : Nat := ((nth (at_ (.nop (rf))).launches 0).map (·.seq)).getD 0

theorem premises_LaunchCommands :
    ([(withRecord (at_ (.nop (rf))), 1, [vault], true), (at_ (.nop (rf)), 1, [vault], false)] : List (State × Nat × List Nat × Bool)).all (fun x =>
      let s := commanded (entry x.2.1 3 x.2.2.1) x.1
      nextIs s x.2.1 && (s.part 0).nextSeq != 0 && (s.readLaunch 0 vault (some 3)).isSome == x.2.2.2) = true
    ∧ ([(.queued, .eligible), (.ready, .eligible), (.dispatched, .resident), (.ending, .retired), (.ended, .retired)] : List (LPhase × GPhase)).all (fun x =>
      let s := commanded (entry 2 0 [seq0]) (phased x.1 x.2)
      nextIs s 2 && s.launches.length == 1 && s.launches.all fun l => l.part == 0 && l.seq == seq0 && decide (l.phase = x.1) && !l.dying) = true
    ∧ (let s := commanded (entry 2 0 [seq0 + 1]) (at_ (.nop (rf))); nextIs s 2 && s.launches.all fun l => l.seq != seq0 + 1) = true
    ∧ ([.stopped, .stopping, .resident] : List GPhase).all (fun g =>
      let s := commanded (entry 3 0 [seq0, 1]) (phased .dispatched g)
      nextIs s 3 && s.launches.length == 1 && s.launches.all (fun l => l.part == 0 && l.seq == seq0)
        && s.gangs.all fun x => decide (x.phase = g) && x.launch == 0 && !x.resumed) = true
    ∧ ([0, 8, 0xFFFF] : List Nat).all (fun op => nextIs (commanded (entry op 0 []) (at_ (.nop (rf)))) op) = true := by decide +kernel

theorem isOk {α β : Type} {x : Except α β} (h : x.toBool = true) : ∃ e, x = .ok e := by
  cases x with
  | error e => cases h
  | ok b => exact ⟨b, rfl⟩

def recBytes : List Byte := (withRecord (at_ (.nop (rf)))).bytes vaultPa 512

/-- A record that every limit admits, and an address where none can be. -/
theorem premises_LaunchCommands_accepted :
    Accepted (withRecord (at_ (.nop (rf)))) 0 vault (some 3) recBytes [] (placedKernel 0)
    ∧ ∀ s bs hb k, ¬Accepted s 0 (vault + 4) none bs hb k := by
  have none_ : (recordFrom recBytes []).handles = [] ∧ (recordFrom recBytes []).stages = [] := by decide +kernel
  refine ⟨⟨by decide, by decide +kernel, ⟨?_, ?_, ?_, ?_, ?_, ?_, ?_, ?_⟩, ⟨by decide +kernel, isOk (by decide +kernel)⟩, ?_,
    ⟨?_, ?_, ⟨.d, ⟨0x10000010000, 64, 64, none⟩, .inl (by decide +kernel), rfl, by decide +kernel⟩, ?_, ?_,
      fun i j a b _ _ _ h => by simp [none_.1, nth] at h, fun st h => by simp [none_.2] at h, ?_, ?_, ?_⟩⟩,
    fun s bs hb k h => absurd h.aligned (by decide)⟩
  all_goals first
    | decide +kernel
    | (simp only [WidthsFit, GridFits, GeomFits, ResFits, LocalFits, PctlFits, Zeros]; decide +kernel)

/-- HSET within its limits, and at each of its limits; the handle free, and held by an image. -/
theorem premises_TableCommands_handles :
    (∀ i ∈ [0, 2 ^ 24 - 1], HandleFits (State.reset.part 0) i 256 256 0 ∧ ¬HandleHeld State.reset 0 i)
    ∧ (∀ x ∈ [(2 ^ 24, 256, 256, 0), (0, 255, 256, 0), (0, 256, 0, 0), (0, 256, 255, 0), (0, 256, 256, 7)],
        ¬HandleFits (State.reset.part 0) x.1 x.2.1 x.2.2.1 x.2.2.2)
    ∧ (let s := part0 (fun p => { p with handles := [(5, some { base := 256, len := 256, bitmap := none, ro := false, image := true })] }) State.reset
       HandleHeld s 0 5 ∧ HandleFits (s.part 0) 5 256 256 8 ∧ HandleFits (s.part 0) 6 256 256 0 ∧ ¬HandleFits (s.part 0) 6 256 256 8)
    ∧ ([(4, [0, 256, 256, 0, 1]), (5, [0])] : List (Nat × List Nat)).all (fun x => nextIs (commanded (entry x.1 0 x.2) State.reset) x.1) = true := by
  have h0 : (State.reset.part 0).handles = [] := by decide +kernel
  have hl : State.reset.launches = [] := by decide +kernel
  refine ⟨fun i hi => ⟨⟨?_, by decide, by decide, by decide, by decide, by simp [h0]⟩, ?_⟩, fun x hx h => ?_, ⟨Or.inr ⟨_, rfl, rfl⟩, ?_, ?_, ?_⟩, by decide +kernel⟩
  · simp only [List.mem_cons, List.not_mem_nil, or_false] at hi; omega
  · rintro (⟨l, hm, -⟩ | ⟨h, hm, -⟩)
    · simp [hl] at hm
    · simp [h0, FMap.get] at hm
  · obtain ⟨a, b, c, d, e, -⟩ := h
    simp only [List.mem_cons, List.not_mem_nil, or_false] at hx
    obtain rfl | rfl | rfl | rfl | rfl := hx <;> simp at a b c d e
  · refine ⟨by decide, by decide, by decide, by decide, by decide, fun j h hm hj => ?_⟩
    have : ((part0 (fun p => { p with handles := [(5, some { base := 256, len := 256, bitmap := none, ro := false, image := true })] })
      State.reset).part 0).handles = [(5, some { base := 256, len := 256, bitmap := none, ro := false, image := true })] := by decide +kernel
    rw [this] at hm; simp at hm; omega
  · refine ⟨by decide, by decide, by decide, by decide, by decide, fun j h hm hj _ _ => ?_⟩
    have : ((part0 (fun p => { p with handles := [(5, some { base := 256, len := 256, bitmap := none, ro := false, image := true })] })
      State.reset).part 0).handles = [(5, some { base := 256, len := 256, bitmap := none, ro := false, image := true })] := by decide +kernel
    rw [this] at hm; simp at hm; exact ⟨rfl, by rw [hm.2]⟩
  · intro h
    have := h.2.2.2.2.2 5 { base := 256, len := 256, bitmap := none, ro := false, image := true } (by decide +kernel) (by decide) (by decide) (by decide)
    exact absurd this.1 (by decide)

/-- The smallest image: a header and one NAMES section of two bytes. -/
def withImage (s : State) : State :=
  put [(0, 4, 0x4C525244), (4, 2, 1), (6, 2, 1), (0x10, 4, 1), (0x18, 8, 64), (0x28, 8, 130), (64, 4, 5), (64 + 8, 8, 128), (64 + 0x10, 8, 2)] s

/-- An image of two sections, NAMES with the name "k" and one line of CODE, and a kernel of that line in variant L. -/
def anImage (line : List Byte) (features names regs maps : Nat) : List Byte :=
  let z (n : Nat) : List Byte := List.replicate n 0
  leBytes 4 0x4C525244 ++ leBytes 2 1 ++ leBytes 2 1 ++ leBytes 8 features ++ leBytes 4 2 ++ leBytes 4 1 ++ leBytes 8 64 ++ leBytes 8 256
    ++ leBytes 8 640 ++ z 16 ++ leBytes 8 names ++ leBytes 8 128 ++ leBytes 8 2 ++ z 8 ++ leBytes 8 1 ++ leBytes 8 192 ++ leBytes 8 64 ++ z 8
    ++ leBytes 64 107 ++ line ++ leBytes 4 0 ++ leBytes 4 1 ++ leBytes 4 0x5410429 ++ leBytes 4 0x10020 ++ z 8 ++ leBytes 8 0xE00
    ++ leBytes 8 192 ++ leBytes 8 64 ++ leBytes 8 regs ++ leBytes 8 (2 ^ 32 - 1) ++ z 32 ++ leBytes 8 576 ++ leBytes 4 maps ++ leBytes 4 1
    ++ leBytes 8 512 ++ z 136 ++ leBytes 8 192 ++ leBytes 8 (2 ^ 64 - 1) ++ z 48 ++ leBytes 64 4096
def goodImage : List Byte := anImage blankLine 0 5 255 0

theorem header_of {bs : List Byte} (h : (decide (64 ≤ bs.length ∧ 64 ≤ num bs 0x28 8 ∧ num bs 0x28 8 ≤ bs.length)
    && decide (num bs 0 4 = 0x4C525244 ∧ num bs 4 2 = 1 ∧ 1 ≤ num bs 6 2 ∧ 1 ≤ num bs 0x10 4 ∧ num bs 0x10 4 ≤ 1024 ∧ num bs 0x14 4 ≤ 256
      ∧ num bs 0x18 8 % 64 = 0 ∧ num bs 0x20 8 % 256 = 0 ∧ ∀ b ∈ (bs.drop 0x30).take 16, b = 0)
    && decide (num bs 0x18 8 + 32 * num bs 0x10 4 ≤ num bs 0x28 8 ∧ num bs 0x20 8 + 256 * num bs 0x14 4 ≤ num bs 0x28 8)) = true) :
    HeaderFits bs := by
  simp only [Bool.and_eq_true, decide_eq_true_eq] at h
  exact ⟨h.1.1, h.1.2, h.2⟩

theorem good_header : HeaderFits goodImage := header_of (by decide +kernel)


theorem kernel_of {bs : List Byte} (h : (decide (nameOf bs (kern bs 0 0 4) ≠ none)
      && decide (1 ≤ kern bs 0 4 4 ∧ kern bs 0 4 4 ≤ 3 ∧ kern bs 0 0x1E 2 = 0 ∧ kern bs 0 0x68 4 ≤ 4096 ∧ kern bs 0 0x6C 4 = 1)
      && decide (kern bs 0 8 4 = 0x5410429 ∧ kern bs 0 0xC 4 = 0x10020 ∧ kern bs 0 0x10 4 = 0 ∧ kern bs 0 0x14 4 = 0 ∧ kern bs 0 0x18 4 = 0xE00)
      && decide (kern bs 0 0x60 8 + 32 * kern bs 0 0x68 4 ≤ num bs 0x28 8 ∧ kern bs 0 0x70 8 + 16 * kern bs 0 0x6C 4 ≤ num bs 0x28 8
        ∧ kern bs 0 0x78 8 + 8 * kern bs 0 0x1E 2 ≤ num bs 0x28 8)
      && decide (∀ b ∈ (bs.drop (num bs 0x20 8 + 256 * 0 + 0x80)).take 128, b = 0)
      && decide (∀ b ∈ (bs.drop (num bs 0x20 8 + 256 * 0 + 0x40)).take 32, b = 0)
      && decide (has bs 0 .l = true ∧ has bs 0 .d = false ∧ vLen bs 0 .l = 64 ∧ vCode bs 0 .l = 192 ∧ num bs 0x10 4 = 2 ∧ secType bs 1 = 1
        ∧ secOff bs 1 = 192 ∧ secSize bs 1 = 64 ∧ vRegs bs 0 .l = 255 ∧ kern bs 0 (block .l + 0x14) 4 = 0 ∧ kern bs 0 (block .l + 0x1C) 4 = 0)
      && decide (entryAt' bs 0 .l 0 = 192 ∧ entryAt' bs 0 .d 0 = 2 ^ 64 - 1)) = true) : KernelFits bs 0 := by
  simp only [Bool.and_eq_true, decide_eq_true_eq] at h
  obtain ⟨⟨⟨⟨⟨⟨⟨hn, h1, h2, h3, h4, h5⟩, w1, w2, w3, w4, w5⟩, hw⟩, hz⟩, hd⟩, l, d, n, c, s2, ty, so, sz, r, z1, z2⟩, e1, e2⟩ := h
  refine ⟨⟨hn, fun j hj => absurd hj (by omega)⟩, ⟨h1, h2, ?_, ?_, ?_, ?_, ?_, by omega, h4, by omega, by omega⟩, hw, hz, fun x => ?_,
    fun x j hj => ?_, fun j hj => by omega⟩
  · rw [w1]; simp only [WidthsFit]; decide
  · rw [w1, w2]; simp only [GeomFits]; decide
  · rw [w3]; simp only [ResFits]; decide
  · rw [w4]; simp [LocalFits]
  · rw [w5]; simp only [PctlFits]; decide
  · cases x with
    | l => simp only [VariantFits, l, n, c, r, z1, z2]; exact ⟨by decide, by decide, by decide, ⟨1, by omega, ty, by omega, by omega⟩, by decide, trivial, trivial⟩
    | d => simp only [VariantFits, d, if_true]; exact hd
  · obtain rfl : j = 0 := by omega
    cases x with
    | l => simp [l, e1, c]
    | d => simp [d, e2]

/-- A line that marks no slot, and a map header whose index is out of range. -/
def unmarked : List Byte := anImage (List.replicate 64 0) 0 5 255 0
def badMap : List Byte := anImage blankLine 0 5 255 1

theorem good_code {bs : List Byte} (h : (decide (has bs 0 .d = false ∧ vLen bs 0 .l = 64 ∧ vCode bs 0 .l = 192 ∧ kern bs 0 0x6C 4 = 1
      ∧ entryAt' bs 0 .l 0 = 192 ∧ vHentry bs 0 .l = 2 ^ 32 - 1 ∧ kern bs 0 0x1C 2 = 0)
    && decide (bits (lineWordOf (imgLine bs 192)) 31 20 = 0 ∧ lineParityOk (imgLine bs 192) = true
      ∧ (lineWordOf (imgLine bs 192)).testBit 0 = true)) = true) : ∀ x, has bs 0 x = true → CodeFits bs 0 x := by
  simp only [Bool.and_eq_true, decide_eq_true_eq] at h
  obtain ⟨⟨d, n, c, e, en, hv, hz⟩, l1, l2, l3⟩ := h
  intro x hx
  cases x with
  | d => simp [d] at hx
  | l =>
    refine ⟨fun i hi => ?_, fun j hj => ?_, by simp [hv, hz]⟩
    · obtain rfl : i = 0 := by omega
      rw [c]; exact ⟨l1, l2⟩
    · obtain rfl : j = 0 := by omega
      rw [en]; exact ⟨⟨by omega, by omega, by decide⟩, l3⟩

theorem kernels {bs : List Byte} {P : Nat → Prop} (h : num bs 0x14 4 = 1) (h0 : P 0) : ∀ k < num bs 0x14 4, P k := by
  intro k hk
  obtain rfl : k = 0 := by omega
  exact h0

theorem good_map : MapFits goodImage 0 := by
  have n : kern goodImage 0 0x68 4 = 0 := by decide +kernel
  have d : has goodImage 0 .d = false := by decide +kernel
  have c : vCode goodImage 0 .l = 192 ∧ vLen goodImage 0 .l = 64 := by decide +kernel
  have e : ∀ i < 5, slotWord (imgLine goodImage 192) i / 2 ^ 86 ≠ 0x3C0 := by decide +kernel
  refine ⟨by omega, by omega, by omega, by omega, fun x hx pc idx hv hp => ?_⟩
  cases x with
  | d => simp [d] at hx
  | l =>
    obtain ⟨h1, h2, h3⟩ := hv
    have hp : slotWord (imgLine goodImage (pc / 64 * 64)) (pc % 64) / 2 ^ 86 = 0x3C0 := hp.1
    rw [show pc / 64 * 64 = 192 by omega] at hp
    exact absurd hp (e _ (by omega))

theorem sections_of {bs : List Byte} (h : decide (num bs 0x10 4 = 2 ∧ secType bs 0 = 5 ∧ secType bs 1 = 1 ∧ secOff bs 0 = 128 ∧ secSize bs 0 = 2 ∧ secOff bs 1 = 192
    ∧ secSize bs 1 = 64 ∧ secFlags bs 0 = 0 ∧ secField bs 0 0x1C 4 = 0 ∧ secLink bs 0 = 0 ∧ secFlags bs 1 = 0 ∧ secField bs 1 0x1C 4 = 0
    ∧ secLink bs 1 = 0 ∧ num bs 0x28 8 = 640) = true) : SectionsFit bs := by
  simp only [decide_eq_true_eq] at h
  obtain ⟨n, t0, t1, o0, s0, o1, s1, f0, g0, l0, f1, g1, l1, e⟩ := h
  refine ⟨fun i hi => ?_, ⟨0, by omega, t0, fun j hj h => ?_⟩, fun i j x hi hj h => ?_, fun i j x y hi hj _ h => ?_⟩
  · obtain rfl | rfl : i = 0 ∨ i = 1 := by omega
    · simp [SectionFits, t0, o0, s0, f0, g0, l0, e]
    · simp [SectionFits, t1, o1, s1, f1, g1, l1, e]
  · obtain rfl | rfl : j = 0 ∨ j = 1 := by omega
    · rfl
    · omega
  · obtain ⟨rfl, rfl⟩ : i = 1 ∧ j = 0 := by omega
    omega
  · obtain rfl | rfl : j = 0 ∨ j = 1 := by omega
    · omega
    · omega

theorem accepted {bs : List Byte} {dgen : Nat} (h1 : HeaderFits bs) (h2 : num bs 6 2 ≤ dgen) (h3 : num bs 8 8 < 2 ^ 8) (h4 : SectionsFit bs)
    (n : num bs 0x14 4 = 1) (h5 : KernelFits bs 0) (h6 : ∀ x, has bs 0 x = true → CodeFits bs 0 x) (h7 : MapFits bs 0) (c : Nat) : ¬Refused dgen bs c := by
  rintro (⟨-, h⟩ | ⟨-, (⟨-, h⟩ | ⟨-, (⟨-, h⟩ | ⟨-, (⟨-, h⟩ | ⟨-, (⟨-, h⟩ | ⟨-, (⟨-, h⟩ | ⟨-, -, h⟩)⟩)⟩)⟩)⟩)⟩)
  · exact h h1
  · omega
  · omega
  · exact h h4
  · exact h (kernels n h5)
  · exact h (kernels n h6)
  · exact h (kernels n h7)

theorem refused5 {bs : List Byte} {dgen : Nat} (h1 : HeaderFits bs) (h2 : num bs 6 2 ≤ dgen) (h3 : num bs 8 8 < 2 ^ 8) (h4 : SectionsFit bs)
    (n : num bs 0x14 4 = 1) (h5 : ¬KernelFits bs 0) : Refused dgen bs 5 :=
  .inr ⟨h1, .inr ⟨h2, .inr ⟨h3, .inr ⟨h4, .inl ⟨rfl, fun h => h5 (h 0 (by omega))⟩⟩⟩⟩⟩
theorem refused6 {bs : List Byte} {dgen : Nat} (h1 : HeaderFits bs) (h2 : num bs 6 2 ≤ dgen) (h3 : num bs 8 8 < 2 ^ 8) (h4 : SectionsFit bs)
    (n : num bs 0x14 4 = 1) (h5 : KernelFits bs 0) (l : has bs 0 .l = true) (h6 : ¬CodeFits bs 0 .l) : Refused dgen bs 6 :=
  .inr ⟨h1, .inr ⟨h2, .inr ⟨h3, .inr ⟨h4, .inr ⟨kernels n h5, .inl ⟨rfl, fun h => h6 (h 0 (by omega) .l l)⟩⟩⟩⟩⟩⟩
theorem refused7 {bs : List Byte} {dgen : Nat} (h1 : HeaderFits bs) (h2 : num bs 6 2 ≤ dgen) (h3 : num bs 8 8 < 2 ^ 8) (h4 : SectionsFit bs)
    (n : num bs 0x14 4 = 1) (h5 : KernelFits bs 0) (h6 : ∀ x, has bs 0 x = true → CodeFits bs 0 x) (h7 : ¬MapFits bs 0) : Refused dgen bs 7 :=
  .inr ⟨h1, .inr ⟨h2, .inr ⟨h3, .inr ⟨h4, .inr ⟨kernels n h5, .inr ⟨kernels n h6, rfl, fun h => h7 (h 0 (by omega))⟩⟩⟩⟩⟩⟩

theorem bad_kernel {bs : List Byte} (h : has bs 0 .l = true ∧ ¬vRegs bs 0 .l ≤ 255) : ¬KernelFits bs 0 := by
  intro k
  have hv := k.variants .l
  simp only [VariantFits, h.1] at hv
  exact h.2 hv.2.2.2.2.1.2
theorem bad_code {bs : List Byte} (n : kern bs 0 0x6C 4 = 1) (h : (lineWordOf (imgLine bs (entryAt' bs 0 .l 0 / 64 * 64))).testBit (entryAt' bs 0 .l 0 % 64) = false) :
    ¬CodeFits bs 0 .l := by
  intro k
  have e := (k.entries 0 (by omega)).2
  rw [h] at e; cases e
theorem bad_map {bs : List Byte} (n : kern bs 0 0x68 4 = 1) (h : ¬hdr bs 0 0 0 4 ≤ 4095) : ¬MapFits bs 0 :=
  fun m => h (m.headers 0 (by omega)).1
theorem bad_sections {bs : List Byte} (h : num bs 0x10 4 = 2 ∧ ∀ i < 2, secType bs i ≠ 5) : ¬SectionsFit bs := by
  intro k
  obtain ⟨i, hi, ht, -⟩ := k.names
  exact h.2 i (h.1 ▸ hi) ht
theorem bad_header {bs : List Byte} (h : num bs 0 4 ≠ 0x4C525244) : ¬HeaderFits bs := fun k => h k.fields.1

/-- An image refused by each check, and one that is refused by none. -/
theorem premises_TableCommands_images :
    Refused 1 (List.replicate 64 0) 1 ∧ Refused 0 goodImage 2 ∧ Refused 1 (anImage blankLine (2 ^ 8) 5 255 0) 3
    ∧ Refused 1 (anImage blankLine 0 6 255 0) 4 ∧ Refused 1 (anImage blankLine 0 5 256 0) 5 :=
  ⟨.inl ⟨rfl, bad_header (by decide +kernel)⟩, .inr ⟨good_header, .inl ⟨rfl, by decide +kernel⟩⟩,
    .inr ⟨header_of (by decide +kernel), .inr ⟨by decide +kernel, .inl ⟨rfl, by decide +kernel⟩⟩⟩,
    .inr ⟨header_of (by decide +kernel), .inr ⟨by decide +kernel, .inr ⟨by decide +kernel, .inl ⟨rfl, bad_sections (by decide +kernel)⟩⟩⟩⟩,
    refused5 (header_of (by decide +kernel)) (by decide +kernel) (by decide +kernel) (sections_of (by decide +kernel)) (by decide +kernel)
      (bad_kernel (by decide +kernel))⟩
theorem premises_TableCommands_code : Refused 1 unmarked 6 ∧ Refused 1 badMap 7 ∧ ∀ c, ¬Refused 1 goodImage c :=
  ⟨refused6 (header_of (by decide +kernel)) (by decide +kernel) (by decide +kernel) (sections_of (by decide +kernel)) (by decide +kernel)
      (kernel_of (by decide +kernel)) (by decide +kernel) (bad_code (by decide +kernel) (by decide +kernel)),
    refused7 (header_of (by decide +kernel)) (by decide +kernel) (by decide +kernel) (sections_of (by decide +kernel)) (by decide +kernel)
      (kernel_of (by decide +kernel)) (good_code (by decide +kernel)) (bad_map (by decide +kernel) (by decide +kernel)),
    accepted good_header (by decide +kernel) (by decide +kernel) (sections_of (by decide +kernel)) (by decide +kernel)
      (kernel_of (by decide +kernel)) (good_code (by decide +kernel)) good_map⟩

theorem premises_TableCommands_load :
    ([(withImage booted, true), (booted, false)] : List (State × Bool)).all (fun x =>
      let s := commanded (entry 6 0 [vault, 192]) x.1
      nextIs s 6 && (match s.loadImage 0 vault 192 with
        | .ok _ => x.2
        | .error c => !x.2 && c.num == 1)) = true
    ∧ (let s := commanded (entry 7 0 [0x10000000000]) (at_ (.nop (rf)))
       nextIs s 7 && (s.part 0).images.any fun im => im.base.toNat == 0x10000000000) = true
    ∧ (let s := commanded (entry 7 0 [65536]) (at_ (.nop (rf)))
       nextIs s 7 && (s.part 0).images.all fun im => im.base.toNat != 65536) = true
    ∧ (let s := part0 (fun p => { p with rings := [(0, { csize := 4, cbase := BitVec.ofNat 64 vault })], completions := [⟨0, 7, 1, 0, 1, 0⟩] }) booted
       let r := s.ring 0 0
       (s.part 0).completions.find? (fun c => c.ring == 0) == some ⟨0, 7, 1, 0, 1, 0⟩ && r.csize.toNat % 16 == 4
         && (r.ctail - r.chead).toNat != 2 ^ 4 && (s.writeVa 0 vault (Completion.bytes ⟨0, 7, 1, 0, 1, 0⟩)).isSome) = true := by decide +kernel

/-- A launch not ENDED names a kernel of the image, or has ended. -/
theorem premises_TableCommands_unload :
    ([.dispatched, .ended] : List LPhase).map (fun ph =>
      let s := withRecord (phased ph .resident)
      let s := s.modLaunch 0 fun l => { l with lrec := { l.lrec with kdesc := (placedKernel 0).kdesc } }
      (s.part 0).images.any fun im => s.imageHeld 0 im) = [true, false] := by decide +kernel

/-! The scheduler. -/

def withRec (f : LaunchRec → LaunchRec) (s : State) : State := s.modLaunch 0 fun l => { l with lrec := f l.lrec }
/-- A second launch of the partition, after the first, with the same handle. -/
def later2 (rw1 rw2 : Bool) (ph : LPhase) : State :=
  let s := withRec (fun r => { r with handles := [⟨7, rw1, false⟩] }) (phased ph .eligible)
  let r : LaunchRec := { handles := [⟨7, rw2, false⟩], waits := [⟨0, 1, true⟩] }
  { s with launches := s.launches ++ [{ placedLaunch 0 with seq := 2, order := 2, phase := .queued, lrec := r }] }
/-- The launch is READY at the head of queue 0, a second one at the head of queue 5. -/
def readied (f : LaunchRec → LaunchRec) (served : List (Nat × Nat) := []) : State :=
  let s := withRec f (phased .ready .retired)
  let s : State := { s with gangs := [], launches := s.launches ++ [{ placedLaunch 0 with seq := 2, order := 2, phase := .ready, queue := some 5 }] }
  part0 (fun p => { p with served := served }) s

theorem premises_LaunchLife :
    ([(later2 false false .dispatched, 1), (later2 true true .ended, 1)] : List (State × Nat)).all (fun x =>
      (nth x.1.launches x.2).any fun l => decide (l.phase = .queued) && l.lrec.waits.all (·.reached)
        && l.lrec.handles.all fun h => x.1.launches.all fun m => m.part != l.part || l.order ≤ m.order
          || m.lrec.handles.all fun h' => h'.index != h.index || (!h'.rw && !h.rw) || decide (m.phase = .ended)) = true
    ∧ (let s := later2 false true .dispatched
       (nth s.launches 1).any fun l => l.lrec.handles.any fun h => h.rw && s.launches.any fun m => m.part == l.part && m.order < l.order
         && m.lrec.handles.any (fun h' => h'.index == h.index) && decide (m.phase ≠ .ended)) = true
    ∧ ((nth (withRec (fun r => { r with waits := [⟨0x5000000000, 1, false⟩] }) (phased .queued .eligible)).launches 0).any fun l =>
        decide (l.phase = .queued) && l.lrec.waits.any fun w => !w.reached) = true
    ∧ ([([], 0), ([(0, 0)], 5), ([(0, 5)], 0)] : List (List (Nat × Nat) × Nat)).all (fun x =>
        (readied id x.1).servedQueue 0 == some x.2) = true
    ∧ ([(id, true), (fun r => { r with sizeAddr := BitVec.ofNat 64 vault, classes := [⟨8, [2, 3], 0⟩] }, true),
        (fun r => { r with sizeAddr := 1, classes := [⟨8, [2, 3], 0⟩] }, false)] : List ((LaunchRec → LaunchRec) × Bool)).all (fun x =>
        let s := readied x.1
        s.servedQueue 0 == some 0 && s.headOf 0 0 == some 0 && s.pkg.install == none && 0 < s.parts.length
          && (nth s.launches 0).any fun l => l.lrec.det != 2
            && (match (if l.lrec.classes = [] then .ok [] else s.readVa 0 l.lrec.sizeAddr.toNat 4), s.readVa 0 l.lrec.userp.toNat l.lrec.userlen with
              | .ok sb, .ok _ => x.2 && (gridFor l.lrec (leNat sb)).isSome
              | .error _, _ => !x.2
              | _, _ => false)) = true
    ∧ (gridFor { classes := [⟨8, [2, 3], 0⟩] } 8).isSome = true ∧ gridFor { classes := [⟨8, [2, 3], 0⟩] } 9 = none
    ∧ (let s := withRec (fun r => { r with timeout := 3 }) (phased .dispatched .resident)
       let s : State := { s with pkg := { s.pkg with clock := 3000000 } }
       (nth s.launches 0).any fun l => decide (l.phase = .dispatched) && !l.dying && l.lrec.timeout != 0
         && l.dispatchedAt + 1000000 * l.lrec.timeout ≤ s.pkg.clock.toNat) = true
    ∧ ([(1, true), (2, false)] : List (Nat × Bool)).all (fun x =>
        let s := part0 (fun p => { p with pendingRecs := [⟨{ aFault with lseq := x.1 }, .nothing⟩] }) (phased .ending .retired)
        (nth s.launches 0).any fun l => decide (l.phase = .ending) && (s.part l.part).pendingRecs.any (fun r => r.frec.lseq == l.seq) == x.2) = true
    ∧ (let s := phased .queued .retired
       (nth s.launches 0).any (fun l => l.queue == some 0 && l.lrec.waits.isEmpty && l.lrec.handles.isEmpty) && !s.queueReady 0 0
         && match exec (.launchReady 0) s with
           | .next t => t.queueReady 0 0
           | _ => false) = true := by decide +kernel

/-- SERIAL waits for the launch submitted before, and not for one before that. -/
theorem premises_LaunchLife_serial :
    ([(.ended, .dispatched, false), (.dispatched, .ended, true)] : List (LPhase × LPhase × Bool)).all (fun x =>
      let s := part0 (fun p => { p with queues := FMap.set {} p.queues 0 { (FMap.get ({} : Queue) p.queues 0) with cfg := 0x18 } }) (phased x.1 .retired)
      let s : State := { s with launches := s.launches ++ [{ placedLaunch 0 with seq := 2, order := 2, phase := x.2.1 },
                                                            { placedLaunch 0 with seq := 3, order := 3, phase := .ready }] }
      s.headOf 0 0 == some 2 && s.queueReady 0 0 == x.2.2) = true := by decide +kernel

/-- A state at a CLOCK. -/
def atClock (t : Word64) (s : State) : State := { s with pkg := { s.pkg with clock := t } }

theorem premises_TimedSteps :
    (let s := atClock 1000000 (readied id)
     let x := FMap.get ({} : Queue) (s.part 0).queues 0
     0 < s.parts.length && s.queueReady 0 0 && x.level < 7 && x.agedAt + 1000 * (x.cfg.toNat / 2 ^ 16 % 2 ^ 16) ≤ s.pkg.clock.toNat) = true
    ∧ ([.eligible, .saving] : List GPhase).all (fun ph =>
       let s := atClock 1000000 (phased .dispatched ph)
       s.launches.all (fun l => decide (l.phase = .dispatched) && !l.dying) && (nth s.gangs 0).any fun g => decide (g.phase = ph) && g.e < 7
         && g.agedAt + 1000 * ((FMap.get ({} : Queue) (s.part 0).queues 0).cfg.toNat / 2 ^ 16 % 2 ^ 16) ≤ s.pkg.clock.toNat) = true
    ∧ ([(1000, 0, 1), (2000, 0, 2), (2000, 1, 2)] : List (Word64 × Nat × Nat)).all (fun x =>
        let s := (atClock x.1 (phased .dispatched .resident)).modGang 0 fun g => { g with minq := 1, maxq := 2, quantum := x.2.1 }
        (nth s.gangs 0).any fun g => decide (g.phase = .resident) && g.quantum < x.2.2
          && (if 1000 * g.maxq ≤ s.pkg.clock.toNat - g.placedAt then 2 else if 1000 * g.minq ≤ s.pkg.clock.toNat - g.placedAt then 1 else 0) == x.2.2) = true
    ∧ ([(true, false, false), (false, false, false), (true, true, true)] : List (Bool × Bool × Bool)).all (fun x =>
        let s := withRec (fun r => { r with migrate := x.1 }) (warp (fun w => { w with migp := x.2.1, sched := x.2.2 }) (phased .dispatched .resident))
        s.running 0 && s.warps.all (fun w => !w.ended && w.gang == 0) && (placedKernel 0).variant (otherKind .l) == some ⟨0x10000010000, 64, 64, none⟩
          && s.migrationCore 0 0 (otherKind .l) 64 != none) = true
    ∧ (let s := warp (fun w => { w with migp := true, sched := true }) (phased .dispatched .resident)
       let s : State := { s with launches := s.launches.map fun l => { l with kern := { l.kern with varD := none } } }
       s.running 0 && s.launches.all fun l => (l.kern.variant .d).isNone) = true := by decide +kernel

/-- The gang waits for its first place. -/
def waits (f : LaunchRec → LaunchRec) : State :=
  let s := withRec (fun r => f { r with coop := false }) (phased .dispatched .eligible)
  { s.modGang 0 fun g => { g with started := false, localAt := [] } with warps := [] }
/-- It has run before, and its context is saved. -/
def saved (s : State) : State :=
  (withRec (fun r => { r with coop := false }) s).modGang 0 fun g => { g with ctx := some (0, 1024), localAt := [], savedDeque := [⟨5, true⟩] }

/-- A gang stages 32 bytes from an address to its local memory, and to its range of a vault. -/
def staged (base : Nat) : State :=
  (part0 (fun p => { p with handles := [(7, some { base := BitVec.ofNat 64 base, len := 256, bitmap := none, ro := true, image := false })] })
    (withRec (fun r => { r with handles := [⟨7, false, false⟩], stages := [⟨0, false, 32, 0⟩, ⟨0, true, 32, 0⟩] }) (phased .dispatched .staging))).modGang 0
    fun g => { g with localAt := [256], vaults := [(1, vaultPa + 0x10000, 32)] }

/-- Staging that gets through, that meets a fault, a page that is not present, and a RECOMPUTE entry. -/
theorem premises_Placement_staging :
    let stop (s : State) : Option Stop := match nth s.gangs 0, nth s.launches 0 with
      | some g, some l => match s.stageAll g l with
        | .ok _ => none
        | .error e => some e.1
      | _, _ => none
    let stages (s : State) : Bool := (nth s.gangs 0).any (fun g => decide (g.phase = .staging) && g.staging.isNone)
      && (nth s.launches 0).any fun l => decide (l.phase = .dispatched) && !l.dying && (s.part l.part).pendingRecs.all fun r => decide (r.after ≠ .staging 0)
    ([staged vault, staged (2 ^ 56), staged 0x20000, recomputes (staged 0x20000)].all stages) = true
    ∧ stop (staged vault) = none ∧ (stop (staged (2 ^ 56))) = some (.fault .translation 2 false)
    ∧ stop (staged 0x20000) = some (.sleep 0x20000 none) ∧ stop (recomputes (staged 0x20000)) = some (.sleep 0x20000 (some 1))
    ∧ (let s := part0 (fun p => { p with pendingRecs := [⟨aFault, .staging 0⟩] }) (staged 0x20000)
       (nth s.launches 0).any fun l => (s.part l.part).pendingRecs.any fun r => decide (r.after = .staging 0)) = true := by
  decide +kernel

/-- The source of its stages lies at plain places, and its copies are well seated. -/
theorem premises_Placement_copies :
    (∃ g l, nth (staged vault).gangs 0 = some g ∧ nth (staged vault).launches 0 = some l ∧ WellSeated g l ∧ l.lrec.stages.length = 2
      ∧ ((nth l.lrec.handles 0).bind (entryOf (staged vault) 0)).isSome = true)
    ∧ (List.range 2).all (fun k => match (staged vault).place (agentAccess 0 (vault + 16 * k) 16 false) with
      | .ok q => plainAt (staged vault) 16 (.place q)
      | .error _ => false) = true := by
  refine ⟨?_, by decide +kernel⟩
  have h : (nth (staged vault).gangs 0).any (fun g => g.vaults == [(1, vaultPa + 0x10000, 32)] && g.localAt == [256]) = true
      ∧ (nth (staged vault).launches 0).any (fun l => l.lrec.stages == [⟨0, false, 32, 0⟩, ⟨0, true, 32, 0⟩] && l.lrec.handles == [⟨7, false, false⟩]
        && l.lrec.localBytes == 4096 && (entryOf (staged vault) 0 ⟨7, false, false⟩).isSome) = true := by decide +kernel
  obtain ⟨g, hg, h1⟩ := Option.any_eq_true _ _ |>.mp h.1
  obtain ⟨l, hl, h2⟩ := Option.any_eq_true _ _ |>.mp h.2
  simp only [Bool.and_eq_true, beq_iff_eq] at h1 h2
  obtain ⟨⟨⟨st, hh⟩, lb⟩, e⟩ := h2
  refine ⟨g, l, hg, hl, ⟨fun v hv => ?_, fun o ho => ?_, by rw [st, lb]; decide, by rw [h1.2]; simp⟩, by rw [st]; rfl, by rw [hh]; exact e⟩
  · rw [h1.1, List.mem_singleton] at hv
    subst hv
    exact ⟨by decide, by decide, by decide, fun st' h => by simp [st, nth] at h; rw [← h]⟩
  · rw [h1.2, List.mem_singleton] at ho; omega

theorem premises_Placement :
    ([id, fun r => { r with stages := [⟨0, false, 16, 0⟩] }] : List (LaunchRec → LaunchRec)).all (fun f =>
      let s := waits f
      s.waiting 0 && !s.placementLost 0 && !s.outranked 0 && s.warps.isEmpty && s.gangs.all (fun g => !g.started)
        && s.launches.all (fun l => !l.lrec.coop) && (s.fitPlaces 0).contains (0, 0, .l) && (s.fitPlaces 0).contains (7, 23, .l)) = true
    ∧ (let s := saved (phased .dispatched .eligible)
       s.waiting 0 && !s.placementLost 0 && !s.outranked 0 && s.gangs.all (fun g => g.started && !s.contextBad g)
        && s.launches.all (fun l => !l.lrec.coop && l.lrec.det == 0) && s.warps.all (·.pending.isEmpty) && (s.fitPlaces 0).contains (7, 23, .l)) = true := by decide +kernel

/-- One cell of one die; its gang has spent its quanta; a gang of another launch, of higher priority, waits. -/
def contended : State :=
  let s := (withRec (fun r => { r with coop := false }) (phased .dispatched .resident)).modGang 0 fun g => { g with quantum := 2, placeNo := 1 }
  let s := part0 (fun p => { p with ctxsize := 0x100000 }) s
  { s with pkg := { s.pkg with dies := 1, cells := [1, 0, 0, 0, 0, 0, 0, 0] },
           launches := s.launches ++ [{ placedLaunch 0 with seq := 2, order := 2, lrec := { (placedLaunch 0).lrec with coop := false } }],
           gangs := s.gangs ++ [{ placedGang with launch := 1, phase := .eligible, started := false, e := 5, localAt := [], order := 1 }] }

theorem premises_PreemptionAndSaving :
    (let s := contended
     (nth s.launches 0).any (fun l => decide (l.phase = .dispatched) && !l.dying && (nth s.gangs 0).any fun g => !preemptDue l g)
       && s.preempted 0 == some [0] && (s.giveAreas [0]).isSome) = true
    ∧ (let s := part0 (fun p => { p with ctxsize := 0x100000 }) (phased .dispatched .stopping)
       (nth s.gangs 0).any (fun g => g.ctx.isNone && decide (g.phase = .stopping) && (nth s.launches 0).any fun l => !s.stopWaits g l)
         && (s.giveAreas (0 :: s.closure [0])).isSome) = true
    ∧ ([(.resident, [⟨1, 0⟩], some true), (.stopping, [⟨1, 0⟩], some true), (.stopping, [⟨0, 0⟩], some false), (.stopping, [], none)]
        : List (GPhase × List TraceEntry × Option Bool)).all (fun x =>
       let s := part0 (fun p => { p with ctxsize := 0x100000 }) (phased .dispatched x.1)
       let s := launch0 (fun l => { l with lrec := { l.lrec with det := 2, coop := false }, replay := x.2.1 }) s
       (nth s.gangs 0).any (fun g => g.ctx.isNone && g.phase == x.1 && s.active 0 g && (nth s.launches 0).any fun l =>
         decide (l.phase = .dispatched) && !l.dying && l.lrec.det == 2 && !s.stopWaits g l
           && preemptDue l g == (x.2.2 == some true) && (l.replay.all fun e => e.kind != 1 || e.gang != g.lin) == !(x.2.2 == some true))
         && (s.giveAreas [0]).isSome && (s.giveAreas (0 :: s.closure [0])).isSome) = true
    ∧ ([.saving, .stopping] : List GPhase).all (fun ph =>
       let s := (phased .dispatched ph).modGang 0 fun g => { g with ctx := some (0, 1024) }
       (nth s.gangs 0).any fun g => g.started && g.ctx.isSome && decide (g.phase = ph)) = true := by decide +kernel

/-! Etesian. -/

def etesian (f : Etesian → Etesian) (s : State) : State := part0 (fun p => { p with et := f p.et }) s
/-- A command in progress with its record at the start of the vault window, and a handle that covers an expert's home. -/
def etCommand (op : Nat) (fields : List (Nat × Nat × Nat)) (experts : List Expert) (addr : Nat := vault) : State :=
  part0 (fun p => { p with handles := [(7, some { base := BitVec.ofNat 64 (vault + 65536), len := 65536, bitmap := none, ro := true, image := false })],
                           et := { p.et with busy := true, op := op, cmdAddr := BitVec.ofNat 64 addr, experts := experts } }) (put fields booted)
def aRecord : List (Nat × Nat × Nat) :=
  [(0, 4, 9), (4, 4, 4), (8, 4, 7), (0xC, 4, 0), (0x10, 8, 65536), (0x18, 4, 1), (0x1C, 4, 0), (0x20, 4, 255)]
def recordBytes (fields : List (Nat × Nat × Nat)) : List Byte := (put fields booted).bytes vaultPa 64
def registeredExpert : Expert :=
  { eid := 9, thr := ⟨false, 2, 1, 0, 255⟩, size := 65536, qaddr := 0,
    copies := [{ rep := 0, die := 0, base := BitVec.ofNat 64 (vault + 65536), phase := .live, published := true }] }

theorem commands_of {s : State} {op : Nat} (h : (0 < s.parts.length && (s.part 0).et.busy && (s.part 0).et.op == op && !s.held 0
    && (s.part 0).et.waiting.isEmpty) = true) : Commands s 0 op := by
  simp only [Bool.and_eq_true, decide_eq_true_eq, beq_iff_eq, Bool.not_eq_true', List.isEmpty_iff] at h
  exact ⟨h.1.1.1.1, h.1.1.1.2, h.1.1.2, h.1.2, by simp [h.2]⟩

theorem isError {α β : Type} {x : Except α β} (h : x.toBool = false) : ∃ e, x = .error e := by
  cases x with
  | error e => exact ⟨e, rfl⟩
  | ok b => cases h

theorem premises_EtesianCommands :
    (∀ op ∈ [1, 2, 3, 4, 5, 0xFFFF], Commands (etCommand op aRecord [anExpert]) 0 op)
    ∧ (∃ e, booted.readVa 0 1 64 = .error e) ∧ (vault + 63) % 64 ≠ 0
    ∧ (etCommand 1 aRecord []).readVa 0 vault 64 = .ok (recordBytes aRecord)
    ∧ Describes (etCommand 1 aRecord []) 0 (recordBytes aRecord) registeredExpert
    ∧ ThresholdsIn (recordBytes aRecord) ⟨false, 2, 1, 0, 255⟩ ∧ (∀ thr, ¬ThresholdsIn (recordBytes [(4, 4, 64)]) thr)
    ∧ (etCommand 3 [(4, 4, 64)] [anExpert]).readVa 0 vault 64 = .ok (recordBytes [(4, 4, 64)])
    ∧ (etCommand 3 aRecord []).held 0 = false ∧ ((etCommand 1 aRecord [anExpert]).part 0).et.expert 9 = some anExpert
    ∧ ((etCommand 1 aRecord []).part 0).et.expert 9 = none ∧ anExpert.registered = true ∧ (anExpert.copies.map (·.rep)).Nodup
    ∧ (launch0 (fun l => { l with lrec := { l.lrec with det := 1 } }) (at_ (.nop (rf)))).held 0 = true := by
  refine ⟨fun op hop => commands_of ?_, isError (by decide +kernel), by decide, by decide +kernel, ⟨⟨?_, ?_, ?_, ?_, ?_, ?_, ?_⟩, ?_⟩, ?_, ?_, ?_⟩
  · simp only [List.mem_cons, List.not_mem_nil, or_false] at hop
    obtain rfl | rfl | rfl | rfl | rfl | rfl := hop <;> decide +kernel
  all_goals first
    | decide +kernel
    | (rintro thr ⟨h, -⟩; revert h; decide +kernel)
    | (refine ⟨?_, ?_, ?_, ?_, ?_, ?_, ?_⟩ <;> decide +kernel)

/-- A copy in a phase beside the home of an expert of two sectors, which hold 1 to 64. -/
def flying (ph : CPhase) (f : Copy → Copy := id) (put? : Bool := true) : State :=
  let copies : List Copy := [{ rep := 0, die := 0, base := BitVec.ofNat 64 vault, phase := .live, published := true },
                             f { rep := 1, die := 1, base := BitVec.ofNat 64 (vault + 65536), phase := ph }]
  let x : Expert := { anExpert with size := 64, copies := copies }
  let bs : List (Nat × Nat × Nat) := (List.range 64).map fun i => (i, 1, i + 1)
  etesian (fun e => { e with experts := [x], evBase := BitVec.ofNat 64 (vault + 0x8000), evSize := 4 })
    (put (if put? then bs ++ bs.map fun y => (65536 + y.1, y.2) else bs) (at_ (.nop (rf))))

theorem premises_ExpertCopies :
    ([(0, 4000000), (31, 4000000), (32, 4000000)] : List (Nat × Word64)).all (fun x =>
      let s := atClock x.2 (etesian (fun e => { e with ectl := 0x03104001, nsamples := x.1, experts := [anExpert] }) booted)
      let et := (s.part 0).et
      let interval := 1000 * (et.eintv.toNat % 2 ^ 16)
      (s.part 0).en && et.ectl.getLsbD 0 && et.since + interval * (x.1 + 1) / 32 ≤ s.pkg.clock.toNat) = true
    ∧ (let s := flying .copying
      match s.copyOf 0 9 1, (s.copyOf 0 9 1).map (fun y => s.copySource 0 y.1) with
      | some y, some (.ok _) => decide (y.2.phase = .copying) && y.2.flying && y.2.sleep.isNone && !y.2.refused
          && (List.range 2).all fun i => match s.place (agentAccess 0 (y.2.base.toNat + 32 * i) 32 true) with
            | .ok q => !q.dev && q.loc == .phys (vaultPa + 65536 + 32 * i) && !isHostPa (vaultPa + 65536 + 32 * i)
            | .error _ => false
      | _, _ => false) = true
    ∧ ([(true, []), (false, []), (true, [(vaultPa + 65536) / 32 + 1])] : List (Bool × List Nat)).map (fun x =>
      let s := { flying .verifying id x.1 with poison := x.2 }
      match s.copyOf 0 9 1, (s.copyOf 0 9 1).map (fun y => s.copySource 0 y.1) with
      | some y, some (.ok src) => (List.range 2).map fun i => match s.place (agentAccess 0 (y.2.base.toNat + 32 * i) 32 false) with
          | .ok q => (decide (y.2.phase = .verifying) && y.2.flying && y.2.sleep.isNone && !y.2.refused && nth src i == some (s.loadAt q 32), s.poisoned q)
          | .error _ => (false, true)
      | _, _ => []) = [[(true, false), (true, false)], [(false, false), (false, false)], [(true, false), (true, true)]]
    ∧ ((atClock 50000000 (flying .copying)).copyOf 0 9 1).any (fun y => y.2.flying
        && y.2.startedAt + 1000000 * (((flying .copying).part 0).et.eintv.toNat / 2 ^ 16) ≤ 50000000) = true
    ∧ ((flying .live).copyOf 0 9 1).any (fun y => !y.2.flying) = true
    ∧ (anExpert.copies.map (·.rep)).Nodup := by decide +kernel

/-- What stops the copy in flight. -/
def agentStop (s : State) : Option Stop :=
  match s.copyOf 0 9 1 with
  | some (x, k) => match s.copySource 0 x with
    | .error e => some e.1
    | .ok _ => if k.phase = .copying then (match s.regionPlaces 0 k.base.toNat (x.size / 32) with
        | .error e => some e.1
        | .ok _ => none)
      else if k.phase = .verifying then (match s.readRegion 0 x k with
        | .error e => some e.1
        | .ok _ => none)
      else none
  | none => none

theorem agentStop_some {s : State} {stop : Stop} (h : agentStop s = some stop) :
    ∃ x k, s.copyOf 0 9 1 = some (x, k) ∧ AgentStops s 0 x k stop := by
  unfold agentStop at h
  split at h
  · rename_i x k hx
    refine ⟨x, k, hx, ?_⟩
    split at h
    · rename_i e he
      cases h
      exact .inl ⟨_, he⟩
    · rename_i src he
      refine .inr ⟨src, ?_⟩
      split at h
      · rename_i ph
        split at h
        · rename_i e hr
          cases h
          exact ⟨_, he, .inl ⟨ph, hr⟩⟩
        · cases h
      · split at h
        · rename_i ph
          split at h
          · rename_i e hr
            cases h
            exact ⟨_, he, .inr ⟨ph, hr⟩⟩
          · cases h
        · cases h
  · cases h

/-- A copy in flight whose home copy, or whose region, lies elsewhere. -/
def moved (home : Bool) (base : Word64) (ph : CPhase) : State :=
  etesian (fun e => { e with experts := e.experts.map fun x =>
    { x with size := 64, copies := x.copies.map fun k => if (k.rep == 0) == home then { k with base := base } else k } }) (flying ph)

/-- The home copy, and the region, at a page that is not present, at one of a RECOMPUTE entry, and outside of every table. -/
theorem premises_ExpertCopies_stops :
    (([(true, .copying), (false, .verifying)] : List (Bool × CPhase)).all fun c =>
      agentStop (recomputes (moved c.1 0x20000 c.2)) == some (.sleep 0x20000 (some 1)))
    ∧ ([(true, .copying), (true, .verifying), (false, .copying), (false, .verifying)] : List (Bool × CPhase)).all (fun c =>
      let s := moved c.1 0x20000 c.2
      agentStop s == some (.sleep 0x20000 none)
        && agentStop (moved c.1 0xFFFFFFFFFFFFFFC0 c.2) == some (.fault .translation 2 false)
        && (s.copyOf 0 9 1).any fun y => y.2.flying && y.2.sleep.isNone && !y.2.refused) = true := by decide +kernel

/-- An expert with one copy that is routed to more than its threshold, at the end of an interval, and a die that is idle and has room. -/
def hotExpert : Expert :=
  { eid := 9, thr := ⟨false, 2, 1, 0, 255⟩, size := 65536, routes := 5
    copies := [{ rep := 0, die := 0, base := BitVec.ofNat 64 vault, phase := .live, published := true }] }
def hotState (q : Bool) : State :=
  atClock 4000000 (etesian (fun e => { e with ectl := 0x03104001, nsamples := 32, pools := [(1, (0, 4))]
                                              experts := [{ hotExpert with copies := hotExpert.copies.map fun k => { k with quarantined := q } }] })
    booted)

theorem premises_ExpertCopies_hot :
    IsHot (hotState false) 0 hotExpert (·.marked) ∧ (∀ d < 8, IdleFor (hotState false) 0 hotExpert d ↔ d ≠ 0)
    ∧ (RoomAt (hotState false) 0 1 65536 (96 * 2 ^ 21)) ∧ (∀ off, ¬RoomAt (hotState false) 0 2 65536 off)
    ∧ ((hotState false).part 0).et.experts = [hotExpert] ∧ (hotExpert.copies.map (·.rep)).Nodup
    ∧ ((hotState true).part 0).et.experts.any (fun x => x.copies.any fun k => decide (k.phase = .live) && k.quarantined) = true := by
  refine ⟨⟨by decide +kernel, by decide, by decide, by decide, by decide, by decide, by decide, by decide, by decide +kernel⟩, ?_,
    ⟨by decide, by decide +kernel, by decide +kernel, by decide +kernel, by simp only [Apart]; decide +kernel, by simp only [Apart]; decide +kernel⟩,
    fun off h => h.2.1 ?_,
    by decide +kernel, by decide, by decide +kernel⟩
  · simp only [IdleFor]; decide +kernel
  · decide +kernel

def register9 : Change := .register registeredExpert
/-- A retiring copy, REP 1, whose queue descriptor lies in the vault window, beside REP 2 with a queue of its own; HEAD and TAIL of the first,
and whether REP 2 can be chosen. -/
def closing (head tail : Nat) (other : Bool) : State :=
  let copies : List Copy := [{ rep := 1, die := 1, base := BitVec.ofNat 64 (vault + 65536), phase := .retiring, versions := [2] },
                             { rep := 2, die := 2, base := BitVec.ofNat 64 (vault + 131072), phase := .live, published := other }]
  let x : Expert := { anExpert with size := 64, copies := copies, qaddr := BitVec.ofNat 64 vault }
  etesian (fun e => { e with experts := [x], ver := 3 })
    (put [(32, 8, vault + 4096), (40, 4, 16), (48, 4, head), (52, 4, tail), (64, 8, vault + 8192), (72, 4, 16), (80, 4, 4), (84, 4, 6),
      (4096 + 8 * (head % 16), 8, 2 ^ 63 + 5), (4096 + 8 * ((head + 1) % 16), 8, 2 ^ 63 + 6)] (at_ (.nop (rf))))

theorem noChange : ¬Changes {} (.add 9 1) := by
  rintro (⟨_, h⟩ | ⟨_, h⟩ | ⟨_, _, _, _, _, hx, -⟩ | ⟨_, _, _, hx, -⟩)
  · cases h
  · cases h
  · simp [Etesian.expert] at hx
  · simp [Etesian.expert] at hx

theorem premises_Publications_changes :
    (let s := etesian (fun e => { e with waiting := [register9] }) (launch0 (fun l => { l with lrec := { l.lrec with det := 1 } }) (at_ (.nop (rf))))
     s.held 0 && s.nextChange 0 == none) = true
    ∧ (let s := etesian (fun e => { e with waiting := [register9, .fail 9 1] }) (launch0 (fun l => { l with lrec := { l.lrec with det := 1 } }) (at_ (.nop (rf))))
       s.held 0 && s.nextChange 0 == some (.fail 9 1)) = true
    ∧ Changes {} register9 ∧ ¬Changes {} (.add 9 1)
    ∧ ([[], [⟨4, 0, 0, 9⟩]] : List (List Grant)).map (fun gs =>
      let s := etesian (fun e => { e with waiting := [register9], ver := 3 }) (launch0 (fun l => { l with grants := gs }) (at_ (.nop (rf))))
      (s.nextChange 0 == some register9 && 0 < s.parts.length, s.verHeld 0 4)) = [(true, false), (true, true)]
    ∧ ([(.add 9 1), .deregister 9, .retire [(9, 1)]] : List Change).all (fun c =>
      (etesian (fun e => { e with waiting := [c], experts := [anExpert] }) (at_ (.nop (rf)))).nextChange 0 == some c) = true
    ∧ (etesian (fun e => { e with waiting := [.add 9 1, register9], experts := [{ anExpert with copies := anExpert.copies.map fun k =>
        { k with quarantined := true } }] }) (at_ (.nop (rf)))).nextChange 0 = some register9
    ∧ (let s := etesian (fun e => { e with waiting := [.deregister 9] }) (flying .copying)
       s.nextChange 0 == some (.deregister 9) && (s.copyOf 0 9 1).any fun y => y.2.flying && abortedBy (.deregister 9) 9 && y.1.copies.any (!·.flying)) = true
    ∧ ([(48, true), (32, false)] : List (Nat × Bool)).all (fun x =>
       let s := etesian (fun e => { e with waiting := [.fail 9 1], experts := [anExpert] })
         (launch0 (fun l => { l with phase := .ending, lrec := { l.lrec with det := 1, traceLen := x.1 } }) (at_ (.nop (rf))))
       s.nextChange 0 == some (.fail 9 1) && !s.verHeld 0 1 && s.launches.all fun l => l.holds 0 && l.lrec.det == 1 && !l.overflow
         && decide (32 + 16 * (l.traced + 1) ≤ l.lrec.traceLen) == x.2) = true := by
  refine ⟨?_, ?_, Or.inl ⟨_, rfl⟩, noChange, ?_, ?_, ?_, ?_, ?_⟩ <;> decide +kernel

theorem premises_Publications_closures :
    ((flying .live).copyOf 0 9 1).any (fun y => decide (y.2.phase = .live) && !y.2.quarantined && y.1.qaddr == 0) = true
    ∧ ([(5, 5, false, 0), (5, 7, false, 1), (5, 6, true, 2)] : List (Nat × Nat × Bool × Nat)).all (fun c =>
      let s := closing c.1 c.2.1 c.2.2.1
      match s.copyOf 0 9 1, (s.copyOf 0 9 1).bind (fun y => s.tokenQueue 0 y.1 1) with
      | some (x, k), some q => !k.closed && decide (k.phase = .retiring) && !k.quarantined && (s.part 0).et.closures.isEmpty
        && (match s.closeQueue 0 q with
          | some u => match c.2.2.2 with
            | 0 => q.tail ≤ q.head
            | 1 => q.head < q.tail && (u.openQueues 0 x).isEmpty && (match u.place (agentAccess 0 (q.ring + 8 * (q.head % q.cap)) 8 false) with
              | .ok place => decide (2 ^ 63 ≤ leNat (u.loadAt place 8).1)
              | .error _ => false)
            | _ => q.tail == q.head + 1 && (match leastLoaded (u.openQueues 0 x), u.place (agentAccess 0 (q.ring + 8 * (q.head % q.cap)) 8 false) with
              | some q', .ok place => 2 ^ 63 ≤ leNat (u.loadAt place 8).1 && (u.moveEntry 0 q' (leNat (u.loadAt place 8).1) (u.loadAt place 8).2).isSome
              | _, _ => false)
          | none => false)
      | _, _ => false) = true
    ∧ ([2, 3] : List Nat).map (fun v =>
      let s := etesian (fun e => { e with experts := e.experts.map fun x => { x with copies := x.copies.map fun k => { k with closed := true } } })
        (launch0 (fun l => { l with grants := [⟨v, 1, 1, 9⟩] }) (closing 5 5 false))
      ((s.copyOf 0 9 1).any fun y => decide (y.2.phase = .retiring) && y.2.closed
        && s.launches.all fun l => l.grants.all fun g => !y.2.versions.contains g.ver : Bool)) = [false, true]
    ∧ ([(0, 4), (0x10, 4), (0, 0)] : List (Word32 × Word32)).map (fun x =>
      let et := { (State.reset.part 0).et with evSize := x.2, evTail := x.1 }
      let k := et.evSize.toNat % 32
      (4 ≤ k && k ≤ 16 && (et.evTail - et.evHead).toNat != 2 ^ k : Bool)) = [true, false, false]
    ∧ (booted.writeVa 0 vault (List.replicate 32 0)).isSome = true ∧ booted.writeVa 0 0xFFFFFFFFFFFFFFC0 (List.replicate 32 0) = none := by
  decide +kernel

/-- The state after the entry at an index of a closed queue has been moved. -/
def movedOn (s : State) (x : Expert) (ring cap i : Nat) : State :=
  match leastLoaded (s.openQueues 0 x), s.place (agentAccess 0 (ring + 8 * (i % cap)) 8 false) with
  | some q, .ok place => (s.moveEntry 0 q (leNat (s.loadAt place 8).1) (s.loadAt place 8).2).getD s
  | _, _ => s
/-- Whether it can be moved. -/
def movable (s : State) (x : Expert) (ring cap i : Nat) : Bool :=
  match leastLoaded (s.openQueues 0 x), s.place (agentAccess 0 (ring + 8 * (i % cap)) 8 false) with
  | some q, .ok place => leNat (s.loadAt place 8).1 / 2 ^ 63 % 2 == 1
      && (s.moveEntry 0 q (leNat (s.loadAt place 8).1) (s.loadAt place 8).2).isSome
  | _, _ => false

theorem moves_on {x : Expert} {ring cap i last n : Nat} {s t : State} {r : Option Nat} (h : i < last) (ok : movable s x ring cap i = true)
    (rest : Moves 0 x ring cap (i + 1) last (movedOn s x ring cap i) t n r) : Moves 0 x ring cap i last s t (n + 1) r := by
  unfold movable at ok
  split at ok
  · rename_i q place hq hp
    simp only [Bool.and_eq_true, beq_iff_eq] at ok
    obtain ⟨m, hm⟩ := Option.isSome_iff_exists.mp ok.2
    have e : movedOn s x ring cap i = m := by simp only [movedOn, hq, hp, hm, Option.getD_some]
    exact .moved h hq hp ok.1 hm (e ▸ rest)
  · cases ok

/-- Whether an entry is not VALID yet. -/
def still (s : State) (ring cap i : Nat) : Bool :=
  match s.place (agentAccess 0 (ring + 8 * (i % cap)) 8 false) with
    | .ok p => leNat (s.loadAt p 8).1 / 2 ^ 63 % 2 == 0
    | .error _ => true

theorem moves_still {x : Expert} {ring cap i last : Nat} {s : State} (h : i < last) (ok : still s ring cap i = true) :
    Moves 0 x ring cap i last s s 0 none := by
  simp only [still] at ok
  exact .waits h fun place hp => by rw [hp] at ok; exact beq_iff_eq.mp ok

/-- Two entries move, and the third is not VALID yet; with the closure in progress, nothing moves. -/
theorem premises_Publications_moves :
    let s := closing 5 8 true
    ∃ x k q u, s.copyOf 0 9 1 = some (x, k) ∧ s.tokenQueue 0 x 1 = some q ∧ s.closeQueue 0 q = some u ∧ k.closed = false ∧ k.phase = .retiring
      ∧ (s.part 0).et.closures = [] ∧ (∃ m, Moves 0 x q.ring q.cap q.head q.tail u m 2 none) ∧ (∃ m, Moves 0 x q.ring q.cap q.head (q.head + 1) u m 1 (some 0))
      ∧ Moves 0 x q.ring q.cap (q.head + 2) q.tail u u 0 none
      ∧ ((etesian (fun e => { e with closures := [⟨9, 1, q.ring, q.cap, 7, 8, 2⟩] }) u).part 0).et.closures.find? (fun c => c.eid == 9 && c.rep == 1)
          = some ⟨9, 1, q.ring, q.cap, 7, 8, 2⟩ := by
  intro s
  have h : (s.copyOf 0 9 1).any (fun y => !y.2.closed && decide (y.2.phase = .retiring) && (s.part 0).et.closures.isEmpty
      && (s.tokenQueue 0 y.1 1).any fun q => q.head == 5 && q.tail == 8 && (s.closeQueue 0 q).any fun u =>
        let v := movedOn u y.1 q.ring q.cap 5
        let w := movedOn v y.1 q.ring q.cap 6
        movable u y.1 q.ring q.cap 5 && movable v y.1 q.ring q.cap 6 && still w q.ring q.cap 7 && still u q.ring q.cap 7
        && ((etesian (fun e => { e with closures := [⟨9, 1, q.ring, q.cap, 7, 8, 2⟩] }) u).part 0).et.closures.find? (fun c => c.eid == 9 && c.rep == 1)
          == some ⟨9, 1, q.ring, q.cap, 7, 8, 2⟩) = true := by decide +kernel
  obtain ⟨⟨x, k⟩, hx, h⟩ := Option.any_eq_true _ _ |>.mp h
  simp only [Bool.and_eq_true] at h
  obtain ⟨⟨⟨hc, hp⟩, he⟩, h⟩ := h
  obtain ⟨q, hq, h⟩ := Option.any_eq_true _ _ |>.mp h
  simp only [Bool.and_eq_true, beq_iff_eq] at h
  obtain ⟨⟨h5, h8⟩, h⟩ := h
  obtain ⟨u, hu, h⟩ := Option.any_eq_true _ _ |>.mp h
  simp only [Bool.and_eq_true] at h
  obtain ⟨⟨⟨⟨m5, m6⟩, w⟩, w0⟩, np⟩ := h
  refine ⟨x, k, q, u, hx, hq, hu, by simpa using hc, by simpa using hp, by simpa using he,
    ⟨movedOn (movedOn u x q.ring q.cap 5) x q.ring q.cap 6, ?_⟩, ⟨movedOn u x q.ring q.cap 5, ?_⟩, ?_, ?_⟩
  · rw [h5, h8]; exact moves_on (by omega) m5 (moves_on (by omega) m6 (moves_still (by omega) w))
  · rw [h5]; exact moves_on (by omega) m5 (.all (by omega))
  · rw [h5, h8]; exact moves_still (by omega) w0
  · exact beq_iff_eq.mp np

/-! Links, errors, the host's window. -/

/-- A flit to a device that holds its own CRC, or another. -/
def aFlit (dest : BitVec 5) (good : Bool) : Flit :=
  let f : Flit := ⟨dest, 1, 2, 3, 1, 64, 0, List.replicate 32 7⟩
  { f with crc := if good then Config.crc16 (flitBytes f) else Config.crc16 (flitBytes f) + 1 }

theorem premises_LinksAndErrors :
    (let s : State := atClock 40000 { State.reset with regions := [⟨64, 64, 0⟩, ⟨0, 64, 5⟩], pkg := { State.reset.pkg with dies := 1 } }
     let quiet := s.consctl 0 / 2 ^ 24 % 2 ^ 6
     s.pkg.dies.getLsbD 0 && quiet != 0 && s.regions.all fun y => 4 * 4096 * quiet ≤ 7 * (s.pkg.clock.toNat - y.seen) && y.seen ≤ s.pkg.clock.toNat
       && y.lines == 64 && y.line / (2 * 64) == 0) = true
    ∧ (State.reset.pkg.cellPresent 7 23 && decide (cellBytes - 1 < cellBytes)) = true
    ∧ (let s := at_ (.nop (rf)); s.pkg.reaches 0 && s.pkg.reaches (pkgEnd - 1) && s.pkg.dies.getLsbD 0) = true
    ∧ (∀ d, Config.crc16 (flitBytes (aFlit d true)) = (aFlit d true).crc ∧ Config.crc16 (flitBytes (aFlit d false)) ≠ (aFlit d false).crc)
    ∧ (aFlit 1 true).dest.toNat ≠ State.reset.pkg.device ∧ (aFlit 0 true).dest.toNat = State.reset.pkg.device
    ∧ (∀ d, (aFlit d true).pa = 64 ∧ (aFlit d true).data.length = 32 ∧ State.reset.pkg.reaches (State.reset.pkg.norm (64 / 2 * 32)) = true)
    ∧ (nth { State.reset.pkg with cxl := [0, 512, 0, 0] }.cxl 1).getD 0 ≠ 0
    ∧ (let s : State := part0 (fun p => { p with carves := [BitVec.ofNat 64 (1024 * 2 ^ 52)] }) { at_ (.nop (rf)) with pkg := { State.reset.pkg with stage := 7 } }
       (s.part 0).en && (s.part 0).carves.head? == some (BitVec.ofNat 64 (1024 * 2 ^ 52 + 0 * 2 ^ 30)) && s.pkg.stage == 7
         && [(0, 64), (2 ^ 36 - 64, 64), (2 ^ 36 - 63, 64)].map (fun x => (decide (x.1 + x.2 ≤ min (min (1024 * 2 ^ 30) (2 ^ 36)) pkgEnd) : Bool))
           == [true, true, false]) = true := by
  refine ⟨by decide +kernel, by decide +kernel, by decide +kernel, fun d => ⟨rfl, ?_⟩, by decide, by decide, fun d => ⟨rfl, rfl, by decide +kernel⟩, by decide, by decide +kernel⟩
  intro h
  have h : Config.crc16 (flitBytes (aFlit d false)) = Config.crc16 (flitBytes (aFlit d false)) + 1 := h
  bv_omega

/-! Bring-up, decoding, steps. -/

theorem unsound (kind : Nat) : ¬SoundImage kind [] := by
  rintro ⟨h, -⟩; revert h; decide

def aBoot : Boot :=
  { enabled := 0xFF, firmware := [], decode := [], diesUp := 1, cells := [1], lpddr := true, cxlGib := [512], pcieUp := 3, digests := []
    peers := 0, ports := 0, services := [], release := 1 }

/-- Whether an image is sound rests on the free functions of the signatures: what is shown is that an image without them is not, that a
sound one has an SVN that the fuses of reset admit, and that the rest of the hypotheses can be met. -/
theorem premises_BringUp :
    ¬SoundImage 1 aBoot.firmware ∧ ¬SoundImage 2 aBoot.decode ∧ (nth State.reset.pkg.minSvn 0).isSome = true
    ∧ (nth State.reset.pkg.minSvn 1).isSome = true ∧ (∀ bs, fusedSvn State.reset.pkg 1 ≤ fieldOf bs 8 4)
    ∧ aBoot.diesUp &&& aBoot.enabled ≠ 0 ∧ ({ aBoot with enabled := 0 } : Boot).diesUp &&& 0 = 0 ∧ aBoot.lpddr = true
    ∧ ([0, 1, 31, 32] : List Nat).map (fun n => (List.replicate n ([] : List Byte)).length + 1) = [1, 2, 32, 33]
    ∧ State.reset.pkg.install = none ∧ ({ State.reset.pkg with stage := 7 } : Package).stage = 7
    ∧ (let s : State := { at_ (.nop (rf)) with pkg := { State.reset.pkg with install := some 2 } }
       s.pkg.install = some 2 ∧ s.launches.any (fun l => decide (l.phase = .dispatched)) = true)
    ∧ (let s : State := { State.reset with pkg := { State.reset.pkg with install := some 2 } }
       s.pkg.install = some 2 ∧ s.launches = [])
    ∧ (List.replicate 32 (0 : Byte)).length = 32 := by
  refine ⟨unsound 1, unsound 2, by decide, by decide, fun bs => ?_, by decide, by decide, rfl, by decide, rfl, rfl, ⟨rfl, by decide +kernel⟩, ⟨rfl, rfl⟩, rfl⟩
  exact Nat.le_trans (by decide) (Nat.zero_le _)

theorem premises_DecodeEncode :
    ([.iadd (rf (.v 255) (.k 63) (.v 0) (ty := .s32) (sub := 1)), .bra ⟨h0, 0x1FFFFFFF, 4⟩, .eqp (imf (.v 0) (imm := 4095))] : List Instr).all
      (fun i => i.hasWord && i.wf) = true
    ∧ (let w := encodeWord (.iadd (rf (.v 3) (.v 4) (.v 5) (ty := .s32))); w < 2 ^ 96 ∧ decodeWord w = .ok (.iadd (rf (.v 3) (.v 4) (.v 5) (ty := .s32)))) := by
  decide +kernel

def goes (o : Host.Outcome State Fault Refusal) : Bool := match o with
  | .next _ => true
  | _ => false

theorem next_of_goes {o : Host.Outcome State Fault Refusal} (h : goes o = true) : ∃ t, o = .next t := by
  cases o with
  | next t => exact ⟨t, rfl⟩
  | fault f => cases h
  | refused r => cases h

theorem premises_StepKeepsCanonical :
    (at_ (.nop (rf))).Canonical ∧ (∃ t, step (at_ (.nop (rf))) = .next t) ∧ (at_ (.nop (rf))).mem ≠ [] :=
  ⟨by unfold State.Canonical; decide +kernel, next_of_goes (by decide +kernel), by decide +kernel⟩

/-- A warp that issues from a line whose slot decodes, or does not; and an event of another agent. -/
theorem premises_StepRunsDecoded :
    ([encodeWord (.nop (rf)), 0x00C * 2 ^ 86] : List Nat).map (fun w =>
      let s := State.reset.placeWord w
      match s.agenda with
      | .issue wi false :: ms =>
        let u := ({ s.ticked with agenda := ms } : State).served wi
        if !({ s.ticked with agenda := ms } : State).onTurn wi then 0 else
        (match u.picked with
        | some x => (match u.fetch x.2.2.1.part x.2.2.2.pc with
          | .line bs => if x.1.pending.isEmpty && x.1.ckpts.isEmpty && x.2.2.2.block.endsIn.isNone then
              (match decodeSlot bs (x.2.2.2.pc.toNat % 8) with
              | .ok _ => 1
              | .error _ => 2) else 0
          | _ => 0)
        | none => 0)
      | _ => 0) = [1, 2]
    ∧ (let s := { State.reset.placeWord 0 with mem := FMap.setN 0 (State.reset.placeWord 0).mem 0x20003C [0, 0, 0, 0xFF] }
       let u := ({ s.ticked with agenda := [] } : State).served 0
       ({ s.ticked with agenda := [] } : State).onTurn 0 && u.picked.any fun x => x.1.ckpts.isEmpty && match u.fetch x.2.2.1.part x.2.2.2.pc with
         | .badLine _ _ _ => true
         | _ => false) = true
    ∧ (let s := second .ready (at_ (.nop (rf)))
       s.nextServed 0 == some 0 && ({ s with arb := [(0, 1)] }).nextServed 0 == some 1 && ({ s with arb := [(0, 2)] }).nextServed 0 == some 0
         && !({ s with arb := [(0, 1)] }).onTurn 0 && s.warps.length == 2) = true
    ∧ ([(0x10000030000, none), (2 ^ 56, some (FClass.translation, 2))] : List (Word64 × Option (FClass × Nat))).all (fun y =>
       let s : State := { at_ (.nop (rf)) (core fun k => { k with frontier := [⟨0xFFFFFFFF, y.1, 0, .ready⟩] }) with agenda := [.issue 0 false] }
       let u := ({ s.ticked with agenda := [] } : State).served 0
       ({ s.ticked with agenda := [] } : State).onTurn 0 && u.picked.any fun x => x.1.ckpts.isEmpty && x.1.pending.isEmpty && x.1.handler.isNone
         && x.2.2.2.block.endsIn.isNone && (bareContext u x none).w.c.frontier == [(bareContext u x none).split]
         && ((nth (u.atFault (bareContext u x none)).warps 0).all fun w => w.ckpts.isEmpty)
         && match u.fetch x.2.2.1.part x.2.2.2.pc with
           | .sleep page => y.2 == none && page == y.1.toNat / 65536
           | .fault cls cause _ => y.2 == some (cls, cause)
           | _ => false) = true
    ∧ (let s : State := { at_ (.nop (rf)) with agenda := [] }
       s.ticked.candidates.any (fun m => isNext (runMove s.ticked m))) = true
    ∧ (let s : State := { ready with agenda := [], parts := [] }
       s.ticked.candidates.all (fun m => !isNext (runMove s.ticked m))) = true
    ∧ isHostPa hostPa = true ∧ hostPa % 16 + [(1 : Byte)].length ≤ 16
    ∧ Instr.hasWord (.queueAgeing 0 0) = false ∧ ({ State.reset with agenda := [.event (.queueAgeing 0 0)] } : State).agenda = [.event (.queueAgeing 0 0)] := by
  decide +kernel

end Sys2Proof.Tests
end

section
/-! SUPPORT. Where an issue leaves the lanes of a frontier table: sets of lanes, merges, departures of barriers, and the table after an issue
(R36 to R39, R213). -/

namespace Sys2Proof.Machine

open Sys2Proof

/-! Lane sets. -/

@[simp] theorem Lanes.has_or (a b : Lanes) (i : Nat) : Lanes.has (a ||| b) i = (a.has i || b.has i) := BitVec.getLsbD_or

/-- A lane of a set without those of another. -/
theorem Lanes.has_andNot (a b : Lanes) (i : Nat) : Lanes.has (a &&& ~~~b) i = (a.has i && !b.has i) := by
  simp only [Lanes.has, BitVec.getLsbD_and, BitVec.getLsbD_not]
  by_cases h : i < 32
  · simp [h]
  · simp [BitVec.getLsbD_of_ge a i (by omega)]

theorem Lanes.eq_of_has {a b : Lanes} (h : ∀ i, a.has i = b.has i) : a = b := BitVec.eq_of_getLsbD_eq fun i _ => h i

@[simp] theorem Lanes.has_zero (i : Nat) : Lanes.has 0 i = false := by simp [Lanes.has]

/-! The lanes of a table. -/

theorem has_lanesOf_iff {l : List Split} {lane : Nat} : (lanesOf l).has lane = true ↔ ∃ e ∈ l, e.lanes.has lane = true := by
  rw [has_lanesOf, List.any_eq_true]

@[simp] theorem has_lanesOf_nil (lane : Nat) : (lanesOf []).has lane = false := Lanes.has_zero lane

@[simp] theorem has_lanesOf_cons (e : Split) (l : List Split) (lane : Nat) :
    (lanesOf (e :: l)).has lane = (e.lanes.has lane || (lanesOf l).has lane) := by
  rw [has_lanesOf, has_lanesOf, List.any_cons]

@[simp] theorem has_lanesOf_append (l l' : List Split) (lane : Nat) :
    (lanesOf (l ++ l')).has lane = ((lanesOf l).has lane || (lanesOf l').has lane) := by
  rw [has_lanesOf, has_lanesOf, has_lanesOf, List.any_append]

@[simp] theorem has_lanesOf_sortSplits (l : List Split) (lane : Nat) :
    (lanesOf (sortSplits l)).has lane = (lanesOf l).has lane := by
  rw [Bool.eq_iff_iff, has_lanesOf_iff, has_lanesOf_iff]
  simp only [mem_sortSplits]

/-- What keeps the lanes of each entry keeps those of the table. -/
theorem has_lanesOf_map {f : Split → Split} (hf : ∀ e, (f e).lanes = e.lanes) (l : List Split) (lane : Nat) :
    (lanesOf (l.map f)).has lane = (lanesOf l).has lane := by
  rw [has_lanesOf, has_lanesOf, List.any_map]
  simp only [Function.comp_def, hf]

/-- The entries that pass a test and those that do not hold the table's lanes. -/
theorem has_lanesOf_partition (l : List Split) (p : Split → Bool) (lane : Nat) :
    ((lanesOf (l.filter p)).has lane || (lanesOf (l.filter fun x => !p x)).has lane) = (lanesOf l).has lane := by
  induction l with
  | nil => simp
  | cons e l ih => cases hp : p e <;> simp [hp, ← ih, Bool.or_left_comm, Bool.or_assoc]

@[simp] theorem Split.has_grown (p : Split) (js : List Split) (lane : Nat) :
    (p.grown js).lanes.has lane = (p.lanes.has lane || (lanesOf js).has lane) := Lanes.has_or _ _ _

theorem Split.passed_lanes (e : Split) (b : Bool) : (e.passed b).lanes = e.lanes := by
  unfold Split.passed
  split
  · rfl
  · split <;> rfl

/-! Where a lane stands, whatever barriers depart. -/

/-- Every entry of the table that holds the lane stands at one PC and waits at no barrier. -/
def StandsAt (l : List Split) (lane : Nat) (pc : Addr) : Prop :=
  ∀ e ∈ l, e.lanes.has lane = true → e.pc = pc ∧ ∀ sc, e.block ≠ .barrier sc

theorem Block.replayed_ne_barrier {b : Block} (h : b.replayed = true) (sc : Scope) : b ≠ .barrier sc := by
  rintro rfl
  cases h

theorem Split.free_ne_barrier {e : Split} (h : e.free = true) (sc : Scope) : e.block ≠ .barrier sc := by
  intro hb
  simp [Split.free, Split.ready, Block.isReady, Block.replayed, hb] at h

/-- An entry that has grown waits at a barrier only where it did. -/
theorem Split.grown_ne_barrier {p : Split} (h : ∀ sc, p.block ≠ .barrier sc) (js : List Split) (sc : Scope) :
    (p.grown js).block ≠ .barrier sc := by
  simp only [Split.grown]
  cases hf : (js.map (·.block)).find? Block.replayed with
  | none => exact h sc
  | some b => exact Block.replayed_ne_barrier (List.find?_some hf) sc

theorem StandsAt.pcOf {k : WCore} {lane : Nat} {pc : Addr} (h : StandsAt k.frontier lane pc) :
    k.pcOf lane = if (lanesOf k.frontier).has lane then some pc else none := by
  unfold WCore.pcOf
  cases hf : k.frontier.find? fun e => e.lanes.has lane with
  | none =>
    have : ¬(lanesOf k.frontier).has lane = true := by
      rw [has_lanesOf_iff]
      rintro ⟨e, he, hl⟩
      exact List.find?_eq_none.mp hf e he hl
    simp [this]
  | some e =>
    have he := List.mem_of_find?_eq_some hf
    have hl : e.lanes.has lane = true := List.find?_some (p := fun e : Split => e.lanes.has lane) hf
    rw [if_pos (has_lanesOf_iff.mpr ⟨e, he, hl⟩)]
    exact congrArg some (h e he hl).1

theorem StandsAt.sortSplits {l : List Split} {lane : Nat} {pc : Addr} (h : StandsAt l lane pc) :
    StandsAt (sortSplits l) lane pc := fun e he => h e ((mem_sortSplits e l).mp he)

/-! Merging keeps the lanes of a table and where they stand. -/

@[simp] theorem has_lanesOf_joinAt (l : List Split) (stands : Split → Bool) (lane : Nat) :
    (lanesOf (joinAt l stands)).has lane = (lanesOf l).has lane := by
  unfold joinAt
  split
  · rfl
  · next e es h =>
    rw [← has_lanesOf_partition l stands, h]
    simp [Bool.or_assoc]

theorem StandsAt.joinAt {l : List Split} {lane : Nat} {pc x : Addr} {stands : Split → Bool} (h : StandsAt l lane pc)
    (hs : ∀ e, stands e = true → e.free = true ∧ e.pc = x) : StandsAt (joinAt l stands) lane pc := by
  unfold Machine.joinAt
  split
  · exact h
  · next e es hf =>
    have hmem : ∀ y ∈ e :: es, y ∈ l ∧ y.free = true ∧ y.pc = x := fun y hy => by
      rw [← hf, List.mem_filter] at hy
      exact ⟨hy.1, hs y hy.2⟩
    obtain ⟨-, hfree, hx⟩ := hmem e (List.mem_cons_self ..)
    refine StandsAt.sortSplits fun y hy hl => ?_
    rcases List.mem_cons.mp hy with rfl | hy
    · refine ⟨?_, Split.grown_ne_barrier (Split.free_ne_barrier hfree) es⟩
      -- the lane is in one of the entries that join, all of which stand at x
      have hin : (lanesOf (e :: es)).has lane = true := by rw [has_lanesOf_cons]; rwa [Split.has_grown] at hl
      obtain ⟨z, hz, hzl⟩ := has_lanesOf_iff.mp hin
      obtain ⟨hzm, -, hzx⟩ := hmem z hz
      exact hx.trans (hzx.symm.trans (h z hzm hzl).1)
    · exact h y (List.mem_filter.mp hy).1 hl

@[simp] theorem has_lanesOf_mergeWoken (marked : Addr → Bool) (old new : List Split) (lane : Nat) :
    (lanesOf (mergeWoken marked old new)).has lane = (lanesOf new).has lane :=
  foldl_keeps (P := fun l => (lanesOf l).has lane = (lanesOf new).has lane) _ _ _ rfl
    fun l _ h => (has_lanesOf_joinAt l _ lane).trans h

theorem StandsAt.mergeWoken {marked : Addr → Bool} {old new : List Split} {lane : Nat} {pc : Addr}
    (h : StandsAt new lane pc) : StandsAt (mergeWoken marked old new) lane pc :=
  foldl_keeps (P := fun l => StandsAt l lane pc) _ _ _ h fun _ _ hl => hl.joinAt fun e he => by simpa using he

/-! Departures. -/

/-- What the departure of barriers leaves of a warp: all but its frontier tables; each lane is in the table still, and stands where it
stood unless it waited at a barrier. -/
structure Departed (w w' : Warp) : Prop where
  rest : { w' with c := w.c, ckpts := w.ckpts, handler := w.handler } = w
  core : { w'.c with frontier := w.c.frontier, sel := w.c.sel } = w.c
  ckpts : w.ckpts = [] → w'.ckpts = []
  handler : w.handler = none → w'.handler = none
  lanes : ∀ lane, (lanesOf w'.c.frontier).has lane = (lanesOf w.c.frontier).has lane
  stands : ∀ lane pc, StandsAt w.c.frontier lane pc → StandsAt w'.c.frontier lane pc

theorem Departed.refl (w : Warp) : Departed w w := ⟨rfl, rfl, id, id, fun _ => rfl, fun _ _ => id⟩

theorem Departed.trans {a b c : Warp} (h : Departed a b) (h' : Departed b c) : Departed a c where
  rest := by
    have e := congrArg (fun w : Warp => { w with c := a.c, ckpts := a.ckpts, handler := a.handler }) h'.rest
    exact e.trans h.rest
  core := by
    have e := congrArg (fun k : WCore => { k with frontier := a.c.frontier, sel := a.c.sel }) h'.core
    exact e.trans h.core
  ckpts := h'.ckpts ∘ h.ckpts
  handler := h'.handler ∘ h.handler
  lanes lane := (h'.lanes lane).trans (h.lanes lane)
  stands lane pc := h'.stands lane pc ∘ h.stands lane pc

theorem Departed.of_departBar (w : Warp) (marked : Addr → Bool) (sc : Scope) : Departed w (w.departBar marked sc) where
  rest := rfl
  core := rfl
  ckpts h := by simp [Warp.departBar, Warp.unblocked, h]
  handler h := by simp [Warp.departBar, Warp.unblocked, h]
  lanes lane := by
    simp only [Warp.departBar, Warp.unblocked, has_lanesOf_mergeWoken, has_lanesOf_sortSplits]
    exact has_lanesOf_map (fun e => by split <;> rfl) _ _
  stands lane pc h := by
    refine StandsAt.mergeWoken (StandsAt.sortSplits fun y hy hl => ?_)
    obtain ⟨e, he, rfl⟩ := List.mem_map.mp hy
    split at hl
    · next hb => exact absurd hb ((h e he hl).2 sc)
    · next hb => rw [if_neg hb]; exact h e he hl

theorem Departed.of_if (w : Warp) (p : Prop) [Decidable p] (marked : Addr → Bool) (sc : Scope) :
    Departed w (if p then w.departBar marked sc else w) := by
  split
  · exact .of_departBar w marked sc
  · exact .refl w

/-- The departure of complete barriers changes warps alone, and of each what `Departed` lets it. -/
theorem State.depart_eq (s : State) (gi : Nat) :
    ∃ d : Warp → Warp, (∀ w, Departed w (d w)) ∧ s.depart gi = { s with warps := s.warps.map d } := by
  refine ⟨_, fun w => ?_, rfl⟩
  dsimp only
  refine Departed.trans ?_ (.of_if _ _ _ _)
  split
  · exact .refl w
  · exact ((Departed.of_if _ _ _ _).trans (.of_if _ _ _ _)).trans (.of_if _ _ _ _)

/-! The table after an issue. -/

/-- The lanes of the table after an issue: those of the split's parts, and those of the entries apart from the split. -/
theorem WCore.has_lanesOf_advance (k : WCore) (e : Split) (ps : List Split) (marked : Addr → Bool) (main : Bool) (kd : Kind)
    (lane : Nat) : (lanesOf (k.advance e ps marked main kd).frontier).has lane
      = ((lanesOf (gatherParts ps)).has lane || (lanesOf (k.frontier.filter fun x => x.lanes &&& e.lanes = 0)).has lane) := by
  unfold WCore.advance
  extract_lets others parts joins grown table
  have ho : (lanesOf others).has lane = (lanesOf (k.frontier.filter fun x => x.lanes &&& e.lanes = 0)).has lane :=
    has_lanesOf_map (fun x => x.passed_lanes _) _ lane
  have hp : (lanesOf parts).has lane = (lanesOf (gatherParts ps)).has lane :=
    has_lanesOf_map (f := fun p => { p with wait := 0 }) (fun _ => rfl) _ lane
  rw [← ho, ← hp]
  simp only [table, has_lanesOf_sortSplits, has_lanesOf_append]
  rw [Bool.eq_iff_iff, Bool.or_eq_true, Bool.or_eq_true, has_lanesOf_iff, has_lanesOf_iff, has_lanesOf_iff, has_lanesOf_iff]
  constructor
  · rintro (⟨y, hy, hl⟩ | ⟨y, hy, hl⟩)
    · obtain ⟨p, hp, rfl⟩ := List.mem_map.mp hy
      rw [Split.has_grown, Bool.or_eq_true, has_lanesOf_iff] at hl
      rcases hl with hl | ⟨z, hz, hl⟩
      · exact .inl ⟨p, hp, hl⟩
      · exact .inr ⟨z, (List.mem_filter.mp hz).1, hl⟩
    · exact .inr ⟨y, (List.mem_filter.mp hy).1, hl⟩
  · rintro (⟨p, hp, hl⟩ | ⟨z, hz, hl⟩)
    · exact .inl ⟨_, List.mem_map.mpr ⟨p, hp, rfl⟩, by rw [Split.has_grown, hl, Bool.true_or]⟩
    · by_cases hj : ∃ p ∈ parts, joins p z = true
      · obtain ⟨p, hp, hj⟩ := hj
        refine .inl ⟨_, List.mem_map.mpr ⟨p, hp, rfl⟩, ?_⟩
        rw [Split.has_grown, has_lanesOf_iff.mpr ⟨z, List.mem_filter.mpr ⟨hz, hj⟩, hl⟩, Bool.or_true]
      · refine .inr ⟨z, List.mem_filter.mpr ⟨hz, ?_⟩, hl⟩
        simpa using hj

/-- After an issue a lane of the split stands where its part does. -/
theorem WCore.standsAt_advance {k : WCore} {e : Split} {ps : List Split} {marked : Addr → Bool} {main : Bool} {kd : Kind}
    {lane : Nat} {pc : Addr} (he : e.lanes.has lane = true) (h : StandsAt (gatherParts ps) lane pc) :
    StandsAt (k.advance e ps marked main kd).frontier lane pc := by
  unfold WCore.advance
  extract_lets others parts joins grown table
  have ho : ∀ y ∈ others, y.lanes.has lane = false := by
    intro y hy
    obtain ⟨z, hz, rfl⟩ := List.mem_map.mp hy
    rw [Split.passed_lanes]
    exact Lanes.has_of_and_zero (by simpa using (List.mem_filter.mp hz).2) he
  refine StandsAt.sortSplits fun y hy hl => ?_
  rcases List.mem_append.mp hy with hy | hy
  · obtain ⟨p, hp, rfl⟩ := List.mem_map.mp hy
    obtain ⟨q, hq, rfl⟩ := List.mem_map.mp hp
    rw [Split.has_grown, Bool.or_eq_true, has_lanesOf_iff] at hl
    rcases hl with hl | ⟨z, hz, hl⟩
    · obtain ⟨hpc, hb⟩ := h q hq hl
      exact ⟨hpc, Split.grown_ne_barrier hb _⟩
    · rw [ho z (List.mem_filter.mp hz).1] at hl
      cases hl
  · rw [ho y (List.mem_filter.mp hy).1] at hl
    cases hl

theorem gatherParts_singleton (p : Split) : gatherParts [p] = if p.lanes = 0 then [] else [p] := rfl

@[simp] theorem has_lanesOf_gatherParts_singleton (p : Split) (lane : Nat) :
    (lanesOf (gatherParts [p])).has lane = p.lanes.has lane := by
  rw [gatherParts_singleton]
  split
  · next h => rw [h]; rfl
  · simp

end Sys2Proof.Machine
end

section
/-! SUPPORT. What an issue knows of its split and of its warp, and what an issue that writes no register leaves. -/

namespace Sys2Proof.Machine

open Sys2Proof

/-! The split that an issue selects stands in its frontier table. -/

theorem longestWait_mem {e : Split} : ∀ {l : List Split}, longestWait l = some e → e ∈ l
  | [], h => by cases h
  | x :: xs, h => by
    unfold longestWait at h
    split at h
    · next y hy =>
      split at h
      · exact Option.some.inj h ▸ List.mem_cons_self ..
      · exact List.mem_cons_of_mem _ (longestWait_mem (Option.some.inj h ▸ hy))
    · exact Option.some.inj h ▸ List.mem_cons_self ..

theorem nextReady_mem {l : List Split} {pc : Addr} {e : Split} (h : nextReady l pc = some e) : e ∈ l := by
  unfold nextReady lowestReady at h
  split at h
  · next x hx => exact Option.some.inj h ▸ List.mem_of_find?_eq_some hx
  · exact List.mem_of_find?_eq_some h

theorem WCore.resolve_mem {c : WCore} {x : Split × WCore} (h : c.resolve = some x) : x.1 ∈ c.frontier := by
  unfold WCore.resolve at h
  split at h
  · obtain ⟨e, he, rfl⟩ := Option.map_eq_some_iff.mp h
    exact List.mem_of_find?_eq_some he
  · next e hsel =>
    have hsel := List.mem_of_find?_eq_some hsel
    dsimp only at h
    obtain ⟨y, hy, rfl⟩ := Option.map_eq_some_iff.mp h
    show y ∈ c.frontier
    split_ifs at hy with hw hyield hiss
    · exact (List.mem_filter.mp (longestWait_mem hy)).1
    · split at hy
      · next z hz => exact Option.some.inj hy ▸ (List.mem_filter.mp (nextReady_mem hz)).1
      · exact Option.some.inj hy ▸ hsel
    · split at hy
      · next z hz => exact Option.some.inj hy ▸ (List.mem_filter.mp (nextReady_mem hz)).1
      · cases hy
    · exact Option.some.inj hy ▸ hsel

/-- The entry whose access issues afresh stands in the table that it leaves. -/
theorem WCore.reissued_mem {k : WCore} {e : Split} (h : e ∈ k.frontier) : e.reissued ∈ (k.reissue e.lanes).frontier :=
  List.mem_map.mpr ⟨e, h, if_pos rfl⟩

/-- The warp that picked gives may issue, and its split is an entry of the table. -/
theorem State.picked_issuer {s : State} {x : Warp × Gang × Launch × Split} (h : s.picked = some x) :
    (∃ w, s.issuer s.cur = some (w, x.2.1, x.2.2.1)) ∧ x.2.2.2 ∈ x.1.c.frontier := by
  unfold State.picked at h
  split at h
  · cases h
  · next w g l hi =>
    dsimp only at h
    split at h
    · cases h
    · split at h
      · split at h
        · next e he =>
          cases h
          exact ⟨⟨w, hi⟩, WCore.reissued_mem (List.mem_of_find?_eq_some he)⟩
        · obtain ⟨y, hy, rfl⟩ := Option.map_eq_some_iff.mp h
          refine ⟨⟨w, hi⟩, ?_⟩
          have hf : y.2.frontier = (s.refreshed w g l.part).frontier := by rw [WCore.resolve_eq hy]
          have hm := WCore.resolve_mem hy
          rwa [← hf] at hm
      · obtain ⟨e, he, rfl⟩ := Option.map_eq_some_iff.mp h
        exact ⟨⟨w, hi⟩, List.mem_of_find?_eq_some he⟩

/-- A warp that may issue has not ended, its gang is resident and its launch runs. -/
theorem State.issuer_runs {s : State} {wi : Nat} {w : Warp} {g : Gang} {l : Launch} (h : s.issuer wi = some (w, g, l)) :
    w.ended = false ∧ g.phase = .resident ∧ l.phase = .dispatched ∧ l.dying = false := by
  unfold State.issuer at h
  split at h
  · cases h
  · split at h
    · cases h
    · split at h
      · cases h
      · dsimp only at h
        split_ifs at h with hc
        cases h
        simp only [Bool.or_eq_true, not_or, decide_eq_true_eq, ne_eq, not_not, Bool.not_eq_true] at hc
        obtain ⟨⟨⟨⟨⟨⟨⟨hended, hphase⟩, hlaunch⟩, hdying⟩, -⟩, -⟩, -⟩, -⟩ := hc
        exact ⟨hended, hphase, hlaunch, hdying⟩

/-- The issue of an instruction that is no collective. -/
theorem Issues.picked {i : Instr} {s : State} {c : Ctx} (h : Issues i s c) (hm : membersOf i = none) :
    s.picked = some (c.w, c.g, c.l, c.split) := by
  have hc := h.context
  simp only [State.contextFor, hm, State.context] at hc
  obtain ⟨x, hx, rfl⟩ := Option.map_eq_some_iff.mp hc
  exact hx

theorem Issues.split_mem {i : Instr} {s : State} {c : Ctx} (h : Issues i s c) (hm : membersOf i = none) :
    c.split ∈ c.w.c.frontier := (State.picked_issuer (h.picked hm)).2

/-- At an issue the warp has not ended, its gang is resident and its launch runs. -/
theorem Issues.runs {i : Instr} {s : State} {c : Ctx} (h : Issues i s c) (hm : membersOf i = none) :
    c.w.ended = false ∧ c.g.phase = .resident ∧ c.l.phase = .dispatched ∧ c.l.dying = false := by
  obtain ⟨w, hw⟩ := (State.picked_issuer (h.picked hm)).1
  obtain ⟨w0, h1, -, h3, -⟩ := State.contextFor_spec h.context
  obtain ⟨hw1, -⟩ := State.issuer_spec hw
  have he : c.w.ended = w.ended := by
    rw [h1] at hw1
    rw [h3, Option.some.inj hw1]
  rw [he]
  exact State.issuer_runs hw

/-- The lanes of the split are live. -/
theorem Issues.split_live {i : Instr} {s : State} {c : Ctx} (h : Issues i s c) (hm : membersOf i = none) {lane : Nat}
    (hl : c.split.lanes.has lane = true) : c.w.live.has lane = true := by
  have hf := has_lanesOf_iff.mpr ⟨c.split, h.split_mem hm, hl⟩
  unfold Warp.live
  split
  · rw [Lanes.has_or, hf, Bool.true_or]
  · exact hf

/-- ACTIVE is part of the split. -/
theorem WCore.guarded_le (k : WCore) (m : Lanes) (g : Option Guard) {lane : Nat} (h : (k.guarded m g).has lane = true) :
    m.has lane = true := by
  unfold WCore.guarded at h
  split at h
  · exact h
  · rw [Lanes.filter, Lanes.has_ofList _ fun i hi => Lanes.lt_of_has ((Lanes.mem_list m i).mp (List.mem_filter.mp hi).1)] at h
    exact (Lanes.mem_list m lane).mp (List.mem_filter.mp (of_decide_eq_true h)).1

theorem Issues.active_le {i : Instr} {s : State} {c : Ctx} (h : Issues i s c) {lane : Nat} (hl : c.active.has lane = true) :
    c.split.lanes.has lane = true := by
  obtain ⟨-, -, -, -, -, -, -, -, ha, -⟩ := State.contextFor_spec h.context
  exact WCore.guarded_le _ _ _ (ha ▸ hl)

/-- The warp as its effect sees it has the live lanes that it had. -/
theorem Issues.openedIn_live {i : Instr} {s : State} {c : Ctx} (h : Issues i s c) : (c.openedIn i s).w.live = c.w.live := by
  obtain ⟨w0, -, h2, -, h4⟩ := h.openedIn_eq
  have hh : (c.openedIn i s).w.handler = c.w.handler := by
    rw [h4, h2]
    exact (congrArg (fun w : Warp => w.handler) (Warp.opened_eq w0 i c (s.consctl c.g.die)) :)
  have hf : (c.openedIn i s).w.c.frontier = c.w.c.frontier := by
    rw [h.openedIn_core]
    split <;> rfl
  unfold Warp.live
  rw [hh, hf]

/-! An issue that writes no register. -/

/-- The registers are those before where the effect leaves them. -/
theorem Moved.sameRegs {i : Instr} {s t : State} {c : Ctx} {k : WCore} {raised : Raised} (h : Issues i s c)
    (m : Moved i c s t k raised)
    (he : k.v = (c.openedIn i s).w.c.v ∧ k.k = (c.openedIn i s).w.c.k ∧ k.p = (c.openedIn i s).w.c.p) :
    (t.core s.cur).v = (s.core s.cur).v ∧ (t.core s.cur).k = (s.core s.cur).k ∧ (t.core s.cur).p = (s.core s.cur).p := by
  obtain ⟨rv, rk, rp⟩ := h.openedIn_regs
  obtain ⟨ev, ek, ep⟩ := he
  refine ⟨?_, ?_, ?_⟩
  · rw [← rv, ← ev]; exact (congrArg (fun x : WCore => x.v) m.core :)
  · rw [← rk, ← ek]; exact (congrArg (fun x : WCore => x.k) m.core :)
  · rw [← rp, ← ep]; exact (congrArg (fun x : WCore => x.p) m.core :)

/-- Flags that no effect raises stay. -/
theorem Moved.sameFlags {i : Instr} {s t : State} {c : Ctx} {k : WCore} (h : Issues i s c) (m : Moved i c s t k [])
    (he : k.flags = (c.openedIn i s).w.c.flags) (lane : Nat) :
    FMap.get 0 (t.core s.cur).flags lane = FMap.get 0 (s.core s.cur).flags lane := by
  rw [m.flags]
  show FMap.get 0 k.flags lane = _
  rw [he, h.opened_field (·.flags) (fun _ _ _ _ _ => rfl)]

/-- The frame of an issue whose effect keeps all registers. -/
theorem Moved.issueFrame_of_regs {i : Instr} {s t : State} {c : Ctx} {k : WCore} (h : Issues i s c) (m : Moved i c s t k [])
    (hr : k.v = (c.openedIn i s).w.c.v ∧ k.k = (c.openedIn i s).w.c.k ∧ k.p = (c.openedIn i s).w.c.p)
    (he : k.leqix = (c.openedIn i s).w.c.leqix ∧ k.eqSeen = (c.openedIn i s).w.c.eqSeen ∧ k.flags = (c.openedIn i s).w.c.flags) :
    IssueFrame i c s t := by
  obtain ⟨rv, rk, rp⟩ := h.openedIn_regs
  obtain ⟨ev, ek, ep⟩ := hr
  exact m.issueFrame h he (fun lane r _ _ _ => WCore.getV_congr (ev.trans rv) lane r)
    (fun r _ _ => WCore.getK_congr (ek.trans rk) r) (fun lane r _ _ _ => WCore.getP_congr (ep.trans rp) lane r)
    (fun _ _ => rfl)

/-- The register frame of an issue that has no effect of its own. -/
theorem Moved.registerFrame {i : Instr} {s t : State} {c : Ctx} (h : Issues i s c) (m : Moved i c s t (c.openedIn i s).w.c []) :
    RegisterFrame i c s t :=
  ⟨m.toOnlyWarp, m.issueFrame_of_regs h ⟨rfl, rfl, rfl⟩ ⟨rfl, rfl, rfl⟩, m.straightOn h ⟨rfl, rfl⟩,
    m.counted h ⟨rfl, rfl, rfl⟩⟩

/-! What an issue leaves before barriers depart and ends are settled. -/

/-- The warp after the effect of an issue. -/
def Ctx.passed (c : Ctx) (i : Instr) (e : Effect) (w : Warp) : Warp :=
  w.after i c e (fun pc => e.s.marked c.pi pc) (e.s.co.isNone && c.w.c.sel &&& c.split.lanes != 0) (Config.slow e.s.turn)

/-- The gang after an issue of its warp: a single step counts it (R344). -/
def Gang.ran (g : Gang) (wi : Nat) : Gang := { g with step := g.step.map fun d => if d.contains wi then d else wi :: d }

/-- The state after the effect of an issue, its warp and its gang's single step moved on. -/
def Ctx.moved (c : Ctx) (i : Instr) (e : Effect) : State := (e.s.modWarp c.wi (c.passed i e)).modGang c.gi (·.ran c.wi)

theorem finish_next {i : Instr} {c : Ctx} {e : Effect} (h : e.flow = .next) : State.finish i c e = c.moved i e := by
  simp only [State.finish, h]
  rfl

theorem finish_exit {i : Instr} {c : Ctx} {e : Effect} (h : e.flow = .exit) :
    State.finish i c e = ((c.moved i e).depart c.gi).settleEnd c.wi := by
  simp only [State.finish, h]
  rfl

/-- The warp at issue is the one that the context names. -/
theorem Issues.wi {i : Instr} {s : State} {c : Ctx} (h : Issues i s c) : c.wi = s.cur := by
  obtain ⟨-, -, hwi, -⟩ := State.contextFor_spec h.context
  exact hwi

/-- The warp in the state of the effect is the one that the effect sees. -/
theorem Issues.opened_warp {i : Instr} {s : State} {c : Ctx} (h : Issues i s c) :
    nth (s.openedFor i c).warps s.cur = some (c.openedIn i s).w := by
  obtain ⟨w0, h1, -, -, h4⟩ := h.openedIn_eq
  rw [h4, State.openedFor_eq, h.wi, State.nth_modWarp_same, h1]
  rfl

/-- Its store buffer is within its limit. -/
theorem Issues.opened_room {i : Instr} {s : State} {c : Ctx} (h : Issues i s c) (w : Warp)
    (hw : nth (s.openedFor i c).warps c.wi = some w) : w.fragments ≤ (runAhead w.kind).2.2 := by
  obtain ⟨w0, -, h2, -, h4⟩ := h.openedIn_eq
  rw [h.wi, h.opened_warp, h4] at hw
  have hr := h.room
  rw [h2] at hr
  rw [← Option.some.inj hw]
  show (w0.opened i c _).fragments ≤ (runAhead (w0.opened i c _).kind).2.2
  rw [Warp.opened_fragments, Warp.opened_kind]
  exact hr

/-- An issue whose body leaves the state as it finds it and raises no flag completes. -/
theorem unchanged_done {i : Instr} {s : State} {c : Ctx} (h : Issues i s c) (body : State → Ctx → Body) (e : Effect)
    (hb : body (s.openedFor i c) (c.openedIn i s) = .done e) (hs : e.s = s.openedFor i c) (hr : e.raised = []) :
    issueAt i s c body = .next (State.finish i (c.settled i) e) :=
  issue_done h body hb (fun _ => by rw [hr]; rfl) (fun w hw _ => h.opened_room w (hs ▸ hw))

/-- The captured state written back changes nothing. -/
theorem Issues.opened_writeBack {i : Instr} {s : State} {c : Ctx} (h : Issues i s c) :
    ((s.openedFor i c).modWarp c.wi fun w => { w with c := (c.openedIn i s).w.c }) = s.openedFor i c := by
  unfold State.modWarp
  rw [modAt_id]
  intro w hw
  rw [h.wi, h.opened_warp] at hw
  rw [← Option.some.inj hw]

/-- An instruction without an effect of its own leaves what every issue leaves. -/
theorem unchanged_moved {i : Instr} {s : State} {c : Ctx} (h : Issues i s c) :
    Moved i c s (State.finish i (c.settled i) { s := s.openedFor i c }) (c.openedIn i s).w.c [] := by
  have hb : (Body.done { s := s.openedFor i c } : Body)
      = (c.openedIn i s).done (s.openedFor i c) (c.openedIn i s).w.c [] := by
    obtain ⟨-, hwi, -⟩ := h.openedIn_active
    rw [Ctx.done, hwi, h.opened_writeBack]
  obtain ⟨t, ht, m⟩ := registers_done h (fun s _ => .done { s := s }) _ [] hb rfl
  rw [unchanged_done h _ { s := s.openedFor i c } rfl rfl rfl] at ht
  cases ht
  exact m

end Sys2Proof.Machine
end

section
/-! SUPPORT. TRST and YIELD, and the split that issues after a YIELD (R39, R109, R164, R166). -/

namespace Sys2Proof.Machine

open Sys2Proof

/-! NOP and TRST. -/

theorem exec_nop {f : RegForm} {s : State} {c : Ctx} (h : Issues (.nop f) s c) :
    exec (.nop f) s = issueAt (.nop f) s c fun s c => c.done s c.w.c [] :=
  h.issue rfl _

/-- The captured state that TRST leaves (R109, R166). -/
def Ctx.trst (c : Ctx) : WCore :=
  if c.split.lanes = c.w.live ∧ c.active = c.split.lanes then c.w.c.clearTaint c.active else c.w.c

theorem exec_trst {f : RegForm} {s : State} {c : Ctx} (h : Issues (.trst f) s c) :
    exec (.trst f) s = issueAt (.trst f) s c fun s c => c.done s c.trst [] := by
  have hb : (fun (s : State) (c : Ctx) => if c.split.lanes = c.w.live && c.active = c.split.lanes
      then c.done s (c.w.c.clearTaint c.active) [] else c.done s c.w.c []) = fun s c => c.done s c.trst [] := by
    funext s c
    simp only [Ctx.trst, Bool.and_eq_true, decide_eq_true_eq]
    split <;> rfl
  exact (h.issue rfl _).trans (congrArg _ hb)

/-- TRST changes taint alone. -/
theorem Ctx.trst_field {α : Type} (c : Ctx) (p : WCore → α) (hp : ∀ (k : WCore) t m, p { k with taint := t, tovf := m } = p k) :
    p c.trst = p c.w.c := by
  unfold Ctx.trst
  split
  · exact hp c.w.c _ _
  · rfl

/-- TRST acts where the guard holds in every live lane: they all stand in its split then. -/
theorem Issues.trst_acts {i : Instr} {s : State} {c : Ctx} (h : Issues i s c) (hm : membersOf i = none) :
    (c.openedIn i s).trst
      = if c.active = c.w.live then (c.openedIn i s).w.c.clearTaint c.active else (c.openedIn i s).w.c := by
  obtain ⟨ha, -, hs, -⟩ := h.openedIn_active
  have hiff : (c.split.lanes = c.w.live ∧ c.active = c.split.lanes) ↔ c.active = c.w.live := by
    constructor
    · rintro ⟨h1, h2⟩
      exact h2.trans h1
    · intro he
      have hsplit : c.split.lanes = c.w.live := Lanes.eq_of_has fun lane => Bool.eq_iff_iff.mpr
        ⟨h.split_live hm, fun hl => h.active_le (he ▸ hl)⟩
      exact ⟨hsplit, he.trans hsplit.symm⟩
  unfold Ctx.trst
  rw [ha, hs, h.openedIn_live]
  simp only [hiff]

/-- The stacks of the lanes that are cleared are empty. -/
theorem WCore.clearTaint_get (k : WCore) (m : Lanes) (lane : Nat) :
    FMap.get [] (k.clearTaint m).taint lane = if m.has lane then [] else FMap.get [] k.taint lane := by
  have hf : ∀ (l : List Nat) (t : FMap (List Addr)),
      FMap.get [] (l.foldl (fun t i => FMap.set [] t i []) t) lane = if lane ∈ l then [] else FMap.get [] t lane := by
    intro l
    induction l with
    | nil => intro t; rfl
    | cons i l ih =>
      intro t
      rw [List.foldl_cons, ih, FMap.get_set]
      by_cases e : lane = i <;> simp [e]
  exact (hf m.list k.taint).trans (by simp only [Lanes.mem_list])

theorem WCore.clearTaint_tovf (k : WCore) (m : Lanes) (lane : Nat) (h : m.has lane = true) :
    (k.clearTaint m).tovf.has lane = false := by
  show Lanes.has (k.tovf &&& ~~~m) lane = false
  rw [Lanes.has_andNot, h]
  simp

/-! YIELD. -/

theorem exec_yield {f : RegForm} {s : State} {c : Ctx} (h : Issues (.yield f) s c) :
    exec (.yield f) s = .next (State.finish (.yield f) c { s := s.openedFor (.yield f) c, yields := c.active != 0 }) := by
  obtain ⟨ha, -⟩ := h.openedIn_active
  refine (h.issue rfl _).trans (unchanged_done h _ _ ?_ rfl rfl)
  rw [← ha]

/-- The warp's selected split yields at its next issue. -/
def State.yields (s : State) (wi : Nat) : State := s.modCore wi fun k => { k with yielded := true }

/-- YIELD's effect is the mark of its split, beside what every issue leaves. -/
theorem finish_yields (i : Instr) (c : Ctx) (s : State) :
    State.finish i c { s := s, yields := true } = (State.finish i c { s := s }).yields c.wi := by
  rw [finish_next rfl, finish_next rfl]
  have hw : c.passed i { s := s, yields := true }
      = (fun w : Warp => { w with c := { w.c with yielded := true } }) ∘ c.passed i { s := s } := rfl
  rw [Ctx.moved, hw, ← State.modWarp_modWarp]
  rfl

/-- An issue of an instruction that is no YIELD keeps the mark that the selection has left. -/
theorem finish_yielded {i : Instr} {c : Ctx} {s : State} {w : Warp} (h : nth s.warps c.wi = some w) :
    ((State.finish i c { s := s }).core c.wi).yielded = w.c.yielded := by
  rw [finish_next rfl, State.core, Ctx.moved, State.modGang_warps, State.nth_modWarp_same, h]
  rfl

theorem State.core_yields {s : State} {wi : Nat} {w : Warp} (h : nth s.warps wi = some w) :
    (s.yields wi).core wi = { s.core wi with yielded := true } := by
  rw [State.core, State.core, State.yields, State.modCore, State.nth_modWarp_same, h]
  rfl

theorem Moved.yields {i : Instr} {c : Ctx} {s t : State} {k : WCore} {raised : Raised} (m : Moved i c s t k raised) :
    Moved i c s (t.yields s.cur) k raised := by
  obtain ⟨w0, w1, h0, h1, hw⟩ := m.warp
  have hn : nth (t.yields s.cur).warps s.cur = some { w1 with c := { w1.c with yielded := true } } := by
    rw [State.yields, State.modCore, State.nth_modWarp_same, h1]
    rfl
  have hcore := State.core_yields h1
  refine ⟨⟨m.rest, m.bytes, fun j hj => ?_, m.gangs⟩, ⟨w0, _, h0, hn, hw⟩, ?_, ?_, ?_, ?_⟩
  · exact (State.nth_modWarp_other _ _ _ _ hj).trans (m.warps j hj)
  · rw [hcore]; exact m.core
  · rw [hcore]; exact m.flags
  · rw [hcore]; exact m.rngc
  · rw [hcore]; exact m.next

/-- The mark as the effect sees it. -/
theorem Issues.opened_yielded {i : Instr} {s : State} {c : Ctx} (h : Issues i s c) :
    (c.openedIn i s).w.c.yielded = c.w.c.yielded := by
  rw [h.openedIn_core]
  split <;> rfl

/-- What YIELD leaves. -/
theorem yield_done {f : RegForm} {s : State} {c : Ctx} (h : Issues (.yield f) s c) :
    ∃ t, exec (.yield f) s = .next t ∧ Moved (.yield f) c s t (c.openedIn (.yield f) s).w.c []
      ∧ (t.core s.cur).yielded = if c.active = 0 then c.w.c.yielded else true := by
  have m := unchanged_moved h
  by_cases ha : c.active = 0
  · refine ⟨_, ?_, m, ?_⟩
    · rw [exec_yield h, ha]
      rfl
    · rw [if_pos ha, ← h.opened_yielded, ← h.wi]
      exact finish_yielded (h.wi ▸ h.opened_warp)
  · refine ⟨_, ?_, m.yields, ?_⟩
    · rw [exec_yield h, bne_iff_ne.mpr ha, finish_yields, h.wi]
      rfl
    · obtain ⟨-, w1, -, h1, -⟩ := m.warp
      rw [if_neg ha, State.core_yields h1]

/-! The split that issues after a YIELD (R39). -/

/-- In a table in order of PC the first entry that passes a test has the lowest PC of those that do. -/
theorem pc_le_of_find? {l : List Split} {p : Split → Bool} {x y : Split}
    (hs : l.Pairwise fun x y => x.pc.toNat ≤ y.pc.toNat) (h : l.find? p = some x) (hy : y ∈ l) (hp : p y = true) :
    x.pc.toNat ≤ y.pc.toNat := by
  obtain ⟨-, as, bs, rfl, hn⟩ := List.find?_eq_some_iff_append.mp h
  rcases List.mem_append.mp hy with ha | hb
  · have := hn y ha
    simp [hp] at this
  · rcases List.mem_cons.mp hb with rfl | hb
    · exact le_rfl
    · exact (List.pairwise_cons.mp (List.pairwise_append.mp hs).2.1).1 y hb

/-- The next unblocked entry: the lowest above the PC, or the lowest of all where none is above it. -/
theorem nextReady_some {l : List Split} {pc : Addr} {x : Split} (hs : l.Pairwise fun x y => x.pc.toNat ≤ y.pc.toNat)
    (h : nextReady l pc = some x) :
    x ∈ l ∧ x.issues = true
      ∧ ((∃ y ∈ l, y.issues = true ∧ pc.toNat < y.pc.toNat) →
          pc.toNat < x.pc.toNat ∧ ∀ y ∈ l, y.issues = true → pc.toNat < y.pc.toNat → x.pc.toNat ≤ y.pc.toNat)
      ∧ ((∀ y ∈ l, y.issues = true → y.pc.toNat ≤ pc.toNat) → ∀ y ∈ l, y.issues = true → x.pc.toNat ≤ y.pc.toNat) := by
  refine ⟨nextReady_mem h, ?_⟩
  unfold nextReady lowestReady at h
  split at h
  · next z hz =>
    cases h
    have hx := List.find?_some hz
    simp only [Bool.and_eq_true, decide_eq_true_eq] at hx
    refine ⟨hx.1, fun _ => ⟨hx.2, fun y hy hi hlt => pc_le_of_find? hs hz hy (by simp [hi, hlt])⟩, fun hle => ?_⟩
    have := hle x (List.mem_of_find?_eq_some hz) hx.1
    omega
  · next hz =>
    refine ⟨List.find?_some h, ?_, fun _ y hy hi => pc_le_of_find? hs h hy hi⟩
    rintro ⟨y, hy, hi, hlt⟩
    have := List.find?_eq_none.mp hz y hy
    simp [hi, hlt] at this

theorem nextReady_none {l : List Split} {pc : Addr} : nextReady l pc = none ↔ ∀ y ∈ l, ¬y.issues = true := by
  unfold nextReady lowestReady
  constructor
  · intro h
    split at h
    · cases h
    · exact List.find?_eq_none.mp h
  · intro h
    have hz : (l.find? fun e => e.issues && pc.toNat < e.pc.toNat) = none :=
      List.find?_eq_none.mpr fun y hy => by simp [h y hy]
    rw [hz]
    exact List.find?_eq_none.mpr h

/-- Entries of a table other than those with some lanes. -/
theorem mem_others {l : List Split} {m : Lanes} {x : Split} :
    x ∈ l.filter (fun x => x.lanes != m) ↔ x ∈ l ∧ x.lanes ≠ m := by
  rw [List.mem_filter, bne_iff_ne]

/-- After a YIELD of the selected split, the one entry with its lanes, selection passes to the next unblocked entry, or stays where
there is none. -/
theorem WCore.resolve_yielded {k : WCore} {e : Split} (hy : k.yielded = true) (he : e ∈ k.frontier) (hsel : e.lanes = k.sel)
    (hi : e.issues = true) (huniq : ∀ x ∈ k.frontier, x.lanes = k.sel → x = e)
    (hwait : ∀ x ∈ k.frontier, x.lanes ≠ k.sel → x.issues = true → x.wait < 256) :
    let x := (nextReady (k.frontier.filter fun x => x.lanes != k.sel) e.pc).getD e
    k.resolve = some (x, { k with sel := x.lanes, yielded := false }) := by
  have hfind : (k.frontier.find? fun e => e.lanes == k.sel) = some e := by
    cases hf : k.frontier.find? fun e => e.lanes == k.sel with
    | none => exact absurd (beq_iff_eq.mpr hsel) (List.find?_eq_none.mp hf e he)
    | some x =>
      rw [huniq x (List.mem_of_find?_eq_some hf) (beq_iff_eq.mp (List.find?_some (p := fun e : Split => e.lanes == k.sel) hf))]
  have hpatient : ((k.frontier.filter fun x => x.lanes != k.sel).any fun x => x.issues && decide (256 ≤ x.wait)) = false := by
    rw [List.any_eq_false]
    intro x hx
    obtain ⟨hm, hne⟩ := mem_others.mp hx
    simp only [Bool.and_eq_true, decide_eq_true_eq, not_and]
    intro hxi
    have := hwait x hm hne hxi
    omega
  unfold WCore.resolve
  rw [hfind]
  simp only [hsel, hpatient, hy, hi, Bool.true_or, Bool.false_eq_true, if_true, if_false]
  cases nextReady (k.frontier.filter fun x => x.lanes != k.sel) e.pc <;> rfl

/-- Where no released access waits, the warp issues for the split that its selection gives. -/
theorem State.picked_resolve {s : State} {w : Warp} {g : Gang} {l : Launch} (hi : s.issuer s.cur = some (w, g, l))
    (hco : s.co = none) (hm : (s.refreshed w g l.part).maskExpired = false)
    (hr : ∀ e ∈ (s.refreshed w g l.part).frontier, e.block.replayed = false) :
    s.picked = (s.refreshed w g l.part).resolve.map fun x => ({ w with c := x.2 }, g, l, x.1) := by
  have hf : ((s.refreshed w g l.part).frontier.find? fun e => e.block.replayed) = none :=
    List.find?_eq_none.mpr fun e he => by simp [hr e he]
  unfold State.picked
  simp only [hi, hm, hco, hf, Bool.false_eq_true, if_false]

end Sys2Proof.Machine
end

section
/-! SUPPORT. EXIT: the lanes that it ends, and the ends of warps, gangs and launches that it brings (R54, R163, R274). -/

namespace Sys2Proof.Machine

open Sys2Proof

theorem nth_map {α β : Type} (f : α → β) (l : List α) (i : Nat) : nth (l.map f) i = (nth l i).map f := by
  rw [nth_eq_getElem?, nth_eq_getElem?, List.getElem?_map]

theorem mem_iff_nth {α : Type} {l : List α} {x : α} : x ∈ l ↔ ∃ i, nth l i = some x := by
  simp only [nth_eq_getElem?, List.mem_iff_getElem?]

/-! Retirement (R54). -/

/-- The launch ends with its last gang. -/
def State.lastGang (s : State) (li : Nat) : State :=
  if s.gangs.all fun h => h.launch ≠ li || h.phase = .retired then
    match nth s.launches li with
    | some l => if l.phase = .dispatched && !l.dying then s.toEnding li 0 else s
    | none => s
  else s

/-- Retirement releases the gang, and then its launch may end; where it is not due nothing changes. -/
theorem State.retire_cases (s : State) (gi : Nat) :
    s.retire gi = s ∨ ∃ g : Gang, s.retire gi = (s.releaseGang gi).lastGang g.launch := by
  unfold State.retire
  split
  · exact .inl rfl
  · next g _ =>
    split
    · exact .inl rfl
    · exact .inr ⟨g, rfl⟩

theorem State.retire_due {s : State} {gi : Nat} {g : Gang} (hg : nth s.gangs gi = some g) (hp : g.phase ≠ .retired)
    (hst : g.started = true) (hd : s.gangDone gi = true) : s.retire gi = (s.releaseGang gi).lastGang g.launch := by
  unfold State.retire
  simp only [hg, hp, hst, hd, decide_false, Bool.not_true, Bool.or_false, Bool.false_eq_true, if_false]
  rfl

/-- The end of a launch changes launches and deques alone. -/
theorem State.lastGang_eq (s : State) (li : Nat) : { s.lastGang li with launches := s.launches, deques := s.deques } = s := by
  unfold State.lastGang
  split
  · split
    · split <;> rfl
    · rfl
  · rfl

/-- Memory, local memory and their tags are the same. -/
def SameStorage (s t : State) : Prop := t.mem = s.mem ∧ t.tags = s.tags ∧ t.lmem = s.lmem ∧ t.ltags = s.ltags

theorem SameStorage.trans {a b c : State} (h : SameStorage a b) (h' : SameStorage b c) : SameStorage a c := by
  obtain ⟨mem, tags, lmem, ltags⟩ := h
  obtain ⟨mem', tags', lmem', ltags'⟩ := h'
  exact ⟨mem'.trans mem, tags'.trans tags, lmem'.trans lmem, ltags'.trans ltags⟩

/-- What the end of warps and gangs keeps: storage, and of each warp the captured state and whether it has ended. -/
structure Outlasts (s t : State) : Prop where
  storage : SameStorage s t
  warps : ∀ j w, nth s.warps j = some w → ∃ w', nth t.warps j = some w' ∧ w'.c = w.c ∧ (w.ended = true → w'.ended = true)
  core : ∀ j, t.core j = s.core j

theorem Outlasts.refl (s : State) : Outlasts s s := ⟨⟨rfl, rfl, rfl, rfl⟩, fun _ w h => ⟨w, h, rfl, id⟩, fun _ => rfl⟩

theorem Outlasts.trans {a b c : State} (h : Outlasts a b) (h' : Outlasts b c) : Outlasts a c where
  storage := h.storage.trans h'.storage
  warps j w hw := by
    obtain ⟨w', hw', hc, he⟩ := h.warps j w hw
    obtain ⟨w'', hw'', hc', he'⟩ := h'.warps j w' hw'
    exact ⟨w'', hw'', hc'.trans hc, he' ∘ he⟩
  core j := (h'.core j).trans (h.core j)

/-- A change of every warp that keeps captured states and ends. -/
theorem Outlasts.of_warps {s t : State} (f : Nat → Warp → Warp)
    (hs : SameStorage s t) (hw : ∀ j, nth t.warps j = (nth s.warps j).map (f j))
    (hf : ∀ j w, (f j w).c = w.c ∧ (w.ended = true → (f j w).ended = true)) :
    Outlasts s t where
  storage := hs
  warps j w h := ⟨f j w, by rw [hw, h]; rfl, hf j w⟩
  core j := by
    unfold State.core
    rw [hw]
    cases nth s.warps j with
    | none => rfl
    | some w => exact (hf j w).1

theorem State.retire_outlasts (s : State) (gi : Nat) : Outlasts s (s.retire gi) := by
  rcases s.retire_cases gi with h | ⟨g, h⟩
  · rw [h]; exact .refl s
  · rw [h]
    have hl := (s.releaseGang gi).lastGang_eq g.launch
    refine .of_warps (fun _ w => if w.gang = gi then { w with ended := true, pending := [], ckpts := [] } else w)
      ⟨?_, ?_, ?_, ?_⟩ (fun j => ?_) fun _ w => ?_
    · exact (congrArg (fun x : State => x.mem) hl :)
    · exact (congrArg (fun x : State => x.tags) hl :)
    · exact (congrArg (fun x : State => x.lmem) hl :)
    · exact (congrArg (fun x : State => x.ltags) hl :)
    · have hw : ((s.releaseGang gi).lastGang g.launch).warps = (s.releaseGang gi).warps :=
        (congrArg (fun x : State => x.warps) hl :)
      rw [hw]
      exact nth_map _ _ _
    · split
      · exact ⟨rfl, fun _ => rfl⟩
      · exact ⟨rfl, id⟩

/-- A warp's end, where it has no live lane and no open checkpoint. -/
def Warp.atEnd (w : Warp) (die cell : Nat) : Warp := { w with ended := true, exitDie := die, exitCell := cell }

theorem State.settleEnd_cases (s : State) (wi : Nat) :
    s.settleEnd wi = s ∨ ∃ (w : Warp) (die cell : Nat), s.settleEnd wi = (s.modWarp wi (·.atEnd die cell)).retire w.gang := by
  unfold State.settleEnd
  split
  · exact .inl rfl
  · next w _ =>
    split
    · exact .inr ⟨w, _, _, rfl⟩
    · exact .inl rfl

theorem State.settleEnd_due {s : State} {wi : Nat} {w : Warp} (hw : nth s.warps wi = some w) (hl : w.live = 0) (hc : w.ckpts = [])
    (he : w.ended = false) : ∃ die cell, s.settleEnd wi = (s.modWarp wi (·.atEnd die cell)).retire w.gang := by
  unfold State.settleEnd
  simp only [hw, hl, hc, he, List.isEmpty_nil, Bool.not_false, Bool.and_true, decide_true, if_true]
  exact ⟨_, _, rfl⟩

theorem State.atEnd_outlasts (s : State) (wi die cell : Nat) : Outlasts s (s.modWarp wi (·.atEnd die cell)) := by
  refine .of_warps (fun j w => if j = wi then w.atEnd die cell else w) ⟨rfl, rfl, rfl, rfl⟩ (fun j => ?_) fun j w => ?_
  · rw [State.modWarp_warps, nth_modAt]
    split
    · next h => rw [h]
    · cases nth s.warps j <;> rfl
  · split
    · exact ⟨rfl, fun _ => rfl⟩
    · exact ⟨rfl, id⟩

theorem State.settleEnd_outlasts (s : State) (wi : Nat) : Outlasts s (s.settleEnd wi) := by
  rcases s.settleEnd_cases wi with h | ⟨w, die, cell, h⟩
  · rw [h]; exact .refl s
  · rw [h]; exact (s.atEnd_outlasts wi die cell).trans (State.retire_outlasts _ _)

theorem State.gangDone_of {s : State} {gi : Nat} (hw : ∀ j w, nth s.warps j = some w → w.gang = gi → w.ended = true)
    (ho : ∀ o ∈ s.ops, o.gang = gi → o.phase = .done) (hm : ∀ m ∈ s.mops, m.gang ≠ gi) : s.gangDone gi = true := by
  simp only [State.gangDone, Bool.and_eq_true, List.all_eq_true, Bool.or_eq_true, decide_eq_true_eq, ne_eq]
  refine ⟨⟨fun w hw' => ?_, fun o ho' => not_or_of_imp (ho o ho')⟩, hm⟩
  obtain ⟨j, hj⟩ := mem_iff_nth.mp hw'
  exact not_or_of_imp (hw j w hj)

/-- A gang that has been released holds nothing. -/
theorem State.releaseGang_gang {s : State} {gi : Nat} {g : Gang} (hg : nth s.gangs gi = some g) :
    ∃ g', nth (s.releaseGang gi).gangs gi = some g' ∧ g'.phase = .retired ∧ g'.slots = [] ∧ g'.tiles = [] ∧ g'.vaults = [] :=
  ⟨_, (State.nth_modGang_same s gi _).trans (congrArg (Option.map _) hg), rfl, rfl, rfl, rfl⟩

theorem State.releaseGang_other (s : State) {gi j : Nat} (h : j ≠ gi) : nth (s.releaseGang gi).gangs j = nth s.gangs j :=
  State.nth_modGang_other s gi j _ h

/-- The launch of the last gang ends, with code 0. -/
theorem State.lastGang_ends {s : State} {li : Nat} {l : Launch} (hl : nth s.launches li = some l) (hp : l.phase = .dispatched)
    (hd : l.dying = false) (hg : ∀ j g, nth s.gangs j = some g → g.launch = li → g.phase = .retired) :
    (nth (s.lastGang li).launches li).map (fun l => (l.phase, l.code)) = some (.ending, 0) := by
  have hall : (s.gangs.all fun h => decide (h.launch ≠ li) || decide (h.phase = .retired)) = true := by
    simp only [List.all_eq_true, Bool.or_eq_true, decide_eq_true_eq, ne_eq]
    intro g hg'
    obtain ⟨j, hj⟩ := mem_iff_nth.mp hg'
    exact not_or_of_imp (hg j g hj)
  unfold State.lastGang
  rw [if_pos hall, hl]
  simp only [hp, hd, decide_true, Bool.not_false, Bool.and_self, if_true]
  rw [State.toEnding, State.modLaunch_launches, nth_modAt_same]
  show ((nth s.launches li).map _).map _ = _
  rw [hl]
  rfl

/-! EXIT. -/

/-- The effect of EXIT. -/
def Ctx.exits (c : Ctx) (i : Instr) (s : State) : Effect := { s := s.openedFor i c, flow := .exit }

theorem exec_exit {f : RegForm} {s : State} {c : Ctx} (h : Issues (.exit f) s c) :
    exec (.exit f) s = .next (((c.moved (.exit f) (c.exits (.exit f) s)).depart c.gi).settleEnd c.wi) :=
  (h.issue rfl _).trans ((unchanged_done h _ (c.exits (.exit f) s) rfl rfl rfl).trans (congrArg _ (finish_exit rfl)))

@[simp] theorem WCore.closeWindows_frontier (k : WCore) (m : Lanes) : (k.closeWindows m).frontier = k.frontier := rfl

/-- The captured state after an EXIT: the lanes of ACTIVE are in its table no more, the others of the split stand at the next slot;
registers, taint and flags are kept and RNGC counts the issue. -/
theorem WCore.after_exit (k : WCore) (i : Instr) (c : Ctx) (s : State) (marked : Addr → Bool) (main : Bool) :
    let a := k.after i c { s := s, flow := .exit } marked main
    { a with frontier := k.frontier, sel := k.sel, windows := k.windows, rngc := k.rngc } = k
      ∧ a.rngc = k.rngc + 1
      ∧ (∀ lane, (lanesOf a.frontier).has lane = ((c.split.lanes.has lane && !c.active.has lane)
          || (lanesOf (k.frontier.filter fun x => x.lanes &&& c.split.lanes = 0)).has lane))
      ∧ ∀ lane, c.split.lanes.has lane = true → StandsAt a.frontier lane (nextSlot c.pc) := by
  intro a
  have ha : a = ((({ k with rngc := k.rngc + 1 } : WCore).tick c.split.lanes c.active (lookOf i) i.regsWritten).advance c.split
      [⟨c.split.lanes &&& ~~~c.active, nextSlot c.pc, 0, .ready⟩] marked main .plain).closeWindows c.active := by
    simp only [a, WCore.after, Flow.parts, Bool.false_eq_true, if_false, if_true, reduceCtorEq]
    rfl
  refine ⟨by rw [ha]; rfl, by rw [ha]; rfl, fun lane => ?_, fun lane hl => ?_⟩
  · rw [ha, WCore.closeWindows_frontier, WCore.has_lanesOf_advance, has_lanesOf_gatherParts_singleton, Lanes.has_andNot]
    rfl
  · rw [ha, WCore.closeWindows_frontier]
    refine WCore.standsAt_advance hl fun e he _ => ?_
    rw [gatherParts_singleton] at he
    split at he
    · cases he
    · rw [List.mem_singleton.mp he]
      exact ⟨rfl, fun sc => by simp⟩

/-- Entries apart from a split hold none of its lanes. -/
theorem has_lanesOf_apart {l : List Split} {m : Lanes} {lane : Nat} (h : m.has lane = true) :
    (lanesOf (l.filter fun x => x.lanes &&& m = 0)).has lane = false := by
  rw [has_lanesOf, List.any_eq_false]
  intro x hx
  rw [Lanes.has_of_and_zero (by simpa using (List.mem_filter.mp hx).2) h]
  simp

/-- The state as an EXIT leaves it, once the barriers that it completes have departed. -/
structure Exited (i : Instr) (c : Ctx) (s t : State) : Prop where
  rest : { t with warps := s.warps, gangs := s.gangs } = s
  gangs : ∀ j, nth t.gangs j = if j = c.gi then (nth s.gangs j).map (·.ran c.wi) else nth s.gangs j
  others : ∀ j, j ≠ s.cur → ∃ d : Warp → Warp, (∀ w, Departed w (d w)) ∧ nth t.warps j = (nth s.warps j).map d
  warp : ∃ w, nth t.warps s.cur = some w ∧
    Departed (c.passed i (c.exits i s) (c.openedIn i s).w) w

theorem Exited.storage {i : Instr} {c : Ctx} {s t : State} (h : Exited i c s t) : SameStorage s t :=
  ⟨(congrArg (fun x : State => x.mem) h.rest :), (congrArg (fun x : State => x.tags) h.rest :),
    (congrArg (fun x : State => x.lmem) h.rest :), (congrArg (fun x : State => x.ltags) h.rest :)⟩

theorem exit_exited {i : Instr} {s : State} {c : Ctx} (h : Issues i s c) :
    Exited i c s ((c.moved i (c.exits i s)).depart c.gi) := by
  obtain ⟨d, hd, he⟩ := (c.moved i (c.exits i s)).depart_eq c.gi
  have hopen : (s.openedFor i c) = s.modWarp s.cur fun w => w.opened i c (s.consctl c.g.die) := by
    rw [State.openedFor_eq, h.wi]
  have hw : ∀ j, nth ((c.moved i (c.exits i s)).depart c.gi).warps j
      = (nth ((s.openedFor i c).modWarp c.wi (c.passed i (c.exits i s))).warps j).map d := fun j => by
    rw [he]
    exact nth_map d _ j
  refine ⟨?_, fun j => ?_, fun j hj => ⟨d, hd, ?_⟩, ⟨_, ?_, hd _⟩⟩
  · rw [he, Ctx.moved, Ctx.exits, hopen]
    rfl
  · rw [he, Ctx.moved, Ctx.exits, hopen]
    refine (nth_modAt _ _ _ _).trans ?_
    split
    · next hj => rw [hj]; rfl
    · rfl
  · rw [hw, h.wi, State.nth_modWarp_other _ _ _ _ hj, hopen, State.nth_modWarp_other _ _ _ _ hj]
  · rw [hw, h.wi, State.nth_modWarp_same, h.opened_warp]
    rfl

/-- The issue as its effect sees it has the warp's own fields but those that opening a checkpoint and settling it change. -/
theorem Issues.openedIn_rest {i : Instr} {s : State} {c : Ctx} (h : Issues i s c) :
    { (c.openedIn i s).w with c := c.w.c, latch := c.w.latch, slow := c.w.slow, ckpts := c.w.ckpts } = c.w := by
  obtain ⟨w0, -, h2, -, h4⟩ := h.openedIn_eq
  rw [h4, h2]
  exact congrArg (fun w : Warp => { w with c := c.w.c }) (Warp.opened_eq w0 i c (s.consctl c.g.die))

/-- The captured state after the whole of an EXIT. -/
theorem exit_core {i : Instr} {s t : State} {c : Ctx} (hx : Exited i c s t) {wi : Nat} :
    let k := (c.openedIn i s).w.c
    let a := (t.settleEnd wi).core s.cur
    { a with frontier := k.frontier, sel := k.sel, windows := k.windows, rngc := k.rngc } = k
      ∧ a.rngc = k.rngc + 1
      ∧ ∀ lane, c.split.lanes.has lane = true → a.pcOf lane = if c.active.has lane then none else some (nextSlot c.pc) := by
  intro k a
  obtain ⟨w, hw, hd⟩ := hx.warp
  have ha : a = w.c := by
    show (t.settleEnd wi).core s.cur = w.c
    rw [(t.settleEnd_outlasts wi).core, State.core, hw]
  obtain ⟨hkeep, hrngc, hlanes, hstands⟩ := k.after_exit i c (s.openedFor i c)
    (fun pc => (s.openedFor i c).marked c.pi pc) ((s.openedFor i c).co.isNone && c.w.c.sel &&& c.split.lanes != 0)
  refine ⟨?_, ?_, fun lane hl => ?_⟩
  · rw [ha]
    have e := congrArg (fun x : WCore => { x with frontier := k.frontier, sel := k.sel, windows := k.windows, rngc := k.rngc })
      hd.core
    exact e.trans hkeep
  · rw [ha]
    exact (congrArg (fun x : WCore => x.rngc) hd.core).trans hrngc
  · rw [ha, (hd.stands lane _ (hstands lane hl)).pcOf, hd.lanes]
    have hh := hlanes lane
    rw [hl, has_lanesOf_apart hl, Bool.true_and, Bool.or_false] at hh
    refine (if_congr (Bool.eq_iff_iff.mp hh) rfl rfl).trans ?_
    cases c.active.has lane <;> rfl

/-- The registers of another warp after an EXIT. -/
theorem exit_others {i : Instr} {s t : State} {c : Ctx} (hx : Exited i c s t) {wi j : Nat} (hj : j ≠ s.cur) :
    { (t.settleEnd wi).core j with frontier := (s.core j).frontier, sel := (s.core j).sel } = s.core j := by
  obtain ⟨d, hd, hw⟩ := hx.others j hj
  rw [(t.settleEnd_outlasts wi).core]
  unfold State.core
  rw [hw]
  cases nth s.warps j with
  | none => rfl
  | some w => exact (hd w).core

/-- The warp whose last lanes exit has no live lane and no checkpoint open; it is otherwise the warp of the issue. -/
theorem exit_last {i : Instr} {s : State} {c : Ctx} (h : Issues i s c) (ha : c.active = c.split.lanes)
    (hl : c.w.live = c.split.lanes) (hh : c.w.handler = none) (hck : (c.openedIn i s).w.ckpts = []) {w : Warp}
    (hd : Departed (c.passed i (c.exits i s) (c.openedIn i s).w) w) :
    w.live = 0 ∧ w.ckpts = [] ∧ w.ended = c.w.ended ∧ w.gang = c.gi := by
  have hr := h.openedIn_rest
  have hhandler : w.handler = none := hd.handler ((congrArg (fun w : Warp => w.handler) hr).trans hh)
  refine ⟨Lanes.eq_of_has fun lane => ?_, hd.ckpts ?_, ?_, ?_⟩
  · have hlive : w.live = lanesOf w.c.frontier := by rw [Warp.live, hhandler]
    have hfrontier : (c.openedIn i s).w.c.frontier = c.w.c.frontier := by
      rw [h.openedIn_core]
      split <;> rfl
    obtain ⟨-, -, hlanes, -⟩ := (c.openedIn i s).w.c.after_exit i c (s.openedFor i c)
      (fun pc => (s.openedFor i c).marked c.pi pc) ((s.openedFor i c).co.isNone && c.w.c.sel &&& c.split.lanes != 0)
    rw [hlive, hd.lanes]
    refine (hlanes lane).trans ?_
    rw [ha, Bool.and_not_self, Bool.false_or, hfrontier, Lanes.has_zero, Bool.eq_false_iff, ne_eq, has_lanesOf_iff]
    rintro ⟨e, he, hlane⟩
    -- every entry's lanes are live, so they are the split's
    obtain ⟨hmem, hapart⟩ := List.mem_filter.mp he
    have hin : c.split.lanes.has lane = true := by
      rw [← hl, Warp.live, hh]
      exact has_lanesOf_iff.mpr ⟨e, hmem, hlane⟩
    rw [Lanes.has_of_and_zero (by simpa using hapart) hin] at hlane
    cases hlane
  · show modAt (c.openedIn i s).w.ckpts _ _ = []
    rw [hck]
    rfl
  · exact (congrArg (fun w : Warp => w.ended) hd.rest :).trans (congrArg (fun w : Warp => w.ended) hr :)
  · exact (congrArg (fun w : Warp => w.gang) hd.rest :).trans (congrArg (fun w : Warp => w.gang) hr :)

/-- The last EXIT of a warp ends it, and its gang is looked at. -/
theorem exit_ends {i : Instr} {s t : State} {c : Ctx} (h : Issues i s c) (hm : membersOf i = none) (hx : Exited i c s t)
    (ha : c.active = c.split.lanes) (hl : c.w.live = c.split.lanes) (hh : c.w.handler = none)
    (hck : (c.openedIn i s).w.ckpts = []) :
    ∃ die cell, t.settleEnd c.wi = (t.modWarp s.cur (·.atEnd die cell)).retire c.gi
      ∧ (nth (t.modWarp s.cur (·.atEnd die cell)).warps s.cur).map (·.ended) = some true := by
  obtain ⟨w, hw, hd⟩ := hx.warp
  obtain ⟨hlive, hckpts, hended, hgang⟩ := exit_last h ha hl hh hck hd
  obtain ⟨hrun, -⟩ := h.runs hm
  obtain ⟨die, cell, he⟩ := State.settleEnd_due (wi := c.wi) (h.wi ▸ hw) hlive hckpts (hended.trans hrun)
  refine ⟨die, cell, by rw [he, hgang, h.wi], ?_⟩
  rw [State.nth_modWarp_same, hw]
  rfl

/-- A gang whose other warps and whose operations have ended is done with its last warp. -/
theorem Exited.gangDone {i : Instr} {s t : State} {c : Ctx} (hx : Exited i c s t) {die cell : Nat}
    (hw : ∀ j w, j ≠ s.cur → nth s.warps j = some w → w.gang = c.gi → w.ended = true)
    (ho : ∀ o ∈ s.ops, o.gang = c.gi → o.phase = .done) (hm : ∀ m ∈ s.mops, m.gang ≠ c.gi) :
    (t.modWarp s.cur (·.atEnd die cell)).gangDone c.gi = true := by
  have hops : t.ops = s.ops := (congrArg (fun x : State => x.ops) hx.rest :)
  have hmops : t.mops = s.mops := (congrArg (fun x : State => x.mops) hx.rest :)
  refine State.gangDone_of (fun j w hj hg => ?_) (hops ▸ ho) (hmops ▸ hm)
  by_cases hc : j = s.cur
  · rw [hc, State.nth_modWarp_same] at hj
    obtain ⟨w', -, rfl⟩ := Option.map_eq_some_iff.mp hj
    rfl
  · obtain ⟨d, hd, hn⟩ := hx.others j hc
    rw [State.nth_modWarp_other _ _ _ _ hc, hn] at hj
    obtain ⟨w', hw', rfl⟩ := Option.map_eq_some_iff.mp hj
    have hgang := (congrArg (fun w : Warp => w.gang) (hd w').rest :)
    have hended := (congrArg (fun w : Warp => w.ended) (hd w').rest :)
    exact hended.trans (hw j w' hc hw' (hgang.symm.trans hg))

/-- The gang of the last warp retires, and the launch of the last gang ends. -/
theorem Exited.retires {i : Instr} {s t : State} {c : Ctx} (h : Issues i s c) (hm : membersOf i = none) (hx : Exited i c s t)
    (hst : c.g.started = true) {die cell : Nat} (hdone : (t.modWarp s.cur (·.atEnd die cell)).gangDone c.gi = true) :
    let u := (t.modWarp s.cur (·.atEnd die cell)).retire c.gi
    (∃ g, nth u.gangs c.gi = some g ∧ g.phase = .retired ∧ g.slots = [] ∧ g.tiles = [] ∧ g.vaults = [])
      ∧ ((∀ j g, j ≠ c.gi → nth s.gangs j = some g → g.launch = c.li → g.phase = .retired) →
          (nth u.launches c.li).map (fun l => (l.phase, l.code)) = some (.ending, 0)) := by
  intro u
  obtain ⟨-, hresident, hdispatched, hdying⟩ := h.runs hm
  obtain ⟨w0, -, -, -, -, hgi, hg, hl, -⟩ := State.contextFor_spec h.context
  set y := t.modWarp s.cur (·.atEnd die cell) with hy
  have hgang : nth y.gangs c.gi = some (c.g.ran c.wi) := by
    rw [hy, State.modWarp_gangs, hx.gangs, if_pos rfl, hgi, hg]
    rfl
  have hphase : (c.g.ran c.wi).phase ≠ .retired := by
    show c.g.phase ≠ .retired
    rw [hresident]
    decide
  have hu : u = (y.releaseGang c.gi).lastGang c.li :=
    (State.retire_due hgang hphase hst hdone :)
  obtain ⟨g, hn, hretired, hrest⟩ := State.releaseGang_gang hgang
  have hlaunch : nth (y.releaseGang c.gi).launches c.li = some c.l := by
    have hls : t.launches = s.launches := (congrArg (fun x : State => x.launches) hx.rest :)
    show nth t.launches c.li = some c.l
    rw [hls, hl]
  refine ⟨⟨g, ?_, hretired, hrest⟩, fun hothers => ?_⟩
  · have hgs := congrArg (fun x : State => x.gangs) ((y.releaseGang c.gi).lastGang_eq c.li)
    rw [hu, ← hn]
    exact congrArg (nth · c.gi) hgs
  · rw [hu]
    refine State.lastGang_ends hlaunch hdispatched hdying fun j g' hj hli => ?_
    by_cases hc : j = c.gi
    · rw [hc, hn] at hj
      cases hj
      exact hretired
    · rw [State.releaseGang_other _ hc, hy, State.modWarp_gangs, hx.gangs, if_neg hc] at hj
      exact hothers j g' hc hj hli

end Sys2Proof.Machine
end

section
/-! PROOFS. The statement about NOP, YIELD, TRST and EXIT, clause by clause. -/

namespace Sys2Proof.Claims

open Sys2Proof Sys2Proof.Machine

theorem nopAndYield : NopAndYield := by
  refine ⟨fun f s c h => ?_, fun f s c h => ?_⟩
  · obtain ⟨t, ht, m⟩ := registers_done h (fun s c => c.done s c.w.c []) _ [] rfl rfl
    exact ⟨t, (exec_nop h).trans ht, m.registerFrame h, m.sameRegs h ⟨rfl, rfl, rfl⟩, m.sameFlags h rfl⟩
  · obtain ⟨t, ht, m, hy⟩ := yield_done h
    exact ⟨t, ht, m.registerFrame h, m.sameRegs h ⟨rfl, rfl, rfl⟩, m.sameFlags h rfl, fun ha => hy.trans (if_neg ha),
      fun ha => hy.trans (if_pos ha)⟩

theorem yieldPassesOn : YieldPassesOn := by
  intro s w g l hissuer hco k hmask hyield hreplayed hsorted e he hsel hissues huniq others hwait picks
  have hres := WCore.resolve_yielded hyield he hsel hissues huniq fun x hx hne hi => hwait x ⟨hx, hne, hi⟩
  have hpick : picks ((nextReady (k.frontier.filter fun x => x.lanes != k.sel) e.pc).getD e) := by
    show s.picked = _
    rw [State.picked_resolve hissuer hco hmask hreplayed, hres]
    rfl
  have hothers : ∀ x, others x ↔ x ∈ k.frontier.filter (fun x => x.lanes != k.sel) ∧ x.issues = true := fun x => by
    rw [mem_others, and_assoc]
  cases hn : nextReady (k.frontier.filter fun x => x.lanes != k.sel) e.pc with
  | none =>
    have hnone : ∀ x, ¬others x := fun x hx => nextReady_none.mp hn x ((hothers x).mp hx).1 ((hothers x).mp hx).2
    rw [hn] at hpick
    exact ⟨fun _ => hpick, fun ⟨x, hx⟩ => absurd hx (hnone x)⟩
  | some x =>
    obtain ⟨hmem, hxi, habove, hlowest⟩ := nextReady_some (hsorted.filter _) hn
    rw [hn] at hpick
    have hx : others x := (hothers x).mpr ⟨hmem, hxi⟩
    refine ⟨fun hno => absurd hx (hno x), fun _ => ⟨x, hx, hpick, ?_, ?_⟩⟩
    · rintro ⟨y, hy, hlt⟩
      obtain ⟨hpc, hle⟩ := habove ⟨y, ((hothers y).mp hy).1, ((hothers y).mp hy).2, hlt⟩
      exact ⟨hpc, fun y hy => hle y ((hothers y).mp hy).1 ((hothers y).mp hy).2⟩
    · exact fun hall y hy => hlowest (fun y hy hi => hall y ((hothers y).mpr ⟨hy, hi⟩)) y ((hothers y).mp hy).1
        ((hothers y).mp hy).2

theorem trstClearsTaint : TrstClearsTaint := by
  intro f s c h
  have hk {α : Type} := (c.openedIn (.trst f) s).trst_field (α := α)
  obtain ⟨t, ht, m⟩ := registers_done h (fun s c => c.done s c.trst []) _ [] rfl rfl
  have hregs := And.intro (hk (·.v) fun _ _ _ => rfl) (And.intro (hk (·.k) fun _ _ _ => rfl) (hk (·.p) fun _ _ _ => rfl))
  refine ⟨t, (exec_trst h).trans ht, m.toOnlyWarp,
    m.issueFrame_of_regs h hregs ⟨hk (·.leqix) fun _ _ _ => rfl, hk (·.eqSeen) fun _ _ _ => rfl, hk (·.flags) fun _ _ _ => rfl⟩,
    m.counted h ⟨hk (·.rngc) fun _ _ _ => rfl, hk (·.rngk) fun _ _ _ => rfl, hk (·.mstat) fun _ _ _ => rfl⟩,
    m.sameRegs h hregs, m.sameFlags h (hk (·.flags) fun _ _ _ => rfl), m.next, ?_⟩
  have htaint : (t.core s.cur).taint = (c.openedIn (.trst f) s).trst.taint := (congrArg (fun x : WCore => x.taint) m.core :)
  have htovf : (t.core s.cur).tovf = (c.openedIn (.trst f) s).trst.tovf := (congrArg (fun x : WCore => x.tovf) m.core :)
  rw [h.trst_acts rfl] at htaint htovf
  rw [htaint, htovf]
  split
  · next ha =>
    rw [← ha]
    exact fun lane hl => ⟨by rw [WCore.clearTaint_get, if_pos hl], WCore.clearTaint_tovf _ _ _ hl⟩
  · exact fun lane => ⟨h.opened_taint lane, h.opened_field (·.tovf) fun _ _ _ _ _ => rfl⟩

theorem exitEndsLanes : ExitEndsLanes := by
  intro f s c h
  have hx := exit_exited h
  obtain ⟨hkeep, hrngc, hpc⟩ := exit_core hx (wi := c.wi)
  obtain ⟨rv, rk, rp⟩ := h.openedIn_regs
  refine ⟨_, exec_exit h, ⟨?_, ?_, ?_⟩, ⟨?_, ?_, ?_⟩,
    hx.storage.trans (State.settleEnd_outlasts _ c.wi).storage, fun j hj => ?_, hpc⟩
  · exact (congrArg (fun k : WCore => k.v) hkeep).trans rv
  · exact (congrArg (fun k : WCore => k.k) hkeep).trans rk
  · exact (congrArg (fun k : WCore => k.p) hkeep).trans rp
  · exact hrngc.trans (congrArg (· + 1) (h.opened_field (·.rngc) fun _ _ _ _ _ => rfl))
  · exact (congrArg (fun k : WCore => k.rngk) hkeep).trans (h.opened_field (·.rngk) fun _ _ _ _ _ => rfl)
  · exact (congrArg (fun k : WCore => k.mstat) hkeep).trans (h.opened_field (·.mstat) fun _ _ _ _ _ => rfl)
  · have hothers := exit_others hx (wi := c.wi) hj
    exact ⟨(congrArg (fun k : WCore => k.v) hothers :), (congrArg (fun k : WCore => k.k) hothers :),
      (congrArg (fun k : WCore => k.p) hothers :)⟩

theorem lastExitRetires : LastExitRetires := by
  intro f s c h ha hl hh hck
  have hx := exit_exited h
  obtain ⟨die, cell, he, hended⟩ := exit_ends h rfl hx ha hl hh hck
  obtain ⟨w, hw, hwe⟩ := Option.map_eq_some_iff.mp hended
  refine ⟨_, (exec_exit h).trans (congrArg _ he), ?_, fun hst hothers hops hmops => ?_⟩
  · obtain ⟨w', hw', -, hkeep⟩ := (State.retire_outlasts _ c.gi).warps s.cur w hw
    rw [hw']
    exact congrArg some (hkeep hwe)
  · exact hx.retires h rfl hst (hx.gangDone hothers hops hmops)

/-- Settles O7: an issue without an effect of its own leaves what every issue leaves; of an EXIT, what it leaves of the frontier table
outlasts the barriers that depart and the ends that it brings. -/
theorem nopYieldTrstAndExit : Obligations.NopYieldTrstAndExit :=
  ⟨nopAndYield, yieldPassesOn, trstClearsTaint, exitEndsLanes, lastExitRetires⟩

end Sys2Proof.Claims
end

section
/-! SUPPORT. The functions of R169 on natural numbers below 2^W are the operations on bit vectors of W bits. -/

namespace Sys2Proof.Machine

open Sys2Proof

/-! Shifts and rotation. -/

theorem shl_mod (w x n : Nat) : shl w x n % 2 ^ w = (BitVec.ofNat w x <<< n).toNat := by
  rw [BitVec.toNat_shiftLeft, BitVec.toNat_ofNat, Nat.shiftLeft_eq, Nat.mod_mul_mod, shl]
  split
  · next h => rw [Nat.zero_mod, Nat.mod_eq_zero_of_dvd ((Nat.pow_dvd_pow 2 h).mul_left x)]
  · exact Nat.mod_mod _ _

theorem shr_mod {w x : Nat} (hx : x < 2 ^ w) (n : Nat) : shr w x n % 2 ^ w = (BitVec.ofNat w x >>> n).toNat := by
  have hle : x / 2 ^ n ≤ x := Nat.div_le_self ..
  rw [BitVec.toNat_ushiftRight, BitVec.toNat_ofNat, Nat.mod_eq_of_lt hx, Nat.shiftRight_eq_div_pow, shr]
  split
  · next h => rw [Nat.zero_mod, Nat.div_eq_of_lt (hx.trans_le (Nat.pow_le_pow_right two_pos h))]
  · exact Nat.mod_eq_of_lt (by omega)

/-- A shift by W or more leaves of a W-bit number what a shift by W leaves. -/
theorem div_two_pow_min {w x : Nat} (hx : x < 2 ^ w) (n : Nat) : x / 2 ^ min n w = x / 2 ^ n := by
  rcases Nat.le_total n w with h | h
  · rw [Nat.min_eq_left h]
  · rw [Nat.min_eq_right h, Nat.div_eq_of_lt hx, Nat.div_eq_of_lt (hx.trans_le (Nat.pow_le_pow_right two_pos h))]

/-- Shifting in ones is shifting the complement and complementing: with a = 2^n and q = 2^(W−n). -/
theorem div_add_ones {a q x : Nat} (hx : x < a * q) : x / a + (a * q - q) = a * q - 1 - (a * q - 1 - x) / a := by
  have ha : 0 < a := Nat.pos_of_mul_pos_right (Nat.zero_lt_of_lt hx)
  have hlt : x / a < q := Nat.div_lt_of_lt_mul hx
  have hle : q ≤ a * q := Nat.le_mul_of_pos_left q ha
  have hc : (a * q - 1 - x) / a = q - (x / a + 1) := by
    rw [Nat.sub_sub, Nat.add_comm 1 x, Nat.mul_sub_div _ _ _ hx]
  rw [hc]
  generalize a * q = m at hle ⊢
  generalize x / a = d at hlt ⊢
  omega

/-- The sign bit that SAR shifts in. -/
theorem msb_ofNat {w x : Nat} (hx : x < 2 ^ w) : (BitVec.ofNat w x).msb = bit x (w - 1) := by
  rw [BitVec.msb_eq_getLsbD_last, BitVec.getLsbD_ofNat]
  by_cases hw : w = 0
  · subst hw
    simp [bit, show x = 0 by simpa using hx]
  · simp [bit, show w - 1 < w by omega]

theorem sar_mod {w x : Nat} (hx : x < 2 ^ w) (n : Nat) : sar w x n % 2 ^ w = ((BitVec.ofNat w x).sshiftRight n).toNat := by
  have hd := div_two_pow_min hx n
  have hpow : 2 ^ min n w * 2 ^ (w - min n w) = 2 ^ w := by rw [← Nat.pow_add, Nat.add_sub_cancel' (Nat.min_le_right ..)]
  have hc := div_add_ones (hpow.symm ▸ hx)
  rw [hpow] at hc
  have hcomp := div_two_pow_min (show 2 ^ w - 1 - x < 2 ^ w by omega) n
  have hsar : sar w x n = ((BitVec.ofNat w x).sshiftRight n).toNat := by
    rw [BitVec.toNat_sshiftRight, msb_ofNat hx, BitVec.toNat_ofNat, Nat.mod_eq_of_lt hx, Nat.shiftRight_eq_div_pow,
      Nat.shiftRight_eq_div_pow]
    show x / 2 ^ min n w + (if bit x (w - 1) = true then 2 ^ w - 2 ^ (w - min n w) else 0) = _
    split
    · rw [hc, hcomp]
    · rw [hd, Nat.add_zero]
  rw [hsar, BitVec.toNat_mod_cancel]

theorem rotl_mod {w x : Nat} (hw : 0 < w) (hx : x < 2 ^ w) (n : Nat) :
    rotl w x n % 2 ^ w = ((BitVec.ofNat w x).rotateLeft n).toNat := by
  have hr : n % w < w := Nat.mod_lt _ hw
  have hhigh : x / 2 ^ (w - n % w) < 2 ^ (n % w) :=
    Nat.div_lt_of_lt_mul (by rwa [← Nat.pow_add, Nat.sub_add_cancel hr.le])
  have hdisj : x * 2 ^ (n % w) + x / 2 ^ (w - n % w) = x <<< (n % w) ||| x >>> (w - n % w) := by
    rw [← Nat.shiftLeft_eq, Nat.shiftLeft_add_eq_or_of_lt hhigh, Nat.shiftRight_eq_div_pow]
  rw [rotl, Nat.mod_mod, hdisj, Nat.or_mod_two_pow, BitVec.rotateLeft_def, BitVec.toNat_or, BitVec.toNat_shiftLeft,
    BitVec.toNat_ushiftRight, BitVec.toNat_ofNat, Nat.mod_eq_of_lt hx, Nat.shiftRight_eq_div_pow,
    Nat.mod_eq_of_lt (lt_of_le_of_lt (Nat.div_le_self ..) hx)]

/-! Bit by bit. -/

theorem ofBits_succ (n : Nat) (f : Nat → Bool) : ofBits (n + 1) f = ofBits n f + (f n).toNat * 2 ^ n := by
  simp [ofBits, List.range_succ]

theorem ofBits_lt (n : Nat) (f : Nat → Bool) : ofBits n f < 2 ^ n := by
  induction n with
  | zero => exact Nat.one_pos
  | succ n ih =>
    have hb := Nat.mul_le_mul_right (2 ^ n) (Bool.toNat_le (f n))
    rw [ofBits_succ]
    omega

theorem testBit_ofBits (n : Nat) (f : Nat → Bool) (j : Nat) : (ofBits n f).testBit j = (decide (j < n) && f j) := by
  induction n with
  | zero => simp [ofBits]
  | succ n ih =>
    rw [ofBits_succ, Nat.add_comm, Nat.mul_comm, Nat.testBit_two_pow_mul_add _ (ofBits_lt n f)]
    rcases lt_trichotomy j n with h | rfl | h
    · simp [h, ih, Nat.lt_succ_of_lt h]
    · cases f j <;> simp
    · have hlt : (f n).toNat < 2 ^ (j - n) :=
        lt_of_le_of_lt (Bool.toNat_le _) (Nat.one_lt_two_pow (by omega))
      simp [Nat.testBit_lt_two_pow hlt, show ¬j < n by omega, show ¬j < n + 1 by omega]

theorem lnot_mod (w x : Nat) : lnot w x % 2 ^ w = (~~~(BitVec.ofNat w x)).toNat := by
  have hpos : 0 < 2 ^ w := Nat.two_pow_pos w
  rw [BitVec.toNat_not, BitVec.toNat_ofNat, lnot, Nat.mod_eq_of_lt (by omega)]

theorem reverseBits_mod (w x : Nat) : reverseBits w x % 2 ^ w = (BitVec.ofNat w x).reverse.toNat := by
  rw [reverseBits, Nat.mod_eq_of_lt (ofBits_lt ..)]
  apply Nat.eq_of_testBit_eq
  intro j
  rw [testBit_ofBits, BitVec.testBit_toNat, BitVec.getLsbD_reverse, BitVec.getMsbD, BitVec.getLsbD_ofNat]
  by_cases hj : j < w
  · simp [hj, bit, show w - 1 - j < w by omega]
  · simp [hj]

theorem logxOf_mod (w : Nat) (f g : BitVec 4) (x y z : Nat) :
    logxOf w f.toNat g.toNat x y z % 2 ^ w
      = ofBits w fun j => (if z.testBit j then g else f).getLsbD (2 * (y.testBit j).toNat + (x.testBit j).toNat) := by
  rw [logxOf, Nat.mod_eq_of_lt (ofBits_lt ..)]
  congr 1
  funext j
  rw [← BitVec.testBit_toNat, apply_ite BitVec.toNat]
  rfl

/-! Counts, which fit 32 bits whatever the width of a type. -/

theorem Ty.mod_of_le_width {t : Ty} {n : Nat} (h : n ≤ t.width) : n % 2 ^ 32 = n := by
  have hw := Ty.width_cases t
  exact Nat.mod_eq_of_lt (by omega)

theorem popcount_mod (t : Ty) (x : Nat) :
    popcount t.width x % 2 ^ 32 = (List.range t.width).countP fun j => x.testBit j := by
  rw [popcount, ← List.countP_eq_length_filter]
  exact Ty.mod_of_le_width (List.countP_le_length.trans_eq List.length_range)

theorem leadingZeros_mod (t : Ty) {x : Nat} (hx : x < 2 ^ t.width) :
    leadingZeros t.width x % 2 ^ 32 = if x = 0 then t.width else t.width - 1 - Nat.log2 x := by
  rw [leadingZeros, Ty.mod_of_le_width (Nat.sub_le ..), Nat.mod_eq_of_lt hx, bitLen]
  split
  · rfl
  · rw [Nat.add_comm, Nat.sub_sub]

end Sys2Proof.Machine
end

section
/-! SUPPORT. The bitwise instructions in one lemma for each form: what they compute rests on the values that their operands are
read as, and their immediates fit their widths (R149, R169). -/

namespace Sys2Proof.Claims

open Sys2Proof Sys2Proof.Machine

/-- A value that an operand is read as fits its width. -/
theorem valOf_lt (k : WCore) (o : Operand) (lane : Nat) {w : Nat} (hw : 0 < w) : valOf k o lane w < 2 ^ w := by
  cases o with
  | v r => exact Nat.mod_lt _ (Nat.two_pow_pos w)
  | k r => exact Nat.mod_lt _ (Nat.two_pow_pos w)
  | p inv r => exact lt_of_le_of_lt (Bool.toNat_le _) (Nat.one_lt_two_pow hw.ne')
  | sp x => exact Nat.two_pow_pos w

theorem width_pos (t : Ty) : 0 < t.width := by
  have h := Ty.width_cases t
  omega

theorem valOf_lt_width (k : WCore) (o : Operand) (lane : Nat) (t : Ty) : valOf k o lane t.width < 2 ^ t.width :=
  valOf_lt k o lane (width_pos t)

/-- The immediate of a logic instruction as the model reads it fits the type. -/
theorem immOf_lt {t : Ty} (ht : t ∈ lg) (imm : Word32) : immOf t imm < 2 ^ t.width := by
  simp only [lg, List.mem_cons, List.not_mem_nil, or_false] at ht
  rcases ht with rfl | rfl
  · exact Nat.mod_lt _ (Nat.two_pow_pos 32)
  · exact imm.isLt.trans (by decide)

/-- It is the bit vector of R149. -/
theorem immBv_eq {t : Ty} (ht : t ∈ lg) (imm : Word32) : immBv t imm = BitVec.ofNat t.width (immOf t imm) := by
  simp only [lg, List.mem_cons, List.not_mem_nil, or_false] at ht
  rcases ht with rfl | rfl
  · have hmod : immOf .n32 imm = imm.toNat := Nat.mod_eq_of_lt imm.isLt
    rw [hmod]
    exact BitVec.ofInt_natCast ..
  · exact BitVec.ofInt_natCast ..

/-- The type of a well-formed instruction is one that its row admits. -/
theorem check_ty {i : Instr} {r : Row} {v : View} (hc : i.check = none) (hr : i.row = some r) (hv : i.view = some v) :
    v.ty ∈ r.ty := by
  obtain ⟨-, -, -, -, -, hty, -⟩ := Row.check_places (Instr.check_row hc hr hv)
  exact hty

/-- A bitwise instruction computes its destination from its sources and raises no flag. -/
theorem bitwise_computes {i : Instr} {dst : Operand} {width : Nat} {srcs : List (Source × Nat)} {op : List Nat → Nat}
    (hx : ∀ s, exec i s = bitwise i s dst width srcs op) (hm : membersOf i = none)
    (hn : i.check = none → Machine.Names i dst width) :
    Computes i dst width (fun k u => op (srcs.map fun x => (k.src x.1 u x.2).1) % 2 ^ width)
      (fun k u => srcs.any fun x => (k.src x.1 u x.2).2) fun _ _ => 0 := by
  intro s c h _
  rw [hx, bitwise, h.issue hm]
  simpa using compute_done h dst width (hn h.check) srcs false (fun _ xs => (op xs, 0)) fun _ _ => BitVec.zero_and

/-- What is computed matters at the issues of a well-formed instruction only. -/
theorem Computes.congr_val {i : Instr} {dst : Operand} {width : Nat} {val val' : WCore → Nat → Nat} {tag : WCore → Nat → Bool}
    {flags : WCore → Nat → Flags} (h : Computes i dst width val tag flags)
    (hv : i.check = none → ∀ k lane, val k lane = val' k lane) : Computes i dst width val' tag flags := by
  intro s c hi ht
  obtain ⟨t, hx, hf, hl⟩ := h s c hi ht
  refine ⟨t, hx, hf, fun lane ha => ?_⟩
  rw [← hv hi.check]
  exact hl lane ha

/-- The register form of a bitwise instruction. -/
theorem bitwise_reg {i : Instr} {dst : Operand} {width : Nat} {srcs : List (Operand × Nat)} {op val : List Nat → Nat}
    (hx : ∀ s, exec i s = bitwise i s dst width (srcs.map fun x => (.op x.1, x.2)) op) (hm : membersOf i = none)
    (hn : i.check = none → Machine.Names i dst width)
    (hv : ∀ k lane, op (srcs.map fun x => valOf k x.1 lane x.2) % 2 ^ width = val (srcs.map fun x => valOf k x.1 lane x.2)) :
    ComputesFrom i dst width srcs val fun _ => 0 := by
  have h := bitwise_computes hx hm hn
  simp only [List.map_map, List.any_map, Function.comp_def] at h
  exact Computes.congr_val h fun _ => hv

/-- The immediate form: the immediate, which fits its width, is the last source, and its tag is S. -/
theorem bitwise_imm {i : Instr} {dst a : Operand} {width w n m : Nat} {op val : List Nat → Nat}
    (hx : ∀ s, exec i s = bitwise i s dst width [(.op a, w), (.imm n, m)] op) (hm : membersOf i = none)
    (hn : i.check = none → Machine.Names i dst width) (hfits : i.check = none → n < 2 ^ m)
    (hv : i.check = none → ∀ k lane, op [valOf k a lane w, n] % 2 ^ width = val [valOf k a lane w]) :
    ComputesFrom i dst width [(a, w)] val fun _ => 0 := by
  refine (bitwise_computes hx hm hn).congr_val fun hc k lane => ?_
  simp only [List.map_cons, List.map_nil, WCore.src, Nat.mod_eq_of_lt (hfits hc)]
  exact hv hc k lane

/-- AND, OR and XOR with an immediate: the operation g on natural numbers is G on bit vectors. -/
theorem logic_imm {i : Instr} {dst a : Operand} {t : Ty} {imm : Word32} (g : Nat → Nat → Nat)
    (G : BitVec t.width → BitVec t.width → BitVec t.width)
    (hx : ∀ s, exec i s = bitwise i s dst t.width [(.op a, t.width), (.imm (immOf t imm), t.width)] fun xs =>
      g (natAt xs 0) (natAt xs 1))
    (hm : membersOf i = none) (hn : i.check = none → Machine.Names i dst t.width) (hty : i.check = none → t ∈ lg)
    (hg : ∀ x n, g x n % 2 ^ t.width = (G (BitVec.ofNat t.width x) (BitVec.ofNat t.width n)).toNat) :
    ComputesFrom i dst t.width [(a, t.width)] (fun xs => (G (bv t.width xs 0) (immBv t imm)).toNat) fun _ => 0 := by
  refine bitwise_imm hx hm hn (fun hc => immOf_lt (hty hc) imm) fun hc k lane => ?_
  rw [immBv_eq (hty hc)]
  exact hg (valOf k a lane t.width) (immOf t imm)

end Sys2Proof.Claims
end

section
/-! PROOFS. The statement about logic, shifts and bits. -/

namespace Sys2Proof.Claims

open Sys2Proof Sys2Proof.Machine

theorem xor_computesFrom (f : RegForm) : ComputesFrom (.xor f) f.dst f.ty.width [(f.a, f.ty.width), (f.b, f.ty.width)]
    (fun xs => (bv f.ty.width xs 0 ^^^ bv f.ty.width xs 1).toNat) fun _ => 0 :=
  bitwise_reg (fun _ => rfl) rfl (fun hc => Names.of_row hc rfl rfl rfl) fun _ _ => Nat.xor_mod_two_pow

/-- Settles O2: each of the instructions is a bitwise one, and its function of natural numbers is the bit vectors' operation. -/
theorem logicAndBits : Obligations.LogicAndBits := by
  refine ⟨fun f s c h => ?_, fun f => ?_, fun f => ?_, fun f => ?_, fun f => ?_, fun f => ?_, fun f => ?_, fun f => ?_,
    fun f => ?_⟩
  -- XOR completes wherever it issues: it raises no flag.
  · obtain ⟨t, hx, hf, hl⟩ := xor_computesFrom f s c h fun _ _ => BitVec.zero_and
    refine ⟨t, hx, hf, fun lane ha => (hl lane ha).1.trans ?_⟩
    simp only [List.any_cons, List.any_nil, Bool.or_false]
    rfl
  -- AND, OR, XOR.
  · simp only [List.forall_mem_cons]
    refine ⟨?_, ?_, xor_computesFrom f, List.forall_mem_nil _⟩
    · exact bitwise_reg (fun _ => rfl) rfl (fun hc => Names.of_row hc rfl rfl rfl) fun _ _ => Nat.and_mod_two_pow
    · exact bitwise_reg (fun _ => rfl) rfl (fun hc => Names.of_row hc rfl rfl rfl) fun _ _ => Nat.or_mod_two_pow
  -- The immediate forms.
  · simp only [List.forall_mem_cons]
    refine ⟨?_, ?_, ?_, ?_, ?_, ?_, ?_, List.forall_mem_nil _⟩
    · exact logic_imm (· &&& ·) (· &&& ·) (fun _ => rfl) rfl (fun hc => Names.of_row hc rfl rfl rfl)
        (fun hc => check_ty hc rfl rfl) fun _ _ => Nat.and_mod_two_pow
    · exact logic_imm (· ||| ·) (· ||| ·) (fun _ => rfl) rfl (fun hc => Names.of_row hc rfl rfl rfl)
        (fun hc => check_ty hc rfl rfl) fun _ _ => Nat.or_mod_two_pow
    · exact logic_imm (· ^^^ ·) (· ^^^ ·) (fun _ => rfl) rfl (fun hc => Names.of_row hc rfl rfl rfl)
        (fun hc => check_ty hc rfl rfl) fun _ _ => Nat.xor_mod_two_pow
    · exact bitwise_imm (fun _ => rfl) rfl (fun hc => Names.of_row hc rfl rfl rfl) (fun _ => f.imm.isLt) fun _ _ _ => shl_mod ..
    · exact bitwise_imm (fun _ => rfl) rfl (fun hc => Names.of_row hc rfl rfl rfl) (fun _ => f.imm.isLt) fun _ _ _ =>
        shr_mod (valOf_lt_width ..) _
    · exact bitwise_imm (fun _ => rfl) rfl (fun hc => Names.of_row hc rfl rfl rfl) (fun _ => f.imm.isLt) fun _ _ _ =>
        sar_mod (valOf_lt_width ..) _
    · exact bitwise_imm (fun _ => rfl) rfl (fun hc => Names.of_row hc rfl rfl rfl) (fun _ => f.imm.isLt) fun _ _ _ =>
        rotl_mod (width_pos _) (valOf_lt_width ..) _
  -- The shifts and the rotation.
  · simp only [List.forall_mem_cons]
    refine ⟨?_, ?_, ?_, ?_, List.forall_mem_nil _⟩
    · exact bitwise_reg (fun _ => rfl) rfl (fun hc => Names.of_row hc rfl rfl rfl) fun _ _ => shl_mod ..
    · exact bitwise_reg (fun _ => rfl) rfl (fun hc => Names.of_row hc rfl rfl rfl) fun _ _ => shr_mod (valOf_lt_width ..) _
    · exact bitwise_reg (fun _ => rfl) rfl (fun hc => Names.of_row hc rfl rfl rfl) fun _ _ => sar_mod (valOf_lt_width ..) _
    · exact bitwise_reg (fun _ => rfl) rfl (fun hc => Names.of_row hc rfl rfl rfl) fun _ _ =>
        rotl_mod (width_pos _) (valOf_lt_width ..) _
  -- NOT, BREV, POPC, CLZ, LOGX.
  · exact bitwise_reg (fun _ => rfl) rfl (fun hc => Names.of_row hc rfl rfl rfl) fun _ _ => lnot_mod ..
  · exact bitwise_reg (fun _ => rfl) rfl (fun hc => Names.of_row hc rfl rfl rfl) fun _ _ => reverseBits_mod ..
  · exact bitwise_reg (fun _ => rfl) rfl (fun hc => Names.of_row hc rfl rfl rfl) fun _ _ => popcount_mod ..
  · exact bitwise_reg (fun _ => rfl) rfl (fun hc => Names.of_row hc rfl rfl rfl) fun _ _ => leadingZeros_mod _ (valOf_lt_width ..)
  · exact bitwise_reg (fun _ => rfl) rfl (fun hc => Names.of_row hc rfl rfl rfl) fun _ _ => logxOf_mod ..

end Sys2Proof.Claims
end
